-- ==== Sys2Proof/Word.lean ====
section
/-!
DEFINITION. The words of the FFTC: 32-bit command words and integer registers (10_state R22, 30_encoding R90),
64-bit register and signal words (10_state R20, 20_memory R61), binary64 values as their 64 bits (20_memory R65),
and complex samples as ordered pairs (00_scope R9).
-/

namespace Sys2Proof

/-- A byte of the host's own storage (20_memory R65). -/
abbrev Byte := BitVec 8

/-- A command word or an integer register (30_encoding R90, 10_state R22). -/
abbrev Word32 := BitVec 32

/-- A 64-bit register or signal-memory word (10_state R20, 20_memory R61). -/
abbrev Word64 := BitVec 64

/-- An IEEE 754 binary64 value as its 64 bits: sign 63, exponent [62:52], fraction [51:0] (20_memory R65). -/
abbrev F64 := BitVec 64

/-- A complex sample over the scalars `F`: "an ordered pair (real, imaginary)" (00_scope R9). -/
structure Cx (F : Type) where
  re : F
  im : F
deriving DecidableEq, Repr

end Sys2Proof
end

