-- ==== Sys2Proof/Config.lean ====
section
/-!
DEFINITION. What an implementation of the FFTC fixes (00_scope R5) and the free values the spec leaves open.
The parameters that are data form the record `Params`; the functions and the hardware's own values are opaque
constants without a body, so nothing about them can be proved (log entries 1, 2, 3, 8).
-/

namespace Sys2Proof

/-- The order in which the host stores the bytes of a 64-bit word (20_memory R65, parameter `HOST_ENDIAN`). -/
inductive Endian where
  | little
  | big
deriving DecidableEq, Repr

/-- The OPEN parameters of 00_scope R5 that are plain data. A state carries one such record and no step writes it. -/
structure Params where
  /-- `WS_CAPACITY`: workspace capacity in complex elements. -/
  wsCapacity : Nat
  /-- `SIG_WORDS`: size of the signal memory in 64-bit words. -/
  sigWords : Nat
  /-- `ALLOC_NONDET`: whether an allocation within capacity may fail (43_driver R201). -/
  allocNondet : Bool
  /-- `HOST_ENDIAN`: the host's byte order (20_memory R65). -/
  hostEndian : Endian
  /-- `PI64`: the binary64 constant used for pi (40_complex_alu R129). -/
  pi64 : F64
  /-- The bits from which `NAN_RESULT` is taken (`Machine.nanResult`, log entry 3). -/
  nanBits : F64
deriving DecidableEq, Repr

/-- The bounds the spec puts on the parameters: `SIG_WORDS` is at most 2^32 (00_scope R5), and `WS_CAPACITY` fits the
64-bit register that shows it zero-extended (10_state R40). -/
def Params.wf (p : Params) : Bool :=
  decide (p.sigWords ≤ 2 ^ 32) && decide (p.wsCapacity < 2 ^ 64)

/-- `N_MAX` = 2^29, the largest transform length (00_scope R5, decision D18). -/
def nMax : Nat := 2 ^ 29

namespace Config

/-- The hardware's `WS_CAPACITY`: OPEN (00_scope R5). -/
opaque hwWsCapacity : Word64

/-- The hardware's `SIG_WORDS`: OPEN, at most 2^32 (00_scope R5). -/
opaque hwSigWords : Fin (2 ^ 32 + 1)

/-- Whether the hardware's host is big-endian: OPEN (00_scope R5). -/
opaque hwBigEndian : Bool

/-- The hardware's `PI64`: OPEN (00_scope R5). -/
opaque hwPi64 : F64

/-- The bits from which the hardware's `NAN_RESULT` is taken: OPEN (00_scope R5). -/
opaque hwNanBits : F64

/-- The parameters of the hardware the model describes; `ALLOC_NONDET` is false, "the hardware value" (00_scope R5). -/
def hardware : Params where
  wsCapacity := hwWsCapacity.toNat
  sigWords := hwSigWords.val
  allocNondet := false
  hostEndian := if hwBigEndian then .big else .little
  pi64 := hwPi64
  nanBits := hwNanBits

/-- An arbitrary function from which `COS` is taken (00_scope R12; `Machine.fcos` gives it the properties of 40 R127). -/
opaque rawCos : F64 → F64

/-- An arbitrary function from which `SIN` is taken (00_scope R12; `Machine.fsin`). -/
opaque rawSin : F64 → F64

/-- An arbitrary function from which `EXP` is taken (00_scope R12; `Machine.fexp`). -/
opaque rawExp : F64 → F64

/-- The n-th free 64-bit word: what a host read of a running command's buffer returns (70_reset R305), and what a word
of that buffer holds after a reset during the command (70_reset R291). -/
opaque freeWord : Nat → Word64

/-- The n-th free draw of an allocation's outcome under `ALLOC_NONDET` (43_driver R201). -/
opaque freeAlloc : Nat → Bool

end Config

end Sys2Proof
end

