-- ==== Sys2Proof/Syntax.lean ====
section
/-!
DEFINITION. The commands of the FFTC, one constructor per row of spec/opcode_table.json (30_encoding R98), with the
operand fields a command word carries (30_encoding R91, R95): a direction, a plan, a data space.
-/

namespace Sys2Proof

/-- The direction bit DIR (00_scope R15): forward is DIR = 0 and sign -1, inverse is DIR = 1 and sign +1. -/
inductive Dir where
  | forward
  | inverse
deriving DecidableEq, Repr

/-- The two memory spaces of the engine (20_memory R60), which are also the two values of DSP (30_encoding R94). -/
inductive Space where
  | sig
  | ws
deriving DecidableEq, Repr

/-- The plan of an FFT2 command: the "independently-selectable stages" (30_encoding R93). -/
structure Plan where
  /-- BR: bit-reversal permutation. -/
  br : Bool
  /-- TW: twiddle generation. -/
  tw : Bool
  /-- BF: butterfly network. -/
  bf : Bool
  /-- NM: normalisation. -/
  nm : Bool
deriving DecidableEq, Repr

/-- A command of the FFTC (30_encoding R98). -/
inductive Instr where
  | fft (dir : Dir)
  | rfft (dir : Dir)
  | wsalloc
  | wsfree
  | fft2 (dir : Dir) (plan : Plan) (dsp : Space)
  | czt (dir : Dir)
  | chirp (dir : Dir)
  | chirpmul
  | kernel
  | pmul
  | recover
  | normn
  | rmix (dir : Dir)
  | cadd
  | csub
  | cmul
  | cdiv
  | cexp
  | cconj
deriving DecidableEq, Repr

end Sys2Proof
end

