-- ==== Sys2Proof/WellFormed.lean ====
section
/-!
DEFINITION. Which commands can be encoded: every field is a plain bit field (30_encoding R95), and the one condition
over fields is the combination rule of 30_encoding R96.
-/

namespace Sys2Proof

/-- 30_encoding R96: NM = 1 with DIR = 0 is illegal. -/
def Plan.legal (p : Plan) (dir : Dir) : Bool :=
  !(p.nm && dir == .forward)

/-- The commands that have an encoding. -/
def Instr.wf : Instr → Bool
  | .fft2 dir plan _ => plan.legal dir
  | .fft _ => true
  | .rfft _ => true
  | .wsalloc => true
  | .wsfree => true
  | .czt _ => true
  | .chirp _ => true
  | .chirpmul => true
  | .kernel => true
  | .pmul => true
  | .recover => true
  | .normn => true
  | .rmix _ => true
  | .cadd => true
  | .csub => true
  | .cmul => true
  | .cdiv => true
  | .cexp => true
  | .cconj => true

end Sys2Proof
end

