-- ==== Sys2Proof/Decode.lean ====
section
/-!
DEFINITION. The decoder of command words (30_encoding R100), total on every 32-bit word and rejecting by name, the
encoder written from the field table (30_encoding R91, R98), and the match-and-mask table of 30_encoding R99.
-/

namespace Sys2Proof

/-- Why a command word is illegal (30_encoding R97). The hardware reports ILLEGAL_CMD for each. -/
inductive DecodeError where
  /-- OP is not an opcode of 30_encoding R98. -/
  | unassignedOpcode
  /-- A bit that the format requires to be 0 is 1. -/
  | mustBeZero
  /-- ZA, the dropped zero-out-the-aux option, is 1. -/
  | zeroAux
  /-- DSP is 10 or 11. -/
  | reservedSpace
  /-- NM = 1 with DIR = 0 (30_encoding R96). -/
  | normForward
deriving DecidableEq, Repr

/-- Bit `i` of a word as DIR (00_scope R15). -/
def dirOfBit (b : Bool) : Dir :=
  if b then .inverse else .forward

/-- Format S: bits [31:8] are zero (30_encoding R92). -/
def decodeS (v : Word32) (i : Instr) : Except DecodeError Instr :=
  if v.extractLsb' 8 24 = 0 then .ok i else .error .mustBeZero

/-- Format D: bits [31:9] are zero and DIR is bit 8 (30_encoding R92). -/
def decodeD (v : Word32) (i : Dir → Instr) : Except DecodeError Instr :=
  if v.extractLsb' 9 23 = 0 then .ok (i (dirOfBit (v.getLsbD 8))) else .error .mustBeZero

/-- The plan bits of a format P word (30_encoding R91). -/
def planOf (v : Word32) : Plan where
  br := v.getLsbD 9
  tw := v.getLsbD 10
  bf := v.getLsbD 11
  nm := v.getLsbD 12

/-- Format P: bits [31:16], ZA and DSP's high bit are zero, and 30_encoding R96 holds (30_encoding R92, R100). -/
def decodeP (v : Word32) : Except DecodeError Instr :=
  let dir := dirOfBit (v.getLsbD 8)
  if v.extractLsb' 16 16 ≠ 0 then .error .mustBeZero
  else if v.getLsbD 13 then .error .zeroAux
  else if v.getLsbD 15 then .error .reservedSpace
  else if (planOf v).legal dir then .ok (.fft2 dir (planOf v) (if v.getLsbD 14 then .ws else .sig))
  else .error .normForward

/-- Decode a command word (30_encoding R100). -/
def decode (v : Word32) : Except DecodeError Instr :=
  match v.extractLsb' 0 8 with
  | 0x01#8 => decodeD v .fft
  | 0x02#8 => decodeD v .rfft
  | 0x10#8 => decodeS v .wsalloc
  | 0x11#8 => decodeS v .wsfree
  | 0x20#8 => decodeP v
  | 0x30#8 => decodeD v .czt
  | 0x31#8 => decodeD v .chirp
  | 0x32#8 => decodeS v .chirpmul
  | 0x33#8 => decodeS v .kernel
  | 0x34#8 => decodeS v .pmul
  | 0x35#8 => decodeS v .recover
  | 0x36#8 => decodeS v .normn
  | 0x40#8 => decodeD v .rmix
  | 0x50#8 => decodeS v .cadd
  | 0x51#8 => decodeS v .csub
  | 0x52#8 => decodeS v .cmul
  | 0x53#8 => decodeS v .cdiv
  | 0x54#8 => decodeS v .cexp
  | 0x55#8 => decodeS v .cconj
  | _ => .error .unassignedOpcode

/-- The opcode byte of a command (30_encoding R98). -/
def Instr.opcode : Instr → BitVec 8
  | .fft _ => 0x01
  | .rfft _ => 0x02
  | .wsalloc => 0x10
  | .wsfree => 0x11
  | .fft2 _ _ _ => 0x20
  | .czt _ => 0x30
  | .chirp _ => 0x31
  | .chirpmul => 0x32
  | .kernel => 0x33
  | .pmul => 0x34
  | .recover => 0x35
  | .normn => 0x36
  | .rmix _ => 0x40
  | .cadd => 0x50
  | .csub => 0x51
  | .cmul => 0x52
  | .cdiv => 0x53
  | .cexp => 0x54
  | .cconj => 0x55

/-- The bit DIR of a direction (00_scope R15). -/
def Dir.bit : Dir → BitVec 1
  | .forward => 0
  | .inverse => 1

/-- The two bits DSP of a data space (30_encoding R94). -/
def Space.bits : Space → BitVec 2
  | .sig => 0b00
  | .ws => 0b01

/-- Bits [31:8] of a command word, from the format patterns of 30_encoding R92. -/
def Instr.upper : Instr → BitVec 24
  | .fft dir | .rfft dir | .czt dir | .chirp dir | .rmix dir => 0#23 ++ dir.bit
  | .fft2 dir plan dsp =>
      0#16 ++ dsp.bits ++ 0#1 ++ BitVec.ofBool plan.nm ++ BitVec.ofBool plan.bf ++ BitVec.ofBool plan.tw
        ++ BitVec.ofBool plan.br ++ dir.bit
  | .wsalloc | .wsfree | .chirpmul | .kernel | .pmul | .recover | .normn => 0
  | .cadd | .csub | .cmul | .cdiv | .cexp | .cconj => 0

/-- The word of a command (30_encoding R91, R98). -/
def encode (i : Instr) : Word32 :=
  i.upper ++ i.opcode

/-- A row of 30_encoding R99: a word `v` selects the row when `v &&& mask = pattern`. -/
structure MaskRow where
  mask : Word32
  pattern : Word32
deriving DecidableEq, Repr

/-- A row of format S. -/
def MaskRow.s (op : Word32) : MaskRow := ⟨0xFFFFFFFF, op⟩

/-- A row of format D. -/
def MaskRow.d (op : Word32) : MaskRow := ⟨0xFFFFFEFF, op⟩

/-- The rows of 30_encoding R98 with the masks of 30_encoding R99. -/
def maskTable : List MaskRow :=
  [.d 0x01, .d 0x02, .s 0x10, .s 0x11, ⟨0xFFFFA0FF, 0x20⟩, .d 0x30, .d 0x31, .s 0x32, .s 0x33, .s 0x34, .s 0x35,
   .s 0x36, .d 0x40, .s 0x50, .s 0x51, .s 0x52, .s 0x53, .s 0x54, .s 0x55]

/-- Whether a word selects a row (30_encoding R99). -/
def MaskRow.selects (r : MaskRow) (v : Word32) : Bool :=
  v &&& r.mask == r.pattern

/-- The words 30_encoding R99 calls legal: they match a row and do not fail 30_encoding R96. -/
def legalByMask (v : Word32) : Bool :=
  maskTable.any (·.selects v) && !(v.extractLsb' 0 8 == 0x20#8 && v.getLsbD 12 && !v.getLsbD 8)

/-- The command the decoder reads from an instruction of `nbits` bits numbered as spec/opcode_table.json numbers them.
A command is one 32-bit word written whole to CMD (30_encoding R90), so the word is its low 32 bits. -/
def decodeTableWord (nbits w : Nat) : Option Instr :=
  if nbits ≤ 32 then (decode (BitVec.ofNat 32 (w % 2 ^ nbits))).toOption else none

end Sys2Proof
end

