-- ==== Sys2Proof/Machine/Binary64.lean ====
section
/-!
DEFINITION. IEEE 754 binary64 arithmetic on bits (00_scope R10): round to nearest, ties to even; subnormals produced and
consumed; every operation rounded separately; no flags; a NaN result is `NAN_RESULT`. Every finite value is an integer
number of units of 2^-1074, so each operation is computed exactly on integers and narrowed once by `roundUnits`.
Also the transcendental parameters of 00_scope R12 with the properties of 40_complex_alu R127.
-/

namespace Sys2Proof.Machine

/-- The sign bit (20_memory R65). -/
def fSign (a : F64) : Bool := a.getLsbD 63

/-- The biased exponent, bits [62:52] (20_memory R65). -/
def fExp (a : F64) : Nat := (a.extractLsb' 52 11).toNat

/-- The fraction, bits [51:0] (20_memory R65). -/
def fFrac (a : F64) : Nat := (a.extractLsb' 0 52).toNat

def fIsNaN (a : F64) : Bool := fExp a == 2047 && fFrac a != 0

def fIsInf (a : F64) : Bool := fExp a == 2047 && fFrac a == 0

def fIsFinite (a : F64) : Bool := fExp a != 2047

def fIsZero (a : F64) : Bool := fExp a == 0 && fFrac a == 0

/-- The magnitude of a finite value in units of 2^-1074. -/
def fMag (a : F64) : Nat :=
  if fExp a = 0 then fFrac a else (2 ^ 52 + fFrac a) * 2 ^ (fExp a - 1)

/-- A finite value in units of 2^-1074. -/
def fUnits (a : F64) : Int :=
  if fSign a then -(fMag a : Int) else (fMag a : Int)

/-- How many units of 2^-1074 make 1. -/
def unitScale : Nat := 2 ^ 1074

/-- The bits of positive infinity, without the sign. -/
def infMag : Nat := 0x7FF0000000000000

/-- +0. -/
def fZero : F64 := 0x0000000000000000

/-- 1. -/
def fOne : F64 := 0x3FF0000000000000

/-- 1/2. -/
def fHalfConst : F64 := 0x3FE0000000000000

/-- A value from its sign and the 63 bits below it. -/
def fPack (sign : Bool) (mag : Nat) : F64 :=
  BitVec.ofBool sign ++ BitVec.ofNat 63 mag

/-- The integer nearest to `n / d`, ties to even. -/
def roundHalfEven (n d : Nat) : Nat :=
  let q := n / d
  let r := n % d
  if d < 2 * r ∨ (2 * r = d ∧ q % 2 = 1) then q + 1 else q

/-- The binary64 of the given sign nearest to `n / d` units of 2^-1074, ties to even, infinity on overflow
(00_scope R10). The quotient is scaled so that the integer rounded has 53 bits (fewer when subnormal); the carry out of
the fraction runs into the exponent field by addition. -/
def roundUnits (sign : Bool) (n d : Nat) : F64 :=
  let shift := Nat.log2 (n / d) - 52
  fPack sign (min (shift * 2 ^ 52 + roundHalfEven n (d * 2 ^ shift)) infMag)

/-- `NAN_RESULT`: any NaN (00_scope R5, R10). Bits that are no NaN stand for the quiet NaN 0x7FF8000000000000, so that
`nanResult` ranges over exactly the NaNs as the parameter ranges over all bits (log entry 3). -/
def nanResult (p : Params) : F64 :=
  if fIsNaN p.nanBits then p.nanBits else 0x7FF8000000000000

/-- Negation flips the sign bit only (00_scope R10). -/
def fneg (a : F64) : F64 := a ^^^ 0x8000000000000000

/-- Addition (00_scope R10); an exact zero sum of values that are not both negative zeros is +0. -/
def fadd (p : Params) (a b : F64) : F64 :=
  if fIsNaN a || fIsNaN b then nanResult p
  else if fIsInf a then (if fIsInf b && fSign a != fSign b then nanResult p else a)
  else if fIsInf b then b
  else
    let z := fUnits a + fUnits b
    if z = 0 then fPack (fSign a && fSign b) 0 else roundUnits (decide (z < 0)) z.natAbs 1

/-- Subtraction (00_scope R10). -/
def fsub (p : Params) (a b : F64) : F64 := fadd p a (fneg b)

/-- Multiplication (00_scope R10); infinity times zero is a NaN. -/
def fmul (p : Params) (a b : F64) : F64 :=
  let sign := fSign a != fSign b
  if fIsNaN a || fIsNaN b then nanResult p
  else if fIsInf a || fIsInf b then (if fIsZero a || fIsZero b then nanResult p else fPack sign infMag)
  else roundUnits sign (fMag a * fMag b) unitScale

/-- Division (00_scope R10): 0/0 and infinity/infinity are NaNs, a nonzero value over zero is an infinity. -/
def fdiv (p : Params) (a b : F64) : F64 :=
  let sign := fSign a != fSign b
  if fIsNaN a || fIsNaN b then nanResult p
  else if fIsInf a then (if fIsInf b then nanResult p else fPack sign infMag)
  else if fIsInf b then fPack sign 0
  else if fIsZero b then (if fIsZero a then nanResult p else fPack sign infMag)
  else roundUnits sign (fMag a * unitScale) (fMag b)

/-- `half(a) = a * 0.5` (00_scope R10). -/
def fhalf (p : Params) (a : F64) : F64 := fmul p a fHalfConst

/-- `real(n)`: a natural number as a binary64, rounded to nearest even (00_scope R10). -/
def freal (n : Nat) : F64 := roundUnits false (n * unitScale) 1

/-- Finite and in [-1, 1]. -/
def fInUnit (a : F64) : Bool := decide (a.toNat % 2 ^ 63 ≤ 0x3FF0000000000000)

/-- A value kept in [-1, 1]: a value outside stands for +0, so that the results range over exactly the values P-BOUND
allows (40_complex_alu R127, log entry 2). -/
def fBound (a : F64) : F64 := if fInUnit a then a else fZero

/-- `COS`, an arbitrary function with P-COS0 and P-BOUND (00_scope R12, 40_complex_alu R127). -/
def fcos (x : F64) : F64 :=
  if fIsZero x then fOne else if fIsFinite x then fBound (Config.rawCos x) else Config.rawCos x

/-- `SIN`, an arbitrary function with P-SIN0 and P-BOUND (00_scope R12, 40_complex_alu R127). -/
def fsin (x : F64) : F64 :=
  if fIsZero x then x else if fIsFinite x then fBound (Config.rawSin x) else Config.rawSin x

/-- `EXP`, an arbitrary function with P-EXP0 (00_scope R12, 40_complex_alu R127). -/
def fexp (x : F64) : F64 :=
  if fIsZero x then fOne else Config.rawExp x

end Sys2Proof.Machine
end

