-- ==== Sys2Proof/Machine/Num.lean ====
section
/-!
DEFINITION. The numeric domain `Num` (00_scope R9): "rules are written once over Num". Every stage of the engine is
written over a record of scalar operations; the machine runs it at binary64 (`b64`), and Machine/Exact.lean gives the
reference instantiation over the real numbers. Also the complex functions of 00_scope R11 and 40_complex_alu R120 to
R125, and the CIS generator of 40_complex_alu R128, R129.
-/

namespace Sys2Proof.Machine

/-- A model fault (60_exceptions R267): the model's record that a rule has no defined result. -/
inductive ModelFault where
  /-- A read of a SIG word or of a WS component that holds no value. -/
  | uninit (space : Space) (index : Nat)
  /-- Under `Exact`, a division by zero; binary64 division never raises it. -/
  | exactDiv0
deriving DecidableEq, Repr

/-- The scalar operations of 00_scope R10 and the transcendental parameters of 00_scope R12 over a domain `F`. -/
structure Scalar (F : Type) where
  add : F → F → F
  sub : F → F → F
  mul : F → F → F
  /-- Division; `none` where the domain has no quotient (`Exact`, division by zero). -/
  div : F → F → Option F
  neg : F → F
  half : F → F
  real : Nat → F
  /-- +0, the value of the padding (42_bluestein R172, R173). -/
  zero : F
  cos : F → F
  sin : F → F
  exp : F → F

/-- A numeric instantiation (00_scope R9): scalar operations and the CIS generator `CIS(s, n, d)` (40_complex_alu R128),
whose sign is given by a direction (00_scope R15). -/
structure Num (F : Type) extends Scalar F where
  cis : Dir → Nat → Nat → Cx F

section Complex

variable {F : Type} (num : Scalar F)

/-- 40_complex_alu R120. -/
def cadd (a b : Cx F) : Cx F := ⟨num.add a.re b.re, num.add a.im b.im⟩

/-- 40_complex_alu R121. -/
def csub (a b : Cx F) : Cx F := ⟨num.sub a.re b.re, num.sub a.im b.im⟩

/-- 40_complex_alu R122: the four-multiply form, each operation rounded. -/
def cmul (a b : Cx F) : Cx F where
  re := num.sub (num.mul a.re b.re) (num.mul a.im b.im)
  im := num.add (num.mul a.re b.im) (num.mul a.im b.re)

/-- Scalar division; no quotient is the model fault `EXACT_DIV0` (00_scope R10). -/
def sdiv (a b : F) : Except ModelFault F :=
  match num.div a b with
  | some q => .ok q
  | none => .error .exactDiv0

/-- 40_complex_alu R123: the textbook form without scaling. -/
def cdiv (a b : Cx F) : Except ModelFault (Cx F) :=
  let d := num.add (num.mul b.re b.re) (num.mul b.im b.im)
  match sdiv num (num.add (num.mul a.re b.re) (num.mul a.im b.im)) d,
        sdiv num (num.sub (num.mul a.im b.re) (num.mul a.re b.im)) d with
  | .ok re, .ok im => .ok ⟨re, im⟩
  | .error e, _ => .error e
  | _, .error e => .error e

/-- 40_complex_alu R124. -/
def cexp (z : Cx F) : Cx F :=
  let e := num.exp z.re
  ⟨num.mul e (num.cos z.im), num.mul e (num.sin z.im)⟩

/-- 40_complex_alu R125. -/
def cconj (a : Cx F) : Cx F := ⟨a.re, num.neg a.im⟩

/-- 00_scope R11: multiply by 1/2. -/
def chalf (a : Cx F) : Cx F := ⟨num.half a.re, num.half a.im⟩

/-- 00_scope R11: multiply by +i. -/
def cmuli (a : Cx F) : Cx F := ⟨num.neg a.im, a.re⟩

/-- 00_scope R11: multiply by -i. -/
def cmulnegi (a : Cx F) : Cx F := ⟨a.im, num.neg a.re⟩

/-- 00_scope R11: divide by the real count `n`. -/
def cdivr (a : Cx F) (n : Nat) : Except ModelFault (Cx F) :=
  match sdiv num a.re (num.real n), sdiv num a.im (num.real n) with
  | .ok re, .ok im => .ok ⟨re, im⟩
  | .error e, _ => .error e
  | _, .error e => .error e

/-- The complex zero `(+0, +0)` (42_bluestein R172). -/
def czero : Cx F := ⟨num.zero, num.zero⟩

end Complex

/-- The binary64 scalars (00_scope R10, R12). -/
def b64Scalar (p : Params) : Scalar F64 where
  add := fadd p
  sub := fsub p
  mul := fmul p
  div a b := some (fdiv p a b)
  neg := fneg
  half := fhalf p
  real := freal
  zero := fZero
  cos := fcos
  sin := fsin
  exp := fexp

/-- The angle of `CIS(s, n, d)`: reduced exactly on the integers, then converted once (40_complex_alu R129). -/
def cisAngle (p : Params) (dir : Dir) (n d : Nat) : F64 :=
  let theta := fdiv p (fmul p p.pi64 (freal (n % (2 * d)))) (freal d)
  match dir with
  | .forward => fneg theta
  | .inverse => theta

/-- The default binary64 realisation of CIS (40_complex_alu R129). -/
def cis64 (p : Params) (dir : Dir) (n d : Nat) : Cx F64 :=
  cexp (b64Scalar p) ⟨fZero, cisAngle p dir n d⟩

/-- `Num = Binary64`, the hardware's instantiation (00_scope R9). -/
def b64 (p : Params) : Num F64 where
  toScalar := b64Scalar p
  cis := cis64 p

end Sys2Proof.Machine
end

