-- ==== Sys2Proof/Machine/Store.lean ====
section
/-!
DEFINITION. The two memories the engine reaches (20_memory R60): the signal memory SIG (R61) and the workspace WS (R63),
over a scalar domain `F`. A memory is a list of (index, value) pairs in one canonical form: indices strictly rising, a
listed index holds the value, an unlisted index holds no value (log entry 4). The smallest unit is the spec's: a 64-bit
word of SIG, a component of a WS element (20_memory R65, R67).
-/

namespace Sys2Proof.Machine

/-- Sparse cells: what is listed holds a value, what is not listed holds none (00_scope R17). -/
abbrev Cells (F : Type) := List (Nat × F)

section Cells

variable {F : Type}

/-- The value at index `i`, if it holds one. -/
def cellGet : Cells F → Nat → Option F
  | [], _ => none
  | (j, v) :: rest, i => if i = j then some v else cellGet rest i

/-- Store `v` at index `i`, keeping the indices rising. -/
def cellSet : Cells F → Nat → F → Cells F
  | [], i, v => [(i, v)]
  | (j, u) :: rest, i, v =>
    if i < j then (i, v) :: (j, u) :: rest
    else if i = j then (i, v) :: rest
    else (j, u) :: cellSet rest i v

/-- The canonical form: indices strictly rising. -/
def cellsWf : Cells F → Bool
  | [] => true
  | (i, _) :: rest => rest.all (fun c => decide (i < c.1)) && cellsWf rest

/-- Every listed index is below `n`. -/
def cellsBelow (n : Nat) (c : Cells F) : Bool := c.all (fun x => decide (x.1 < n))

end Cells

/-- The signal memory and the two components of the workspace elements (20_memory R61, R63). -/
structure Store (F : Type) where
  sig : Cells F
  wsRe : Cells F
  wsIm : Cells F
deriving DecidableEq, Repr

section Access

variable {F : Type}

/-- Each memory is in canonical form. -/
def Store.wf (st : Store F) : Bool := cellsWf st.sig && cellsWf st.wsRe && cellsWf st.wsIm

/-- `MemRead(SIG:w, 1)` (20_memory R61): a word that holds no value raises UNINIT. -/
def sigRead (st : Store F) (w : Nat) : Except ModelFault F :=
  match cellGet st.sig w with
  | some v => .ok v
  | none => .error (.uninit .sig w)

/-- `MemWrite(SIG:w, 1, v)` (20_memory R61). -/
def sigWrite (st : Store F) (w : Nat) (v : F) : Store F := { st with sig := cellSet st.sig w v }

/-- `MemRead(WS:i, 1)` (20_memory R63): an element with a component that holds no value raises UNINIT. -/
def wsRead (st : Store F) (i : Nat) : Except ModelFault (Cx F) :=
  match cellGet st.wsRe i, cellGet st.wsIm i with
  | some re, some im => .ok ⟨re, im⟩
  | _, _ => .error (.uninit .ws i)

/-- `MemWrite(WS:i, 1, c)` (20_memory R63). -/
def wsWrite (st : Store F) (i : Nat) (c : Cx F) : Store F :=
  { st with wsRe := cellSet st.wsRe i c.re, wsIm := cellSet st.wsIm i c.im }

/-- `SigC(k)` of the buffer at word `base` (20_memory R62): real part first. -/
def sigCRead (st : Store F) (base k : Nat) : Except ModelFault (Cx F) := do
  let re ← sigRead st (base + 2 * k)
  let im ← sigRead st (base + 2 * k + 1)
  return ⟨re, im⟩

/-- `SigC(k) <- c` of the buffer at word `base` (20_memory R62): real part first. -/
def sigCWrite (st : Store F) (base k : Nat) (c : Cx F) : Store F :=
  sigWrite (sigWrite st (base + 2 * k) c.re) (base + 2 * k + 1) c.im

/-- Every component of the workspace holds no value (20_memory R64). -/
def clearWs (st : Store F) : Store F := { st with wsRe := [], wsIm := [] }

/-- Every listed index lies in its address space: SIG below `sigWords`, WS below `wsLen` (20_memory R61, R63). -/
def Store.within (sigWords wsLen : Nat) (st : Store F) : Bool :=
  cellsBelow sigWords st.sig && cellsBelow wsLen st.wsRe && cellsBelow wsLen st.wsIm

end Access

section Loops

variable {ε σ : Type}

/-- `for k in [start, start + count)`: ascending, ended by the first fault (00_scope R8). -/
def forRange (body : Nat → σ → Except ε σ) : (count start : Nat) → σ → Except ε σ
  | 0, _, s => .ok s
  | n + 1, k, s =>
    match body k s with
    | .ok s' => forRange body n (k + 1) s'
    | .error e => .error e

/-- A stage that a plan bit selects (30_encoding R93). -/
def stage (on : Bool) (f : σ → Except ε σ) (s : σ) : Except ε σ :=
  if on then f s else .ok s

end Loops

end Sys2Proof.Machine
end

