-- ==== Sys2Proof/Machine/State.lean ====
section
/-!
DEFINITION. The state of the FFTC (10_state R49), plain data, and its value after reset (70_reset R290); the moves of the
outside world (20_memory R80); the reasons a step can stop.
-/

namespace Sys2Proof.Machine

/-- One model-fault record, `(fault, command word, space, index)` (60_exceptions R270). The space and index are in the
fault; the command word is absent for a host read (log entry 5). -/
structure FaultRecord where
  fault : ModelFault
  word : Option Word32
deriving DecidableEq, Repr

/-- A move of the outside world. -/
inductive HostEvent where
  /-- Write `value` to the register at byte `offset` with an access of `width` bits (10_state R20, 30_encoding R105). -/
  | regWrite (offset width : Nat) (value : Word64)
  /-- Read the register at byte `offset` with an access of `width` bits (10_state R20, 30_encoding R105). -/
  | regRead (offset width : Nat)
  /-- Write word `w` of the signal memory (20_memory R61, 30_encoding R105). -/
  | sigWrite (w : Nat) (value : Word64)
  /-- Read word `w` of the signal memory (20_memory R61). -/
  | sigRead (w : Nat)
  /-- Repeat `rd STATUS` until BUSY is 0 (30_encoding R105). -/
  | poll
  /-- The host makes no access while the engine takes its step (log entry 6). -/
  | engine
  /-- The platform applies the reset (70_reset R290, R291). -/
  | reset
deriving DecidableEq, Repr

/-- The complete model state (10_state R49), the parameters (00_scope R5), and the model's own fields for the outside
world. -/
structure State where
  /-- The parameters of 00_scope R5; no step writes them (log entry 1). -/
  cfg : Params
  /-- LEN (10_state R30). -/
  len : Word32
  /-- SIZE (10_state R31). -/
  size : Word32
  /-- STRIDE (10_state R32). -/
  stride : Word32
  /-- DBASE (10_state R33). -/
  dbase : Word32
  /-- TBASE (10_state R34). -/
  tbase : Word32
  /-- SIG_BASE (10_state R35). -/
  sigBase : Word32
  /-- WSIDX (10_state R43). -/
  wsIdx : Word32
  /-- CA_RE and CA_IM (10_state R41). -/
  ca : Cx F64
  /-- CB_RE and CB_IM (10_state R41). -/
  cb : Cx F64
  /-- CR_RE and CR_IM (10_state R42). -/
  cr : Cx F64
  /-- The word of the command being executed; STATUS.BUSY is 1 exactly while there is one (10_state R25, R45). -/
  running : Option Word32
  /-- STATUS.DONE (10_state R26). -/
  done : Bool
  /-- STATUS.OVERRUN (10_state R27). -/
  overrun : Bool
  /-- STATUS.ERR (10_state R28). -/
  err : BitVec 8
  /-- STATUS.ERR_INFO (10_state R29). -/
  errInfo : Word32
  /-- WS_VALID (10_state R39). -/
  wsValid : Bool
  /-- WS_N (10_state R39). -/
  wsN : Word32
  /-- The signal memory and the workspace (20_memory R61, R63). -/
  mem : Store F64
  /-- The sticky model-fault list (10_state R49, 60_exceptions R270). -/
  faults : List FaultRecord
  /-- The model's own: the pending moves of the outside world, the next first (log entry 6). -/
  inputs : List HostEvent
  /-- The model's own: the signal buffers, as word ranges `[lo, hi)`, of the commands the host has issued and not yet seen
  complete by reading STATUS with BUSY = 0 (20_memory R74, log entry 9). -/
  unseen : List (Nat × Nat)
  /-- The model's own: whether a host write has raced with the running command on its signal buffer (20_memory R74,
  93_implementation_defined I7, log entry 18). -/
  raced : Bool
  /-- The model's own: the value the host's last read returned (log entry 7). -/
  rdData : Word64
  /-- The model's own: how many free values have been drawn (log entry 8). -/
  draws : Nat
deriving DecidableEq, Repr

/-- The state right after reset (70_reset R290), at the model's start, when no SIG word holds a value; nothing is pending
from the host. -/
def State.reset : State where
  cfg := Config.hardware
  len := 0
  size := 0
  stride := 0
  dbase := 0
  tbase := 0
  sigBase := 0
  wsIdx := 0
  ca := ⟨fZero, fZero⟩
  cb := ⟨fZero, fZero⟩
  cr := ⟨fZero, fZero⟩
  running := none
  done := false
  overrun := false
  err := 0
  errInfo := 0
  wsValid := false
  wsN := 0
  mem := ⟨[], [], []⟩
  faults := []
  inputs := []
  unseen := []
  raced := false
  rdData := 0
  draws := 0

/-- Why the machine stops with a fault. -/
inductive Fault where
  /-- A model fault (60_exceptions R267, R270): raised by a command or a host read that reads a SIG word or a WS component
  that holds no value. It carries the sticky fault list with the new record appended. "It gives no end state"
  (95_test_vectors P6): the run has no meaning past it. Safe: the hardware goes on with some value. -/
  | recorded (log : List FaultRecord)
  /-- A host access to word `w` at or above SIG_WORDS, which does not exist (20_memory R61, R71). Raised by the host moves
  `sigWrite` and `sigRead`. Safe: the spec gives such an access no effect (log entry 11). -/
  | sigRange (w : Nat)
deriving DecidableEq, Repr

/-- Why the machine refuses a step. -/
inductive Refusal where
  /-- A command that has no meaning yet, by its mnemonic. Raised by no arm: every command is modelled. Safe. -/
  | notModelled (mnemonic : String)
  /-- A host register access that is not an aligned 64-bit access inside the 256-byte register file: "an access of another
  width or at an offset not a multiple of 8 is outside this spec and a model refuses it" (10_state R20). Raised by the host
  moves `regWrite` and `regRead`. Safe (log entry 12). -/
  | registerAccess (offset width : Nat)
deriving DecidableEq, Repr

/-- What a step answers. -/
abbrev Result := Host.Outcome State Fault Refusal

end Sys2Proof.Machine
end

