-- ==== Sys2Proof/Machine/Flags.lean ====
section
/-!
DEFINITION. The FFTC has no condition codes (10_state R46); its only status bits are those of STATUS (10_state R24). Here:
STATUS as the word a host reads, and the error codes with their information words (60_exceptions R260, R261).
-/

namespace Sys2Proof.Machine

/-- STATUS.BUSY: 1 while a command executes (10_state R25). -/
def State.busy (s : State) : Bool := s.running.isSome

/-- STATUS as a 64-bit word (10_state R24). -/
def State.statusWord (s : State) : Word64 :=
  s.errInfo ++ (0 : BitVec 16) ++ s.err ++ (0 : BitVec 5) ++ BitVec.ofBool s.overrun ++ BitVec.ofBool s.done
    ++ BitVec.ofBool s.busy

/-- The error codes (60_exceptions R260); NONE is code 0. -/
inductive ErrCode where
  | outOfMemory
  | oddLength
  | lengthZero
  | lengthRange
  | illegalCmd
  | wsState
  | operandRange
deriving DecidableEq, Repr

/-- The code written to STATUS.ERR (60_exceptions R260). -/
def ErrCode.code : ErrCode → BitVec 8
  | .outOfMemory => 1
  | .oddLength => 2
  | .lengthZero => 3
  | .lengthRange => 4
  | .illegalCmd => 5
  | .wsState => 6
  | .operandRange => 7

/-- An error with its information word (60_exceptions R261). -/
structure Err where
  code : ErrCode
  info : Word32
deriving DecidableEq, Repr

/-- OUT_OF_MEMORY(len): the workspace length asked for. -/
def Err.outOfMemory (len : Nat) : Err := ⟨.outOfMemory, BitVec.ofNat 32 len⟩

/-- ODD_LENGTH(N). -/
def Err.oddLength (n : Word32) : Err := ⟨.oddLength, n⟩

/-- LENGTH_ZERO(0x18): the offset of LEN. -/
def Err.lengthZero : Err := ⟨.lengthZero, 0x18⟩

/-- LENGTH_RANGE(0x18): the offset of LEN. -/
def Err.lengthRange : Err := ⟨.lengthRange, 0x18⟩

/-- ILLEGAL_CMD(word). -/
def Err.illegalCmd (word : Word32) : Err := ⟨.illegalCmd, word⟩

/-- WS_STATE(0x78): the offset of WSSTAT. -/
def Err.wsState : Err := ⟨.wsState, 0x78⟩

/-- OPERAND_RANGE(offset): the offset of the register at fault. -/
def Err.operandRange (offset : Word32) : Err := ⟨.operandRange, offset⟩

end Sys2Proof.Machine
end

