-- ==== Sys2Proof/Machine/Operands.lean ====
section
/-!
DEFINITION. Operands of the commands: the workspace geometry (00_scope R16, 20_memory R68, R69), the operand registers as
the internal copies a command runs on (10_state R47), and the data and twiddle addressing of FFT2 (41_radix2_fft R143,
R144). All index arithmetic is on natural numbers (00_scope R6).
-/

namespace Sys2Proof.Machine

/-- `ispow2(n)` (00_scope R8). -/
def isPow2 (n : Nat) : Bool := 2 ^ Nat.log2 n == n

/-- `larger_size(N)`: the smallest power of two M with M ≥ 2N, for N ≥ 1 (00_scope R16). -/
def largerSize (n : Nat) : Nat := 2 ^ (Nat.log2 (2 * n - 1) + 1)

/-- `WSLEN(N)` = N + 2M + M/2 (20_memory R68). -/
def wsLength (n : Nat) : Nat := n + 2 * largerSize n + largerSize n / 2

/-- First index of region 1, the chirp factors (20_memory R69). -/
def region1 : Nat := 0

/-- First index of region 2, the chirp-multiplied input and the convolution (20_memory R69). -/
def region2 (n : Nat) : Nat := n

/-- First index of region 3, the convolution kernel (20_memory R69). -/
def region3 (n : Nat) : Nat := n + largerSize n

/-- First index of region 4, the inner twiddles (20_memory R69). -/
def region4 (n : Nat) : Nat := n + 2 * largerSize n

/-- A geometry value as its register shows it: 0 while no workspace is allocated (10_state R36 to R38). -/
def State.geometry (s : State) (f : Nat → Nat) : Nat := if s.wsValid then f s.wsN.toNat else 0

/-- WSLEN of the allocated workspace, 0 while there is none (10_state R37). -/
def State.wsLen (s : State) : Nat := s.geometry wsLength

/-- WSSTAT as a word: WS_N above WS_VALID (10_state R39). -/
def State.wsStat (s : State) : Word64 :=
  (if s.wsValid then s.wsN else 0) ++ (0 : BitVec 31) ++ BitVec.ofBool s.wsValid

/-- The integer operands of a command, zero-extended (30_encoding R95): the internal copies on which a composite command
runs its steps (10_state R47). -/
structure Operands where
  len : Nat
  size : Nat
  stride : Nat
  dbase : Nat
  tbase : Nat
  sigBase : Nat
deriving DecidableEq, Repr

/-- The operand registers as a command reads them (30_encoding R95). -/
def State.operands (s : State) : Operands where
  len := s.len.toNat
  size := s.size.toNat
  stride := s.stride.toNat
  dbase := s.dbase.toNat
  tbase := s.tbase.toNat
  sigBase := s.sigBase.toNat

/-- The element index of element `e` of FFT2's data operand (41_radix2_fft R143). -/
def Operands.dataIndex (o : Operands) (e : Nat) : Nat := o.dbase + e * o.stride

/-- The index of the last data element, `DBASE + (SIZE - 1) * STRIDE` (41_radix2_fft R141). -/
def Operands.last (o : Operands) : Nat := o.dbase + (o.size - 1) * o.stride

/-- The workspace index of twiddle entry `k` (41_radix2_fft R144). -/
def Operands.twiddleIndex (o : Operands) (k : Nat) : Nat := o.tbase + k

section Access

variable {F : Type}

/-- `D(e)` (41_radix2_fft R143). -/
def dataRead (dsp : Space) (o : Operands) (st : Store F) (e : Nat) : Except ModelFault (Cx F) :=
  match dsp with
  | .sig => sigCRead st o.sigBase (o.dataIndex e)
  | .ws => wsRead st (o.dataIndex e)

/-- `D(e) <- c` (41_radix2_fft R143). -/
def dataWrite (dsp : Space) (o : Operands) (st : Store F) (e : Nat) (c : Cx F) : Store F :=
  match dsp with
  | .sig => sigCWrite st o.sigBase (o.dataIndex e) c
  | .ws => wsWrite st (o.dataIndex e) c

/-- `T(k)` (41_radix2_fft R144). -/
def twiddleRead (o : Operands) (st : Store F) (k : Nat) : Except ModelFault (Cx F) :=
  wsRead st (o.twiddleIndex k)

/-- `T(k) <- c` (41_radix2_fft R144). -/
def twiddleWrite (o : Operands) (st : Store F) (k : Nat) (c : Cx F) : Store F :=
  wsWrite st (o.twiddleIndex k) c

end Access

/-- The byte at byte address `a` of the signal memory as the host stores it: word `a / 8`, its bytes in the host's order
(20_memory R65, parameter HOST_ENDIAN). No engine rule reads a byte (log entry 17). -/
def State.sigByte (s : State) (a : Nat) : Option Byte :=
  let lane := match s.cfg.hostEndian with
    | .little => a % 8
    | .big => 7 - a % 8
  (cellGet s.mem.sig (a / 8)).map (fun v => v.extractLsb' (8 * lane) 8)

end Sys2Proof.Machine
end

