-- ==== Sys2Proof/Machine/Ops.lean ====
section
/-!
DEFINITION. The operations every command shares: issue (10_state R25), the two ways a command ends (60_exceptions R262),
which take the place of a trap entry (R272), the model-fault record (R270), check lists in priority order (R263, R264),
and the allocation of a workspace (43_driver_workspace R201).
-/

namespace Sys2Proof.Machine

/-- The words `[lo, hi)` of the signal buffer of a command: from SIG_BASE, the N complex elements of FFT, CZT, CHIRPMUL,
RECOVER and NORMN, the N reals of RFFT and RMIX, the data operand of FFT2 with DSP = SIG (20_memory R62, 10_state R35,
70_reset R302; log entry 9). -/
def signalBuffer (o : Operands) : Instr → Option (Nat × Nat)
  | .fft _ | .czt _ | .chirpmul | .recover | .normn => some (o.sigBase, o.sigBase + 2 * o.len)
  | .rfft _ | .rmix _ => some (o.sigBase, o.sigBase + o.len)
  | .fft2 _ plan .sig =>
    if (plan.br || plan.bf || plan.nm) && decide (o.size ≠ 0) then some (o.sigBase, o.sigBase + 2 * o.last + 2) else none
  | .fft2 _ _ .ws | .wsalloc | .wsfree | .chirp _ | .kernel | .pmul => none
  | .cadd | .csub | .cmul | .cdiv | .cexp | .cconj => none

/-- The signal buffer of the command a word encodes, if it has one. -/
def State.bufferOf (s : State) (word : Word32) : Option (Nat × Nat) :=
  match decode word with
  | .ok i => signalBuffer s.operands i
  | .error _ => none

/-- The signal buffer of the running command, if a command is running and has one. -/
def State.runningBuffer (s : State) : Option (Nat × Nat) := s.running.bind s.bufferOf

/-- Issue a command word: BUSY 1, DONE 0, ERR 0, ERR_INFO 0 in one event (10_state R25); the host's handshake on the
command's signal buffer begins (20_memory R74), and nothing has raced with the command. -/
def State.issue (s : State) (word : Word32) : State :=
  { s with
    running := some word
    done := false
    err := 0
    errInfo := 0
    unseen := (s.bufferOf word).toList ++ s.unseen
    raced := false }

/-- `complete_ok()`: ERR NONE, ERR_INFO 0, BUSY 0, DONE 1; OVERRUN is not changed (60_exceptions R262). -/
def State.complete (s : State) : State :=
  { s with running := none, done := true, err := 0, errInfo := 0 }

/-- `raise E(info)`: ERR and ERR_INFO record the error, BUSY 0, DONE 1; OVERRUN is not changed (60_exceptions R262). -/
def State.raise (s : State) (e : Err) : State :=
  { s with running := none, done := true, err := e.code.code, errInfo := e.info }

/-- A model fault: the record is appended to the sticky list, and the run has no meaning past it (60_exceptions R270). -/
def recordFault (s : State) (word : Option Word32) (f : ModelFault) : Result :=
  .fault (.recorded (s.faults ++ [⟨f, word⟩]))

/-- The first check of a list that fails, in the list's order (60_exceptions R264). -/
def firstError : List (Bool × Err) → Option Err
  | [] => none
  | (failed, e) :: rest => if failed then some e else firstError rest

/-- Raise the error of a failed check, with no other effect, or go on (60_exceptions R263). -/
def checked (s : State) (error : Option Err) (go : Result) : Result :=
  match error with
  | some e => .next (s.raise e)
  | none => go

/-- End the command `i` whose body answered `r`: complete in the state `k` makes of the answer, or record the model
fault. -/
def commit {α : Type} (i : Instr) (s : State) (r : Except ModelFault α) (k : α → State) : Result :=
  match r with
  | .ok a => .next (k a).complete
  | .error f => recordFault s (some (encode i)) f

/-- `ALLOC_OK(len)`: false above the capacity; within it true, or a free draw under ALLOC_NONDET (43_driver_workspace
R201). -/
def State.allocOk (s : State) (len : Nat) : Bool :=
  decide (len ≤ s.cfg.wsCapacity) && (!s.cfg.allocNondet || Config.freeAlloc s.draws)

/-- An allocation under ALLOC_NONDET uses up a draw (log entry 8). -/
def State.drawAlloc (s : State) : State :=
  if s.cfg.allocNondet then { s with draws := s.draws + 1 } else s

/-- A workspace allocated for N = `n`, every component holding no value (43_driver_workspace R200). -/
def State.allocate (s : State) (n : Nat) : State :=
  { s with wsValid := true, wsN := BitVec.ofNat 32 n, mem := clearWs s.mem }

/-- No workspace, every component holding no value (43_driver_workspace R203). -/
def State.release (s : State) : State :=
  { s with wsValid := false, wsN := 0, mem := clearWs s.mem }

/-- Try to allocate a workspace for N = `n`: OUT_OF_MEMORY with nothing else done, or go on with the workspace
(43_driver_workspace R200, R206, R208). -/
def withAllocation (s : State) (n : Nat) (go : State → Result) : Result :=
  if s.allocOk (wsLength n) then go (s.drawAlloc.allocate n)
  else .next (s.drawAlloc.raise (.outOfMemory (wsLength n)))

end Sys2Proof.Machine
end

