-- ==== Sys2Proof/Machine/ComplexAlu.lean ====
section
/-!
DEFINITION. The complex ALU commands (40_complex_alu R120 to R126): each applies its function to CA and CB, writes only
CR, and completes with ERR = NONE.
-/

namespace Sys2Proof.Machine

/-- CADD (40_complex_alu R120). -/
def execCadd (s : State) : Result :=
  .next { s with cr := cadd (b64Scalar s.cfg) s.ca s.cb }.complete

/-- CSUB (40_complex_alu R121). -/
def execCsub (s : State) : Result :=
  .next { s with cr := csub (b64Scalar s.cfg) s.ca s.cb }.complete

/-- CMUL (40_complex_alu R122). -/
def execCmul (s : State) : Result :=
  .next { s with cr := cmul (b64Scalar s.cfg) s.ca s.cb }.complete

/-- CDIV (40_complex_alu R123). A binary64 quotient always exists, so the model fault of `Exact` does not arise. -/
def execCdiv (s : State) : Result :=
  commit .cdiv s (cdiv (b64Scalar s.cfg) s.ca s.cb) (fun c => { s with cr := c })

/-- CEXP (40_complex_alu R124); CB is not read. -/
def execCexp (s : State) : Result :=
  .next { s with cr := cexp (b64Scalar s.cfg) s.ca }.complete

/-- CCONJ (40_complex_alu R125); CB is not read. -/
def execCconj (s : State) : Result :=
  .next { s with cr := cconj (b64Scalar s.cfg) s.ca }.complete

end Sys2Proof.Machine
end

