-- ==== Sys2Proof/Machine/Radix2.lean ====
section
/-!
DEFINITION. The radix-2 unit, command FFT2 (41_radix2_fft R140 to R153): its operand checks and its four stages.
-/

namespace Sys2Proof.Machine

/-- `rev_b(i)`: the b-bit reversal of `i` (00_scope R8). -/
def bitRev : Nat → Nat → Nat
  | 0, _ => 0
  | b + 1, i => (i % 2) * 2 ^ b + bitRev b (i / 2)

/-- Whether a plan touches the data operand (41_radix2_fft R141). -/
def planNeedsData (p : Plan) : Bool := p.br || p.bf || p.nm

/-- Whether a plan touches the twiddle table (41_radix2_fft R141). -/
def planNeedsTable (p : Plan) (o : Operands) : Bool := (p.tw || p.bf) && decide (2 ≤ o.size)

/-- The operand checks of FFT2, in the order of 41_radix2_fft R141. -/
def fft2Check (s : State) (plan : Plan) (dsp : Space) (o : Operands) : Option Err :=
  let needData := planNeedsData plan
  let needTable := planNeedsTable plan o
  let dataInWs := needData && dsp == .ws
  let dataInSig := needData && dsp == .sig
  firstError
    [ ((dataInWs || needTable) && !s.wsValid, .wsState),
      (!isPow2 o.size || decide (2 ^ 30 < o.size), .operandRange 0x20),
      (needData && decide (o.stride = 0), .operandRange 0x28),
      (dataInSig && decide (s.cfg.sigWords < o.sigBase + 2 * o.last + 2), .operandRange 0x30),
      (dataInWs && decide (s.wsLen ≤ o.last), .operandRange 0x30),
      (needTable && decide (s.wsLen < o.tbase + o.size / 2), .operandRange 0x38),
      (needTable && dataInWs && decide (o.dbase < o.tbase + o.size / 2) && decide (o.tbase ≤ o.last),
        .operandRange 0x38) ]

section Stages

variable {F : Type} (num : Num F) (dsp : Space) (o : Operands)

/-- Swap element `i` with the element at its reversed index, once per pair (41_radix2_fft R145). -/
def bitRevSwap (i : Nat) (st : Store F) : Except ModelFault (Store F) :=
  let r := bitRev (Nat.log2 o.size) i
  if i < r then do
    let a ← dataRead dsp o st i
    let c ← dataRead dsp o st r
    return dataWrite dsp o (dataWrite dsp o st i c) r a
  else .ok st

/-- BITREV (41_radix2_fft R145). -/
def bitRevStage : Store F → Except ModelFault (Store F) :=
  forRange (bitRevSwap dsp o) o.size 0

/-- TWGEN (41_radix2_fft R146). -/
def twiddleStage (dir : Dir) : Store F → Except ModelFault (Store F) :=
  forRange (fun k st => .ok (twiddleWrite o st k (num.cis dir k (o.size / 2)))) (o.size / 2) 0

/-- One butterfly of half-span `step` at group start `g`, position `j` (41_radix2_fft R147). -/
def butterfly (step g j : Nat) (st : Store F) : Except ModelFault (Store F) := do
  let w ← twiddleRead o st (j * (o.size / 2 / step))
  let a ← dataRead dsp o st (g + j)
  let b ← dataRead dsp o st (g + j + step)
  let t := cmul num.toScalar w b
  return dataWrite dsp o (dataWrite dsp o st (g + j) (cadd num.toScalar a t)) (g + j + step) (csub num.toScalar a t)

/-- The butterflies of one group of half-span `step` (41_radix2_fft R147). -/
def butterflyGroup (step q : Nat) : Store F → Except ModelFault (Store F) :=
  forRange (butterfly num dsp o step (q * (2 * step))) step 0

/-- One stage of the network, of half-span 2^t (41_radix2_fft R147). -/
def butterflyPass (t : Nat) : Store F → Except ModelFault (Store F) :=
  forRange (butterflyGroup num dsp o (2 ^ t)) (o.size / (2 * 2 ^ t)) 0

/-- BUTTERFLY: the half-spans 1, 2, 4, ..., SIZE/2 in turn (41_radix2_fft R147). -/
def butterflyStage : Store F → Except ModelFault (Store F) :=
  forRange (butterflyPass num dsp o) (Nat.log2 o.size) 0

/-- NORMALIZE (41_radix2_fft R148). -/
def normalizeStage : Store F → Except ModelFault (Store F) :=
  forRange (fun e st => do
    let c ← dataRead dsp o st e
    let q ← cdivr num.toScalar c o.size
    return dataWrite dsp o st e q) o.size 0

/-- The stages a plan selects, in the order BR, TW, BF, NM (41_radix2_fft R140, R142). -/
def fft2Body (dir : Dir) (plan : Plan) (st : Store F) : Except ModelFault (Store F) := do
  let st ← stage plan.br (bitRevStage dsp o) st
  let st ← stage plan.tw (twiddleStage num o dir) st
  let st ← stage plan.bf (butterflyStage num dsp o) st
  stage plan.nm (normalizeStage num dsp o) st

end Stages

/-- FFT2 (41_radix2_fft R140). A word with NM = 1 and DIR = 0 does not decode (30_encoding R96). -/
def execFft2 (dir : Dir) (plan : Plan) (dsp : Space) (s : State) : Result :=
  let o := s.operands
  checked s (fft2Check s plan dsp o)
    (commit (.fft2 dir plan dsp) s (fft2Body (b64 s.cfg) dsp o dir plan s.mem) (fun m => { s with mem := m }))

end Sys2Proof.Machine
end

