-- ==== Sys2Proof/Machine/Bluestein.lean ====
section
/-!
DEFINITION. The Bluestein engine: CZT and its six step commands (42_bluestein R170 to R181).
-/

namespace Sys2Proof.Machine

/-- The checks of CZT and of the step commands, in the order of 42_bluestein R170. -/
def bluesteinCheck (s : State) (touchesSig : Bool) (o : Operands) : Option Err :=
  firstError
    [ (decide (o.len = 0), .lengthZero),
      (decide (nMax < o.len), .lengthRange),
      (!s.wsValid || decide (s.wsN.toNat ≠ o.len), .wsState),
      (touchesSig && decide (s.cfg.sigWords < o.sigBase + 2 * o.len), .operandRange 0x40) ]

section Steps

variable {F : Type} (num : Num F) (n : Nat)

/-- CHIRP: region 1 gets the chirp factors (42_bluestein R171). -/
def chirpBody (dir : Dir) : Store F → Except ModelFault (Store F) :=
  forRange (fun k st => .ok (wsWrite st (region1 + k) (num.cis dir (k * k) n))) n 0

/-- CHIRPMUL: region 2 gets the chirp-multiplied input, zero-padded (42_bluestein R172). -/
def chirpmulBody (base : Nat) (st : Store F) : Except ModelFault (Store F) := do
  let st ← forRange (fun k st => do
    let w ← wsRead st (region1 + k)
    let x ← sigCRead st base k
    return wsWrite st (region2 n + k) (cmul num.toScalar w x)) n 0 st
  forRange (fun k st => .ok (wsWrite st (region2 n + k) (czero num.toScalar))) (largerSize n - n) n st

/-- KERNEL: region 3 gets the convolution kernel; b[0] copies w[0] literally (42_bluestein R173). -/
def kernelBody (st : Store F) : Except ModelFault (Store F) := do
  let w0 ← wsRead st region1
  let st := wsWrite st (region3 n) w0
  let st ← forRange (fun k st => do
    let w ← wsRead st (region1 + k)
    let c := cconj num.toScalar w
    return wsWrite (wsWrite st (region3 n + k) c) (region3 n + largerSize n - k) c) (n - 1) 1 st
  forRange (fun k st => .ok (wsWrite st (region3 n + k) (czero num.toScalar))) (largerSize n - 2 * n + 1) n st

/-- PMUL: region 2 gets the pointwise product of regions 2 and 3 (42_bluestein R174). -/
def pmulBody : Store F → Except ModelFault (Store F) :=
  forRange (fun k st => do
    let a ← wsRead st (region2 n + k)
    let b ← wsRead st (region3 n + k)
    return wsWrite st (region2 n + k) (cmul num.toScalar a b)) (largerSize n) 0

/-- RECOVER: the signal buffer gets the chirp-multiplied convolution (42_bluestein R175). -/
def recoverBody (base : Nat) : Store F → Except ModelFault (Store F) :=
  forRange (fun k st => do
    let w ← wsRead st (region1 + k)
    let c ← wsRead st (region2 n + k)
    return sigCWrite st base k (cmul num.toScalar w c)) n 0

/-- NORMN: the signal buffer is divided by N (42_bluestein R176). -/
def normnBody (base : Nat) : Store F → Except ModelFault (Store F) :=
  forRange (fun k st => do
    let c ← sigCRead st base k
    let q ← cdivr num.toScalar c n
    return sigCWrite st base k q) n 0

/-- The operand copies of an inner FFT2 of CZT on the region that starts at `dbase`, with its table in region 4
(42_bluestein R177). -/
def innerOperands (dbase : Nat) : Operands where
  len := n
  size := largerSize n
  stride := 1
  dbase := dbase
  tbase := region4 n
  sigBase := 0

/-- The plan of the first inner FFT2: BR+TW+BF (42_bluestein R177, word 0x4E20). -/
def planGenerate : Plan := ⟨true, true, true, false⟩

/-- The plan of the second inner FFT2, which reuses the table: BR+BF (42_bluestein R177, word 0x4A20). -/
def planReuse : Plan := ⟨true, false, true, false⟩

/-- The plan of the inverse inner FFT2: BR+TW+BF+NM (42_bluestein R177, word 0x5F20). -/
def planInverse : Plan := ⟨true, true, true, true⟩

/-- The microcode of CZT after its checks (42_bluestein R177); the checks of the inner steps are not made again (log entry
17). -/
def cztBody (dir : Dir) (base : Nat) (st : Store F) : Except ModelFault (Store F) := do
  let st ← chirpBody num n dir st
  let st ← chirpmulBody num n base st
  let st ← kernelBody num n st
  let st ← fft2Body num .ws (innerOperands n (region2 n)) .forward planGenerate st
  let st ← fft2Body num .ws (innerOperands n (region3 n)) .forward planReuse st
  let st ← pmulBody num n st
  let st ← fft2Body num .ws (innerOperands n (region2 n)) .inverse planInverse st
  let st ← recoverBody num n base st
  stage (dir == .inverse) (normnBody num n base) st

end Steps

/-- CHIRP (42_bluestein R171). -/
def execChirp (dir : Dir) (s : State) : Result :=
  let o := s.operands
  checked s (bluesteinCheck s false o)
    (commit (.chirp dir) s (chirpBody (b64 s.cfg) o.len dir s.mem) (fun m => { s with mem := m }))

/-- CHIRPMUL (42_bluestein R172). -/
def execChirpmul (s : State) : Result :=
  let o := s.operands
  checked s (bluesteinCheck s true o)
    (commit .chirpmul s (chirpmulBody (b64 s.cfg) o.len o.sigBase s.mem) (fun m => { s with mem := m }))

/-- KERNEL (42_bluestein R173). -/
def execKernel (s : State) : Result :=
  let o := s.operands
  checked s (bluesteinCheck s false o)
    (commit .kernel s (kernelBody (b64 s.cfg) o.len s.mem) (fun m => { s with mem := m }))

/-- PMUL (42_bluestein R174). -/
def execPmul (s : State) : Result :=
  let o := s.operands
  checked s (bluesteinCheck s false o)
    (commit .pmul s (pmulBody (b64 s.cfg) o.len s.mem) (fun m => { s with mem := m }))

/-- RECOVER (42_bluestein R175). -/
def execRecover (s : State) : Result :=
  let o := s.operands
  checked s (bluesteinCheck s true o)
    (commit .recover s (recoverBody (b64 s.cfg) o.len o.sigBase s.mem) (fun m => { s with mem := m }))

/-- NORMN (42_bluestein R176). -/
def execNormn (s : State) : Result :=
  let o := s.operands
  checked s (bluesteinCheck s true o)
    (commit .normn s (normnBody (b64 s.cfg) o.len o.sigBase s.mem) (fun m => { s with mem := m }))

/-- CZT (42_bluestein R177). -/
def execCzt (dir : Dir) (s : State) : Result :=
  let o := s.operands
  checked s (bluesteinCheck s true o)
    (commit (.czt dir) s (cztBody (b64 s.cfg) o.len dir o.sigBase s.mem) (fun m => { s with mem := m }))

end Sys2Proof.Machine
end

