-- ==== Sys2Proof/Machine/Driver.lean ====
section
/-!
DEFINITION. The workspace manager and the complex transform driver: WSALLOC, WSFREE, FFT (43_driver_workspace R200 to
R210).
-/

namespace Sys2Proof.Machine

/-- The checks of WSALLOC before the allocation, in the order of 43_driver_workspace R200. -/
def wsallocCheck (s : State) (o : Operands) : Option Err :=
  firstError
    [ (decide (o.len = 0), .lengthZero),
      (decide (nMax < o.len), .lengthRange),
      (s.wsValid, .wsState) ]

/-- WSALLOC (43_driver_workspace R200). -/
def execWsalloc (s : State) : Result :=
  let o := s.operands
  checked s (wsallocCheck s o) (withAllocation s o.len (fun t => .next t.complete))

/-- WSFREE (43_driver_workspace R203). -/
def execWsfree (s : State) : Result :=
  .next s.release.complete

/-- The checks of FFT before the allocation, in the order of 43_driver_workspace R205. -/
def fftCheck (s : State) (o : Operands) : Option Err :=
  firstError
    [ (decide (o.len = 0), .lengthZero),
      (decide (nMax < o.len), .lengthRange),
      (s.wsValid, .wsState),
      (decide (s.cfg.sigWords < o.sigBase + 2 * o.len), .operandRange 0x40) ]

/-- The memory effect of FFT after its checks, over any numeric domain: the workspace is created holding no value, CZT
runs, and the workspace is released (43_driver_workspace R206). -/
def fftBody {F : Type} (num : Num F) (n : Nat) (dir : Dir) (base : Nat) (st : Store F) : Except ModelFault (Store F) := do
  let st ← cztBody num n dir base (clearWs st)
  return clearWs st

/-- FFT (43_driver_workspace R206): allocate, CZT, free. -/
def execFft (dir : Dir) (s : State) : Result :=
  let o := s.operands
  checked s (fftCheck s o) (withAllocation s o.len (fun t =>
    commit (.fft dir) t (fftBody (b64 s.cfg) o.len dir o.sigBase t.mem) (fun m => { t with mem := m }.release)))

end Sys2Proof.Machine
end

