-- ==== Sys2Proof/Machine/RealTransform.lean ====
section
/-!
DEFINITION. The complex packer/unpacker: RMIX and RFFT (44_real_transform R230 to R247). Packing moves no data: it is the
complex view of the same words (R230). Throughout, `n` is the count of reals and n/2 the count of complex elements.
-/

namespace Sys2Proof.Machine

/-- The checks of RMIX, in the order of 44_real_transform R232. -/
def rmixCheck (s : State) (o : Operands) : Option Err :=
  firstError
    [ (decide (o.len % 2 = 1), .oddLength s.len),
      (decide (o.len = 0), .lengthZero),
      (decide (nMax < o.len), .lengthRange),
      (decide (s.cfg.sigWords < o.sigBase + o.len), .operandRange 0x40) ]

/-- The checks of RFFT before the allocation, in the order of 44_real_transform R240. -/
def rfftCheck (s : State) (o : Operands) : Option Err :=
  firstError
    [ (decide (o.len % 2 = 1), .oddLength s.len),
      (decide (o.len = 0), .lengthZero),
      (decide (nMax < o.len), .lengthRange),
      (s.wsValid, .wsState),
      (decide (s.cfg.sigWords < o.sigBase + o.len), .operandRange 0x40) ]

section Mixing

variable {F : Type} (num : Num F) (n base : Nat)

/-- Write the pair `(i, j)` from its even part `zx` and its turned odd part `t`; at the midpoint only `X[i]` is written
(44_real_transform R233 to R235). -/
def mixWrite (i j : Nat) (zx t : Cx F) (st : Store F) : Store F :=
  let st := sigCWrite st base i (cadd num.toScalar zx t)
  if i < j then sigCWrite st base j (cconj num.toScalar (csub num.toScalar zx t)) else st

/-- One pair of the forward pass (44_real_transform R233). -/
def mixPairForward (i : Nat) (st : Store F) : Except ModelFault (Store F) := do
  let h := n / 2
  let ci ← sigCRead st base i
  let cj ← sigCRead st base (h - i)
  let zx := chalf num.toScalar (cadd num.toScalar ci (cconj num.toScalar cj))
  let zy := chalf num.toScalar (cmulnegi num.toScalar (csub num.toScalar ci (cconj num.toScalar cj)))
  let t := cmul num.toScalar (num.cis .forward i h) zy
  return mixWrite num base i (h - i) zx t st

/-- RMIX_F (44_real_transform R233). -/
def mixForward (st : Store F) : Except ModelFault (Store F) := do
  let c0 ← sigCRead st base 0
  let st := sigCWrite st base 0 ⟨num.add c0.re c0.im, num.sub c0.re c0.im⟩
  forRange (mixPairForward num n base) (n / 2 / 2) 1 st

/-- One pair of the inverse pass (44_real_transform R234). -/
def mixPairInverse (i : Nat) (st : Store F) : Except ModelFault (Store F) := do
  let h := n / 2
  let yi ← sigCRead st base i
  let yj ← sigCRead st base (h - i)
  let zx := chalf num.toScalar (cadd num.toScalar yi (cconj num.toScalar yj))
  let zy := cmul num.toScalar (chalf num.toScalar (csub num.toScalar yi (cconj num.toScalar yj))) (num.cis .inverse i h)
  let t := cmuli num.toScalar zy
  return mixWrite num base i (h - i) zx t st

/-- RMIX_I (44_real_transform R234). -/
def mixInverse (st : Store F) : Except ModelFault (Store F) := do
  let y0 ← sigCRead st base 0
  let st := sigCWrite st base 0 ⟨num.half (num.add y0.re y0.im), num.half (num.sub y0.re y0.im)⟩
  forRange (mixPairInverse num n base) (n / 2 / 2) 1 st

/-- The pass of a direction (44_real_transform R232). -/
def rmixBody (dir : Dir) (st : Store F) : Except ModelFault (Store F) :=
  match dir with
  | .forward => mixForward num n base st
  | .inverse => mixInverse num n base st

/-- The complex transform of the packed sequence and the mixing pass, in the order of the direction (44_real_transform
R240). -/
def rfftPasses (dir : Dir) (st : Store F) : Except ModelFault (Store F) :=
  match dir with
  | .forward => cztBody num (n / 2) .forward base st >>= mixForward num n base
  | .inverse => mixInverse num n base st >>= cztBody num (n / 2) .inverse base

/-- The memory effect of RFFT after its checks: the workspace for n/2 is created holding no value, the passes run, and the
workspace is released (44_real_transform R240). -/
def rfftBody (dir : Dir) (st : Store F) : Except ModelFault (Store F) := do
  let st ← rfftPasses num n base dir (clearWs st)
  return clearWs st

end Mixing

/-- RMIX (44_real_transform R232); WS_VALID is not read. -/
def execRmix (dir : Dir) (s : State) : Result :=
  let o := s.operands
  checked s (rmixCheck s o)
    (commit (.rmix dir) s (rmixBody (b64 s.cfg) o.len o.sigBase dir s.mem) (fun m => { s with mem := m }))

/-- RFFT (44_real_transform R240). -/
def execRfft (dir : Dir) (s : State) : Result :=
  let o := s.operands
  checked s (rfftCheck s o) (withAllocation s (o.len / 2) (fun t =>
    commit (.rfft dir) t (rfftBody (b64 s.cfg) o.len o.sigBase dir t.mem) (fun m => { t with mem := m }.release)))

end Sys2Proof.Machine
end

