-- ==== Sys2Proof/Machine/Dispatch.lean ====
section
/-!
DEFINITION. What each command does: one arm per constructor of Instr, each one call of its meaning.
-/

namespace Sys2Proof.Machine

def exec (i : Instr) (s : State) : Host.Outcome State Fault Refusal :=
  match i with
  | .fft dir => Sys2Proof.Machine.execFft dir s
  | .rfft dir => Sys2Proof.Machine.execRfft dir s
  | .wsalloc => Sys2Proof.Machine.execWsalloc s
  | .wsfree => Sys2Proof.Machine.execWsfree s
  | .fft2 dir plan dsp => Sys2Proof.Machine.execFft2 dir plan dsp s
  | .czt dir => Sys2Proof.Machine.execCzt dir s
  | .chirp dir => Sys2Proof.Machine.execChirp dir s
  | .chirpmul => Sys2Proof.Machine.execChirpmul s
  | .kernel => Sys2Proof.Machine.execKernel s
  | .pmul => Sys2Proof.Machine.execPmul s
  | .recover => Sys2Proof.Machine.execRecover s
  | .normn => Sys2Proof.Machine.execNormn s
  | .rmix dir => Sys2Proof.Machine.execRmix dir s
  | .cadd => Sys2Proof.Machine.execCadd s
  | .csub => Sys2Proof.Machine.execCsub s
  | .cmul => Sys2Proof.Machine.execCmul s
  | .cdiv => Sys2Proof.Machine.execCdiv s
  | .cexp => Sys2Proof.Machine.execCexp s
  | .cconj => Sys2Proof.Machine.execCconj s

end Sys2Proof.Machine
end

