-- ==== Sys2Proof/Machine/HostBus.lean ====
section
/-!
DEFINITION. The register file as the host sees it (10_state R20 to R44, R48), the host's accesses to the signal memory
(20_memory R61, R74, R80), the race of a host write with a command (93_implementation_defined I7), and the reset (70_reset
R290, R291).
-/

namespace Sys2Proof.Machine

/-- The registers of the map (10_state R44). -/
inductive Reg where
  | id | cmd | status | len | size | stride | dbase | tbase | sigBase
  | larger | wslen | r1base | r2base | r3base | r4base | wsstat
  | caRe | caIm | cbRe | cbIm | crRe | crIm | wscap | sigwords | wsidx | wsdatRe | wsdatIm
  | reserved
deriving DecidableEq, Repr

/-- The registers at offsets 0x00, 0x08, ..., 0xD0; the offsets above are reserved (10_state R44). -/
def registerMap : List Reg :=
  [.id, .cmd, .status, .len, .size, .stride, .dbase, .tbase, .sigBase, .larger, .wslen, .r1base, .r2base, .r3base,
   .r4base, .wsstat, .caRe, .caIm, .cbRe, .cbIm, .crRe, .crIm, .wscap, .sigwords, .wsidx, .wsdatRe, .wsdatIm]

/-- The register an access of `width` bits at byte `offset` reaches: only aligned 64-bit accesses inside the 256-byte file
are accesses of this spec (10_state R20, R44, log entry 12). -/
def registerAt (offset width : Nat) : Option Reg :=
  if width = 64 ∧ offset % 8 = 0 ∧ offset < 256 then some (registerMap.getD (offset / 8) .reserved) else none

/-- The constant of the ID register (10_state R21). -/
def idConstant : Word64 := 0x0000000746465443

/-- Whether the workspace window shows an element (10_state R43). -/
def State.windowOpen (s : State) : Bool := s.wsValid && decide (s.wsIdx.toNat < s.wsLen)

/-- A component of the window's element, 0 while the window is closed (10_state R43; log entry 16). -/
def State.windowRead (s : State) (cells : Cells F64) : Except ModelFault Word64 :=
  if s.windowOpen then
    match cellGet cells s.wsIdx.toNat with
    | some v => .ok v
    | none => .error (.uninit .ws s.wsIdx.toNat)
  else .ok 0

/-- Read a register (10_state R21 to R44). While a command runs, this is the value before the command (log entry 10). -/
def State.readReg (s : State) : Reg → Except ModelFault Word64
  | .id => .ok idConstant
  | .cmd => .ok 0
  | .status => .ok s.statusWord
  | .len => .ok (s.len.setWidth 64)
  | .size => .ok (s.size.setWidth 64)
  | .stride => .ok (s.stride.setWidth 64)
  | .dbase => .ok (s.dbase.setWidth 64)
  | .tbase => .ok (s.tbase.setWidth 64)
  | .sigBase => .ok (s.sigBase.setWidth 64)
  | .larger => .ok (BitVec.ofNat 64 (s.geometry largerSize))
  | .wslen => .ok (BitVec.ofNat 64 s.wsLen)
  | .r1base => .ok (BitVec.ofNat 64 (s.geometry fun _ => region1))
  | .r2base => .ok (BitVec.ofNat 64 (s.geometry region2))
  | .r3base => .ok (BitVec.ofNat 64 (s.geometry region3))
  | .r4base => .ok (BitVec.ofNat 64 (s.geometry region4))
  | .wsstat => .ok s.wsStat
  | .caRe => .ok s.ca.re
  | .caIm => .ok s.ca.im
  | .cbRe => .ok s.cb.re
  | .cbIm => .ok s.cb.im
  | .crRe => .ok s.cr.re
  | .crIm => .ok s.cr.im
  | .wscap => .ok (BitVec.ofNat 64 s.cfg.wsCapacity)
  | .sigwords => .ok (BitVec.ofNat 64 s.cfg.sigWords)
  | .wsidx => .ok (s.wsIdx.setWidth 64)
  | .wsdatRe => s.windowRead s.mem.wsRe
  | .wsdatIm => s.windowRead s.mem.wsIm
  | .reserved => .ok 0

/-- The registers whose writes are dropped, with OVERRUN set, while BUSY = 1 (10_state R48). -/
def Reg.droppedWhileBusy : Reg → Bool
  | .cmd | .len | .size | .stride | .dbase | .tbase | .sigBase => true
  | .caRe | .caIm | .cbRe | .cbIm | .wsidx | .wsdatRe | .wsdatIm => true
  | .id | .status | .larger | .wslen | .r1base | .r2base | .r3base | .r4base | .wsstat => false
  | .crRe | .crIm | .wscap | .sigwords | .reserved => false

/-- The effect of a register write that is not dropped (10_state R21 to R44). -/
def State.writeRegIdle (s : State) (r : Reg) (v : Word64) : State :=
  match r with
  | .cmd => s.issue (v.setWidth 32)
  | .status => if v.getLsbD 2 then { s with overrun := false } else s
  | .len => { s with len := v.setWidth 32 }
  | .size => { s with size := v.setWidth 32 }
  | .stride => { s with stride := v.setWidth 32 }
  | .dbase => { s with dbase := v.setWidth 32 }
  | .tbase => { s with tbase := v.setWidth 32 }
  | .sigBase => { s with sigBase := v.setWidth 32 }
  | .caRe => { s with ca := { s.ca with re := v } }
  | .caIm => { s with ca := { s.ca with im := v } }
  | .cbRe => { s with cb := { s.cb with re := v } }
  | .cbIm => { s with cb := { s.cb with im := v } }
  | .wsidx => { s with wsIdx := v.setWidth 32 }
  | .wsdatRe =>
    if s.windowOpen then { s with mem := { s.mem with wsRe := cellSet s.mem.wsRe s.wsIdx.toNat v } } else s
  | .wsdatIm =>
    if s.windowOpen then { s with mem := { s.mem with wsIm := cellSet s.mem.wsIm s.wsIdx.toNat v } } else s
  | .id | .larger | .wslen | .r1base | .r2base | .r3base | .r4base | .wsstat => s
  | .crRe | .crIm | .wscap | .sigwords | .reserved => s

/-- Write a register; while BUSY = 1 a write to a register of 10_state R48's list is dropped and sets OVERRUN. -/
def State.writeReg (s : State) (r : Reg) (v : Word64) : State :=
  if s.busy && r.droppedWhileBusy then { s with overrun := true } else s.writeRegIdle r v

/-- A host register write (30_encoding R105). -/
def hostRegWrite (s : State) (offset width : Nat) (v : Word64) : Result :=
  match registerAt offset width with
  | some r => .next (s.writeReg r v)
  | none => .refused (.registerAccess offset width)

/-- A read of STATUS that shows BUSY = 0 ends the handshake of every command issued so far (20_memory R74). -/
def State.observe (s : State) (r : Reg) : State :=
  if r == .status && !s.busy then { s with unseen := [] } else s

/-- A host register read; the value is latched in `rdData` (30_encoding R105). -/
def hostRegRead (s : State) (offset width : Nat) : Result :=
  match registerAt offset width with
  | some r =>
    match s.readReg r with
    | .ok v => .next { s.observe r with rdData := v }
    | .error f => recordFault s none f
  | none => .refused (.registerAccess offset width)

/-- Whether word `w` belongs to the buffer of a command the host has not seen complete (20_memory R74). -/
def State.inUnseen (s : State) (w : Nat) : Bool :=
  s.unseen.any (fun b => decide (b.1 ≤ w) && decide (w < b.2))

/-- Give every word of `[lo, hi)` that holds a value a free one, the word `w` draw number `draw + w`. -/
def freeHeld (draw lo hi : Nat) (c : Cells F64) : Cells F64 :=
  c.map fun x => if lo ≤ x.1 ∧ x.1 < hi then (x.1, Config.freeWord (draw + x.1)) else x

/-- Give every signal word of a range that holds a value a free one. -/
def State.freeSig (s : State) (range : Nat × Nat) : State :=
  { s with
    mem := { s.mem with sig := freeHeld s.draws range.1 range.2 s.mem.sig }
    draws := s.draws + range.2 }

/-- Whether word `w` belongs to the signal buffer of the running command. -/
def State.inRunning (s : State) (w : Nat) : Bool :=
  s.runningBuffer.any (fun b => decide (b.1 ≤ w) && decide (w < b.2))

/-- The words that a race on word `w` touches: the whole buffer of the running command, if the word belongs to it, else the
word alone (93_implementation_defined I7, log entry 18). -/
def State.raceRange (s : State) (w : Nat) : Nat × Nat :=
  if s.inRunning w then s.runningBuffer.getD (w, w + 1) else (w, w + 1)

/-- A host write that is a race: every word the race touches holds any value, the written word among them, and if a command
is running on them they hold any value once more when it ends (20_memory R74 c, 93_implementation_defined I7, log entry
18). -/
def State.race (s : State) (w : Nat) (v : Word64) : State :=
  { State.freeSig { s with mem := sigWrite s.mem w v } (s.raceRange w) with raced := s.raced || s.inRunning w }

/-- What a command leaves: where a host write raced with it, every word of its buffer that holds a value holds any value
(93_implementation_defined I7, log entry 18). -/
def settleRace (s : State) (r : Result) : Result :=
  if s.raced then
    match r with
    | .next t => .next { t.freeSig (s.runningBuffer.getD (0, 0)) with raced := false }
    | .fault f => .fault f
    | .refused q => .refused q
  else r

/-- A host write of a signal word; on a word of the buffer of a command not yet seen complete it is a race (20_memory R61,
R74, 70_reset R305). -/
def hostSigWrite (s : State) (w : Nat) (v : Word64) : Result :=
  if s.cfg.sigWords ≤ w then .fault (.sigRange w)
  else if s.inUnseen w then .next (s.race w v)
  else .next { s with mem := sigWrite s.mem w v }

/-- A host read of a signal word; a word of the buffer of a command not yet seen complete reads as any value (20_memory
R61, R74, 70_reset R305). -/
def hostSigRead (s : State) (w : Nat) : Result :=
  if s.cfg.sigWords ≤ w then .fault (.sigRange w)
  else if s.inUnseen w then .next { s with rdData := Config.freeWord s.draws, draws := s.draws + 1 }
  else
    match sigRead s.mem w with
    | .ok v => .next { s with rdData := v }
    | .error f => recordFault s none f

/-- Give `count` cells from `start` free values, the first of them draw number `draw`. -/
def freeFill (draw : Nat) : (count start : Nat) → Cells F64 → Cells F64
  | 0, _, c => c
  | n + 1, w, c => freeFill (draw + 1) n (w + 1) (cellSet c w (Config.freeWord draw))

/-- The words of the running command's buffer that exist, as a start and a count; nothing while no command runs. -/
def State.lostWords (s : State) : Nat × Nat :=
  match s.runningBuffer with
  | none => (0, 0)
  | some (lo, hi) => (lo, min hi s.cfg.sigWords - lo)

/-- The platform's reset (70_reset R290): every state component takes its reset value, the signal memory is not changed,
except that a reset during a command leaves every word of that command's buffer with any value (70_reset R291). The
parameters and the model's own fields `inputs`, `rdData` and `draws` stay. The model's own fields `unseen` and `raced` take
their reset values: that a reset ends the handshake of 20_memory R74 c, also of a command that has completed and has not been
seen complete, is the model's choice, since the spec is silent (log entry 9). -/
def State.applyReset (s : State) : State :=
  let lost := s.lostWords
  { State.reset with
    cfg := s.cfg
    mem := { State.reset.mem with sig := freeFill s.draws lost.2 lost.1 s.mem.sig }
    inputs := s.inputs
    rdData := s.rdData
    draws := s.draws + lost.2 }

end Sys2Proof.Machine
end

