-- ==== Sys2Proof/Machine/Engine.lean ====
section
/-!
DEFINITION. The two agents' moves (00_scope R19): the engine decodes and executes the latched command as one transition
(30_encoding R100, 20_memory R75), and the outside world makes the pending move at the head of `inputs` (20_memory R80).
-/

namespace Sys2Proof.Machine

/-- The engine's step: while BUSY = 1 it decodes the latched word and executes the command, raising ILLEGAL_CMD for an
illegal word (30_encoding R97), and a race of the host with the command takes its effect (20_memory R74); while BUSY = 0 it is idle and changes no state (60_exceptions R280). -/
def engineStep (s : State) : Result :=
  match s.running with
  | none => .next s
  | some word =>
    match decode word with
    | .ok i => settleRace s (exec i s)
    | .error _ => .next (s.raise (.illegalCmd word))

/-- The move `ev` of the outside world, with `rest` pending after it. A poll lets the engine step while BUSY = 1 and then
reads STATUS (30_encoding R105). -/
def hostMove (ev : HostEvent) (rest : List HostEvent) (s : State) : Result :=
  let t := { s with inputs := rest }
  match ev with
  | .regWrite offset width v => hostRegWrite t offset width v
  | .regRead offset width => hostRegRead t offset width
  | .sigWrite w v => hostSigWrite t w v
  | .sigRead w => hostSigRead t w
  | .poll => if s.busy then engineStep s else hostRegRead t 0x10 64
  | .engine => engineStep t
  | .reset => .next t.applyReset

/-- One step of the model: the pending move of the outside world if there is one, else the engine's step. -/
def advance (s : State) : Result :=
  match s.inputs with
  | [] => engineStep s
  | ev :: rest => hostMove ev rest s

/-- A command word latched as if the host had just written it to CMD, with the engine to move next (log entry 6). -/
def State.latch (s : State) (word : Word32) : State :=
  { s.issue word with inputs := .engine :: s.inputs }

end Sys2Proof.Machine
end

