-- ==== Sys2Proof/Machine/Step.lean ====
section
/-!
DEFINITION. The step of the FFTC model, and the placing of a command where the next step fetches it.
-/

namespace Sys2Proof.Machine

/-- One step: a move of the outside world or the engine's execution of the latched command (Machine/Engine.lean). -/
def step (s : State) : Host.Outcome State Fault Refusal := advance s

/-- The state with a command word latched in the engine, as the host's CMD write leaves it (10_state R23, R25), and the
engine's turn first in the queue, so that the next step executes exactly that command (log entry 6). -/
def State.withFetchWord (s : State) (nbits w : Nat) : State :=
  s.latch (BitVec.ofNat 32 (w % 2 ^ nbits))

end Sys2Proof.Machine
end

