-- ==== Sys2Proof/Machine/Assembly.lean ====
section
/-!
DEFINITION. The assembler syntax of commands and the pseudo-instructions (30_encoding R104 to R106), over the parts of a
statement: mnemonic, direction suffix, data space and plan (log entry 14).
-/

namespace Sys2Proof.Machine

/-- `<stage>` of 30_encoding R104. -/
inductive Stage where
  | br
  | tw
  | bf
  | nm
deriving DecidableEq, Repr

/-- A command statement: the mnemonic, the suffix `.f` or `.i` if written, and the operand fields of format P if
written; an empty stage list is the plan `none` (30_encoding R104). -/
structure AsmLine where
  mnemonic : String
  suffix : Option Dir
  operands : Option (Space × List Stage)
deriving DecidableEq, Repr

/-- Why an assembler refuses a statement (30_encoding R104). -/
inductive AsmError where
  | unknownMnemonic
  /-- A direction suffix on a format S mnemonic. -/
  | unexpectedSuffix
  /-- No direction suffix on a format D or P mnemonic. -/
  | missingSuffix
  /-- Operand fields on a format S or D mnemonic. -/
  | unexpectedOperands
  /-- No operand fields on `fft2`. -/
  | missingOperands
  | repeatedStage
  /-- `fft2.f ... nm` (30_encoding R96). -/
  | normForward
deriving DecidableEq, Repr

/-- The plan of a stage list. -/
def planOfStages (l : List Stage) : Plan :=
  ⟨l.contains .br, l.contains .tw, l.contains .bf, l.contains .nm⟩

/-- A statement of format S. -/
def assembleS (a : AsmLine) (i : Instr) : Except AsmError Instr :=
  if a.suffix.isSome then .error .unexpectedSuffix
  else if a.operands.isSome then .error .unexpectedOperands
  else .ok i

/-- A statement of format D. -/
def assembleD (a : AsmLine) (i : Dir → Instr) : Except AsmError Instr :=
  match a.suffix with
  | none => .error .missingSuffix
  | some dir => if a.operands.isSome then .error .unexpectedOperands else .ok (i dir)

/-- A statement of format P. -/
def assembleP (a : AsmLine) : Except AsmError Instr :=
  match a.suffix, a.operands with
  | none, _ => .error .missingSuffix
  | some _, none => .error .missingOperands
  | some dir, some (space, stages) =>
    if !decide stages.Nodup then .error .repeatedStage
    else if (planOfStages stages).legal dir then .ok (.fft2 dir (planOfStages stages) space)
    else .error .normForward

/-- The assembler (30_encoding R104). -/
def assemble (a : AsmLine) : Except AsmError Instr :=
  match a.mnemonic with
  | "fft" => assembleD a .fft
  | "rfft" => assembleD a .rfft
  | "wsalloc" => assembleS a .wsalloc
  | "wsfree" => assembleS a .wsfree
  | "fft2" => assembleP a
  | "czt" => assembleD a .czt
  | "chirp" => assembleD a .chirp
  | "chirpmul" => assembleS a .chirpmul
  | "kernel" => assembleS a .kernel
  | "pmul" => assembleS a .pmul
  | "recover" => assembleS a .recover
  | "normn" => assembleS a .normn
  | "rmix" => assembleD a .rmix
  | "cadd" => assembleS a .cadd
  | "csub" => assembleS a .csub
  | "cmul" => assembleS a .cmul
  | "cdiv" => assembleS a .cdiv
  | "cexp" => assembleS a .cexp
  | "cconj" => assembleS a .cconj
  | _ => .error .unknownMnemonic

/-- The stages of a plan, in execution order. -/
def stagesOfPlan (p : Plan) : List Stage :=
  (if p.br then [.br] else []) ++ (if p.tw then [.tw] else []) ++ (if p.bf then [.bf] else [])
    ++ (if p.nm then [.nm] else [])

/-- The statement of a command (30_encoding R104). -/
def disassemble : Instr → AsmLine
  | .fft dir => ⟨"fft", some dir, none⟩
  | .rfft dir => ⟨"rfft", some dir, none⟩
  | .wsalloc => ⟨"wsalloc", none, none⟩
  | .wsfree => ⟨"wsfree", none, none⟩
  | .fft2 dir plan dsp => ⟨"fft2", some dir, some (dsp, stagesOfPlan plan)⟩
  | .czt dir => ⟨"czt", some dir, none⟩
  | .chirp dir => ⟨"chirp", some dir, none⟩
  | .chirpmul => ⟨"chirpmul", none, none⟩
  | .kernel => ⟨"kernel", none, none⟩
  | .pmul => ⟨"pmul", none, none⟩
  | .recover => ⟨"recover", none, none⟩
  | .normn => ⟨"normn", none, none⟩
  | .rmix dir => ⟨"rmix", some dir, none⟩
  | .cadd => ⟨"cadd", none, none⟩
  | .csub => ⟨"csub", none, none⟩
  | .cmul => ⟨"cmul", none, none⟩
  | .cdiv => ⟨"cdiv", none, none⟩
  | .cexp => ⟨"cexp", none, none⟩
  | .cconj => ⟨"cconj", none, none⟩

/-- A command statement stands for `wr CMD, <encoding>` (30_encoding R105). -/
def issueStatement (i : Instr) : HostEvent := .regWrite 0x08 64 ((encode i).setWidth 64)

/-- The pseudo-instructions (30_encoding R106). -/
inductive Pseudo where
  | forwardFft
  | inverseFft
  | forwardRealFft
  | inverseRealFft
  | bitrev (space : Space)
  | twgen (dir : Dir)
  | bfly (dir : Dir) (space : Space)
  | norm (space : Space)
  | fft2 (dir : Dir) (space : Space)
deriving DecidableEq, Repr

/-- The expansions of the pseudo-instructions (30_encoding R106). -/
def Pseudo.expand : Pseudo → List HostEvent
  | .forwardFft => [issueStatement (.fft .forward), .poll]
  | .inverseFft => [issueStatement (.fft .inverse), .poll]
  | .forwardRealFft => [issueStatement (.rfft .forward), .poll]
  | .inverseRealFft => [issueStatement (.rfft .inverse), .poll]
  | .bitrev space => [issueStatement (.fft2 .forward ⟨true, false, false, false⟩ space)]
  | .twgen dir => [issueStatement (.fft2 dir ⟨false, true, false, false⟩ .sig)]
  | .bfly dir space => [issueStatement (.fft2 dir ⟨false, false, true, false⟩ space)]
  | .norm space => [issueStatement (.fft2 .inverse ⟨false, false, false, true⟩ space)]
  | .fft2 .forward space => [issueStatement (.fft2 .forward ⟨true, true, true, false⟩ space)]
  | .fft2 .inverse space => [issueStatement (.fft2 .inverse ⟨true, true, true, true⟩ space)]

end Sys2Proof.Machine
end

