-- ==== Sys2Proof/Machine/Exact.lean ====
section
/-!
DEFINITION. The reference instantiation `Num = Exact` (00_scope R9, R10, R12): the engine's stages, which are written once
over `Num`, run over the real numbers; and the DFT of 00_scope R14 that they compute. No state of the machine holds a real
number; the claims about exact results are claims about the stage functions here (log entry 13).
-/

namespace Sys2Proof.Machine

open scoped BigOperators

/-- The sign of a direction: -1 forward, +1 inverse (00_scope R15). -/
def Dir.sign : Dir → ℤ
  | .forward => -1
  | .inverse => 1

/-- The real scalars: the field operations, division by zero without a quotient, and cos, sin, exp of the reals (00_scope
R10, R12). -/
noncomputable def exactScalar : Scalar ℝ where
  add a b := a + b
  sub a b := a - b
  mul a b := a * b
  div a b := if b = 0 then none else some (a / b)
  neg a := -a
  half a := a * (1 / 2)
  real n := n
  zero := 0
  cos := Real.cos
  sin := Real.sin
  exp := Real.exp

/-- `CIS(s, n, d)` exactly: (cos(sπn/d), sin(sπn/d)) (40_complex_alu R128). -/
noncomputable def exactCis (dir : Dir) (n d : Nat) : Cx ℝ :=
  ⟨Real.cos (Dir.sign dir * Real.pi * n / d), Real.sin (Dir.sign dir * Real.pi * n / d)⟩

/-- `Num = Exact` (00_scope R9). -/
noncomputable def exactNum : Num ℝ where
  toScalar := exactScalar
  cis := exactCis

/-- A sample over the reals as a complex number (00_scope R9). -/
def toComplex (c : Cx ℝ) : ℂ := ⟨c.re, c.im⟩

/-- The unnormalised DFT of sign s: `Σ_{n in [0,N)} x[n] · exp(s·2πi·n·k/N)` (00_scope R14, 41_radix2_fft R149). -/
noncomputable def dftSum (dir : Dir) (n : Nat) (x : Nat → ℂ) (k : Nat) : ℂ :=
  ∑ j ∈ Finset.range n, x j * Complex.exp (Dir.sign dir * 2 * Real.pi * Complex.I * j * k / n)

/-- The DFT of 00_scope R14: the forward transform is unnormalised, the inverse carries the factor 1/N. -/
noncomputable def dft (dir : Dir) (n : Nat) (x : Nat → ℂ) (k : Nat) : ℂ :=
  match dir with
  | .forward => dftSum .forward n x k
  | .inverse => 1 / n * dftSum .inverse n x k

/-- The signal buffer at word `base` holds the `n` complex samples `x` (20_memory R62). -/
def HoldsComplex (st : Store ℝ) (base n : Nat) (x : Nat → ℂ) : Prop :=
  ∀ k, k < n → ∃ c, sigCRead st base k = .ok c ∧ toComplex c = x k

/-- FFT2's data operand holds the samples `x` (41_radix2_fft R143). -/
def DataHolds (dsp : Space) (o : Operands) (st : Store ℝ) (x : Nat → ℂ) : Prop :=
  ∀ e, e < o.size → ∃ c, dataRead dsp o st e = .ok c ∧ toComplex c = x e

/-- The signal buffer at word `base` holds the `n` reals `x` (20_memory R62). -/
def HoldsReal (st : Store ℝ) (base n : Nat) (x : Nat → ℝ) : Prop :=
  ∀ k, k < n → cellGet st.sig (base + k) = some (x k)

/-- The packed spectrum of the N-point DFT of `n` reals (44_real_transform R231). -/
noncomputable def packedSpectrum (n : Nat) (x : Nat → ℝ) (k : Nat) : ℂ :=
  let spectrum := dft .forward n (fun j => (x j : ℂ))
  if k = 0 then ⟨(spectrum 0).re, (spectrum (n / 2)).re⟩ else spectrum k

end Sys2Proof.Machine
end

