-- ==== Sys2Proof/Safety.lean ====
section
/-!
DEFINITION. What counts as a good state and a safe run, in the terms the claims use.
-/

namespace Sys2Proof.Machine

/-- The invariant of the machine: the memories are canonical and lie in their address spaces, the workspace geometry is
that of a legal allocation, and STATUS holds only combinations the spec allows. -/
structure Inv (s : State) : Prop where
  /-- Memory is in canonical form. -/
  memWf : s.mem.wf = true
  /-- SIG lies below SIG_WORDS and WS below WSLEN; so WS holds no value while no workspace is allocated (20_memory R61,
  R63, R64). -/
  memWithin : s.mem.within s.cfg.sigWords s.wsLen = true
  /-- An allocated workspace is for a legal length and fits the capacity (43_driver_workspace R200, R201). -/
  wsLegal : s.wsValid = true → 1 ≤ s.wsN.toNat ∧ s.wsN.toNat ≤ nMax ∧ s.wsLen ≤ s.cfg.wsCapacity
  /-- WS_N is 0 while no workspace is allocated (10_state R39). -/
  wsNone : s.wsValid = false → s.wsN = 0
  /-- Codes 8 to 255 are never written (60_exceptions R260). -/
  errAssigned : s.err.toNat ≤ 7
  /-- ERR_INFO is 0 when ERR = NONE (10_state R29). -/
  errInfoNone : s.err = 0 → s.errInfo = 0
  /-- While a command runs, DONE, ERR and ERR_INFO are 0 (10_state R25). -/
  busyStatus : s.busy = true → s.done = false ∧ s.err = 0 ∧ s.errInfo = 0

/-- A command ended with success: BUSY 0, DONE 1, ERR NONE, ERR_INFO 0 (60_exceptions R262). -/
def State.Completed (s : State) : Prop :=
  s.running = none ∧ s.done = true ∧ s.err = 0 ∧ s.errInfo = 0

/-- The words `[lo, lo + count)` of the signal memory all hold a value (70_reset R302). -/
def SigReady {F : Type} (st : Store F) (lo count : Nat) : Prop :=
  ∀ k, k < count → (cellGet st.sig (lo + k)).isSome = true

/-- The workspace elements `[lo, lo + count)` all hold a value. -/
def WsReady {F : Type} (st : Store F) (lo count : Nat) : Prop :=
  ∀ k, k < count → (cellGet st.wsRe (lo + k)).isSome = true ∧ (cellGet st.wsIm (lo + k)).isSome = true

/-- The elements of FFT2's data operand all hold a value. -/
def DataReady {F : Type} (dsp : Space) (o : Operands) (st : Store F) : Prop :=
  ∀ e, e < o.size → ∃ c, dataRead dsp o st e = .ok c

/-- Everything a command may not touch: the parameters, the operand registers, CA, CB, OVERRUN, the fault list and the
host's side. -/
structure SameOperands (s t : State) : Prop where
  cfg : t.cfg = s.cfg
  len : t.len = s.len
  size : t.size = s.size
  stride : t.stride = s.stride
  dbase : t.dbase = s.dbase
  tbase : t.tbase = s.tbase
  sigBase : t.sigBase = s.sigBase
  wsIdx : t.wsIdx = s.wsIdx
  ca : t.ca = s.ca
  cb : t.cb = s.cb
  overrun : t.overrun = s.overrun
  faults : t.faults = s.faults
  inputs : t.inputs = s.inputs
  unseen : t.unseen = s.unseen
  raced : t.raced = s.raced
  rdData : t.rdData = s.rdData

section Frames

variable {F : Type}

/-- Every signal word outside `p` holds in `m'` what it held in `m`. -/
def SigKept (p : Nat → Prop) (m m' : Store F) : Prop :=
  ∀ w, ¬ p w → cellGet m'.sig w = cellGet m.sig w

/-- Every workspace component outside `p` holds in `m'` what it held in `m`. -/
def WsKept (p : Nat → Prop) (m m' : Store F) : Prop :=
  ∀ i, ¬ p i → cellGet m'.wsRe i = cellGet m.wsRe i ∧ cellGet m'.wsIm i = cellGet m.wsIm i

/-- The workspace holds in `m'` what it held in `m`. -/
def WsSame (m m' : Store F) : Prop := m'.wsRe = m.wsRe ∧ m'.wsIm = m.wsIm

/-- Word `w` belongs to the signal words of FFT2's data operand: the two words of one of its elements (41_radix2_fft
R143). -/
def Operands.IsDataWord (o : Operands) (w : Nat) : Prop :=
  ∃ e, e < o.size ∧ (w = o.sigBase + 2 * o.dataIndex e ∨ w = o.sigBase + 2 * o.dataIndex e + 1)

/-- Workspace index `i` belongs to FFT2's data operand (41_radix2_fft R143). -/
def Operands.IsDataElement (o : Operands) (i : Nat) : Prop := ∃ e, e < o.size ∧ i = o.dataIndex e

/-- Workspace index `i` belongs to FFT2's twiddle table (41_radix2_fft R144). -/
def Operands.IsTableEntry (o : Operands) (i : Nat) : Prop := ∃ k, k < o.size / 2 ∧ i = o.twiddleIndex k

/-- One layer of the butterfly network, as a function of the data `d` and the table `w`: half-span 2^t (41_radix2_fft
R147). -/
def butterflyLayer (num : Scalar F) (size : Nat) (w : Nat → Cx F) (t : Nat) (d : Nat → Cx F) (e : Nat) : Cx F :=
  let step := 2 ^ t
  let j := e % (2 * step)
  if j < step then cadd num (d e) (cmul num (w (j * (size / 2 / step))) (d (e + step)))
  else csub num (d (e - step)) (cmul num (w ((j - step) * (size / 2 / step))) (d e))

/-- The first `t` layers of the network, in turn. -/
def butterflyLayers (num : Scalar F) (size : Nat) (w : Nat → Cx F) : Nat → (Nat → Cx F) → Nat → Cx F
  | 0, d => d
  | t + 1, d => butterflyLayer num size w t (butterflyLayers num size w t d)

/-- 41_radix2_fft R140, R142: what the selected stages make of the data `d` and the table `w`, in the order BR, TW, BF, NM, with
`quot` the division by SIZE. -/
def fft2Result (num : Num F) (size b : Nat) (dir : Dir) (plan : Plan) (quot : Cx F → Cx F)
    (w d : Nat → Cx F) (e : Nat) : Cx F :=
  let permuted := if plan.br then fun e => d (bitRev b e) else d
  let table := if plan.tw then fun k => num.cis dir k (size / 2) else w
  let combined := if plan.bf then butterflyLayers num.toScalar size table b permuted else permuted
  if plan.nm then quot (combined e) else combined e

/-- The pair `(X[i], X[j])` of the forward mixing pass from `(C[i], C[j])` and the factor `w` (44_real_transform R233). -/
def mixedForward (num : Scalar F) (w ci cj : Cx F) : Cx F × Cx F :=
  let zx := chalf num (cadd num ci (cconj num cj))
  let zy := chalf num (cmulnegi num (csub num ci (cconj num cj)))
  let t := cmul num w zy
  (cadd num zx t, cconj num (csub num zx t))

/-- The pair `(C[i], C[j])` of the inverse mixing pass from `(Y[i], Y[j])` and the factor `w` (44_real_transform R234). -/
def mixedInverse (num : Scalar F) (w yi yj : Cx F) : Cx F × Cx F :=
  let zx := chalf num (cadd num yi (cconj num yj))
  let zy := cmul num (chalf num (csub num yi (cconj num yj))) w
  let t := cmuli num zy
  (cadd num zx t, cconj num (csub num zx t))

/-- Element `k` after a mixing pass over `h` elements, from the value `zero` of index 0 and the pairs `pair i = (X[i],
X[h-i])`; at the midpoint the first of the pair is written (44_real_transform R233 to R236). -/
def mixedAt (h : Nat) (zero : Cx F) (pair : Nat → Cx F × Cx F) (k : Nat) : Cx F :=
  if k = 0 then zero else if 2 * k ≤ h then (pair k).1 else (pair (h - k)).2

/-- The kernel of 42_bluestein R173: `b[0] = w[0]`, `b[k] = b[M-k] = conj(w[k])` for k in [1, N), zero elsewhere. -/
def kernelAt (num : Scalar F) (n : Nat) (w : Nat → Cx F) (k : Nat) : Cx F :=
  if k = 0 then w 0
  else if k < n then cconj num (w k)
  else if largerSize n - n < k then cconj num (w (largerSize n - k))
  else czero num

end Frames

/-- The conditions under which CZT and the step commands pass their checks (42_bluestein R170). -/
structure BluesteinReady (s : State) (touchesSig : Bool) : Prop where
  lenPos : 1 ≤ s.len.toNat
  lenMax : s.len.toNat ≤ nMax
  allocated : s.wsValid = true
  sameLength : s.wsN = s.len
  fits : touchesSig = true → s.sigBase.toNat + 2 * s.len.toNat ≤ s.cfg.sigWords

/-- The conditions under which FFT passes its checks and its allocation succeeds (43_driver_workspace R205, R201). -/
structure FftReady (s : State) : Prop where
  lenPos : 1 ≤ s.len.toNat
  lenMax : s.len.toNat ≤ nMax
  free : s.wsValid = false
  fits : s.sigBase.toNat + 2 * s.len.toNat ≤ s.cfg.sigWords
  memory : s.allocOk (wsLength s.len.toNat) = true

/-- The conditions under which RMIX passes its checks (44_real_transform R232). -/
structure RmixReady (s : State) : Prop where
  lenEven : s.len.toNat % 2 = 0
  lenPos : 1 ≤ s.len.toNat
  lenMax : s.len.toNat ≤ nMax
  fits : s.sigBase.toNat + s.len.toNat ≤ s.cfg.sigWords

/-- The conditions under which RFFT passes its checks and its allocation succeeds (44_real_transform R240). -/
structure RfftReady (s : State) : Prop extends RmixReady s where
  free : s.wsValid = false
  memory : s.allocOk (wsLength (s.len.toNat / 2)) = true

/-- A workspace is allocated if a plan uses a workspace range (41_radix2_fft R141). -/
def fft2WsOk (s : State) (plan : Plan) (dsp : Space) : Prop :=
  planNeedsData plan = true ∧ dsp = .ws ∨ planNeedsTable plan s.operands = true → s.wsValid = true

/-- SIZE is a power of two and at most 2^30 (41_radix2_fft R141). -/
def fft2SizeOk (s : State) : Prop := ∃ b, b ≤ 30 ∧ s.size.toNat = 2 ^ b

/-- STRIDE is not 0 if the plan touches data (41_radix2_fft R141). -/
def fft2StrideOk (s : State) (plan : Plan) : Prop := planNeedsData plan = true → s.stride.toNat ≠ 0

/-- The data operand fits its space, if the plan touches data (41_radix2_fft R141). -/
def fft2DataOk (s : State) (plan : Plan) (dsp : Space) : Prop :=
  planNeedsData plan = true →
    (dsp = .sig → s.sigBase.toNat + 2 * s.operands.last + 2 ≤ s.cfg.sigWords) ∧ (dsp = .ws → s.operands.last < s.wsLen)

/-- The twiddle table fits the workspace, if the plan uses it (41_radix2_fft R141). -/
def fft2TableOk (s : State) (plan : Plan) : Prop :=
  planNeedsTable plan s.operands = true → s.tbase.toNat + s.size.toNat / 2 ≤ s.wsLen

/-- The span of workspace data and the table do not overlap (41_radix2_fft R141). -/
def fft2ApartOk (s : State) (plan : Plan) (dsp : Space) : Prop :=
  planNeedsTable plan s.operands = true → planNeedsData plan = true → dsp = .ws →
    s.tbase.toNat + s.size.toNat / 2 ≤ s.dbase.toNat ∨ s.operands.last < s.tbase.toNat

/-- The conditions under which FFT2 passes its checks (41_radix2_fft R141). -/
structure Fft2Ready (s : State) (plan : Plan) (dsp : Space) : Prop where
  allocated : fft2WsOk s plan dsp
  size : fft2SizeOk s
  stride : fft2StrideOk s plan
  data : fft2DataOk s plan dsp
  table : fft2TableOk s plan
  apart : fft2ApartOk s plan dsp

/-- The operand registers of an FFT2 command written, the others as they were (10_state R31 to R34). -/
def State.withFft2 (s : State) (size stride dbase tbase : Nat) : State :=
  { s with
    size := BitVec.ofNat 32 size
    stride := BitVec.ofNat 32 stride
    dbase := BitVec.ofNat 32 dbase
    tbase := BitVec.ofNat 32 tbase }

/-- `r` is the binary64 of the given sign nearest to `n / d` units of 2^-1074: infinity from half a unit in the last place
above the largest finite value on, otherwise finite, no finite value being nearer, and of two equally near the one with
an even fraction (00_scope R10). -/
def NearestEven (sign : Bool) (n d : Nat) (r : F64) : Prop :=
  fSign r = sign ∧
  if (2 ^ 54 - 1) * 2 ^ 2044 * d ≤ n then fIsInf r = true
  else fIsFinite r = true ∧ ∀ c : F64, fIsFinite c = true →
    ((fMag r * d : ℤ) - n).natAbs ≤ ((fMag c * d : ℤ) - n).natAbs ∧
    (((fMag r * d : ℤ) - n).natAbs = ((fMag c * d : ℤ) - n).natAbs → fMag c ≠ fMag r → fFrac r % 2 = 0)

/-- The infinity of a sign. -/
def signedInf (sign : Bool) : F64 := if sign then 0xFFF0000000000000 else 0x7FF0000000000000

section Claims

/-- A command completes with success, changing nothing but the memories, which become `m`, and STATUS (60_exceptions
R262). -/
def Completes (i : Instr) (s : State) (m : Store F64) : Prop :=
  exec i s = .next { s with mem := m, running := none, done := true, err := 0, errInfo := 0 }

/-- A command ends with an error, changing nothing but STATUS (60_exceptions R262, R263). -/
def Raises (i : Instr) (s : State) (code : BitVec 8) (info : Word32) : Prop :=
  exec i s = .next { s with running := none, done := true, err := code, errInfo := info }

/-- Word `w` belongs to the signal buffer of the running command (20_memory R62). -/
def State.IsRunningWord (s : State) (w : Nat) : Prop := ∃ b, s.runningBuffer = some b ∧ b.1 ≤ w ∧ w < b.2

/-- The step from `s` executes the command `i` on the state `u`: it answers what `exec` answers; and where a host write
raced with the command, a next state of it differs in the words of the command's buffer that hold a value, which then hold
some value, and in the model's own `draws` and `raced` (93_implementation_defined I7, log entry 18). -/
def StepExecutes (s : State) (i : Instr) (u : State) : Prop :=
  (u.raced = false → step s = exec i u) ∧
  (u.raced = true →
    (∀ t, exec i u = .next t → ∃ c d,
      step s = .next { t with mem := { t.mem with sig := c }, draws := d, raced := false } ∧
      ∀ w, (cellGet c w).isSome = (cellGet t.mem.sig w).isSome ∧
        (¬ u.IsRunningWord w → cellGet c w = cellGet t.mem.sig w)) ∧
    ∀ f, exec i u = .fault f → step s = .fault f)

/-- A command ends the run with the record of the fault UNINIT and its own word (00_scope R17, 60_exceptions R270). -/
def RecordsUninit (i : Instr) (s : State) : Prop :=
  ∃ space index, exec i s = .fault (.recorded (s.faults ++ [⟨.uninit space index, some (encode i)⟩]))

/-- The step from `s` is the engine's turn if a command runs: nothing is pending, a poll is, or a host pause (log entry 6). -/
def State.EngineTurn (s : State) : Prop :=
  s.inputs = [] ∨ ∃ rest, s.inputs = .poll :: rest ∨ s.inputs = .engine :: rest

/-- An aligned 64-bit write of the register at `offset` has this effect while BUSY = 0 (10_state R20). -/
def HostWrites (offset : Nat) (effect : State → Word64 → State) : Prop :=
  ∀ (s : State) (v : Word64) (rest : List HostEvent), s.busy = false → s.inputs = .regWrite offset 64 v :: rest →
    step s = .next { effect s v with inputs := rest }

/-- An aligned 64-bit write of the register at `offset` is ignored, whether a command runs or not (10_state R20). -/
def HostIgnores (offset : Nat) : Prop :=
  ∀ (s : State) (v : Word64) (rest : List HostEvent), s.inputs = .regWrite offset 64 v :: rest →
    step s = .next { s with inputs := rest }

/-- An aligned 64-bit read of the register at `offset` returns this value and changes nothing (10_state R20). -/
def HostReads (offset : Nat) (value : State → Word64) : Prop :=
  ∀ (s : State) (rest : List HostEvent), s.inputs = .regRead offset 64 :: rest →
    step s = .next { s with inputs := rest, rdData := value s }

/-- The offsets of the registers whose writes are dropped while BUSY = 1 (10_state R48). -/
def busyOffsets : List Nat :=
  [0x08, 0x18, 0x20, 0x28, 0x30, 0x38, 0x40, 0x80, 0x88, 0x90, 0x98, 0xC0, 0xC8, 0xD0]

end Claims

/-- The value a step leaves when it answers a next state. -/
def nextState : Result → Option State
  | .next t => some t
  | .fault _ => none
  | .refused _ => none

end Sys2Proof.Machine

namespace Sys2Proof

section Classes

/-- The complex ALU commands (40_complex_alu R126). -/
def Instr.isAlu : Instr → Bool
  | .cadd | .csub | .cmul | .cdiv | .cexp | .cconj => true
  | .fft _ | .rfft _ | .wsalloc | .wsfree | .fft2 _ _ _ | .czt _ | .chirp _ | .chirpmul | .kernel | .pmul => false
  | .recover | .normn | .rmix _ => false

/-- CZT and the step commands, with whether they touch the signal buffer (42_bluestein R170). -/
def Instr.bluestein : Instr → Option Bool
  | .czt _ | .chirpmul | .recover | .normn => some true
  | .chirp _ | .kernel | .pmul => some false
  | .fft _ | .rfft _ | .wsalloc | .wsfree | .fft2 _ _ _ | .rmix _ => none
  | .cadd | .csub | .cmul | .cdiv | .cexp | .cconj => none

/-- The commands that write the signal memory. -/
def Instr.writesSig : Instr → Bool
  | .fft _ | .rfft _ | .czt _ | .recover | .normn | .rmix _ => true
  | .fft2 _ plan dsp => Machine.planNeedsData plan && dsp == .sig
  | .wsalloc | .wsfree | .chirp _ | .chirpmul | .kernel | .pmul => false
  | .cadd | .csub | .cmul | .cdiv | .cexp | .cconj => false

/-- The commands that write the workspace. -/
def Instr.writesWs : Instr → Bool
  | .fft _ | .rfft _ | .wsalloc | .wsfree | .czt _ | .chirp _ | .chirpmul | .kernel | .pmul => true
  | .fft2 _ plan dsp => plan.tw || (Machine.planNeedsData plan && dsp == .ws)
  | .recover | .normn | .rmix _ => false
  | .cadd | .csub | .cmul | .cdiv | .cexp | .cconj => false

/-- The commands that allocate a workspace (60_exceptions R260). -/
def Instr.allocates : Instr → Bool
  | .fft _ | .rfft _ | .wsalloc => true
  | .wsfree | .fft2 _ _ _ | .czt _ | .chirp _ | .chirpmul | .kernel | .pmul | .recover | .normn | .rmix _ => false
  | .cadd | .csub | .cmul | .cdiv | .cexp | .cconj => false

end Classes

end Sys2Proof
end

