-- ==== Sys2Proof/Certificates/Slice0/Obligations.lean ====
section
/-!
DEFINITION. The statements for the provers. Each docstring names the rule of spec/ that the statement formalises, or says
what it rests on. Statements about bits are about `Num = Binary64`, the machine's; statements whose name begins with Exact
are about the reference instantiation `Num = Exact` of the same stages (00_scope R9, log entry 13).
-/

open Sys2Proof Sys2Proof.Machine

/-! Encoding. -/

/-- 30_encoding R91, R92, R98: the word of every command decodes to that command, with its direction, its plan and its data
space. -/
def Obligations.DecodeEncodeRoundTrip : Prop :=
  ∀ i : Instr, i.wf = true → decode (encode i) = .ok i

/-- 30_encoding R97, R100, R102: a word that decodes is the one word of a well-formed command, so no bit of a legal word is
ignored. -/
def Obligations.EncodeDecodeRoundTrip : Prop :=
  ∀ (v : Word32) (i : Instr), decode v = .ok i → i.wf = true ∧ encode i = v

/-- 30_encoding R99: the decoder accepts exactly the words that match a row and do not fail R96, each row has the mask of its
format, the row carries the opcode of the command, and no word matches two rows. -/
def Obligations.DecodeAgreesWithMaskMatch : Prop :=
  (∀ v : Word32, (∃ i, decode v = .ok i) ↔
    (∃ r ∈ maskTable, v &&& r.mask = r.pattern) ∧
      ¬ (v.extractLsb' 0 8 = 0x20#8 ∧ v.getLsbD 12 = true ∧ v.getLsbD 8 = false)) ∧
  (∀ r ∈ maskTable, r.mask =
    if r.pattern ∈ [0x01#32, 0x02#32, 0x30#32, 0x31#32, 0x40#32] then 0xFFFFFEFF#32
    else if r.pattern = 0x20#32 then 0xFFFFA0FF#32 else 0xFFFFFFFF#32) ∧
  (∀ (v : Word32) (i : Instr), decode v = .ok i →
    ∃ r ∈ maskTable, v &&& r.mask = r.pattern ∧ r.pattern = i.opcode.setWidth 32) ∧
  ∀ v : Word32, ∀ r₁ ∈ maskTable, ∀ r₂ ∈ maskTable,
    v &&& r₁.mask = r₁.pattern → v &&& r₂.mask = r₂.pattern → r₁ = r₂

/-- 30_encoding R97: a word is illegal exactly in the listed cases, and the engine then raises ILLEGAL_CMD with ERR_INFO = the
word and changes no state other than STATUS. The engine takes its turn when nothing is pending, while a poll is pending, and
at a host pause, which it uses up; that schedule is the model's choice (log entry 6). -/
def Obligations.IllegalWordRaises : Prop :=
  (∀ v : Word32, (∃ e, decode v = .error e) ↔
    let op := v.extractLsb' 0 8
    let simple := op ∈ [0x10#8, 0x11#8, 0x32#8, 0x33#8, 0x34#8, 0x35#8, 0x36#8, 0x50#8, 0x51#8, 0x52#8, 0x53#8, 0x54#8,
      0x55#8]
    let directed := op ∈ [0x01#8, 0x02#8, 0x30#8, 0x31#8, 0x40#8]
    let planned := op = 0x20#8
    (¬ simple ∧ ¬ directed ∧ ¬ planned) ∨ (simple ∧ v.extractLsb' 8 24 ≠ 0) ∨ (directed ∧ v.extractLsb' 9 23 ≠ 0) ∨
    (planned ∧ (v.extractLsb' 16 16 ≠ 0 ∨ v.getLsbD 13 = true ∨ v.getLsbD 15 = true ∨
      (v.getLsbD 12 = true ∧ v.getLsbD 8 = false)))) ∧
  ∀ (s : State) (v : Word32) (e : DecodeError), s.running = some v → decode v = .error e →
    (s.inputs = [] ∨ (∃ rest, s.inputs = .poll :: rest) →
      step s = .next { s with running := none, done := true, err := 5, errInfo := v }) ∧
    ∀ rest, s.inputs = .engine :: rest →
      step s = .next { s with inputs := rest, running := none, done := true, err := 5, errInfo := v }

/-- 30_encoding R101: the words of the public operations and of the inner transforms. -/
def Obligations.SpecWordsDecode : Prop :=
  decode 0x00000001 = .ok (.fft .forward) ∧ decode 0x00000101 = .ok (.fft .inverse) ∧
  decode 0x00000002 = .ok (.rfft .forward) ∧ decode 0x00000102 = .ok (.rfft .inverse) ∧
  decode 0x00004E20 = .ok (.fft2 .forward ⟨true, true, true, false⟩ .ws) ∧
  decode 0x00004A20 = .ok (.fft2 .forward ⟨true, false, true, false⟩ .ws) ∧
  decode 0x00005F20 = .ok (.fft2 .inverse ⟨true, true, true, true⟩ .ws)

/-- 30_encoding R104: every well-formed command has a statement that assembles to it, whatever the assembler accepts is well
formed, the stages of a plan may stand in any order and each at most once, and the assembler refuses `fft2.f` with nm, an
unknown mnemonic, a repeated stage and a direction suffix on a format S mnemonic. Which refusal comes first where several
apply (repeatedStage before normForward, unexpectedSuffix whatever the operands) is the model's choice (log entry 14).
30_encoding R105: a command statement is a host write of CMD, and where BUSY = 0 the word it latches decodes to that command.
30_encoding R106: the expansion of every pseudo-instruction. -/
def Obligations.AssemblerRoundTrip : Prop :=
  (∀ i : Instr, i.wf = true → assemble (disassemble i) = .ok i) ∧
  (∀ (a : AsmLine) (i : Instr), assemble a = .ok i → i.wf = true) ∧
  (∀ (dir : Dir) (space : Space) (stages : List Stage), assemble ⟨"fft2", some dir, some (space, stages)⟩ =
    if ¬ stages.Nodup then .error .repeatedStage
    else if .nm ∈ stages ∧ dir = .forward then .error .normForward
    else .ok (.fft2 dir ⟨decide (.br ∈ stages), decide (.tw ∈ stages), decide (.bf ∈ stages), decide (.nm ∈ stages)⟩
      space)) ∧
  (∀ (mnemonic : String) (dir : Dir) (operands : Option (Space × List Stage)),
    mnemonic ∈ ["wsalloc", "wsfree", "chirpmul", "kernel", "pmul", "recover", "normn", "cadd", "csub", "cmul", "cdiv", "cexp",
      "cconj"] → assemble ⟨mnemonic, some dir, operands⟩ = .error .unexpectedSuffix) ∧
  (∀ a : AsmLine, (∀ i : Instr, (disassemble i).mnemonic ≠ a.mnemonic) → assemble a = .error .unknownMnemonic) ∧
  (∀ (i : Instr) (s : State) (rest : List HostEvent), i.wf = true → s.busy = false → s.inputs = issueStatement i :: rest →
    ∃ t v, step s = .next t ∧ t.inputs = rest ∧ t.running = some v ∧ decode v = .ok i) ∧
  ∀ p : Pseudo, ∃ i : Instr,
    assemble (match p with
      | .forwardFft => ⟨"fft", some .forward, none⟩
      | .inverseFft => ⟨"fft", some .inverse, none⟩
      | .forwardRealFft => ⟨"rfft", some .forward, none⟩
      | .inverseRealFft => ⟨"rfft", some .inverse, none⟩
      | .bitrev space => ⟨"fft2", some .forward, some (space, [.br])⟩
      | .twgen dir => ⟨"fft2", some dir, some (.sig, [.tw])⟩
      | .bfly dir space => ⟨"fft2", some dir, some (space, [.bf])⟩
      | .norm space => ⟨"fft2", some .inverse, some (space, [.nm])⟩
      | .fft2 .forward space => ⟨"fft2", some .forward, some (space, [.br, .tw, .bf])⟩
      | .fft2 .inverse space => ⟨"fft2", some .inverse, some (space, [.br, .tw, .bf, .nm])⟩) = .ok i ∧
    p.expand = issueStatement i :: (match p with
      | .forwardFft | .inverseFft | .forwardRealFft | .inverseRealFft => [.poll]
      | .bitrev _ | .twgen _ | .bfly _ _ | .norm _ | .fft2 _ _ => [])

/-! The step. -/

/-- 30_encoding R100, R105, 20_memory R75: while a command runs, the engine's turn (nothing pending, a poll pending, or a host
pause pending, which it uses up) executes exactly the decoded command; a word placed by `withFetchWord` is executed by the
next step; with nothing running a pending poll reads STATUS, ends, and ends the handshake of 20_memory R74, a host pause is
used up, and with nothing pending a step changes nothing (60_exceptions R280). The queue of pending moves, the pause, the poll
that stays pending while BUSY = 1 and `withFetchWord` are the model's choice of a schedule (log entry 6), the fields `rdData`
and `unseen` are its own (log entries 7 and 9), and what a command leaves with which a host write raced is its reading of the
race (log entry 18). -/
def Obligations.StepRunsDecodedInstruction : Prop :=
  (∀ (s : State) (v : Word32) (i : Instr), s.running = some v → decode v = .ok i →
    (s.inputs = [] → StepExecutes s i s) ∧
    (∀ rest, s.inputs = .poll :: rest → StepExecutes s i s) ∧
    (∀ rest, s.inputs = .engine :: rest → StepExecutes s i { s with inputs := rest })) ∧
  (∀ (s : State) (v : Word32) (i : Instr), decode v = .ok i → step (s.withFetchWord 32 v.toNat) = exec i (s.issue v)) ∧
  ∀ s : State, s.running = none →
    (s.inputs = [] → step s = .next s) ∧
    (∀ rest, s.inputs = .poll :: rest →
      step s = .next { s with inputs := rest, rdData := s.statusWord, unseen := [] }) ∧
    ∀ rest, s.inputs = .engine :: rest → step s = .next { s with inputs := rest }

/-! The register file. -/

/-- 10_state R23: a write of CMD while BUSY = 0 issues the command whose encoding is bits [31:0]; a read returns 0; a write
while BUSY = 1 is dropped. 20_memory R74 c: the issue begins the handshake on the command's signal buffer, and ends that of no
other. 20_memory R62, 70_reset R302: the buffer of each command, which holds every signal word of an FFT2 data operand. The
fields `unseen` and `raced` are the model's own record of the handshake, and the extent of an FFT2 buffer is its choice (log
entries 9 and 18). -/
def Obligations.CmdWriteIssues : Prop :=
  (∀ (s : State) (v : Word64) (rest : List HostEvent), s.busy = false → s.inputs = .regWrite 0x08 64 v :: rest →
    ∃ t : State, step s = .next t ∧
      t = { s with
        inputs := rest, running := some (v.extractLsb' 0 32), done := false, err := 0, errInfo := 0, unseen := t.unseen,
        raced := false } ∧
      ∀ w, t.inUnseen w = true ↔
        s.inUnseen w = true ∨ ∃ b, s.bufferOf (v.extractLsb' 0 32) = some b ∧ b.1 ≤ w ∧ w < b.2) ∧
  (∀ (s : State) (v : Word32) (i : Instr), decode v = .ok i →
    let base := s.sigBase.toNat
    s.bufferOf v = (match i with
      | .fft _ | .czt _ | .chirpmul | .recover | .normn => some (base, base + 2 * s.len.toNat)
      | .rfft _ | .rmix _ => some (base, base + s.len.toNat)
      | .fft2 _ plan .sig =>
        if planNeedsData plan = true ∧ s.size ≠ 0 then some (base, base + 2 * s.operands.last + 2) else none
      | .fft2 _ _ .ws | .wsalloc | .wsfree | .chirp _ | .kernel | .pmul => none
      | .cadd | .csub | .cmul | .cdiv | .cexp | .cconj => none) ∧
    ∀ dir plan w, i = .fft2 dir plan .sig → planNeedsData plan = true → s.operands.IsDataWord w →
      ∃ b, s.bufferOf v = some b ∧ b.1 ≤ w ∧ w < b.2) ∧
  HostReads 0x08 (fun _ => 0) ∧
  ∀ (s : State) (v : Word64) (rest : List HostEvent), s.busy = true → s.inputs = .regWrite 0x08 64 v :: rest →
    step s = .next { s with inputs := rest, overrun := true }

/-- 10_state R25: BUSY is set by the issue of a command, together with DONE, ERR and ERR_INFO going to 0, and cleared by its
completion in the engine's turn, together with DONE going to 1; nothing else writes it, but the reset (70_reset R290). The
issue does set it, and the engine's turn does complete the command: that one turn of the engine completes a command, and when
its turn is, are the model's choice (log entry 6). -/
def Obligations.BusyChangesOnlyAtIssueAndCompletion : Prop :=
  (∀ (s : State) (v : Word64) (rest : List HostEvent), s.busy = false → s.inputs = .regWrite 0x08 64 v :: rest →
    ∃ t, step s = .next t ∧ t.running = some (v.extractLsb' 0 32) ∧ t.done = false ∧ t.err = 0 ∧ t.errInfo = 0) ∧
  (∀ s t : State, s.busy = true → s.EngineTurn → step s = .next t → t.running = none ∧ t.done = true) ∧
  ∀ s t : State, step s = .next t →
    t.running = s.running ∨
    (s.busy = false ∧ (∃ v rest, s.inputs = .regWrite 0x08 64 v :: rest ∧ t.running = some (v.extractLsb' 0 32)) ∧
      t.done = false ∧ t.err = 0 ∧ t.errInfo = 0) ∨
    (s.busy = true ∧ s.EngineTurn ∧ t.running = none ∧ t.done = true) ∨
    (∃ rest, s.inputs = .reset :: rest ∧ t.running = none)

/-- 10_state R48: while BUSY = 1 a write to a register of the list is dropped and sets OVERRUN, and a read returns the
register's current value. For a geometry register, WSSTAT and the window that current value is the one before the command:
R48 lets such a read show an intermediate state, and the model's value is its own deduction (log entry 10). -/
def Obligations.WritesWhileBusyDropped : Prop :=
  (∀ (s : State) (offset : Nat) (v : Word64) (rest : List HostEvent), s.busy = true → offset ∈ busyOffsets →
    s.inputs = .regWrite offset 64 v :: rest → step s = .next { s with inputs := rest, overrun := true }) ∧
  ∀ (s : State) (offset : Nat) (r : Reg) (v : Word64) (rest : List HostEvent), s.busy = true →
    registerAt offset 64 = some r → s.readReg r = .ok v → s.inputs = .regRead offset 64 :: rest →
    step s = .next { s with inputs := rest, rdData := v }

/-- 10_state R27: OVERRUN is set by a write of R48's list that arrives while BUSY = 1 and by nothing else, and stays 1 until
the host writes STATUS with bit 2 set, or reset. -/
def Obligations.OverrunIsSticky : Prop :=
  ∀ s t : State, step s = .next t →
    let cleared := (∃ v rest, s.inputs = .regWrite 0x10 64 v :: rest ∧ v.getLsbD 2 = true) ∨
      ∃ rest, s.inputs = .reset :: rest
    let set := s.busy = true ∧ ∃ offset v rest, s.inputs = .regWrite offset 64 v :: rest ∧ offset ∈ busyOffsets
    (cleared → t.overrun = false) ∧ (set → t.overrun = true) ∧ (¬ cleared → ¬ set → t.overrun = s.overrun)

/-- 10_state R24: the fields of STATUS as a read shows them; a write with bit 2 set clears OVERRUN, and every other bit of the
written word is ignored; STATUS is 0 after reset. -/
def Obligations.StatusFields : Prop :=
  (∀ (s : State) (rest : List HostEvent), s.inputs = .regRead 0x10 64 :: rest →
    ∃ u v, step s = .next { s with inputs := rest, rdData := v, unseen := u } ∧
      v.getLsbD 0 = s.running.isSome ∧ v.getLsbD 1 = s.done ∧ v.getLsbD 2 = s.overrun ∧ v.extractLsb' 3 5 = 0 ∧
      v.extractLsb' 8 8 = s.err ∧ v.extractLsb' 16 16 = 0 ∧ v.extractLsb' 32 32 = s.errInfo) ∧
  (∀ (s : State) (v : Word64) (rest : List HostEvent), s.inputs = .regWrite 0x10 64 v :: rest →
    step s = .next { s with inputs := rest, overrun := s.overrun && !v.getLsbD 2 }) ∧
  State.reset.statusWord = 0

/-- 10_state R22, R41: an integer register stores bits [31:0] of the written word and reads zero-extended; CA and CB store and
return all 64 bits, and are +0.0 after reset. -/
def Obligations.ReadWriteRegisters : Prop :=
  (HostWrites 0x18 (fun s v => { s with len := v.extractLsb' 0 32 }) ∧ HostReads 0x18 (fun s => s.len.setWidth 64)) ∧
  (HostWrites 0x20 (fun s v => { s with size := v.extractLsb' 0 32 }) ∧ HostReads 0x20 (fun s => s.size.setWidth 64)) ∧
  (HostWrites 0x28 (fun s v => { s with stride := v.extractLsb' 0 32 }) ∧ HostReads 0x28 (fun s => s.stride.setWidth 64)) ∧
  (HostWrites 0x30 (fun s v => { s with dbase := v.extractLsb' 0 32 }) ∧ HostReads 0x30 (fun s => s.dbase.setWidth 64)) ∧
  (HostWrites 0x38 (fun s v => { s with tbase := v.extractLsb' 0 32 }) ∧ HostReads 0x38 (fun s => s.tbase.setWidth 64)) ∧
  (HostWrites 0x40 (fun s v => { s with sigBase := v.extractLsb' 0 32 }) ∧ HostReads 0x40 (fun s => s.sigBase.setWidth 64)) ∧
  (HostWrites 0xC0 (fun s v => { s with wsIdx := v.extractLsb' 0 32 }) ∧ HostReads 0xC0 (fun s => s.wsIdx.setWidth 64)) ∧
  (HostWrites 0x80 (fun s v => { s with ca := ⟨v, s.ca.im⟩ }) ∧ HostReads 0x80 (fun s => s.ca.re)) ∧
  (HostWrites 0x88 (fun s v => { s with ca := ⟨s.ca.re, v⟩ }) ∧ HostReads 0x88 (fun s => s.ca.im)) ∧
  (HostWrites 0x90 (fun s v => { s with cb := ⟨v, s.cb.im⟩ }) ∧ HostReads 0x90 (fun s => s.cb.re)) ∧
  (HostWrites 0x98 (fun s v => { s with cb := ⟨s.cb.re, v⟩ }) ∧ HostReads 0x98 (fun s => s.cb.im)) ∧
  State.reset.ca = ⟨0, 0⟩ ∧ State.reset.cb = ⟨0, 0⟩

/-- 10_state R21, R36 to R40, R42, R44: what the read-only registers and the reserved offsets read as, that their writes are
ignored, and that an access of another width or at an offset not a multiple of 8 is refused (R20). For LARGER, WSLEN, R1BASE to
R4BASE and WSSTAT the value while BUSY = 1 is the one before the command, the model's own deduction (log entry 10). -/
def Obligations.ReadOnlyRegisters : Prop :=
  HostReads 0x00 (fun _ => 0x0000000746465443) ∧
  HostReads 0x48 (fun s => if s.wsValid then BitVec.ofNat 64 (largerSize s.wsN.toNat) else 0) ∧
  HostReads 0x50 (fun s => if s.wsValid then
    BitVec.ofNat 64 (s.wsN.toNat + 2 * largerSize s.wsN.toNat + largerSize s.wsN.toNat / 2) else 0) ∧
  HostReads 0x58 (fun _ => 0) ∧
  HostReads 0x60 (fun s => if s.wsValid then s.wsN.setWidth 64 else 0) ∧
  HostReads 0x68 (fun s => if s.wsValid then BitVec.ofNat 64 (s.wsN.toNat + largerSize s.wsN.toNat) else 0) ∧
  HostReads 0x70 (fun s => if s.wsValid then BitVec.ofNat 64 (s.wsN.toNat + 2 * largerSize s.wsN.toNat) else 0) ∧
  HostReads 0x78 (fun s => if s.wsValid then s.wsN ++ 1#32 else 0) ∧
  HostReads 0xA0 (fun s => s.cr.re) ∧ HostReads 0xA8 (fun s => s.cr.im) ∧
  HostReads 0xB0 (fun s => BitVec.ofNat 64 s.cfg.wsCapacity) ∧ HostReads 0xB8 (fun s => BitVec.ofNat 64 s.cfg.sigWords) ∧
  (∀ offset ∈ [0xD8, 0xE0, 0xE8, 0xF0, 0xF8], HostReads offset (fun _ => 0)) ∧
  (∀ offset ∈ [0x00, 0x48, 0x50, 0x58, 0x60, 0x68, 0x70, 0x78, 0xA0, 0xA8, 0xB0, 0xB8, 0xD8, 0xE0, 0xE8, 0xF0, 0xF8],
    HostIgnores offset) ∧
  ∀ (s : State) (offset width : Nat) (v : Word64) (rest : List HostEvent), width ≠ 64 ∨ offset % 8 ≠ 0 →
    (s.inputs = .regWrite offset width v :: rest ∨ s.inputs = .regRead offset width :: rest) →
    step s = .refused (.registerAccess offset width)

/-- 10_state R43: the workspace window. While it is open a read returns the component of the element WSIDX, or records the
fault UNINIT if that component holds no value, and a write stores that component alone; while it is closed reads return 0 and
writes are ignored. That a read looks at its own component alone is the model's reading (log entry 16), that a read while
BUSY = 1 shows the window as it is before the command is its deduction (log entry 10), and that the record carries no command
word and ends the run is its choice (log entry 5). -/
def Obligations.WindowAccess : Prop :=
  ∀ (s : State) (rest : List HostEvent),
    let index := s.wsIdx.toNat
    let isOpen := s.wsValid = true ∧ index < s.wsLen
    (s.inputs = .regRead 0xC8 64 :: rest →
      (∀ v, isOpen → cellGet s.mem.wsRe index = some v → step s = .next { s with inputs := rest, rdData := v }) ∧
      (isOpen → cellGet s.mem.wsRe index = none →
        step s = .fault (.recorded (s.faults ++ [⟨.uninit .ws index, none⟩]))) ∧
      (¬ isOpen → step s = .next { s with inputs := rest, rdData := 0 })) ∧
    (s.inputs = .regRead 0xD0 64 :: rest →
      (∀ v, isOpen → cellGet s.mem.wsIm index = some v → step s = .next { s with inputs := rest, rdData := v }) ∧
      (isOpen → cellGet s.mem.wsIm index = none →
        step s = .fault (.recorded (s.faults ++ [⟨.uninit .ws index, none⟩]))) ∧
      (¬ isOpen → step s = .next { s with inputs := rest, rdData := 0 })) ∧
    (∀ v, s.busy = false → s.inputs = .regWrite 0xC8 64 v :: rest →
      (isOpen → ∃ c, step s = .next { s with inputs := rest, mem := { s.mem with wsRe := c } } ∧
        cellGet c index = some v ∧ ∀ i, i ≠ index → cellGet c i = cellGet s.mem.wsRe i) ∧
      (¬ isOpen → step s = .next { s with inputs := rest })) ∧
    (∀ v, s.busy = false → s.inputs = .regWrite 0xD0 64 v :: rest →
      (isOpen → ∃ c, step s = .next { s with inputs := rest, mem := { s.mem with wsIm := c } } ∧
        cellGet c index = some v ∧ ∀ i, i ≠ index → cellGet c i = cellGet s.mem.wsIm i) ∧
      (¬ isOpen → step s = .next { s with inputs := rest }))

/-- 70_reset R290: what the reset leaves, of every state component, when no command runs; and the state at the model's start,
where no signal word holds a value. -/
def Obligations.ResetValues : Prop :=
  (∀ (s : State) (rest : List HostEvent), s.running = none → s.inputs = .reset :: rest → ∃ t, step s = .next t ∧
    t.readReg .id = .ok 0x0000000746465443 ∧ t.readReg .status = .ok 0 ∧
    t.len = 0 ∧ t.size = 0 ∧ t.stride = 0 ∧ t.dbase = 0 ∧ t.tbase = 0 ∧ t.sigBase = 0 ∧ t.wsIdx = 0 ∧
    t.ca = ⟨0, 0⟩ ∧ t.cb = ⟨0, 0⟩ ∧ t.cr = ⟨0, 0⟩ ∧ t.wsValid = false ∧ t.wsN = 0 ∧
    (∀ r ∈ [Reg.larger, .wslen, .r1base, .r2base, .r3base, .r4base, .wsstat], t.readReg r = .ok 0) ∧
    t.readReg .wscap = .ok (BitVec.ofNat 64 s.cfg.wsCapacity) ∧
    t.readReg .sigwords = .ok (BitVec.ofNat 64 s.cfg.sigWords) ∧
    (∀ i, cellGet t.mem.wsRe i = none ∧ cellGet t.mem.wsIm i = none) ∧ t.faults = [] ∧
    (∀ w, cellGet t.mem.sig w = cellGet s.mem.sig w) ∧ t.cfg = s.cfg) ∧
  (State.reset.statusWord = 0 ∧ State.reset.wsValid = false ∧ State.reset.faults = [] ∧
    ∀ w, cellGet State.reset.mem.sig w = none)

/-- 70_reset R291: a reset while a command runs ends it at once; every component is then as after R290, and every signal word
outside the command's buffer is unchanged. Nothing is said of the words in the buffer. The extent of an FFT2 buffer is the
model's (log entry 9). -/
def Obligations.ResetDuringCommand : Prop :=
  ∀ (s : State) (v : Word32) (rest : List HostEvent), s.running = some v → s.inputs = .reset :: rest →
    ∃ t, step s = .next t ∧ t.running = none ∧ t.statusWord = 0 ∧
      t.len = 0 ∧ t.size = 0 ∧ t.stride = 0 ∧ t.dbase = 0 ∧ t.tbase = 0 ∧ t.sigBase = 0 ∧ t.wsIdx = 0 ∧
      t.ca = ⟨0, 0⟩ ∧ t.cb = ⟨0, 0⟩ ∧ t.cr = ⟨0, 0⟩ ∧ t.wsValid = false ∧ t.wsN = 0 ∧
      t.mem.wsRe = [] ∧ t.mem.wsIm = [] ∧ t.faults = [] ∧ t.cfg = s.cfg ∧
      ∀ w, (∀ b, s.bufferOf v = some b → ¬ (b.1 ≤ w ∧ w < b.2)) → cellGet t.mem.sig w = cellGet s.mem.sig w

/-- 20_memory R61, R71, R74, 70_reset R305: the host's accesses to the signal memory. A write stores its word and no other; a
read returns the word or records the fault UNINIT; between the issue of a command and the read of STATUS that shows BUSY = 0,
a read of the command's buffer returns some value, and a write of it is a race, after which every word it touches holds some
value; and that read of STATUS opens every buffer again. The model's choices in it: the fault at or above SIG_WORDS (log entry
11), the list `unseen` and its end as a whole (log entry 9), the counted draws (log entry 8), the value read (log entry 7), the
words a race touches and the mark `raced` (log entry 18), and that a record ends the run (log entry 5). -/
def Obligations.SignalMemoryAccess : Prop :=
  (∀ (s : State) (w : Nat) (v : Word64) (rest : List HostEvent), s.inputs = .sigWrite w v :: rest →
    (s.cfg.sigWords ≤ w → step s = .fault (.sigRange w)) ∧
    (w < s.cfg.sigWords → s.inUnseen w = true →
      ∃ c d r, step s = .next { s with inputs := rest, mem := { s.mem with sig := c }, draws := d, raced := r } ∧
        (r = true ↔ s.raced = true ∨ s.IsRunningWord w) ∧
        ∀ i, (cellGet c i).isSome = (decide (i = w) || (cellGet s.mem.sig i).isSome) ∧
          (i ≠ w → ¬ (s.IsRunningWord w ∧ s.IsRunningWord i) → cellGet c i = cellGet s.mem.sig i)) ∧
    (w < s.cfg.sigWords → s.inUnseen w = false →
      ∃ c, step s = .next { s with inputs := rest, mem := { s.mem with sig := c } } ∧
        cellGet c w = some v ∧ ∀ i, i ≠ w → cellGet c i = cellGet s.mem.sig i)) ∧
  (∀ (s : State) (w : Nat) (rest : List HostEvent), s.inputs = .sigRead w :: rest →
    (s.cfg.sigWords ≤ w → step s = .fault (.sigRange w)) ∧
    (w < s.cfg.sigWords → s.inUnseen w = true →
      ∃ v, step s = .next { s with inputs := rest, rdData := v, draws := s.draws + 1 }) ∧
    (w < s.cfg.sigWords → s.inUnseen w = false →
      (∀ v, cellGet s.mem.sig w = some v → step s = .next { s with inputs := rest, rdData := v }) ∧
      (cellGet s.mem.sig w = none → step s = .fault (.recorded (s.faults ++ [⟨.uninit .sig w, none⟩]))))) ∧
  ∀ (s t : State) (rest : List HostEvent), s.inputs = .regRead 0x10 64 :: rest ∨ s.inputs = .poll :: rest →
    s.busy = false → step s = .next t → ∀ w, t.inUnseen w = false

/-! The whole machine. -/

/-- The invariant holds right after reset. -/
def Obligations.InvHoldsAtReset : Prop := Inv State.reset

/-- Every step keeps the invariant: the memories stay canonical and inside their address spaces, the workspace geometry stays
that of a legal allocation, and STATUS stays a combination the spec allows (20_memory R61, R63, 10_state R25, R29, R39,
60_exceptions R260). -/
def Obligations.StepKeepsInv : Prop :=
  ∀ s t : State, Inv s → step s = .next t → Inv t

/-- The frame of every command (10_state R42, R47, R48, 20_memory R61, 40_complex_alu R126, 60_exceptions R262): the parameters,
the operand registers, CA, CB, OVERRUN, the fault list and the host's side are unchanged; only the complex ALU commands write
CR; each memory is unchanged by the commands that do not write it; no signal word outside the command's buffer changes; and
only the commands that allocate or release change WS_VALID and WS_N, only those that allocate use up a draw. -/
def Obligations.CommandFrame : Prop :=
  ∀ (i : Instr) (s t : State), exec i s = .next t →
    SameOperands s t ∧
    (i.isAlu = false → t.cr = s.cr) ∧
    (i.writesSig = false → t.mem.sig = s.mem.sig) ∧
    (i.writesWs = false → WsSame s.mem t.mem) ∧
    SigKept (fun w => ∃ b, signalBuffer s.operands i = some b ∧ b.1 ≤ w ∧ w < b.2) s.mem t.mem ∧
    (i.allocates = false → i ≠ .wsfree → t.wsValid = s.wsValid ∧ t.wsN = s.wsN) ∧
    (i.allocates = false → t.draws = s.draws)

/-- 60_exceptions R263: every command that answers a next state has ended, with BUSY 0 and DONE 1; with ERR = NONE its ERR_INFO
is 0; and one that ends with an error leaves all state but STATUS exactly as it was (and, where the outcome of an allocation
is a free draw, the model's own count of draws). -/
def Obligations.ErrorsChangeOnlyStatus : Prop :=
  ∀ (i : Instr) (s t : State), exec i s = .next t →
    t.running = none ∧ t.done = true ∧ t.overrun = s.overrun ∧ (t.err = 0 → t.errInfo = 0) ∧
    (t.err ≠ 0 → t = { s with running := none, done := true, err := t.err, errInfo := t.errInfo, draws := t.draws }) ∧
    (s.cfg.allocNondet = false → t.draws = s.draws)

/-- 60_exceptions R267, R270: a command either answers a next state or records the fault UNINIT with its own word; none is
refused and no division faults; and the sticky fault list of a run that goes on changes only at reset. 00_scope R17, 20_memory
R61, R63: a command whose checks pass and that reads a signal word or a workspace component holding no value does record it:
what each command of 42_bluestein, 43_driver_workspace and 44_real_transform reads, and of FFT2 the elements that BR moves, all
elements for NM and for BF on at least two, and the table for BF without TW. That the record ends the run is the model's choice
(log entry 5). -/
def Obligations.CommandsStopOnlyOnUninit : Prop :=
  (∀ (i : Instr) (s : State), (∃ t, exec i s = .next t) ∨ RecordsUninit i s) ∧
  (∀ s : State,
    let n := s.len.toNat
    let base := s.sigBase.toNat
    (BluesteinReady s true → ¬ (WsReady s.mem 0 n ∧ SigReady s.mem base (2 * n)) → RecordsUninit .chirpmul s) ∧
    (BluesteinReady s false → ¬ WsReady s.mem 0 n → RecordsUninit .kernel s) ∧
    (BluesteinReady s false → ¬ WsReady s.mem n (2 * largerSize n) → RecordsUninit .pmul s) ∧
    (BluesteinReady s true → ¬ WsReady s.mem 0 (2 * n) → RecordsUninit .recover s) ∧
    (BluesteinReady s true → ¬ SigReady s.mem base (2 * n) → RecordsUninit .normn s) ∧
    ∀ dir : Dir,
      (BluesteinReady s true → ¬ SigReady s.mem base (2 * n) → RecordsUninit (.czt dir) s) ∧
      (FftReady s → ¬ SigReady s.mem base (2 * n) → RecordsUninit (.fft dir) s) ∧
      (RmixReady s → ¬ SigReady s.mem base n → RecordsUninit (.rmix dir) s) ∧
      (RfftReady s → ¬ SigReady s.mem base n → RecordsUninit (.rfft dir) s)) ∧
  (∀ (dir : Dir) (plan : Plan) (dsp : Space) (s : State) (b : Nat),
    let o := s.operands
    Fft2Ready s plan dsp → o.size = 2 ^ b →
    (plan.br = true → ¬ (∀ e, e < o.size → bitRev b e ≠ e → ∃ c, dataRead dsp o s.mem e = .ok c) →
      RecordsUninit (.fft2 dir plan dsp) s) ∧
    (plan.nm = true ∨ plan.bf = true ∧ 2 ≤ o.size → ¬ DataReady dsp o s.mem → RecordsUninit (.fft2 dir plan dsp) s) ∧
    (plan.bf = true → plan.tw = false → ¬ WsReady s.mem o.tbase (o.size / 2) → RecordsUninit (.fft2 dir plan dsp) s)) ∧
  ∀ s t : State, step s = .next t → t.faults = s.faults ∨ ((∃ rest, s.inputs = .reset :: rest) ∧ t.faults = [])

/-- 20_memory R70 b, 43_driver_workspace R202: an allocated workspace keeps its length, and so its partition, through every step,
until the engine runs WSFREE, in its own step, or the platform resets. -/
def Obligations.WorkspaceFixedUntilFreed : Prop :=
  ∀ s t : State, s.wsValid = true → step s = .next t →
    (t.wsValid = true ∧ t.wsN = s.wsN) ∨
    (s.running = some (encode .wsfree) ∧ s.EngineTurn ∧ t.running = none ∧ t.wsValid = false) ∨
    ∃ rest, s.inputs = .reset :: rest

/-! Errors and their priority. -/

/-- 42_bluestein R170: the checks of CZT and the step commands, in order; when all pass, no error is raised. -/
def Obligations.BluesteinErrors : Prop :=
  ∀ (i : Instr) (s : State) (touchesSig : Bool), i.bluestein = some touchesSig →
    let n := s.len.toNat
    (n = 0 → Raises i s 3 0x18) ∧
    (nMax < n → Raises i s 4 0x18) ∧
    (1 ≤ n → n ≤ nMax → (s.wsValid = false ∨ s.wsN ≠ s.len) → Raises i s 6 0x78) ∧
    (1 ≤ n → n ≤ nMax → s.wsValid = true → s.wsN = s.len → touchesSig = true →
      s.cfg.sigWords < s.sigBase.toNat + 2 * n → Raises i s 7 0x40) ∧
    (BluesteinReady s touchesSig → ∀ t, exec i s = .next t → t.err = 0)

/-- 41_radix2_fft R141: the checks of FFT2, in order; when all pass, no error is raised. -/
def Obligations.Fft2Errors : Prop :=
  ∀ (dir : Dir) (plan : Plan) (dsp : Space) (s : State),
    let i := Instr.fft2 dir plan dsp
    (¬ fft2WsOk s plan dsp → Raises i s 6 0x78) ∧
    (fft2WsOk s plan dsp → ¬ fft2SizeOk s → Raises i s 7 0x20) ∧
    (fft2WsOk s plan dsp → fft2SizeOk s → ¬ fft2StrideOk s plan → Raises i s 7 0x28) ∧
    (fft2WsOk s plan dsp → fft2SizeOk s → fft2StrideOk s plan → ¬ fft2DataOk s plan dsp → Raises i s 7 0x30) ∧
    (fft2WsOk s plan dsp → fft2SizeOk s → fft2StrideOk s plan → fft2DataOk s plan dsp → ¬ fft2TableOk s plan →
      Raises i s 7 0x38) ∧
    (fft2WsOk s plan dsp → fft2SizeOk s → fft2StrideOk s plan → fft2DataOk s plan dsp → fft2TableOk s plan →
      ¬ fft2ApartOk s plan dsp → Raises i s 7 0x38) ∧
    (Fft2Ready s plan dsp → ∀ t, exec i s = .next t → t.err = 0)

/-- 44_real_transform R243: every odd length reports ODD_LENGTH with ERR_INFO = N, from RFFT and RMIX in both directions,
whatever else holds, and changes nothing but STATUS. -/
def Obligations.OddLengthFirst : Prop :=
  ∀ (dir : Dir) (s : State), s.len.toNat % 2 = 1 → Raises (.rfft dir) s 2 s.len ∧ Raises (.rmix dir) s 2 s.len

/-- 43_driver_workspace R200, R205, R206, R208, 44_real_transform R232, R240, R244, 60_exceptions R264: the errors of WSALLOC,
FFT, RFFT and RMIX after ODD_LENGTH, in order; OUT_OF_MEMORY comes last, with the workspace length asked for, and leaves
everything but STATUS (and the model's count of draws) as it was. -/
def Obligations.DriverErrors : Prop :=
  ∀ (dir : Dir) (s : State),
    let n := s.len.toNat
    let base := s.sigBase.toNat
    let outOfMemory := fun (i : Instr) (len : Nat) => ∃ d, exec i s = .next { s with
      running := none, done := true, err := 1, errInfo := BitVec.ofNat 32 len, draws := d }
    ((n = 0 → Raises .wsalloc s 3 0x18) ∧ (nMax < n → Raises .wsalloc s 4 0x18) ∧
      (1 ≤ n → n ≤ nMax → s.wsValid = true → Raises .wsalloc s 6 0x78) ∧
      (1 ≤ n → n ≤ nMax → s.wsValid = false → s.allocOk (wsLength n) = false → outOfMemory .wsalloc (wsLength n))) ∧
    ((n = 0 → Raises (.fft dir) s 3 0x18) ∧ (nMax < n → Raises (.fft dir) s 4 0x18) ∧
      (1 ≤ n → n ≤ nMax → s.wsValid = true → Raises (.fft dir) s 6 0x78) ∧
      (1 ≤ n → n ≤ nMax → s.wsValid = false → s.cfg.sigWords < base + 2 * n → Raises (.fft dir) s 7 0x40) ∧
      (1 ≤ n → n ≤ nMax → s.wsValid = false → base + 2 * n ≤ s.cfg.sigWords → s.allocOk (wsLength n) = false →
        outOfMemory (.fft dir) (wsLength n))) ∧
    (n % 2 = 0 → (n = 0 → Raises (.rfft dir) s 3 0x18) ∧ (nMax < n → Raises (.rfft dir) s 4 0x18) ∧
      (1 ≤ n → n ≤ nMax → s.wsValid = true → Raises (.rfft dir) s 6 0x78) ∧
      (1 ≤ n → n ≤ nMax → s.wsValid = false → s.cfg.sigWords < base + n → Raises (.rfft dir) s 7 0x40) ∧
      (1 ≤ n → n ≤ nMax → s.wsValid = false → base + n ≤ s.cfg.sigWords → s.allocOk (wsLength (n / 2)) = false →
        outOfMemory (.rfft dir) (wsLength (n / 2)))) ∧
    (n % 2 = 0 → (n = 0 → Raises (.rmix dir) s 3 0x18) ∧ (nMax < n → Raises (.rmix dir) s 4 0x18) ∧
      (1 ≤ n → n ≤ nMax → s.cfg.sigWords < base + n → Raises (.rmix dir) s 7 0x40))

/-! The complex ALU. -/

/-- 40_complex_alu R120, R121: CADD and CSUB write the componentwise sum and difference to CR and complete, and change nothing
else; the sum is commutative bit for bit; the exact sum of finite values overflows to the infinity of its sign; opposite
infinities, and equal infinities subtracted, give NAN_RESULT; (+0) + (-0) and x - x for finite x are +0. -/
def Obligations.CaddCsubResult : Prop :=
  (∀ s : State, exec .cadd s = .next { s with
    cr := ⟨fadd s.cfg s.ca.re s.cb.re, fadd s.cfg s.ca.im s.cb.im⟩, running := none, done := true, err := 0, errInfo := 0 }) ∧
  (∀ s : State, exec .csub s = .next { s with
    cr := ⟨fsub s.cfg s.ca.re s.cb.re, fsub s.cfg s.ca.im s.cb.im⟩, running := none, done := true, err := 0, errInfo := 0 }) ∧
  ∀ p : Params,
    (∀ a b : Cx F64, cadd (b64Scalar p) a b = cadd (b64Scalar p) b a) ∧
    (∀ a b : F64, fIsFinite a = true → fIsFinite b = true → (2 ^ 54 - 1) * 2 ^ 2044 ≤ (fUnits a + fUnits b).natAbs →
      fIsInf (fadd p a b) = true ∧ fSign (fadd p a b) = decide (fUnits a + fUnits b < 0)) ∧
    (∀ a b : F64, fIsFinite a = true → fIsFinite b = true → (2 ^ 54 - 1) * 2 ^ 2044 ≤ (fUnits a - fUnits b).natAbs →
      fIsInf (fsub p a b) = true ∧ fSign (fsub p a b) = decide (fUnits a - fUnits b < 0)) ∧
    (∀ a b : F64, fIsInf a = true → fIsInf b = true → fSign a ≠ fSign b → fadd p a b = nanResult p) ∧
    (∀ a b : F64, fIsInf a = true → fIsInf b = true → fSign a = fSign b → fsub p a b = nanResult p) ∧
    fIsNaN (nanResult p) = true ∧
    fadd p fZero 0x8000000000000000 = fZero ∧
    (∀ a : F64, fIsFinite a = true → fsub p a a = fZero) ∧
    cadd (b64Scalar p) ⟨freal 1, freal 2⟩ ⟨freal 3, fneg (freal 1)⟩ = ⟨freal 4, freal 1⟩ ∧
    csub (b64Scalar p) ⟨freal 1, freal 2⟩ ⟨freal 3, fneg (freal 1)⟩ = ⟨fneg (freal 2), freal 3⟩

/-- 40_complex_alu R122: CMUL writes the four-multiply product, each operation rounded, to CR and completes, and changes
nothing else; the product is commutative bit for bit; an infinite component times a zero component gives a NaN. -/
def Obligations.CmulResult : Prop :=
  (∀ s : State, exec .cmul s = .next { s with
    cr := ⟨fsub s.cfg (fmul s.cfg s.ca.re s.cb.re) (fmul s.cfg s.ca.im s.cb.im),
      fadd s.cfg (fmul s.cfg s.ca.re s.cb.im) (fmul s.cfg s.ca.im s.cb.re)⟩,
    running := none, done := true, err := 0, errInfo := 0 }) ∧
  ∀ p : Params,
    (∀ a b : Cx F64, cmul (b64Scalar p) a b = cmul (b64Scalar p) b a) ∧
    (∀ a b : F64, fIsInf a = true → fIsZero b = true → fmul p a b = nanResult p) ∧
    cmul (b64Scalar p) ⟨fOne, fZero⟩ ⟨0x7FF0000000000000, fZero⟩ = ⟨0x7FF0000000000000, nanResult p⟩ ∧
    cmul (b64Scalar p) ⟨freal 1, freal 2⟩ ⟨freal 3, freal 4⟩ = ⟨fneg (freal 5), freal 10⟩

/-- 40_complex_alu R123: CDIV writes the unscaled quotient to CR and completes, and changes nothing else; x / +0 is a NaN for
a zero or a NaN and an infinity of the sign of x otherwise; a finite value over (±0, ±0) gives (NaN, NaN); over the reals that
division is the fault EXACT_DIV0. -/
def Obligations.CdivResult : Prop :=
  (∀ s : State,
    let d := fadd s.cfg (fmul s.cfg s.cb.re s.cb.re) (fmul s.cfg s.cb.im s.cb.im)
    exec .cdiv s = .next { s with
      cr := ⟨fdiv s.cfg (fadd s.cfg (fmul s.cfg s.ca.re s.cb.re) (fmul s.cfg s.ca.im s.cb.im)) d,
        fdiv s.cfg (fsub s.cfg (fmul s.cfg s.ca.im s.cb.re) (fmul s.cfg s.ca.re s.cb.im)) d⟩,
      running := none, done := true, err := 0, errInfo := 0 }) ∧
  (∀ (p : Params) (x : F64), ((fIsZero x = true ∨ fIsNaN x = true) → fdiv p x fZero = nanResult p) ∧
    (fIsZero x = false → fIsNaN x = false → fIsInf (fdiv p x fZero) = true ∧ fSign (fdiv p x fZero) = fSign x)) ∧
  (∀ (p : Params) (a b : Cx F64), fIsFinite a.re = true → fIsFinite a.im = true → fIsZero b.re = true → fIsZero b.im = true →
    cdiv (b64Scalar p) a b = .ok ⟨nanResult p, nanResult p⟩) ∧
  (∀ a : Cx ℝ, cdiv exactScalar a ⟨0, 0⟩ = .error .exactDiv0) ∧
  ∀ p : Params, cdiv (b64Scalar p) ⟨fneg (freal 5), freal 10⟩ ⟨freal 3, freal 4⟩ = .ok ⟨freal 1, freal 2⟩

/-- 40_complex_alu R124: CEXP writes EXP(re) · (COS(im), SIN(im)) of CA to CR, whatever CB holds, and completes, and changes
nothing else; at (0, 0) that is (1, +0); over the reals the function is the complex exponential. -/
def Obligations.CexpResult : Prop :=
  (∀ s : State, exec .cexp s = .next { s with
    cr := ⟨fmul s.cfg (fexp s.ca.re) (fcos s.ca.im), fmul s.cfg (fexp s.ca.re) (fsin s.ca.im)⟩,
    running := none, done := true, err := 0, errInfo := 0 }) ∧
  (∀ p : Params, cexp (b64Scalar p) ⟨fZero, fZero⟩ = ⟨fOne, fZero⟩) ∧
  ∀ z : Cx ℝ, toComplex (cexp exactScalar z) = Complex.exp (toComplex z)

/-- 40_complex_alu R125: CCONJ writes CA with the sign bit of its imaginary part flipped, whatever it holds and whatever CB
holds, to CR and completes, and changes nothing else; a NaN keeps its payload. -/
def Obligations.CconjResult : Prop :=
  (∀ s : State, exec .cconj s = .next { s with
    cr := ⟨s.ca.re, s.ca.im ^^^ 0x8000000000000000#64⟩, running := none, done := true, err := 0, errInfo := 0 }) ∧
  ∀ a : F64, fSign (fneg a) = !fSign a ∧ fExp (fneg a) = fExp a ∧ fFrac (fneg a) = fFrac a

/-! Arithmetic. -/

/-- 00_scope R10: the sum, the difference, the product and the quotient of finite values are the exact ones rounded to nearest,
ties to even, subnormals included; an exact zero sum is +0, or -0 if both terms are negative zeros; a NaN operand gives
NAN_RESULT, the one value of every NaN result (log entry 3); what infinities and zeros give; `half(a)` is a times 0.5; and
`real(n)` is exact for n ≤ 2^53. -/
def Obligations.ArithmeticRoundsToNearestEven : Prop :=
  (∀ (p : Params) (a b : F64), fIsFinite a = true → fIsFinite b = true →
    (fUnits a + fUnits b ≠ 0 →
      NearestEven (decide (fUnits a + fUnits b < 0)) (fUnits a + fUnits b).natAbs 1 (fadd p a b)) ∧
    (fUnits a + fUnits b = 0 → fadd p a b = if fSign a = true ∧ fSign b = true then 0x8000000000000000 else fZero) ∧
    (fUnits a - fUnits b ≠ 0 →
      NearestEven (decide (fUnits a - fUnits b < 0)) (fUnits a - fUnits b).natAbs 1 (fsub p a b)) ∧
    (fUnits a - fUnits b = 0 → fsub p a b = if fSign a = true ∧ fSign b = false then 0x8000000000000000 else fZero) ∧
    NearestEven (fSign a != fSign b) (fMag a * fMag b) unitScale (fmul p a b) ∧
    (fIsZero b = false → NearestEven (fSign a != fSign b) (fMag a * unitScale) (fMag b) (fdiv p a b)) ∧
    NearestEven (fSign a) (fMag a) 2 (fhalf p a)) ∧
  (∀ (p : Params) (a b : F64), fIsNaN a = true ∨ fIsNaN b = true →
    fadd p a b = nanResult p ∧ fsub p a b = nanResult p ∧ fmul p a b = nanResult p ∧ fdiv p a b = nanResult p) ∧
  (∀ (p : Params) (a b : F64), fIsInf a = true → fIsFinite b = true →
    fadd p a b = a ∧ fadd p b a = a ∧ fsub p a b = a ∧ fsub p b a = fneg a ∧
    fdiv p a b = signedInf (fSign a != fSign b) ∧
    fdiv p b a = (if (fSign b != fSign a) = true then 0x8000000000000000 else fZero) ∧
    (fIsZero b = true → fmul p a b = nanResult p ∧ fmul p b a = nanResult p) ∧
    (fIsZero b = false → fmul p a b = signedInf (fSign a != fSign b) ∧ fmul p b a = signedInf (fSign a != fSign b))) ∧
  (∀ (p : Params) (a b : F64), fIsInf a = true → fIsInf b = true →
    fadd p a b = (if fSign a = fSign b then a else nanResult p) ∧
    fsub p a b = (if fSign a = fSign b then nanResult p else a) ∧
    fmul p a b = signedInf (fSign a != fSign b) ∧ fdiv p a b = nanResult p) ∧
  (∀ (p : Params) (a b : F64), fIsFinite a = true → fIsZero b = true →
    fdiv p a b = if fIsZero a = true then nanResult p else signedInf (fSign a != fSign b)) ∧
  (∀ (p : Params) (a : F64), fhalf p a = fmul p a 0x3FE0000000000000 ∧ (fIsNaN a = true → fhalf p a = nanResult p) ∧
    (fIsInf a = true → fhalf p a = a)) ∧
  ∀ n : Nat, n ≤ 2 ^ 53 → fIsFinite (freal n) = true ∧ fUnits (freal n) = n * unitScale

/-- 40_complex_alu R127: the named properties P-EXP0, P-COS0, P-SIN0 and P-BOUND. -/
def Obligations.TranscendentalProperties : Prop :=
  (fexp fZero = fOne ∧ fexp 0x8000000000000000 = fOne) ∧
  (fcos fZero = fOne ∧ fcos 0x8000000000000000 = fOne) ∧
  (fsin fZero = fZero ∧ fsin 0x8000000000000000 = 0x8000000000000000) ∧
  ∀ x : F64, fIsFinite x = true →
    fIsFinite (fcos x) = true ∧ fMag (fcos x) ≤ unitScale ∧ fIsFinite (fsin x) = true ∧ fMag (fsin x) ≤ unitScale

/-- 40_complex_alu R129: the generator has the exact period 2d in its numerator, and below it the angle is PI64 times real(n),
rounded, over real(d), rounded, negated for the forward direction, and the value is CEXP of (+0, angle), which is (COS, SIN) of
a finite angle. 40_complex_alu R128, R130: the generator at numerator 0, for a PI64 that is finite and not negative; the bound
of its components where the angle is finite, which it is for the binary64 nearest to pi; and over the reals its unit magnitude,
its symmetry and its value. -/
def Obligations.CisProperties : Prop :=
  (∀ (p : Params) (dir : Dir) (n d : Nat), cis64 p dir (n + 2 * d) d = cis64 p dir n d) ∧
  (∀ (p : Params) (n d : Nat), n < 2 * d →
    let theta := fdiv p (fmul p p.pi64 (freal n)) (freal d)
    cis64 p .inverse n d = cexp (b64Scalar p) ⟨fZero, theta⟩ ∧
    cis64 p .forward n d = cexp (b64Scalar p) ⟨fZero, fneg theta⟩ ∧
    (fIsFinite theta = true →
      cis64 p .inverse n d = ⟨fcos theta, fsin theta⟩ ∧ cis64 p .forward n d = ⟨fcos (fneg theta), fsin (fneg theta)⟩)) ∧
  (∀ (p : Params) (d : Nat), 1 ≤ d → d ≤ 2 ^ 31 → fIsFinite p.pi64 = true → fSign p.pi64 = false →
    cis64 p .forward 0 d = ⟨fOne, 0x8000000000000000⟩ ∧ cis64 p .inverse 0 d = ⟨fOne, fZero⟩) ∧
  (∀ (p : Params) (dir : Dir) (n d : Nat), fIsFinite (cisAngle p dir n d) = true →
    fIsFinite (cis64 p dir n d).re = true ∧ fMag (cis64 p dir n d).re ≤ unitScale ∧
    fIsFinite (cis64 p dir n d).im = true ∧ fMag (cis64 p dir n d).im ≤ unitScale) ∧
  (∀ (p : Params) (dir : Dir) (n d : Nat), 1 ≤ d → d ≤ 2 ^ 31 → p.pi64 = 0x400921FB54442D18 →
    fIsFinite (cisAngle p dir n d) = true) ∧
  ∀ (dir : Dir) (n d : Nat), 1 ≤ d →
    (exactCis dir n d).re ^ 2 + (exactCis dir n d).im ^ 2 = 1 ∧
    exactCis .inverse n d = cconj exactScalar (exactCis .forward n d) ∧
    toComplex (exactCis dir n d) = Complex.exp (Dir.sign dir * Complex.I * Real.pi * n / d)

/-! The radix-2 unit. -/

/-- 41_radix2_fft R140, R142, R143, R144, R153: FFT2 completes for every plan and both data spaces when its checks pass and what
it reads holds values, and then changes nothing but the elements of its data operand, if the plan touches them, and the entries
of its table, if the plan generates it. The elements hold what the selected stages, run in the order BR, TW, BF, NM, make of
the data and the table, and a table that the plan generates holds its factors. -/
def Obligations.Fft2Completes : Prop :=
  ∀ (dir : Dir) (plan : Plan) (dsp : Space) (s : State),
    let o := s.operands
    Fft2Ready s plan dsp → (planNeedsData plan = true → DataReady dsp o s.mem) →
    (plan.bf = true → plan.tw = false → WsReady s.mem o.tbase (o.size / 2)) →
    ∃ m, Completes (.fft2 dir plan dsp) s m ∧
      SigKept (fun w => planNeedsData plan = true ∧ dsp = .sig ∧ o.IsDataWord w) s.mem m ∧
      WsKept (fun i => (planNeedsData plan = true ∧ dsp = .ws ∧ o.IsDataElement i) ∨ (plan.tw = true ∧ o.IsTableEntry i))
        s.mem m ∧
      (planNeedsData plan = true → DataReady dsp o m) ∧
      (∀ (b : Nat) (d w : Nat → Cx F64), o.size = 2 ^ b → planNeedsData plan = true →
        (∀ e, e < o.size → dataRead dsp o s.mem e = .ok (d e)) →
        (plan.bf = true → plan.tw = false → ∀ k, k < o.size / 2 → twiddleRead o s.mem k = .ok (w k)) →
        ∀ e, e < o.size → dataRead dsp o m e = .ok (fft2Result (b64 s.cfg) o.size b dir plan
          (fun c => ⟨fdiv s.cfg c.re (freal o.size), fdiv s.cfg c.im (freal o.size)⟩) w d e)) ∧
      (plan.tw = true → ∀ k, k < o.size / 2 → twiddleRead o m k = .ok (cis64 s.cfg dir k (o.size / 2)))

/-- 41_radix2_fft R145: the plan BR alone moves the element at position e to position rev_b(e), bit for bit, and neither
reads nor writes an element at a position equal to its own reversal; rev_b reverses the b bits and is an involution. -/
def Obligations.Fft2BitReversal : Prop :=
  (∀ (dir : Dir) (dsp : Space) (s : State) (b : Nat) (d : Nat → Cx F64),
    let o := s.operands
    Fft2Ready s ⟨true, false, false, false⟩ dsp → s.size.toNat = 2 ^ b →
    (∀ e, e < o.size → bitRev b e ≠ e → dataRead dsp o s.mem e = .ok (d e)) →
    ∃ m, Completes (.fft2 dir ⟨true, false, false, false⟩ dsp) s m ∧
      (∀ e, e < o.size → bitRev b e ≠ e → dataRead dsp o m (bitRev b e) = .ok (d e)) ∧
      SigKept (fun w => dsp = .sig ∧ ∃ e, e < o.size ∧ bitRev b e ≠ e ∧
        (w = o.sigBase + 2 * o.dataIndex e ∨ w = o.sigBase + 2 * o.dataIndex e + 1)) s.mem m ∧
      WsKept (fun i => dsp = .ws ∧ ∃ e, e < o.size ∧ bitRev b e ≠ e ∧ i = o.dataIndex e) s.mem m) ∧
  ∀ b i : Nat, i < 2 ^ b → bitRev b i < 2 ^ b ∧ bitRev b (bitRev b i) = i ∧
    ∀ k, k < b → (bitRev b i).testBit k = i.testBit (b - 1 - k)

/-- 41_radix2_fft R146: the plan TW alone writes T(k) = CIS(s, k, SIZE/2) for every k below SIZE/2 and nothing else; over the
reals those are the SIZE-th roots of unity. -/
def Obligations.Fft2TwiddleTable : Prop :=
  (∀ (dir : Dir) (dsp : Space) (s : State),
    let o := s.operands
    Fft2Ready s ⟨false, true, false, false⟩ dsp →
    ∃ m, Completes (.fft2 dir ⟨false, true, false, false⟩ dsp) s m ∧ m.sig = s.mem.sig ∧
      (∀ k, k < o.size / 2 → twiddleRead o m k = .ok (cis64 s.cfg dir k (o.size / 2))) ∧
      WsKept o.IsTableEntry s.mem m) ∧
  ∀ (dir : Dir) (b k : Nat), k < 2 ^ b / 2 →
    toComplex (exactCis dir k (2 ^ b / 2)) = Complex.exp (Dir.sign dir * 2 * Real.pi * Complex.I * k / (2 ^ b : ℕ))

/-- 41_radix2_fft R147: the plan BF alone, with the table w and the data d, leaves in element e what the layers of the
network, of half-span 1, 2, 4, ..., SIZE/2 in turn, make of d; the table is read and not written. -/
def Obligations.Fft2Butterfly : Prop :=
  ∀ (dir : Dir) (dsp : Space) (s : State) (b : Nat) (d w : Nat → Cx F64),
    let o := s.operands
    Fft2Ready s ⟨false, false, true, false⟩ dsp → s.size.toNat = 2 ^ b →
    (∀ e, e < o.size → dataRead dsp o s.mem e = .ok (d e)) → (∀ k, k < o.size / 2 → twiddleRead o s.mem k = .ok (w k)) →
    ∃ m, Completes (.fft2 dir ⟨false, false, true, false⟩ dsp) s m ∧
      (∀ e, e < o.size → dataRead dsp o m e = .ok (butterflyLayers (b64Scalar s.cfg) o.size w b d e)) ∧
      SigKept (fun i => dsp = .sig ∧ o.IsDataWord i) s.mem m ∧ WsKept (fun i => dsp = .ws ∧ o.IsDataElement i) s.mem m

/-- 41_radix2_fft R148: the plan NM alone divides each component of every element by real(SIZE) and changes nothing else; the
division is exact where the quotient stays normal. -/
def Obligations.Fft2Normalize : Prop :=
  (∀ (dsp : Space) (s : State) (d : Nat → Cx F64),
    let o := s.operands
    Fft2Ready s ⟨false, false, false, true⟩ dsp → (∀ e, e < o.size → dataRead dsp o s.mem e = .ok (d e)) →
    ∃ m, Completes (.fft2 .inverse ⟨false, false, false, true⟩ dsp) s m ∧
      (∀ e, e < o.size → dataRead dsp o m e =
        .ok ⟨fdiv s.cfg (d e).re (freal o.size), fdiv s.cfg (d e).im (freal o.size)⟩) ∧
      SigKept (fun i => dsp = .sig ∧ o.IsDataWord i) s.mem m ∧ WsKept (fun i => dsp = .ws ∧ o.IsDataElement i) s.mem m) ∧
  ∀ (p : Params) (a : F64) (b : Nat), b ≤ 30 → fIsFinite a = true → b < fExp a →
    fUnits (fdiv p a (freal (2 ^ b))) * 2 ^ b = fUnits a

/-! The Bluestein engine. -/

/-- 42_bluestein R171: CHIRP writes w[k] = CIS(s, k², N) to region 1 and changes nothing else. -/
def Obligations.ChirpResult : Prop :=
  ∀ (dir : Dir) (s : State),
    let n := s.len.toNat
    BluesteinReady s false →
    ∃ m, Completes (.chirp dir) s m ∧ m.sig = s.mem.sig ∧
      (∀ k, k < n → wsRead m k = .ok (cis64 s.cfg dir (k * k) n)) ∧ WsKept (fun i => i < n) s.mem m

/-- 42_bluestein R172: CHIRPMUL writes w[k]·x[k] and then the padding of +0 to region 2 and changes nothing else. -/
def Obligations.ChirpmulResult : Prop :=
  ∀ (s : State) (w x : Nat → Cx F64),
    let n := s.len.toNat
    BluesteinReady s true → (∀ k, k < n → wsRead s.mem k = .ok (w k)) →
    (∀ k, k < n → sigCRead s.mem s.sigBase.toNat k = .ok (x k)) →
    ∃ m, Completes .chirpmul s m ∧ m.sig = s.mem.sig ∧
      (∀ k, k < n → wsRead m (n + k) = .ok (cmul (b64Scalar s.cfg) (w k) (x k))) ∧
      (∀ k, n ≤ k → k < largerSize n → wsRead m (n + k) = .ok ⟨fZero, fZero⟩) ∧
      WsKept (fun i => n ≤ i ∧ i < n + largerSize n) s.mem m

/-- 42_bluestein R173: KERNEL writes the kernel b[0] = w[0], b[k] = b[M-k] = conj(w[k]) for k in [1, N), and +0 at k in [N,
M-N], to region 3 and changes nothing else. -/
def Obligations.KernelResult : Prop :=
  ∀ (s : State) (w : Nat → Cx F64),
    let n := s.len.toNat
    let r3 := n + largerSize n
    BluesteinReady s false → (∀ k, k < n → wsRead s.mem k = .ok (w k)) →
    ∃ m, Completes .kernel s m ∧ m.sig = s.mem.sig ∧ wsRead m r3 = .ok (w 0) ∧
      (∀ k, 1 ≤ k → k < n → wsRead m (r3 + k) = .ok ⟨(w k).re, fneg (w k).im⟩ ∧
        wsRead m (r3 + largerSize n - k) = .ok ⟨(w k).re, fneg (w k).im⟩) ∧
      (∀ k, n ≤ k → k ≤ largerSize n - n → wsRead m (r3 + k) = .ok ⟨fZero, fZero⟩) ∧
      WsKept (fun i => r3 ≤ i ∧ i < r3 + largerSize n) s.mem m

/-- 42_bluestein R174: PMUL writes the pointwise product of regions 2 and 3 to region 2 and changes nothing else. -/
def Obligations.PmulResult : Prop :=
  ∀ (s : State) (a b : Nat → Cx F64),
    let n := s.len.toNat
    BluesteinReady s false → (∀ k, k < largerSize n → wsRead s.mem (n + k) = .ok (a k)) →
    (∀ k, k < largerSize n → wsRead s.mem (n + largerSize n + k) = .ok (b k)) →
    ∃ m, Completes .pmul s m ∧ m.sig = s.mem.sig ∧
      (∀ k, k < largerSize n → wsRead m (n + k) = .ok (cmul (b64Scalar s.cfg) (a k) (b k))) ∧
      WsKept (fun i => n ≤ i ∧ i < n + largerSize n) s.mem m

/-- 42_bluestein R175: RECOVER writes w[k]·conv[k] to the N complex elements of the signal buffer and changes nothing else. -/
def Obligations.RecoverResult : Prop :=
  ∀ (s : State) (w c : Nat → Cx F64),
    let n := s.len.toNat
    let base := s.sigBase.toNat
    BluesteinReady s true → (∀ k, k < n → wsRead s.mem k = .ok (w k)) → (∀ k, k < n → wsRead s.mem (n + k) = .ok (c k)) →
    ∃ m, Completes .recover s m ∧ WsSame s.mem m ∧
      (∀ k, k < n → sigCRead m base k = .ok (cmul (b64Scalar s.cfg) (w k) (c k))) ∧
      SigKept (fun i => base ≤ i ∧ i < base + 2 * n) s.mem m

/-- 42_bluestein R176: NORMN divides each component of the N complex elements of the signal buffer by real(N) and changes
nothing else. -/
def Obligations.NormnResult : Prop :=
  ∀ (s : State) (c : Nat → Cx F64),
    let n := s.len.toNat
    let base := s.sigBase.toNat
    BluesteinReady s true → (∀ k, k < n → sigCRead s.mem base k = .ok (c k)) →
    ∃ m, Completes .normn s m ∧ WsSame s.mem m ∧
      (∀ k, k < n → sigCRead m base k = .ok ⟨fdiv s.cfg (c k).re (freal n), fdiv s.cfg (c k).im (freal n)⟩) ∧
      SigKept (fun i => base ≤ i ∧ i < base + 2 * n) s.mem m

/-- 42_bluestein R177: CZT completes whenever its checks pass and the signal buffer holds values; it changes nothing but the N
complex elements of the buffer and the workspace, and leaves the chirp factors in region 1, values in regions 2 and 3, and the
inverse twiddles in region 4. -/
def Obligations.CztCompletes : Prop :=
  ∀ (dir : Dir) (s : State),
    let n := s.len.toNat
    let base := s.sigBase.toNat
    let half := largerSize n / 2
    BluesteinReady s true → SigReady s.mem base (2 * n) →
    ∃ m, Completes (.czt dir) s m ∧ SigReady m base (2 * n) ∧
      SigKept (fun i => base ≤ i ∧ i < base + 2 * n) s.mem m ∧ WsKept (fun i => i < wsLength n) s.mem m ∧
      (∀ k, k < n → wsRead m k = .ok (cis64 s.cfg dir (k * k) n)) ∧ WsReady m n (2 * largerSize n) ∧
      ∀ k, k < half → wsRead m (n + 2 * largerSize n + k) = .ok (cis64 s.cfg .inverse k half)

/-- 30_encoding R103, 42_bluestein R177: CZT leaves the memories as the host would by running the step commands and the three
FFT2 commands one by one, with the operand registers of each FFT2 set as the microcode sets its copies. -/
def Obligations.CztRunsTheSteps : Prop :=
  ∀ (dir : Dir) (s t : State),
    let n := s.len.toNat
    let size := largerSize n
    BluesteinReady s true → exec (.czt dir) s = .next t →
    ∃ s₁ s₂ s₃ s₄ s₅ s₆ s₇ s₈,
      exec (.chirp dir) s = .next s₁ ∧ exec .chirpmul s₁ = .next s₂ ∧ exec .kernel s₂ = .next s₃ ∧
      exec (.fft2 .forward ⟨true, true, true, false⟩ .ws) (s₃.withFft2 size 1 n (n + 2 * size)) = .next s₄ ∧
      exec (.fft2 .forward ⟨true, false, true, false⟩ .ws) (s₄.withFft2 size 1 (n + size) (n + 2 * size)) = .next s₅ ∧
      exec .pmul s₅ = .next s₆ ∧
      exec (.fft2 .inverse ⟨true, true, true, true⟩ .ws) (s₆.withFft2 size 1 n (n + 2 * size)) = .next s₇ ∧
      exec .recover s₇ = .next s₈ ∧ (dir = .forward → t.mem = s₈.mem) ∧
      (dir = .inverse → ∃ s₉, exec .normn s₈ = .next s₉ ∧ t.mem = s₉.mem)

/-! The workspace manager and the drivers. -/

/-- 00_scope R6, R16, 20_memory R68, R69, R70 a: M is the smallest power of two that is at least 2N, and below 4N; the workspace
has N + 2M + M/2 elements; its four regions follow one another and end there; and for N up to N_MAX all of it fits 32 bits. -/
def Obligations.WorkspaceGeometry : Prop :=
  ∀ n : Nat, 1 ≤ n →
    (∃ k, largerSize n = 2 ^ k) ∧ 2 * n ≤ largerSize n ∧ largerSize n < 4 * n ∧
    (∀ k, 2 * n ≤ 2 ^ k → largerSize n ≤ 2 ^ k) ∧
    wsLength n = n + 2 * largerSize n + largerSize n / 2 ∧
    region1 = 0 ∧ region2 n = region1 + n ∧ region3 n = region2 n + largerSize n ∧
    region4 n = region3 n + largerSize n ∧ wsLength n = region4 n + largerSize n / 2 ∧
    (n ≤ nMax → largerSize n ≤ 2 ^ 30 ∧ wsLength n < 2 ^ 32)

/-- 43_driver_workspace R200, R201, R202: WSALLOC allocates a workspace for N = LEN whose components hold no value, fixes its
geometry, and changes nothing else; an allocation above the capacity never succeeds, and one within it does unless
ALLOC_NONDET is set. -/
def Obligations.WsallocResult : Prop :=
  (∀ s : State,
    let n := s.len.toNat
    1 ≤ n → n ≤ nMax → s.wsValid = false → s.allocOk (wsLength n) = true →
    ∃ d, (s.cfg.allocNondet = false → d = s.draws) ∧
      let t := { s with
        wsValid := true, wsN := s.len, mem := ⟨s.mem.sig, [], []⟩, running := none, done := true, err := 0, errInfo := 0,
        draws := d }
      exec .wsalloc s = .next t ∧
      t.readReg .larger = .ok (BitVec.ofNat 64 (largerSize n)) ∧ t.readReg .wslen = .ok (BitVec.ofNat 64 (wsLength n)) ∧
      t.readReg .r1base = .ok 0 ∧ t.readReg .r2base = .ok (BitVec.ofNat 64 n) ∧
      t.readReg .r3base = .ok (BitVec.ofNat 64 (n + largerSize n)) ∧
      t.readReg .r4base = .ok (BitVec.ofNat 64 (n + 2 * largerSize n)) ∧ t.readReg .wsstat = .ok (s.len ++ 1#32)) ∧
  ∀ (s : State) (len : Nat), (s.cfg.wsCapacity < len → s.allocOk len = false) ∧
    (s.cfg.allocNondet = false → len ≤ s.cfg.wsCapacity → s.allocOk len = true)

/-- 43_driver_workspace R203: WSFREE releases the workspace, whose components then hold no value, and changes nothing else, in
every state; the geometry registers then read 0 and the window is closed. -/
def Obligations.WsfreeResult : Prop :=
  ∀ s : State,
    let t := { s with
      wsValid := false, wsN := 0, mem := ⟨s.mem.sig, [], []⟩, running := none, done := true, err := 0, errInfo := 0 }
    exec .wsfree s = .next t ∧ t.windowOpen = false ∧
    ∀ r ∈ [Reg.larger, .wslen, .r1base, .r2base, .r3base, .r4base, .wsstat], t.readReg r = .ok 0

/-- 43_driver_workspace R206, R209, R210: FFT completes whenever its checks pass, its allocation succeeds and its buffer holds
values; it is WSALLOC, CZT and WSFREE in turn, so afterwards no workspace is allocated; it changes nothing but its buffer. -/
def Obligations.FftCompletes : Prop :=
  ∀ (dir : Dir) (s : State),
    let n := s.len.toNat
    let base := s.sigBase.toNat
    FftReady s → SigReady s.mem base (2 * n) →
    ∃ a c t, exec .wsalloc s = .next a ∧ exec (.czt dir) a = .next c ∧ exec .wsfree c = .next t ∧
      exec (.fft dir) s = .next t ∧ t.Completed ∧ SameOperands s t ∧ t.cr = s.cr ∧ t.wsValid = false ∧ t.wsN = 0 ∧
      (∀ i, cellGet t.mem.wsRe i = none ∧ cellGet t.mem.wsIm i = none) ∧ SigReady t.mem base (2 * n) ∧
      SigKept (fun i => base ≤ i ∧ i < base + 2 * n) s.mem t.mem

/-! The real transform. -/

/-- 44_real_transform R233, R234, R235, R236: RMIX completes whenever its checks pass and its buffer holds values; it leaves at
index 0 and at every pair (i, N/2-i) what the pass of its direction computes, at the midpoint the first of its pair, and
changes nothing else. -/
def Obligations.RmixResult : Prop :=
  ∀ (s : State) (c : Nat → Cx F64),
    let h := s.len.toNat / 2
    let base := s.sigBase.toNat
    let num := b64Scalar s.cfg
    RmixReady s → (∀ k, k < h → sigCRead s.mem base k = .ok (c k)) →
    (∃ m, Completes (.rmix .forward) s m ∧ WsSame s.mem m ∧
      sigCRead m base 0 = .ok ⟨fadd s.cfg (c 0).re (c 0).im, fsub s.cfg (c 0).re (c 0).im⟩ ∧
      (∀ i, 1 ≤ i → i ≤ h / 2 →
        let pair := mixedForward num (cis64 s.cfg .forward i h) (c i) (c (h - i))
        sigCRead m base i = .ok pair.1 ∧ (i < h - i → sigCRead m base (h - i) = .ok pair.2)) ∧
      SigKept (fun w => base ≤ w ∧ w < base + s.len.toNat) s.mem m) ∧
    (∃ m, Completes (.rmix .inverse) s m ∧ WsSame s.mem m ∧
      sigCRead m base 0 = .ok ⟨fhalf s.cfg (fadd s.cfg (c 0).re (c 0).im), fhalf s.cfg (fsub s.cfg (c 0).re (c 0).im)⟩ ∧
      (∀ i, 1 ≤ i → i ≤ h / 2 →
        let pair := mixedInverse num (cis64 s.cfg .inverse i h) (c i) (c (h - i))
        sigCRead m base i = .ok pair.1 ∧ (i < h - i → sigCRead m base (h - i) = .ok pair.2)) ∧
      SigKept (fun w => base ≤ w ∧ w < base + s.len.toNat) s.mem m)

/-- 44_real_transform R240, R246, R247: RFFT completes whenever its checks pass, its allocation succeeds and its buffer holds
values; it is the host-composed sequence of R247 in its direction, bit for bit; it leaves no workspace allocated and changes
nothing but its buffer. -/
def Obligations.RfftCompletes : Prop :=
  ∀ s : State,
    let n := s.len.toNat
    let half := BitVec.ofNat 32 (n / 2)
    let base := s.sigBase.toNat
    RfftReady s → SigReady s.mem base n →
    (∃ a c f t, exec .wsalloc { s with len := half } = .next a ∧ exec (.czt .forward) a = .next c ∧
      exec .wsfree c = .next f ∧ exec (.rmix .forward) { f with len := s.len } = .next t ∧
      exec (.rfft .forward) s = .next t ∧ t.Completed ∧ SameOperands s t ∧ t.cr = s.cr ∧ t.wsValid = false ∧ t.wsN = 0 ∧
      SigReady t.mem base n ∧ SigKept (fun w => base ≤ w ∧ w < base + n) s.mem t.mem) ∧
    (∃ r a c f t, exec (.rmix .inverse) s = .next r ∧ exec .wsalloc { r with len := half } = .next a ∧
      exec (.czt .inverse) a = .next c ∧ exec .wsfree c = .next f ∧ t = { f with len := s.len } ∧
      exec (.rfft .inverse) s = .next t ∧ t.Completed ∧ SameOperands s t ∧ t.cr = s.cr ∧ t.wsValid = false ∧ t.wsN = 0 ∧
      SigReady t.mem base n ∧ SigKept (fun w => base ≤ w ∧ w < base + n) s.mem t.mem)

/-! What the transforms compute, over the reals. -/

/-- 41_radix2_fft R149: over the reals the plan BR + TW + BF replaces the data operand by its unnormalised DFT of the sign
of the direction, with NM added the inverse by the inverse DFT; BR + BF does the same when the table already holds CIS(s, k,
SIZE/2). That the reference instantiation is the stage functions at the real operations, and no second machine, is the
model's choice (log entry 13). -/
def Obligations.ExactFft2ComputesDft : Prop :=
  ∀ (dir : Dir) (dsp : Space) (o : Operands) (b : Nat) (st : Store ℝ) (x : Nat → ℂ),
    o.size = 2 ^ b → 1 ≤ o.stride →
    (dsp = .ws → 2 ≤ o.size → o.tbase + o.size / 2 ≤ o.dbase ∨ o.last < o.tbase) → DataHolds dsp o st x →
    (∃ st', fft2Body exactNum dsp o dir ⟨true, true, true, false⟩ st = .ok st' ∧
      DataHolds dsp o st' (dftSum dir o.size x)) ∧
    (∃ st', fft2Body exactNum dsp o .inverse ⟨true, true, true, true⟩ st = .ok st' ∧
      DataHolds dsp o st' (dft .inverse o.size x)) ∧
    ((∀ k, k < o.size / 2 → twiddleRead o st k = .ok (exactCis dir k (o.size / 2))) →
      ∃ st', fft2Body exactNum dsp o dir ⟨true, false, true, false⟩ st = .ok st' ∧
        DataHolds dsp o st' (dftSum dir o.size x))

/-- 42_bluestein R178: over the reals CZT replaces the N samples of the signal buffer by their DFT, forward unnormalised and
inverse with the factor 1/N, for every N ≥ 1. That the reference instantiation is the stage functions at the real
operations, and no second machine, is the model's choice (log entry 13). -/
def Obligations.ExactCztComputesDft : Prop :=
  ∀ (dir : Dir) (n base : Nat) (st : Store ℝ) (x : Nat → ℂ), 1 ≤ n → HoldsComplex st base n x →
    ∃ st', cztBody exactNum n dir base st = .ok st' ∧ HoldsComplex st' base n (dft dir n x)

/-- 43_driver_workspace R207: over the reals FFT replaces the buffer by its DFT in either direction, and forward followed by
inverse returns the original samples. That the reference instantiation is the stage functions at the real operations, and no
second machine, is the model's choice (log entry 13). -/
def Obligations.ExactFftRoundTrip : Prop :=
  ∀ (n base : Nat) (st : Store ℝ) (x : Nat → ℂ), 1 ≤ n → HoldsComplex st base n x →
    (∀ dir, ∃ st', fftBody exactNum n dir base st = .ok st' ∧ HoldsComplex st' base n (dft dir n x)) ∧
    ∃ st₁ st₂, fftBody exactNum n .forward base st = .ok st₁ ∧ fftBody exactNum n .inverse base st₁ = .ok st₂ ∧
      HoldsComplex st₂ base n x

/-- 44_real_transform R241: over the reals `rfft.f` replaces N reals by the packed spectrum of their N-point DFT. That the
reference instantiation is the stage functions at the real operations, and no second machine, is the model's choice (log
entry 13). -/
def Obligations.ExactRfftForward : Prop :=
  ∀ (n base : Nat) (st : Store ℝ) (x : Nat → ℝ), n % 2 = 0 → 2 ≤ n → HoldsReal st base n x →
    ∃ st', rfftBody exactNum n base .forward st = .ok st' ∧ HoldsComplex st' base (n / 2) (packedSpectrum n x)

/-- 44_real_transform R242: over the reals `rfft.i` replaces the packed spectrum of N reals by those reals, every buffer is
the packed spectrum of exactly one sequence of N reals, and `rfft.i` after `rfft.f` returns the original reals. That the
reference instantiation is the stage functions at the real operations, and no second machine, is the model's choice (log
entry 13). -/
def Obligations.ExactRfftInverse : Prop :=
  ∀ n : Nat, n % 2 = 0 → 2 ≤ n →
    (∀ (base : Nat) (st : Store ℝ) (x : Nat → ℝ), HoldsComplex st base (n / 2) (packedSpectrum n x) →
      ∃ st', rfftBody exactNum n base .inverse st = .ok st' ∧ HoldsReal st' base n x) ∧
    (∀ y : Nat → ℂ, ∃ x : Nat → ℝ, (∀ k, k < n / 2 → packedSpectrum n x k = y k) ∧
      ∀ x' : Nat → ℝ, (∀ k, k < n / 2 → packedSpectrum n x' k = y k) → ∀ j, j < n → x' j = x j) ∧
    ∀ (base : Nat) (st : Store ℝ) (x : Nat → ℝ), HoldsReal st base n x →
      ∃ st₁ st₂, rfftBody exactNum n base .forward st = .ok st₁ ∧ rfftBody exactNum n base .inverse st₁ = .ok st₂ ∧
        HoldsReal st₂ base n x
end

