-- ==== Sys2Proof/Laws/State.lean ====
section
/-!
SUPPORT. One lemma per field of State per shared update, so that no proof unfolds a record update.
-/

namespace Sys2Proof.Machine

@[simp] theorem State.complete_cfg (s : State) : s.complete.cfg = s.cfg := rfl
@[simp] theorem State.complete_len (s : State) : s.complete.len = s.len := rfl
@[simp] theorem State.complete_size (s : State) : s.complete.size = s.size := rfl
@[simp] theorem State.complete_stride (s : State) : s.complete.stride = s.stride := rfl
@[simp] theorem State.complete_dbase (s : State) : s.complete.dbase = s.dbase := rfl
@[simp] theorem State.complete_tbase (s : State) : s.complete.tbase = s.tbase := rfl
@[simp] theorem State.complete_sigBase (s : State) : s.complete.sigBase = s.sigBase := rfl
@[simp] theorem State.complete_wsIdx (s : State) : s.complete.wsIdx = s.wsIdx := rfl
@[simp] theorem State.complete_ca (s : State) : s.complete.ca = s.ca := rfl
@[simp] theorem State.complete_cb (s : State) : s.complete.cb = s.cb := rfl
@[simp] theorem State.complete_cr (s : State) : s.complete.cr = s.cr := rfl
@[simp] theorem State.complete_running (s : State) : s.complete.running = none := rfl
@[simp] theorem State.complete_done (s : State) : s.complete.done = true := rfl
@[simp] theorem State.complete_overrun (s : State) : s.complete.overrun = s.overrun := rfl
@[simp] theorem State.complete_err (s : State) : s.complete.err = 0 := rfl
@[simp] theorem State.complete_errInfo (s : State) : s.complete.errInfo = 0 := rfl
@[simp] theorem State.complete_wsValid (s : State) : s.complete.wsValid = s.wsValid := rfl
@[simp] theorem State.complete_wsN (s : State) : s.complete.wsN = s.wsN := rfl
@[simp] theorem State.complete_mem (s : State) : s.complete.mem = s.mem := rfl
@[simp] theorem State.complete_faults (s : State) : s.complete.faults = s.faults := rfl
@[simp] theorem State.complete_inputs (s : State) : s.complete.inputs = s.inputs := rfl
@[simp] theorem State.complete_unseen (s : State) : s.complete.unseen = s.unseen := rfl
@[simp] theorem State.complete_raced (s : State) : s.complete.raced = s.raced := rfl
@[simp] theorem State.complete_rdData (s : State) : s.complete.rdData = s.rdData := rfl
@[simp] theorem State.complete_draws (s : State) : s.complete.draws = s.draws := rfl

@[simp] theorem State.raise_cfg (s : State) (e : Err) : (s.raise e).cfg = s.cfg := rfl
@[simp] theorem State.raise_len (s : State) (e : Err) : (s.raise e).len = s.len := rfl
@[simp] theorem State.raise_size (s : State) (e : Err) : (s.raise e).size = s.size := rfl
@[simp] theorem State.raise_stride (s : State) (e : Err) : (s.raise e).stride = s.stride := rfl
@[simp] theorem State.raise_dbase (s : State) (e : Err) : (s.raise e).dbase = s.dbase := rfl
@[simp] theorem State.raise_tbase (s : State) (e : Err) : (s.raise e).tbase = s.tbase := rfl
@[simp] theorem State.raise_sigBase (s : State) (e : Err) : (s.raise e).sigBase = s.sigBase := rfl
@[simp] theorem State.raise_wsIdx (s : State) (e : Err) : (s.raise e).wsIdx = s.wsIdx := rfl
@[simp] theorem State.raise_ca (s : State) (e : Err) : (s.raise e).ca = s.ca := rfl
@[simp] theorem State.raise_cb (s : State) (e : Err) : (s.raise e).cb = s.cb := rfl
@[simp] theorem State.raise_cr (s : State) (e : Err) : (s.raise e).cr = s.cr := rfl
@[simp] theorem State.raise_running (s : State) (e : Err) : (s.raise e).running = none := rfl
@[simp] theorem State.raise_done (s : State) (e : Err) : (s.raise e).done = true := rfl
@[simp] theorem State.raise_overrun (s : State) (e : Err) : (s.raise e).overrun = s.overrun := rfl
@[simp] theorem State.raise_err (s : State) (e : Err) : (s.raise e).err = e.code.code := rfl
@[simp] theorem State.raise_errInfo (s : State) (e : Err) : (s.raise e).errInfo = e.info := rfl
@[simp] theorem State.raise_wsValid (s : State) (e : Err) : (s.raise e).wsValid = s.wsValid := rfl
@[simp] theorem State.raise_wsN (s : State) (e : Err) : (s.raise e).wsN = s.wsN := rfl
@[simp] theorem State.raise_mem (s : State) (e : Err) : (s.raise e).mem = s.mem := rfl
@[simp] theorem State.raise_faults (s : State) (e : Err) : (s.raise e).faults = s.faults := rfl
@[simp] theorem State.raise_inputs (s : State) (e : Err) : (s.raise e).inputs = s.inputs := rfl
@[simp] theorem State.raise_unseen (s : State) (e : Err) : (s.raise e).unseen = s.unseen := rfl
@[simp] theorem State.raise_raced (s : State) (e : Err) : (s.raise e).raced = s.raced := rfl
@[simp] theorem State.raise_rdData (s : State) (e : Err) : (s.raise e).rdData = s.rdData := rfl
@[simp] theorem State.raise_draws (s : State) (e : Err) : (s.raise e).draws = s.draws := rfl

@[simp] theorem State.issue_cfg (s : State) (w : Word32) : (s.issue w).cfg = s.cfg := rfl
@[simp] theorem State.issue_len (s : State) (w : Word32) : (s.issue w).len = s.len := rfl
@[simp] theorem State.issue_size (s : State) (w : Word32) : (s.issue w).size = s.size := rfl
@[simp] theorem State.issue_stride (s : State) (w : Word32) : (s.issue w).stride = s.stride := rfl
@[simp] theorem State.issue_dbase (s : State) (w : Word32) : (s.issue w).dbase = s.dbase := rfl
@[simp] theorem State.issue_tbase (s : State) (w : Word32) : (s.issue w).tbase = s.tbase := rfl
@[simp] theorem State.issue_sigBase (s : State) (w : Word32) : (s.issue w).sigBase = s.sigBase := rfl
@[simp] theorem State.issue_wsIdx (s : State) (w : Word32) : (s.issue w).wsIdx = s.wsIdx := rfl
@[simp] theorem State.issue_ca (s : State) (w : Word32) : (s.issue w).ca = s.ca := rfl
@[simp] theorem State.issue_cb (s : State) (w : Word32) : (s.issue w).cb = s.cb := rfl
@[simp] theorem State.issue_cr (s : State) (w : Word32) : (s.issue w).cr = s.cr := rfl
@[simp] theorem State.issue_running (s : State) (w : Word32) : (s.issue w).running = some w := rfl
@[simp] theorem State.issue_done (s : State) (w : Word32) : (s.issue w).done = false := rfl
@[simp] theorem State.issue_overrun (s : State) (w : Word32) : (s.issue w).overrun = s.overrun := rfl
@[simp] theorem State.issue_err (s : State) (w : Word32) : (s.issue w).err = 0 := rfl
@[simp] theorem State.issue_errInfo (s : State) (w : Word32) : (s.issue w).errInfo = 0 := rfl
@[simp] theorem State.issue_wsValid (s : State) (w : Word32) : (s.issue w).wsValid = s.wsValid := rfl
@[simp] theorem State.issue_wsN (s : State) (w : Word32) : (s.issue w).wsN = s.wsN := rfl
@[simp] theorem State.issue_mem (s : State) (w : Word32) : (s.issue w).mem = s.mem := rfl
@[simp] theorem State.issue_faults (s : State) (w : Word32) : (s.issue w).faults = s.faults := rfl
@[simp] theorem State.issue_inputs (s : State) (w : Word32) : (s.issue w).inputs = s.inputs := rfl
@[simp] theorem State.issue_unseen (s : State) (w : Word32) : (s.issue w).unseen = (s.bufferOf w).toList ++ s.unseen := rfl
@[simp] theorem State.issue_raced (s : State) (w : Word32) : (s.issue w).raced = false := rfl
@[simp] theorem State.issue_rdData (s : State) (w : Word32) : (s.issue w).rdData = s.rdData := rfl
@[simp] theorem State.issue_draws (s : State) (w : Word32) : (s.issue w).draws = s.draws := rfl

@[simp] theorem State.release_cfg (s : State) : s.release.cfg = s.cfg := rfl
@[simp] theorem State.release_len (s : State) : s.release.len = s.len := rfl
@[simp] theorem State.release_size (s : State) : s.release.size = s.size := rfl
@[simp] theorem State.release_stride (s : State) : s.release.stride = s.stride := rfl
@[simp] theorem State.release_dbase (s : State) : s.release.dbase = s.dbase := rfl
@[simp] theorem State.release_tbase (s : State) : s.release.tbase = s.tbase := rfl
@[simp] theorem State.release_sigBase (s : State) : s.release.sigBase = s.sigBase := rfl
@[simp] theorem State.release_wsIdx (s : State) : s.release.wsIdx = s.wsIdx := rfl
@[simp] theorem State.release_ca (s : State) : s.release.ca = s.ca := rfl
@[simp] theorem State.release_cb (s : State) : s.release.cb = s.cb := rfl
@[simp] theorem State.release_cr (s : State) : s.release.cr = s.cr := rfl
@[simp] theorem State.release_running (s : State) : s.release.running = s.running := rfl
@[simp] theorem State.release_done (s : State) : s.release.done = s.done := rfl
@[simp] theorem State.release_overrun (s : State) : s.release.overrun = s.overrun := rfl
@[simp] theorem State.release_err (s : State) : s.release.err = s.err := rfl
@[simp] theorem State.release_errInfo (s : State) : s.release.errInfo = s.errInfo := rfl
@[simp] theorem State.release_wsValid (s : State) : s.release.wsValid = false := rfl
@[simp] theorem State.release_wsN (s : State) : s.release.wsN = 0 := rfl
@[simp] theorem State.release_mem (s : State) : s.release.mem = clearWs s.mem := rfl
@[simp] theorem State.release_faults (s : State) : s.release.faults = s.faults := rfl
@[simp] theorem State.release_inputs (s : State) : s.release.inputs = s.inputs := rfl
@[simp] theorem State.release_unseen (s : State) : s.release.unseen = s.unseen := rfl
@[simp] theorem State.release_raced (s : State) : s.release.raced = s.raced := rfl
@[simp] theorem State.release_rdData (s : State) : s.release.rdData = s.rdData := rfl
@[simp] theorem State.release_draws (s : State) : s.release.draws = s.draws := rfl

@[simp] theorem State.allocate_cfg (s : State) (n : Nat) : (s.allocate n).cfg = s.cfg := rfl
@[simp] theorem State.allocate_len (s : State) (n : Nat) : (s.allocate n).len = s.len := rfl
@[simp] theorem State.allocate_size (s : State) (n : Nat) : (s.allocate n).size = s.size := rfl
@[simp] theorem State.allocate_stride (s : State) (n : Nat) : (s.allocate n).stride = s.stride := rfl
@[simp] theorem State.allocate_dbase (s : State) (n : Nat) : (s.allocate n).dbase = s.dbase := rfl
@[simp] theorem State.allocate_tbase (s : State) (n : Nat) : (s.allocate n).tbase = s.tbase := rfl
@[simp] theorem State.allocate_sigBase (s : State) (n : Nat) : (s.allocate n).sigBase = s.sigBase := rfl
@[simp] theorem State.allocate_wsIdx (s : State) (n : Nat) : (s.allocate n).wsIdx = s.wsIdx := rfl
@[simp] theorem State.allocate_ca (s : State) (n : Nat) : (s.allocate n).ca = s.ca := rfl
@[simp] theorem State.allocate_cb (s : State) (n : Nat) : (s.allocate n).cb = s.cb := rfl
@[simp] theorem State.allocate_cr (s : State) (n : Nat) : (s.allocate n).cr = s.cr := rfl
@[simp] theorem State.allocate_running (s : State) (n : Nat) : (s.allocate n).running = s.running := rfl
@[simp] theorem State.allocate_done (s : State) (n : Nat) : (s.allocate n).done = s.done := rfl
@[simp] theorem State.allocate_overrun (s : State) (n : Nat) : (s.allocate n).overrun = s.overrun := rfl
@[simp] theorem State.allocate_err (s : State) (n : Nat) : (s.allocate n).err = s.err := rfl
@[simp] theorem State.allocate_errInfo (s : State) (n : Nat) : (s.allocate n).errInfo = s.errInfo := rfl
@[simp] theorem State.allocate_wsValid (s : State) (n : Nat) : (s.allocate n).wsValid = true := rfl
@[simp] theorem State.allocate_wsN (s : State) (n : Nat) : (s.allocate n).wsN = BitVec.ofNat 32 n := rfl
@[simp] theorem State.allocate_mem (s : State) (n : Nat) : (s.allocate n).mem = clearWs s.mem := rfl
@[simp] theorem State.allocate_faults (s : State) (n : Nat) : (s.allocate n).faults = s.faults := rfl
@[simp] theorem State.allocate_inputs (s : State) (n : Nat) : (s.allocate n).inputs = s.inputs := rfl
@[simp] theorem State.allocate_unseen (s : State) (n : Nat) : (s.allocate n).unseen = s.unseen := rfl
@[simp] theorem State.allocate_raced (s : State) (n : Nat) : (s.allocate n).raced = s.raced := rfl
@[simp] theorem State.allocate_rdData (s : State) (n : Nat) : (s.allocate n).rdData = s.rdData := rfl
@[simp] theorem State.allocate_draws (s : State) (n : Nat) : (s.allocate n).draws = s.draws := rfl

@[simp] theorem State.drawAlloc_cfg (s : State) : s.drawAlloc.cfg = s.cfg := by
  unfold State.drawAlloc; split <;> rfl
@[simp] theorem State.drawAlloc_len (s : State) : s.drawAlloc.len = s.len := by
  unfold State.drawAlloc; split <;> rfl
@[simp] theorem State.drawAlloc_size (s : State) : s.drawAlloc.size = s.size := by
  unfold State.drawAlloc; split <;> rfl
@[simp] theorem State.drawAlloc_stride (s : State) : s.drawAlloc.stride = s.stride := by
  unfold State.drawAlloc; split <;> rfl
@[simp] theorem State.drawAlloc_dbase (s : State) : s.drawAlloc.dbase = s.dbase := by
  unfold State.drawAlloc; split <;> rfl
@[simp] theorem State.drawAlloc_tbase (s : State) : s.drawAlloc.tbase = s.tbase := by
  unfold State.drawAlloc; split <;> rfl
@[simp] theorem State.drawAlloc_sigBase (s : State) : s.drawAlloc.sigBase = s.sigBase := by
  unfold State.drawAlloc; split <;> rfl
@[simp] theorem State.drawAlloc_wsIdx (s : State) : s.drawAlloc.wsIdx = s.wsIdx := by
  unfold State.drawAlloc; split <;> rfl
@[simp] theorem State.drawAlloc_ca (s : State) : s.drawAlloc.ca = s.ca := by
  unfold State.drawAlloc; split <;> rfl
@[simp] theorem State.drawAlloc_cb (s : State) : s.drawAlloc.cb = s.cb := by
  unfold State.drawAlloc; split <;> rfl
@[simp] theorem State.drawAlloc_cr (s : State) : s.drawAlloc.cr = s.cr := by
  unfold State.drawAlloc; split <;> rfl
@[simp] theorem State.drawAlloc_running (s : State) : s.drawAlloc.running = s.running := by
  unfold State.drawAlloc; split <;> rfl
@[simp] theorem State.drawAlloc_done (s : State) : s.drawAlloc.done = s.done := by
  unfold State.drawAlloc; split <;> rfl
@[simp] theorem State.drawAlloc_overrun (s : State) : s.drawAlloc.overrun = s.overrun := by
  unfold State.drawAlloc; split <;> rfl
@[simp] theorem State.drawAlloc_err (s : State) : s.drawAlloc.err = s.err := by
  unfold State.drawAlloc; split <;> rfl
@[simp] theorem State.drawAlloc_errInfo (s : State) : s.drawAlloc.errInfo = s.errInfo := by
  unfold State.drawAlloc; split <;> rfl
@[simp] theorem State.drawAlloc_wsValid (s : State) : s.drawAlloc.wsValid = s.wsValid := by
  unfold State.drawAlloc; split <;> rfl
@[simp] theorem State.drawAlloc_wsN (s : State) : s.drawAlloc.wsN = s.wsN := by
  unfold State.drawAlloc; split <;> rfl
@[simp] theorem State.drawAlloc_mem (s : State) : s.drawAlloc.mem = s.mem := by
  unfold State.drawAlloc; split <;> rfl
@[simp] theorem State.drawAlloc_faults (s : State) : s.drawAlloc.faults = s.faults := by
  unfold State.drawAlloc; split <;> rfl
@[simp] theorem State.drawAlloc_inputs (s : State) : s.drawAlloc.inputs = s.inputs := by
  unfold State.drawAlloc; split <;> rfl
@[simp] theorem State.drawAlloc_unseen (s : State) : s.drawAlloc.unseen = s.unseen := by
  unfold State.drawAlloc; split <;> rfl
@[simp] theorem State.drawAlloc_raced (s : State) : s.drawAlloc.raced = s.raced := by
  unfold State.drawAlloc; split <;> rfl
@[simp] theorem State.drawAlloc_rdData (s : State) : s.drawAlloc.rdData = s.rdData := by
  unfold State.drawAlloc; split <;> rfl

@[simp] theorem State.observe_cfg (s : State) (r : Reg) : (s.observe r).cfg = s.cfg := by
  unfold State.observe; split <;> rfl
@[simp] theorem State.observe_len (s : State) (r : Reg) : (s.observe r).len = s.len := by
  unfold State.observe; split <;> rfl
@[simp] theorem State.observe_size (s : State) (r : Reg) : (s.observe r).size = s.size := by
  unfold State.observe; split <;> rfl
@[simp] theorem State.observe_stride (s : State) (r : Reg) : (s.observe r).stride = s.stride := by
  unfold State.observe; split <;> rfl
@[simp] theorem State.observe_dbase (s : State) (r : Reg) : (s.observe r).dbase = s.dbase := by
  unfold State.observe; split <;> rfl
@[simp] theorem State.observe_tbase (s : State) (r : Reg) : (s.observe r).tbase = s.tbase := by
  unfold State.observe; split <;> rfl
@[simp] theorem State.observe_sigBase (s : State) (r : Reg) : (s.observe r).sigBase = s.sigBase := by
  unfold State.observe; split <;> rfl
@[simp] theorem State.observe_wsIdx (s : State) (r : Reg) : (s.observe r).wsIdx = s.wsIdx := by
  unfold State.observe; split <;> rfl
@[simp] theorem State.observe_ca (s : State) (r : Reg) : (s.observe r).ca = s.ca := by
  unfold State.observe; split <;> rfl
@[simp] theorem State.observe_cb (s : State) (r : Reg) : (s.observe r).cb = s.cb := by
  unfold State.observe; split <;> rfl
@[simp] theorem State.observe_cr (s : State) (r : Reg) : (s.observe r).cr = s.cr := by
  unfold State.observe; split <;> rfl
@[simp] theorem State.observe_running (s : State) (r : Reg) : (s.observe r).running = s.running := by
  unfold State.observe; split <;> rfl
@[simp] theorem State.observe_done (s : State) (r : Reg) : (s.observe r).done = s.done := by
  unfold State.observe; split <;> rfl
@[simp] theorem State.observe_overrun (s : State) (r : Reg) : (s.observe r).overrun = s.overrun := by
  unfold State.observe; split <;> rfl
@[simp] theorem State.observe_err (s : State) (r : Reg) : (s.observe r).err = s.err := by
  unfold State.observe; split <;> rfl
@[simp] theorem State.observe_errInfo (s : State) (r : Reg) : (s.observe r).errInfo = s.errInfo := by
  unfold State.observe; split <;> rfl
@[simp] theorem State.observe_wsValid (s : State) (r : Reg) : (s.observe r).wsValid = s.wsValid := by
  unfold State.observe; split <;> rfl
@[simp] theorem State.observe_wsN (s : State) (r : Reg) : (s.observe r).wsN = s.wsN := by
  unfold State.observe; split <;> rfl
@[simp] theorem State.observe_mem (s : State) (r : Reg) : (s.observe r).mem = s.mem := by
  unfold State.observe; split <;> rfl
@[simp] theorem State.observe_faults (s : State) (r : Reg) : (s.observe r).faults = s.faults := by
  unfold State.observe; split <;> rfl
@[simp] theorem State.observe_inputs (s : State) (r : Reg) : (s.observe r).inputs = s.inputs := by
  unfold State.observe; split <;> rfl
@[simp] theorem State.observe_raced (s : State) (r : Reg) : (s.observe r).raced = s.raced := by
  unfold State.observe; split <;> rfl
@[simp] theorem State.observe_rdData (s : State) (r : Reg) : (s.observe r).rdData = s.rdData := by
  unfold State.observe; split <;> rfl
@[simp] theorem State.observe_draws (s : State) (r : Reg) : (s.observe r).draws = s.draws := by
  unfold State.observe; split <;> rfl

@[simp] theorem State.freeSig_cfg (s : State) (r : Nat × Nat) : (s.freeSig r).cfg = s.cfg := rfl
@[simp] theorem State.freeSig_len (s : State) (r : Nat × Nat) : (s.freeSig r).len = s.len := rfl
@[simp] theorem State.freeSig_size (s : State) (r : Nat × Nat) : (s.freeSig r).size = s.size := rfl
@[simp] theorem State.freeSig_stride (s : State) (r : Nat × Nat) : (s.freeSig r).stride = s.stride := rfl
@[simp] theorem State.freeSig_dbase (s : State) (r : Nat × Nat) : (s.freeSig r).dbase = s.dbase := rfl
@[simp] theorem State.freeSig_tbase (s : State) (r : Nat × Nat) : (s.freeSig r).tbase = s.tbase := rfl
@[simp] theorem State.freeSig_sigBase (s : State) (r : Nat × Nat) : (s.freeSig r).sigBase = s.sigBase := rfl
@[simp] theorem State.freeSig_wsIdx (s : State) (r : Nat × Nat) : (s.freeSig r).wsIdx = s.wsIdx := rfl
@[simp] theorem State.freeSig_ca (s : State) (r : Nat × Nat) : (s.freeSig r).ca = s.ca := rfl
@[simp] theorem State.freeSig_cb (s : State) (r : Nat × Nat) : (s.freeSig r).cb = s.cb := rfl
@[simp] theorem State.freeSig_cr (s : State) (r : Nat × Nat) : (s.freeSig r).cr = s.cr := rfl
@[simp] theorem State.freeSig_running (s : State) (r : Nat × Nat) : (s.freeSig r).running = s.running := rfl
@[simp] theorem State.freeSig_done (s : State) (r : Nat × Nat) : (s.freeSig r).done = s.done := rfl
@[simp] theorem State.freeSig_overrun (s : State) (r : Nat × Nat) : (s.freeSig r).overrun = s.overrun := rfl
@[simp] theorem State.freeSig_err (s : State) (r : Nat × Nat) : (s.freeSig r).err = s.err := rfl
@[simp] theorem State.freeSig_errInfo (s : State) (r : Nat × Nat) : (s.freeSig r).errInfo = s.errInfo := rfl
@[simp] theorem State.freeSig_wsValid (s : State) (r : Nat × Nat) : (s.freeSig r).wsValid = s.wsValid := rfl
@[simp] theorem State.freeSig_wsN (s : State) (r : Nat × Nat) : (s.freeSig r).wsN = s.wsN := rfl
@[simp] theorem State.freeSig_faults (s : State) (r : Nat × Nat) : (s.freeSig r).faults = s.faults := rfl
@[simp] theorem State.freeSig_inputs (s : State) (r : Nat × Nat) : (s.freeSig r).inputs = s.inputs := rfl
@[simp] theorem State.freeSig_unseen (s : State) (r : Nat × Nat) : (s.freeSig r).unseen = s.unseen := rfl
@[simp] theorem State.freeSig_raced (s : State) (r : Nat × Nat) : (s.freeSig r).raced = s.raced := rfl
@[simp] theorem State.freeSig_rdData (s : State) (r : Nat × Nat) : (s.freeSig r).rdData = s.rdData := rfl
@[simp] theorem State.freeSig_draws (s : State) (r : Nat × Nat) : (s.freeSig r).draws = s.draws + r.2 := rfl
@[simp] theorem State.freeSig_mem (s : State) (r : Nat × Nat) :
    (s.freeSig r).mem = { s.mem with sig := freeHeld s.draws r.1 r.2 s.mem.sig } := rfl

@[simp] theorem State.race_cfg (s : State) (w : Nat) (v : Word64) : (s.race w v).cfg = s.cfg := rfl
@[simp] theorem State.race_len (s : State) (w : Nat) (v : Word64) : (s.race w v).len = s.len := rfl
@[simp] theorem State.race_size (s : State) (w : Nat) (v : Word64) : (s.race w v).size = s.size := rfl
@[simp] theorem State.race_stride (s : State) (w : Nat) (v : Word64) : (s.race w v).stride = s.stride := rfl
@[simp] theorem State.race_dbase (s : State) (w : Nat) (v : Word64) : (s.race w v).dbase = s.dbase := rfl
@[simp] theorem State.race_tbase (s : State) (w : Nat) (v : Word64) : (s.race w v).tbase = s.tbase := rfl
@[simp] theorem State.race_sigBase (s : State) (w : Nat) (v : Word64) : (s.race w v).sigBase = s.sigBase := rfl
@[simp] theorem State.race_wsIdx (s : State) (w : Nat) (v : Word64) : (s.race w v).wsIdx = s.wsIdx := rfl
@[simp] theorem State.race_ca (s : State) (w : Nat) (v : Word64) : (s.race w v).ca = s.ca := rfl
@[simp] theorem State.race_cb (s : State) (w : Nat) (v : Word64) : (s.race w v).cb = s.cb := rfl
@[simp] theorem State.race_cr (s : State) (w : Nat) (v : Word64) : (s.race w v).cr = s.cr := rfl
@[simp] theorem State.race_running (s : State) (w : Nat) (v : Word64) : (s.race w v).running = s.running := rfl
@[simp] theorem State.race_done (s : State) (w : Nat) (v : Word64) : (s.race w v).done = s.done := rfl
@[simp] theorem State.race_overrun (s : State) (w : Nat) (v : Word64) : (s.race w v).overrun = s.overrun := rfl
@[simp] theorem State.race_err (s : State) (w : Nat) (v : Word64) : (s.race w v).err = s.err := rfl
@[simp] theorem State.race_errInfo (s : State) (w : Nat) (v : Word64) : (s.race w v).errInfo = s.errInfo := rfl
@[simp] theorem State.race_wsValid (s : State) (w : Nat) (v : Word64) : (s.race w v).wsValid = s.wsValid := rfl
@[simp] theorem State.race_wsN (s : State) (w : Nat) (v : Word64) : (s.race w v).wsN = s.wsN := rfl
@[simp] theorem State.race_faults (s : State) (w : Nat) (v : Word64) : (s.race w v).faults = s.faults := rfl
@[simp] theorem State.race_inputs (s : State) (w : Nat) (v : Word64) : (s.race w v).inputs = s.inputs := rfl
@[simp] theorem State.race_unseen (s : State) (w : Nat) (v : Word64) : (s.race w v).unseen = s.unseen := rfl
@[simp] theorem State.race_rdData (s : State) (w : Nat) (v : Word64) : (s.race w v).rdData = s.rdData := rfl
@[simp] theorem State.race_raced (s : State) (w : Nat) (v : Word64) :
    (s.race w v).raced = (s.raced || s.inRunning w) := rfl
@[simp] theorem State.race_draws (s : State) (w : Nat) (v : Word64) :
    (s.race w v).draws = s.draws + (s.raceRange w).2 := rfl
@[simp] theorem State.race_mem (s : State) (w : Nat) (v : Word64) : (s.race w v).mem =
    { s.mem with sig := freeHeld s.draws (s.raceRange w).1 (s.raceRange w).2 (cellSet s.mem.sig w v) } := rfl

@[simp] theorem State.latch_cfg (s : State) (w : Word32) : (s.latch w).cfg = (s.issue w).cfg := rfl
@[simp] theorem State.latch_len (s : State) (w : Word32) : (s.latch w).len = (s.issue w).len := rfl
@[simp] theorem State.latch_size (s : State) (w : Word32) : (s.latch w).size = (s.issue w).size := rfl
@[simp] theorem State.latch_stride (s : State) (w : Word32) : (s.latch w).stride = (s.issue w).stride := rfl
@[simp] theorem State.latch_dbase (s : State) (w : Word32) : (s.latch w).dbase = (s.issue w).dbase := rfl
@[simp] theorem State.latch_tbase (s : State) (w : Word32) : (s.latch w).tbase = (s.issue w).tbase := rfl
@[simp] theorem State.latch_sigBase (s : State) (w : Word32) : (s.latch w).sigBase = (s.issue w).sigBase := rfl
@[simp] theorem State.latch_wsIdx (s : State) (w : Word32) : (s.latch w).wsIdx = (s.issue w).wsIdx := rfl
@[simp] theorem State.latch_ca (s : State) (w : Word32) : (s.latch w).ca = (s.issue w).ca := rfl
@[simp] theorem State.latch_cb (s : State) (w : Word32) : (s.latch w).cb = (s.issue w).cb := rfl
@[simp] theorem State.latch_cr (s : State) (w : Word32) : (s.latch w).cr = (s.issue w).cr := rfl
@[simp] theorem State.latch_running (s : State) (w : Word32) : (s.latch w).running = (s.issue w).running := rfl
@[simp] theorem State.latch_done (s : State) (w : Word32) : (s.latch w).done = (s.issue w).done := rfl
@[simp] theorem State.latch_overrun (s : State) (w : Word32) : (s.latch w).overrun = (s.issue w).overrun := rfl
@[simp] theorem State.latch_err (s : State) (w : Word32) : (s.latch w).err = (s.issue w).err := rfl
@[simp] theorem State.latch_errInfo (s : State) (w : Word32) : (s.latch w).errInfo = (s.issue w).errInfo := rfl
@[simp] theorem State.latch_wsValid (s : State) (w : Word32) : (s.latch w).wsValid = (s.issue w).wsValid := rfl
@[simp] theorem State.latch_wsN (s : State) (w : Word32) : (s.latch w).wsN = (s.issue w).wsN := rfl
@[simp] theorem State.latch_mem (s : State) (w : Word32) : (s.latch w).mem = (s.issue w).mem := rfl
@[simp] theorem State.latch_faults (s : State) (w : Word32) : (s.latch w).faults = (s.issue w).faults := rfl
@[simp] theorem State.latch_inputs (s : State) (w : Word32) : (s.latch w).inputs = .engine :: s.inputs := rfl
@[simp] theorem State.latch_unseen (s : State) (w : Word32) : (s.latch w).unseen = (s.issue w).unseen := rfl
@[simp] theorem State.latch_raced (s : State) (w : Word32) : (s.latch w).raced = (s.issue w).raced := rfl
@[simp] theorem State.latch_rdData (s : State) (w : Word32) : (s.latch w).rdData = (s.issue w).rdData := rfl
@[simp] theorem State.latch_draws (s : State) (w : Word32) : (s.latch w).draws = (s.issue w).draws := rfl

@[simp] theorem State.complete_wsLen (s : State) : s.complete.wsLen = s.wsLen := rfl
@[simp] theorem State.raise_wsLen (s : State) (e : Err) : (s.raise e).wsLen = s.wsLen := rfl
@[simp] theorem State.issue_wsLen (s : State) (w : Word32) : (s.issue w).wsLen = s.wsLen := rfl
@[simp] theorem State.release_wsLen (s : State) : s.release.wsLen = 0 := rfl
@[simp] theorem State.drawAlloc_wsLen (s : State) : s.drawAlloc.wsLen = s.wsLen := by
  simp [State.wsLen, State.geometry]
@[simp] theorem State.observe_wsLen (s : State) (r : Reg) : (s.observe r).wsLen = s.wsLen := by
  simp [State.wsLen, State.geometry]
@[simp] theorem State.complete_busy (s : State) : s.complete.busy = false := rfl
@[simp] theorem State.raise_busy (s : State) (e : Err) : (s.raise e).busy = false := rfl
@[simp] theorem State.issue_busy (s : State) (w : Word32) : (s.issue w).busy = true := rfl

end Sys2Proof.Machine
end

