-- ==== Sys2Proof/Laws/Store.lean ====
section
/-!
SUPPORT. The laws of the two memories: a read after a write, what a write leaves alone, and that every memory operation
keeps the canonical form and the address spaces.
-/

namespace Sys2Proof.Machine

variable {F : Type}

section Cells

@[simp] theorem cellGet_nil (i : Nat) : cellGet ([] : Cells F) i = none := rfl

theorem cellGet_cellSet_same (c : Cells F) (i : Nat) (v : F) : cellGet (cellSet c i v) i = some v := by
  induction c with
  | nil => simp [cellSet, cellGet]
  | cons x rest ih =>
    obtain ⟨j, u⟩ := x
    unfold cellSet
    split
    · simp [cellGet]
    · split
      · simp [cellGet]
      · rename_i _ hne
        simp [cellGet, hne, ih]

theorem cellGet_cellSet_ne (c : Cells F) {i k : Nat} (v : F) (h : k ≠ i) :
    cellGet (cellSet c i v) k = cellGet c k := by
  induction c with
  | nil => simp [cellSet, cellGet, h]
  | cons x rest ih =>
    obtain ⟨j, u⟩ := x
    unfold cellSet
    split
    · simp [cellGet, h]
    · split
      · rename_i _ hij
        subst hij
        simp [cellGet, h]
      · simp only [cellGet, ih]

/-- The one law of reading after a write. -/
@[simp] theorem cellGet_cellSet (c : Cells F) (i k : Nat) (v : F) :
    cellGet (cellSet c i v) k = if k = i then some v else cellGet c k := by
  split
  · rename_i h
    rw [h, cellGet_cellSet_same]
  · rename_i h
    exact cellGet_cellSet_ne c v h

/-- The indices after a write are the old ones and the written one. -/
theorem mem_cellSet {c : Cells F} {i : Nat} {v : F} {x : Nat × F} (h : x ∈ cellSet c i v) : x ∈ c ∨ x.1 = i := by
  induction c with
  | nil =>
    simp [cellSet] at h
    exact .inr (by rw [h])
  | cons y rest ih =>
    obtain ⟨j, u⟩ := y
    unfold cellSet at h
    split at h
    · rcases List.mem_cons.mp h with h | h
      · exact .inr (by rw [h])
      · exact .inl h
    · split at h
      · rcases List.mem_cons.mp h with h | h
        · exact .inr (by rw [h])
        · exact .inl (List.mem_cons_of_mem _ h)
      · rcases List.mem_cons.mp h with h | h
        · exact .inl (by rw [h]; exact List.mem_cons_self)
        · rcases ih h with h | h
          · exact .inl (List.mem_cons_of_mem _ h)
          · exact .inr h

theorem cellsWf_cellSet {c : Cells F} (i : Nat) (v : F) (h : cellsWf c = true) : cellsWf (cellSet c i v) = true := by
  induction c with
  | nil => simp [cellSet, cellsWf]
  | cons x rest ih =>
    obtain ⟨j, u⟩ := x
    simp only [cellsWf, Bool.and_eq_true, List.all_eq_true, decide_eq_true_eq] at h
    unfold cellSet
    split
    · rename_i hij
      simp only [cellsWf, Bool.and_eq_true, List.all_eq_true, decide_eq_true_eq, List.mem_cons]
      refine ⟨?_, h⟩
      rintro x (rfl | hx)
      · exact hij
      · exact lt_trans hij (h.1 x hx)
    · split
      · rename_i _ hij
        subst hij
        simpa only [cellsWf, Bool.and_eq_true, List.all_eq_true, decide_eq_true_eq] using h
      · rename_i hlt hne
        simp only [cellsWf, Bool.and_eq_true, List.all_eq_true, decide_eq_true_eq]
        refine ⟨fun x hx => ?_, ih h.2⟩
        rcases mem_cellSet hx with hx | hx
        · exact h.1 x hx
        · omega

theorem cellsBelow_cellSet {c : Cells F} {n i : Nat} (v : F) (h : cellsBelow n c = true) (hi : i < n) :
    cellsBelow n (cellSet c i v) = true := by
  simp only [cellsBelow, List.all_eq_true, decide_eq_true_eq] at h ⊢
  intro x hx
  rcases mem_cellSet hx with hx | hx
  · exact h x hx
  · omega

theorem cellsBelow_mono {c : Cells F} {n m : Nat} (h : cellsBelow n c = true) (hnm : n ≤ m) :
    cellsBelow m c = true := by
  simp only [cellsBelow, List.all_eq_true, decide_eq_true_eq] at h ⊢
  exact fun x hx => lt_of_lt_of_le (h x hx) hnm

/-- The canonical form and the bound are about the indices alone. -/
theorem cellsWf_congr {c c' : Cells F} (h : c'.map Prod.fst = c.map Prod.fst) : cellsWf c' = cellsWf c := by
  induction c generalizing c' with
  | nil =>
    cases c' with
    | nil => rfl
    | cons y rest' => simp at h
  | cons x rest ih =>
    cases c' with
    | nil => simp at h
    | cons y rest' =>
      simp only [List.map_cons, List.cons.injEq] at h
      have all : ∀ l : Cells F, l.all (fun z => decide (x.1 < z.1)) = (l.map Prod.fst).all (fun j => decide (x.1 < j)) := by
        intro l
        rw [List.all_map]
        rfl
      rw [cellsWf, cellsWf, ih h.2, h.1, all, all, h.2]

theorem cellsBelow_congr {c c' : Cells F} {n : Nat} (h : c'.map Prod.fst = c.map Prod.fst) :
    cellsBelow n c' = cellsBelow n c := by
  have all : ∀ l : Cells F, cellsBelow n l = (l.map Prod.fst).all (fun j => decide (j < n)) := by
    intro l
    rw [List.all_map]
    rfl
  rw [all, all, h]

/-- What is at or above the bound holds no value. -/
theorem cellGet_none_of_below {c : Cells F} {n i : Nat} (h : cellsBelow n c = true) (hi : n ≤ i) :
    cellGet c i = none := by
  induction c with
  | nil => rfl
  | cons x rest ih =>
    obtain ⟨j, u⟩ := x
    simp only [cellsBelow, List.all_cons, Bool.and_eq_true, decide_eq_true_eq] at h
    have hne : i ≠ j := by omega
    simp only [cellGet, hne, if_false]
    exact ih h.2

end Cells

section Store

/-- What a successful read of a workspace element says. -/
theorem wsRead_ok_iff (st : Store F) (i : Nat) (c : Cx F) :
    wsRead st i = .ok c ↔ cellGet st.wsRe i = some c.re ∧ cellGet st.wsIm i = some c.im := by
  unfold wsRead
  constructor
  · intro h
    split at h
    · rename_i re im hr hi
      cases h
      exact ⟨hr, hi⟩
    · cases h
  · rintro ⟨hr, hi⟩
    simp [hr, hi]

theorem sigRead_ok_iff (st : Store F) (w : Nat) (v : F) : sigRead st w = .ok v ↔ cellGet st.sig w = some v := by
  unfold sigRead
  split <;> rename_i h <;> simp [h]

theorem sigCRead_ok_iff (st : Store F) (base k : Nat) (c : Cx F) :
    sigCRead st base k = .ok c ↔
      cellGet st.sig (base + 2 * k) = some c.re ∧ cellGet st.sig (base + 2 * k + 1) = some c.im := by
  unfold sigCRead sigRead
  cases h1 : cellGet st.sig (base + 2 * k) with
  | none => simp [bind, Except.bind]
  | some re =>
    cases h2 : cellGet st.sig (base + 2 * k + 1) with
    | none => simp [bind, Except.bind]
    | some im =>
      obtain ⟨cr, ci⟩ := c
      simp [bind, Except.bind, pure, Except.pure]

@[simp] theorem sigWrite_sig (st : Store F) (w : Nat) (v : F) : (sigWrite st w v).sig = cellSet st.sig w v := rfl
@[simp] theorem sigWrite_wsRe (st : Store F) (w : Nat) (v : F) : (sigWrite st w v).wsRe = st.wsRe := rfl
@[simp] theorem sigWrite_wsIm (st : Store F) (w : Nat) (v : F) : (sigWrite st w v).wsIm = st.wsIm := rfl
@[simp] theorem wsWrite_sig (st : Store F) (i : Nat) (c : Cx F) : (wsWrite st i c).sig = st.sig := rfl
@[simp] theorem wsWrite_wsRe (st : Store F) (i : Nat) (c : Cx F) : (wsWrite st i c).wsRe = cellSet st.wsRe i c.re := rfl
@[simp] theorem wsWrite_wsIm (st : Store F) (i : Nat) (c : Cx F) : (wsWrite st i c).wsIm = cellSet st.wsIm i c.im := rfl
@[simp] theorem sigCWrite_sig (st : Store F) (base k : Nat) (c : Cx F) :
    (sigCWrite st base k c).sig = cellSet (cellSet st.sig (base + 2 * k) c.re) (base + 2 * k + 1) c.im := rfl
@[simp] theorem sigCWrite_wsRe (st : Store F) (base k : Nat) (c : Cx F) : (sigCWrite st base k c).wsRe = st.wsRe := rfl
@[simp] theorem sigCWrite_wsIm (st : Store F) (base k : Nat) (c : Cx F) : (sigCWrite st base k c).wsIm = st.wsIm := rfl
@[simp] theorem clearWs_sig (st : Store F) : (clearWs st).sig = st.sig := rfl
@[simp] theorem clearWs_wsRe (st : Store F) : (clearWs st).wsRe = [] := rfl
@[simp] theorem clearWs_wsIm (st : Store F) : (clearWs st).wsIm = [] := rfl

/-- Reads of the workspace after a workspace write. -/
@[simp] theorem wsRead_wsWrite (st : Store F) (i k : Nat) (c : Cx F) :
    wsRead (wsWrite st i c) k = if k = i then .ok c else wsRead st k := by
  unfold wsRead
  simp only [wsWrite_wsRe, wsWrite_wsIm, cellGet_cellSet]
  by_cases h : k = i <;> simp [h]

@[simp] theorem wsRead_sigCWrite (st : Store F) (base k i : Nat) (c : Cx F) :
    wsRead (sigCWrite st base k c) i = wsRead st i := rfl

@[simp] theorem sigRead_wsWrite (st : Store F) (i w : Nat) (c : Cx F) : sigRead (wsWrite st i c) w = sigRead st w := rfl

@[simp] theorem sigCRead_wsWrite (st : Store F) (i base k : Nat) (c : Cx F) :
    sigCRead (wsWrite st i c) base k = sigCRead st base k := rfl

/-- Reads of the signal buffer after a write of a complex element. -/
@[simp] theorem sigCRead_sigCWrite (st : Store F) (base k j : Nat) (c : Cx F) :
    sigCRead (sigCWrite st base j c) base k = if k = j then .ok c else sigCRead st base k := by
  unfold sigCRead sigRead
  simp only [sigCWrite_sig, cellGet_cellSet]
  by_cases h : k = j
  · subst h
    simp [bind, Except.bind, pure, Except.pure]
  · have h1 : ¬ base + 2 * k = base + 2 * j + 1 := by omega
    have h4 : ¬ base + 2 * k + 1 = base + 2 * j := by omega
    simp [h, h1, h4]

theorem Store.wf_iff (st : Store F) :
    st.wf = true ↔ cellsWf st.sig = true ∧ cellsWf st.wsRe = true ∧ cellsWf st.wsIm = true := by
  simp [Store.wf, and_assoc]

theorem Store.within_iff (m n : Nat) (st : Store F) :
    st.within m n = true ↔ cellsBelow m st.sig = true ∧ cellsBelow n st.wsRe = true ∧ cellsBelow n st.wsIm = true := by
  simp [Store.within, and_assoc]

/-- Every memory operation keeps the canonical form. -/
theorem wf_sigWrite {st : Store F} (w : Nat) (v : F) (h : st.wf = true) : (sigWrite st w v).wf = true := by
  rw [Store.wf_iff] at *
  exact ⟨cellsWf_cellSet _ _ h.1, h.2⟩

theorem wf_wsWrite {st : Store F} (i : Nat) (c : Cx F) (h : st.wf = true) : (wsWrite st i c).wf = true := by
  rw [Store.wf_iff] at *
  exact ⟨h.1, cellsWf_cellSet _ _ h.2.1, cellsWf_cellSet _ _ h.2.2⟩

theorem wf_sigCWrite {st : Store F} (base k : Nat) (c : Cx F) (h : st.wf = true) : (sigCWrite st base k c).wf = true :=
  wf_sigWrite _ _ (wf_sigWrite _ _ h)

theorem wf_clearWs {st : Store F} (h : st.wf = true) : (clearWs st).wf = true := by
  rw [Store.wf_iff] at *
  exact ⟨h.1, rfl, rfl⟩

theorem wf_dataWrite {st : Store F} (dsp : Space) (o : Operands) (e : Nat) (c : Cx F) (h : st.wf = true) :
    (dataWrite dsp o st e c).wf = true := by
  cases dsp
  · exact wf_sigCWrite _ _ _ h
  · exact wf_wsWrite _ _ h

theorem within_sigWrite {st : Store F} {m n w : Nat} (v : F) (h : st.within m n = true) (hw : w < m) :
    (sigWrite st w v).within m n = true := by
  rw [Store.within_iff] at *
  exact ⟨cellsBelow_cellSet _ h.1 hw, h.2⟩

theorem within_wsWrite {st : Store F} {m n i : Nat} (c : Cx F) (h : st.within m n = true) (hi : i < n) :
    (wsWrite st i c).within m n = true := by
  rw [Store.within_iff] at *
  exact ⟨h.1, cellsBelow_cellSet _ h.2.1 hi, cellsBelow_cellSet _ h.2.2 hi⟩

theorem within_sigCWrite {st : Store F} {m n base k : Nat} (c : Cx F) (h : st.within m n = true)
    (hk : base + 2 * k + 1 < m) : (sigCWrite st base k c).within m n = true :=
  within_sigWrite _ (within_sigWrite _ h (by omega)) hk

theorem within_clearWs {st : Store F} {m n : Nat} (h : st.within m n = true) (n' : Nat) :
    (clearWs st).within m n' = true := by
  rw [Store.within_iff] at *
  exact ⟨h.1, rfl, rfl⟩

theorem dataRead_dataWrite_same (dsp : Space) (o : Operands) (st : Store F) (e : Nat) (c : Cx F) :
    dataRead dsp o (dataWrite dsp o st e c) e = .ok c := by
  cases dsp <;> simp [dataRead, dataWrite]

/-- With a stride of at least 1, distinct elements of the data operand do not meet (41_radix2_fft R143). -/
theorem dataIndex_ne {o : Operands} (hs : 1 ≤ o.stride) {e f : Nat} (h : e ≠ f) : o.dataIndex e ≠ o.dataIndex f := by
  unfold Operands.dataIndex
  intro he
  exact h (Nat.eq_of_mul_eq_mul_right hs (by omega))

theorem dataRead_dataWrite_ne {dsp : Space} {o : Operands} (hs : 1 ≤ o.stride) (st : Store F) {e f : Nat} (c : Cx F)
    (h : e ≠ f) : dataRead dsp o (dataWrite dsp o st f c) e = dataRead dsp o st e := by
  have hne := dataIndex_ne hs h
  cases dsp <;> simp [dataRead, dataWrite, hne]

end Store

end Sys2Proof.Machine
end

