-- ==== Sys2Proof/Laws/Loops.lean ====
section
/-!
SUPPORT. The laws of the engine's control: sequencing, loops and selected stages. Each induction is packaged once: what a
loop keeps when it answers, that it answers when its body does, and where its faults come from.
-/

namespace Sys2Proof.Machine

variable {ε σ α β : Type}

/-- A sequence answers exactly when both parts do. -/
theorem except_bind_ok {x : Except ε α} {f : α → Except ε β} {b : β} :
    (x >>= f) = .ok b ↔ ∃ a, x = .ok a ∧ f a = .ok b := by
  cases x <;> simp [bind, Except.bind]

/-- A sequence faults where its first or its second part does. -/
theorem except_bind_error {x : Except ε α} {f : α → Except ε β} {e : ε} :
    (x >>= f) = .error e ↔ x = .error e ∨ ∃ a, x = .ok a ∧ f a = .error e := by
  cases x <;> simp [bind, Except.bind]

@[simp] theorem except_ok_bind {a : α} {f : α → Except ε β} : (Except.ok a >>= f) = f a := rfl

@[simp] theorem except_pure {a : α} : (pure a : Except ε α) = .ok a := rfl

/-- What holds before a loop and is kept by each round holds after it, if the loop answers. -/
theorem forRange_keeps {body : Nat → σ → Except ε σ} (P : Nat → σ → Prop) {n k : Nat} {s s' : σ}
    (h : forRange body n k s = .ok s') (h0 : P k s)
    (hstep : ∀ j a b, k ≤ j → j < k + n → P j a → body j a = .ok b → P (j + 1) b) : P (k + n) s' := by
  induction n generalizing k s with
  | zero =>
    cases h
    simpa using h0
  | succ n ih =>
    unfold forRange at h
    split at h
    · rename_i a ha
      have h1 := ih h (hstep k s a le_rfl (by omega) h0 ha)
        (fun j x y hj hj' hx hy => hstep j x y (by omega) (by omega) hx hy)
      rwa [Nat.add_right_comm, Nat.add_assoc] at h1
    · cases h

/-- A loop answers if each round does, and then what each round establishes holds after it. -/
theorem forRange_total {body : Nat → σ → Except ε σ} (P : Nat → σ → Prop) {n k : Nat} {s : σ} (h0 : P k s)
    (hstep : ∀ j a, k ≤ j → j < k + n → P j a → ∃ b, body j a = .ok b ∧ P (j + 1) b) :
    ∃ s', forRange body n k s = .ok s' ∧ P (k + n) s' := by
  induction n generalizing k s with
  | zero => exact ⟨s, rfl, by simpa using h0⟩
  | succ n ih =>
    obtain ⟨a, ha, hPa⟩ := hstep k s le_rfl (by omega) h0
    obtain ⟨s', hs', hP⟩ := ih hPa (fun j x hj hj' hx => hstep j x (by omega) (by omega) hx)
    refine ⟨s', ?_, ?_⟩
    · simp only [forRange, ha]
      exact hs'
    · rwa [Nat.add_right_comm, Nat.add_assoc] at hP

/-- A fault of a loop is a fault of one of its rounds. -/
theorem forRange_error {body : Nat → σ → Except ε σ} {n k : Nat} {s : σ} {e : ε}
    (h : forRange body n k s = .error e) : ∃ j a, k ≤ j ∧ j < k + n ∧ body j a = .error e := by
  induction n generalizing k s with
  | zero => cases h
  | succ n ih =>
    unfold forRange at h
    split at h
    · obtain ⟨j, a, hj, hj', ha⟩ := ih h
      exact ⟨j, a, by omega, by omega, ha⟩
    · rename_i e' he
      cases h
      exact ⟨k, s, le_rfl, by omega, he⟩

/-- A loop that answers has run each of its rounds on a store that the rounds before it allow. -/
theorem forRange_visits {body : Nat → σ → Except ε σ} (P : Nat → σ → Prop) {n k : Nat} {s s' : σ}
    (h : forRange body n k s = .ok s') (h0 : P k s)
    (hstep : ∀ j a b, k ≤ j → j < k + n → P j a → body j a = .ok b → P (j + 1) b) {j : Nat} (hj : k ≤ j) (hj' : j < k + n) :
    ∃ a b, P j a ∧ body j a = .ok b := by
  induction n generalizing k s with
  | zero => omega
  | succ n ih =>
    unfold forRange at h
    split at h
    · rename_i a ha
      by_cases hk : j = k
      · subst hk
        exact ⟨s, a, h0, ha⟩
      · exact ih h (hstep k s a le_rfl (by omega) h0 ha)
          (fun j x y hj hj' hx hy => hstep j x y (by omega) (by omega) hx hy) (by omega) (by omega)
    · cases h

/-- What a selected stage keeps. -/
theorem stage_keeps {on : Bool} {f : σ → Except ε σ} (P : σ → Prop) {s s' : σ} (h : stage on f s = .ok s') (h0 : P s)
    (hf : on = true → ∀ a b, P a → f a = .ok b → P b) : P s' := by
  unfold stage at h
  split at h
  · rename_i hon
    exact hf hon s s' h0 h
  · cases h
    exact h0

theorem stage_error {on : Bool} {f : σ → Except ε σ} {s : σ} {e : ε} (h : stage on f s = .error e) :
    on = true ∧ f s = .error e := by
  unfold stage at h
  split at h
  · rename_i hon
    exact ⟨hon, h⟩
  · cases h

@[simp] theorem stage_off (f : σ → Except ε σ) (s : σ) : stage false f s = .ok s := rfl

@[simp] theorem stage_on (f : σ → Except ε σ) (s : σ) : stage true f s = f s := rfl

end Sys2Proof.Machine
end

