-- ==== Sys2Proof/Laws/Ops.lean ====
section
/-!
SUPPORT. What each shared operation can do, said once: a checked command, a committed body, an allocation, a decoded step.
-/

namespace Sys2Proof.Machine

/-- A checked command raises the first failed check or goes on. -/
theorem checked_cases (s : State) (error : Option Err) (go : Result) :
    (∃ e, error = some e ∧ checked s error go = .next (s.raise e)) ∨ (error = none ∧ checked s error go = go) := by
  cases error with
  | none => exact .inr ⟨rfl, rfl⟩
  | some e => exact .inl ⟨e, rfl, rfl⟩

@[simp] theorem checked_none (s : State) (go : Result) : checked s none go = go := rfl

@[simp] theorem checked_some (s : State) (e : Err) (go : Result) : checked s (some e) go = .next (s.raise e) := rfl

/-- A check list passes exactly when no check fails. -/
theorem firstError_none {l : List (Bool × Err)} : firstError l = none ↔ ∀ c ∈ l, c.1 = false := by
  induction l with
  | nil => simp [firstError]
  | cons c rest ih =>
    obtain ⟨b, e⟩ := c
    cases b <;> simp [firstError, ih]

@[simp] theorem firstError_nil : firstError [] = none := rfl

@[simp] theorem firstError_cons (b : Bool) (e : Err) (rest : List (Bool × Err)) :
    firstError ((b, e) :: rest) = if b then some e else firstError rest := rfl

/-- A committed body completes in the state made of its answer, or records its model fault. -/
theorem commit_cases {α : Type} (i : Instr) (s : State) (r : Except ModelFault α) (k : α → State) :
    (∃ a, r = .ok a ∧ commit i s r k = .next (k a).complete) ∨
    (∃ f, r = .error f ∧ commit i s r k = recordFault s (some (encode i)) f) := by
  cases r with
  | ok a => exact .inl ⟨a, rfl, rfl⟩
  | error f => exact .inr ⟨f, rfl, rfl⟩

@[simp] theorem commit_ok {α : Type} (i : Instr) (s : State) (a : α) (k : α → State) :
    commit i s (.ok a) k = .next (k a).complete := rfl

@[simp] theorem commit_error {α : Type} (i : Instr) (s : State) (f : ModelFault) (k : α → State) :
    commit i s (.error f) k = recordFault s (some (encode i)) f := rfl

/-- An allocation goes on with the workspace, or ends in OUT_OF_MEMORY. -/
theorem withAllocation_cases (s : State) (n : Nat) (go : State → Result) :
    (s.allocOk (wsLength n) = true ∧ withAllocation s n go = go (s.drawAlloc.allocate n)) ∨
    (s.allocOk (wsLength n) = false ∧
      withAllocation s n go = .next (s.drawAlloc.raise (.outOfMemory (wsLength n)))) := by
  unfold withAllocation
  cases s.allocOk (wsLength n) with
  | true => exact .inl ⟨rfl, rfl⟩
  | false => exact .inr ⟨rfl, rfl⟩

/-- Without nondeterminism an allocation succeeds exactly within the capacity (43_driver_workspace R201). -/
theorem allocOk_deterministic {s : State} (h : s.cfg.allocNondet = false) (len : Nat) :
    s.allocOk len = decide (len ≤ s.cfg.wsCapacity) := by
  simp [State.allocOk, h]

/-- An allocation that succeeds fits the capacity. -/
theorem allocOk_le {s : State} {len : Nat} (h : s.allocOk len = true) : len ≤ s.cfg.wsCapacity := by
  simp only [State.allocOk, Bool.and_eq_true, decide_eq_true_eq] at h
  exact h.1

/-- What a command that checks, runs a body on the memories and completes can answer as its next state. -/
theorem memoryCommand_next {i : Instr} {s t : State} {error : Option Err} {r : Except ModelFault (Store F64)}
    (h : checked s error (commit i s r fun m => { s with mem := m }) = .next t) :
    (∃ e, error = some e ∧ t = s.raise e) ∨ (error = none ∧ ∃ m, r = .ok m ∧ t = { s with mem := m }.complete) := by
  cases error with
  | some e => exact .inl ⟨e, rfl, by simpa using h.symm⟩
  | none =>
    cases r with
    | ok m => exact .inr ⟨rfl, m, rfl, by simpa using h.symm⟩
    | error f => cases h

/-- What a command that checks, allocates a workspace, runs a body and releases the workspace can answer as its next
state. -/
theorem driverCommand_next {i : Instr} {s t : State} {n : Nat} {error : Option Err}
    {body : Store F64 → Except ModelFault (Store F64)}
    (h : checked s error (withAllocation s n fun u => commit i u (body u.mem) fun m => { u with mem := m }.release) =
      .next t) :
    (∃ e, error = some e ∧ t = s.raise e) ∨
    (error = none ∧ s.allocOk (wsLength n) = false ∧ t = s.drawAlloc.raise (.outOfMemory (wsLength n))) ∨
    (error = none ∧ s.allocOk (wsLength n) = true ∧ ∃ m, body (s.drawAlloc.allocate n).mem = .ok m ∧
      t = ({ s.drawAlloc.allocate n with mem := m }.release).complete) := by
  cases error with
  | some e => exact .inl ⟨e, rfl, by simpa using h.symm⟩
  | none =>
    rcases withAllocation_cases s n (fun u => commit i u (body u.mem) fun m => { u with mem := m }.release) with
      ⟨ha, hw⟩ | ⟨ha, hw⟩
    · rw [checked_none, hw] at h
      cases hb : body (s.drawAlloc.allocate n).mem with
      | ok m =>
        rw [hb, commit_ok] at h
        exact .inr (.inr ⟨rfl, ha, m, rfl, by simpa using h.symm⟩)
      | error f =>
        rw [hb] at h
        cases h
    · rw [checked_none, hw] at h
      exact .inr (.inl ⟨rfl, ha, by simpa using h.symm⟩)

/-- What WSALLOC can answer. -/
theorem execWsalloc_next {s t : State} (h : execWsalloc s = .next t) :
    (∃ e, wsallocCheck s s.operands = some e ∧ t = s.raise e) ∨
    (wsallocCheck s s.operands = none ∧ s.allocOk (wsLength s.len.toNat) = false ∧
      t = s.drawAlloc.raise (.outOfMemory (wsLength s.len.toNat))) ∨
    (wsallocCheck s s.operands = none ∧ s.allocOk (wsLength s.len.toNat) = true ∧
      t = (s.drawAlloc.allocate s.len.toNat).complete) := by
  unfold execWsalloc at h
  cases hc : wsallocCheck s s.operands with
  | some e =>
    simp only [hc, checked_some] at h
    exact .inl ⟨e, rfl, by simpa using h.symm⟩
  | none =>
    simp only [hc, checked_none] at h
    rcases withAllocation_cases s s.operands.len (fun u => .next u.complete) with ⟨ha, hw⟩ | ⟨ha, hw⟩
    · rw [hw] at h
      exact .inr (.inr ⟨rfl, ha, (Host.Outcome.next.inj h).symm⟩)
    · rw [hw] at h
      exact .inr (.inl ⟨rfl, ha, (Host.Outcome.next.inj h).symm⟩)

/-- What a command leaves after a race with it, if it leaves a next state. -/
theorem settleRace_cases {s t : State} {r : Result} (h : settleRace s r = .next t) : ∃ u, r = .next u ∧
    (s.raced = false ∧ t = u ∨ s.raced = true ∧ t = { u.freeSig (s.runningBuffer.getD (0, 0)) with raced := false }) := by
  unfold settleRace at h
  cases hr : s.raced with
  | false =>
    rw [hr] at h
    exact ⟨t, by simpa using h, .inl ⟨rfl, rfl⟩⟩
  | true =>
    cases r with
    | next u =>
      simp only [hr, if_true, Host.Outcome.next.injEq] at h
      exact ⟨u, rfl, .inr ⟨rfl, h.symm⟩⟩
    | fault f => simp [hr] at h
    | refused q => simp [hr] at h

/-- The engine's step is idle, executes the decoded command, or raises ILLEGAL_CMD. -/
theorem engineStep_cases (s : State) :
    (s.running = none ∧ engineStep s = .next s) ∨
    (∃ w i, s.running = some w ∧ decode w = .ok i ∧ engineStep s = settleRace s (exec i s)) ∨
    (∃ w e, s.running = some w ∧ decode w = .error e ∧ engineStep s = .next (s.raise (.illegalCmd w))) := by
  unfold engineStep
  cases hr : s.running with
  | none => exact .inl ⟨rfl, rfl⟩
  | some w =>
    cases hd : decode w with
    | ok i => exact .inr (.inl ⟨w, i, rfl, hd, by simp [hd]⟩)
    | error e => exact .inr (.inr ⟨w, e, rfl, hd, by simp [hd]⟩)

end Sys2Proof.Machine
end

