-- ==== Sys2Proof/Laws/Geometry.lean ====
section
/-!
SUPPORT. The laws of the workspace geometry (00_scope R16, 20_memory R68 to R70) and of the bit reversal (00_scope R8).
-/

namespace Sys2Proof.Machine

/-- 00_scope R16: larger_size(N) is a power of two. -/
theorem largerSize_pow (n : Nat) : ∃ k, largerSize n = 2 ^ (k + 1) := ⟨_, rfl⟩

/-- 00_scope R16: M ≥ 2N. -/
theorem two_mul_le_largerSize (n : Nat) : 2 * n ≤ largerSize n := by
  have h := @Nat.lt_log2_self (2 * n - 1)
  unfold largerSize
  omega

/-- 00_scope R16: M < 4N for N ≥ 1. -/
theorem largerSize_lt {n : Nat} (hn : 1 ≤ n) : largerSize n < 4 * n := by
  have h := Nat.log2_self_le (n := 2 * n - 1) (by omega)
  unfold largerSize
  rw [pow_succ]
  omega

/-- M is even, so M/2 doubles to M. -/
theorem largerSize_half (n : Nat) : 2 * (largerSize n / 2) = largerSize n := by
  unfold largerSize
  rw [pow_succ]
  omega

theorem two_le_largerSize (n : Nat) : 2 ≤ largerSize n := by
  unfold largerSize
  have := Nat.one_le_two_pow (n := Nat.log2 (2 * n - 1))
  rw [pow_succ]
  omega

@[simp] theorem isPow2_two_pow (k : Nat) : isPow2 (2 ^ k) = true := by
  simp [isPow2, Nat.log2_two_pow]

theorem isPow2_iff {n : Nat} : isPow2 n = true ↔ ∃ k, n = 2 ^ k := by
  constructor
  · intro h
    simp only [isPow2, beq_iff_eq] at h
    exact ⟨_, h.symm⟩
  · rintro ⟨k, rfl⟩
    simp

theorem isPow2_largerSize (n : Nat) : isPow2 (largerSize n) = true := isPow2_two_pow _

/-- With N ≤ N_MAX, M is at most 2^30 (00_scope R6). -/
theorem largerSize_le {n : Nat} (h1 : 1 ≤ n) (hn : n ≤ nMax) : largerSize n ≤ 2 ^ 30 := by
  obtain ⟨k, hk⟩ := largerSize_pow n
  have h := largerSize_lt h1
  unfold nMax at hn
  by_contra hc
  rw [hk] at h hc
  have : 31 ≤ k + 1 := by
    by_contra hk'
    exact hc (Nat.pow_le_pow_right (by norm_num) (by omega))
  have := Nat.pow_le_pow_right (n := 2) (by norm_num) this
  omega

/-- The regions in order, ending at WSLEN (20_memory R69, R70). -/
theorem region4_end (n : Nat) : region4 n + largerSize n / 2 = wsLength n := rfl

/-- `rev_b(i)` is below 2^b. -/
theorem bitRev_lt (b i : Nat) : bitRev b i < 2 ^ b := by
  induction b generalizing i with
  | zero => simp [bitRev]
  | succ b ih =>
    have h := ih (i / 2)
    have h2 : i % 2 < 2 := Nat.mod_lt _ (by norm_num)
    unfold bitRev
    rw [pow_succ]
    have : i % 2 * 2 ^ b ≤ 1 * 2 ^ b := Nat.mul_le_mul_right _ (by omega)
    omega

end Sys2Proof.Machine
end

