-- ==== Sys2Proof/Laws/Keeps.lean ====
section
/-!
SUPPORT. What each body of the engine can do to the memories, said once: a property of stores that the writes a body makes
keep is kept by the body, if it answers. Canonical form, address spaces and frames follow by choosing the property.
-/

namespace Sys2Proof.Machine

variable {F : Type}

/-- The writes of a data operand and a twiddle table keep `P`. -/
structure KeptByFft2 (P : Store F → Prop) (dsp : Space) (o : Operands) (plan : Plan) : Prop where
  data : planNeedsData plan = true → ∀ st e c, e < o.size → P st → P (dataWrite dsp o st e c)
  table : plan.tw = true → ∀ st k c, k < o.size / 2 → P st → P (twiddleWrite o st k c)

/-- The workspace writes below `len` keep `P`. -/
def KeptByWs (P : Store F → Prop) (len : Nat) : Prop :=
  ∀ st i c, i < len → P st → P (wsWrite st i c)

/-- The writes of the first `n` complex elements of the signal buffer keep `P`. -/
def KeptBySig (P : Store F → Prop) (base n : Nat) : Prop :=
  ∀ st k c, k < n → P st → P (sigCWrite st base k c)

section Fft2

variable (num : Num F) {P : Store F → Prop} {dsp : Space} {o : Operands}

theorem bitRevStage_keeps (hsize : isPow2 o.size = true)
    (hd : ∀ st e c, e < o.size → P st → P (dataWrite dsp o st e c)) {st st' : Store F}
    (h : bitRevStage dsp o st = .ok st') (h0 : P st) : P st' := by
  refine forRange_keeps (fun _ s => P s) h h0 ?_
  intro j a b _ hj hP hb
  unfold bitRevSwap at hb
  have hr : bitRev (Nat.log2 o.size) j < o.size := by
    have := bitRev_lt (Nat.log2 o.size) j
    simp only [isPow2, beq_iff_eq] at hsize
    omega
  simp only at hb
  split at hb
  · simp only [except_bind_ok, except_pure] at hb
    obtain ⟨x, -, y, -, hb⟩ := hb
    cases hb
    exact hd _ _ _ hr (hd _ _ _ (by omega) hP)
  · cases hb
    exact hP

theorem twiddleStage_keeps {dir : Dir} (ht : ∀ st k c, k < o.size / 2 → P st → P (twiddleWrite o st k c))
    {st st' : Store F} (h : twiddleStage num o dir st = .ok st') (h0 : P st) : P st' := by
  refine forRange_keeps (fun _ s => P s) h h0 ?_
  intro j a b _ hj hP hb
  cases hb
  exact ht _ _ _ (by omega) hP

/-- The indices of a butterfly lie in the operand. -/
theorem butterfly_index {t size q j : Nat} (hq : q < size / (2 * 2 ^ t)) (hj : j < 2 ^ t) :
    q * (2 * 2 ^ t) + j + 2 ^ t < size := by
  have h1 : (q + 1) * (2 * 2 ^ t) ≤ size / (2 * 2 ^ t) * (2 * 2 ^ t) := Nat.mul_le_mul_right _ hq
  have h2 := Nat.div_mul_le_self size (2 * 2 ^ t)
  rw [Nat.add_mul, one_mul] at h1
  omega

theorem butterflyStage_keeps (hd : ∀ st e c, e < o.size → P st → P (dataWrite dsp o st e c)) {st st' : Store F}
    (h : butterflyStage num dsp o st = .ok st') (h0 : P st) : P st' := by
  refine forRange_keeps (fun _ s => P s) h h0 ?_
  intro t a b _ _ hP hb
  refine forRange_keeps (fun _ s => P s) hb hP ?_
  intro q a b _ hq hP hb
  refine forRange_keeps (fun _ s => P s) hb hP ?_
  intro j a b _ hj hP hb
  have hi := butterfly_index (size := o.size) (by omega : q < o.size / (2 * 2 ^ t)) (by omega : j < 2 ^ t)
  unfold butterfly at hb
  simp only [except_bind_ok, except_pure] at hb
  obtain ⟨w, -, x, -, y, -, hb⟩ := hb
  cases hb
  exact hd _ _ _ hi (hd _ _ _ (by omega) hP)

theorem normalizeStage_keeps (hd : ∀ st e c, e < o.size → P st → P (dataWrite dsp o st e c)) {st st' : Store F}
    (h : normalizeStage num dsp o st = .ok st') (h0 : P st) : P st' := by
  refine forRange_keeps (fun _ s => P s) h h0 ?_
  intro j a b _ hj hP hb
  simp only [except_bind_ok, except_pure] at hb
  obtain ⟨c, -, q, -, hb⟩ := hb
  cases hb
  exact hd _ _ _ (by omega) hP

/-- What FFT2 keeps (41_radix2_fft R140). -/
theorem fft2Body_keeps {dir : Dir} {plan : Plan} (hsize : isPow2 o.size = true) (hP : KeptByFft2 P dsp o plan)
    {st st' : Store F} (h : fft2Body num dsp o dir plan st = .ok st') (h0 : P st) : P st' := by
  unfold fft2Body at h
  simp only [except_bind_ok] at h
  obtain ⟨s1, h1, s2, h2, s3, h3, h4⟩ := h
  have hneed : ∀ b : Bool, b = true → (b = plan.br ∨ b = plan.bf ∨ b = plan.nm) → planNeedsData plan = true := by
    unfold planNeedsData
    rintro b rfl (h | h | h) <;> simp [← h]
  have k1 : P s1 := stage_keeps P h1 h0
    (fun hon a b ha hb => bitRevStage_keeps hsize (hP.data (hneed _ hon (.inl rfl))) hb ha)
  have k2 : P s2 := stage_keeps P h2 k1 (fun hon a b ha hb => twiddleStage_keeps num (hP.table hon) hb ha)
  have k3 : P s3 := stage_keeps P h3 k2
    (fun hon a b ha hb => butterflyStage_keeps num (hP.data (hneed _ hon (.inr (.inl rfl)))) hb ha)
  exact stage_keeps P h4 k3
    (fun hon a b ha hb => normalizeStage_keeps num (hP.data (hneed _ hon (.inr (.inr rfl)))) hb ha)

end Fft2

section Bluestein

variable (num : Num F) {n base : Nat} {P : Store F → Prop}

theorem chirpBody_keeps {dir : Dir} (hw : KeptByWs P (wsLength n)) {st st' : Store F}
    (h : chirpBody num n dir st = .ok st') (h0 : P st) : P st' := by
  refine forRange_keeps (fun _ s => P s) h h0 ?_
  intro k a b _ hk hP hb
  cases hb
  exact hw _ _ _ (by unfold region1 wsLength; omega) hP

theorem chirpmulBody_keeps (hw : KeptByWs P (wsLength n)) {st st' : Store F}
    (h : chirpmulBody num n base st = .ok st') (h0 : P st) : P st' := by
  have hM := two_mul_le_largerSize n
  unfold chirpmulBody at h
  simp only [except_bind_ok] at h
  obtain ⟨s1, h1, h2⟩ := h
  refine forRange_keeps (fun _ s => P s) h2 (forRange_keeps (fun _ s => P s) h1 h0 ?_) ?_
  · intro k a b _ hk hP hb
    simp only [except_bind_ok, except_pure] at hb
    obtain ⟨w, -, x, -, hb⟩ := hb
    cases hb
    exact hw _ _ _ (by unfold region2 wsLength; omega) hP
  · intro k a b _ hk hP hb
    cases hb
    exact hw _ _ _ (by unfold region2 wsLength; omega) hP

theorem kernelBody_keeps (hw : KeptByWs P (wsLength n)) {st st' : Store F}
    (h : kernelBody num n st = .ok st') (h0 : P st) : P st' := by
  have hM := two_mul_le_largerSize n
  have hM2 := two_le_largerSize n
  unfold kernelBody at h
  simp only [except_bind_ok] at h
  obtain ⟨w0, -, s1, h1, h2⟩ := h
  refine forRange_keeps (fun _ s => P s) h2 (forRange_keeps (fun _ s => P s) h1 ?_ ?_) ?_
  · exact hw _ _ _ (by unfold region3 wsLength; omega) h0
  · intro k a b hk0 hk hP hb
    simp only [except_bind_ok, except_pure] at hb
    obtain ⟨w, -, hb⟩ := hb
    cases hb
    exact hw _ _ _ (by unfold region3 wsLength; omega) (hw _ _ _ (by unfold region3 wsLength; omega) hP)
  · intro k a b hk0 hk hP hb
    cases hb
    exact hw _ _ _ (by unfold region3 wsLength; omega) hP

theorem pmulBody_keeps (hw : KeptByWs P (wsLength n)) {st st' : Store F}
    (h : pmulBody num n st = .ok st') (h0 : P st) : P st' := by
  refine forRange_keeps (fun _ s => P s) h h0 ?_
  intro k a b _ hk hP hb
  simp only [except_bind_ok, except_pure] at hb
  obtain ⟨x, -, y, -, hb⟩ := hb
  cases hb
  exact hw _ _ _ (by unfold region2 wsLength; omega) hP

theorem recoverBody_keeps (hs : KeptBySig P base n) {st st' : Store F}
    (h : recoverBody num n base st = .ok st') (h0 : P st) : P st' := by
  refine forRange_keeps (fun _ s => P s) h h0 ?_
  intro k a b _ hk hP hb
  simp only [except_bind_ok, except_pure] at hb
  obtain ⟨x, -, y, -, hb⟩ := hb
  cases hb
  exact hs _ _ _ (by omega) hP

theorem normnBody_keeps (hs : KeptBySig P base n) {st st' : Store F}
    (h : normnBody num n base st = .ok st') (h0 : P st) : P st' := by
  refine forRange_keeps (fun _ s => P s) h h0 ?_
  intro k a b _ hk hP hb
  simp only [except_bind_ok, except_pure] at hb
  obtain ⟨x, -, y, -, hb⟩ := hb
  cases hb
  exact hs _ _ _ (by omega) hP

/-- The inner FFT2 runs of CZT write only the workspace (42_bluestein R177). -/
theorem inner_keeps {dbase : Nat} {dir : Dir} {plan : Plan} (hd : dbase + largerSize n ≤ region4 n)
    (hw : KeptByWs P (wsLength n)) {st st' : Store F}
    (h : fft2Body num .ws (innerOperands n dbase) dir plan st = .ok st') (h0 : P st) : P st' := by
  refine fft2Body_keeps num (isPow2_largerSize n) ⟨fun _ s e c he hP => ?_, fun _ s k c hk hP => ?_⟩ h h0
  · refine hw _ _ _ ?_ hP
    simp only [innerOperands, Operands.dataIndex] at he ⊢
    unfold region4 at hd
    unfold wsLength
    omega
  · refine hw _ _ _ ?_ hP
    simp only [innerOperands, Operands.twiddleIndex] at hk ⊢
    unfold region4 wsLength
    omega

/-- What CZT keeps (42_bluestein R177). -/
theorem cztBody_keeps {dir : Dir} (hw : KeptByWs P (wsLength n)) (hs : KeptBySig P base n) {st st' : Store F}
    (h : cztBody num n dir base st = .ok st') (h0 : P st) : P st' := by
  unfold cztBody at h
  simp only [except_bind_ok] at h
  obtain ⟨s1, h1, s2, h2, s3, h3, s4, h4, s5, h5, s6, h6, s7, h7, s8, h8, h9⟩ := h
  have k3 := kernelBody_keeps num hw h3 (chirpmulBody_keeps num hw h2 (chirpBody_keeps num hw h1 h0))
  have k4 := inner_keeps num (by unfold region2 region4; omega) hw h4 k3
  have k5 := inner_keeps num (by unfold region3 region4; omega) hw h5 k4
  have k7 := inner_keeps num (by unfold region2 region4; omega) hw h7 (pmulBody_keeps num hw h6 k5)
  exact stage_keeps P h9 (recoverBody_keeps num hs h8 k7) (fun _ a b ha hb => normnBody_keeps num hs hb ha)

end Bluestein

section Real

variable (num : Num F) {n base : Nat} {P : Store F → Prop}

theorem mixWrite_keeps {i j : Nat} {zx t : Cx F} (hs : KeptBySig P base (n / 2)) (hi : i < n / 2) (hj : j < n / 2)
    {st : Store F} (h0 : P st) : P (mixWrite num base i j zx t st) := by
  unfold mixWrite
  simp only
  split
  · exact hs _ _ _ hj (hs _ _ _ hi h0)
  · exact hs _ _ _ hi h0

theorem mixForward_keeps (hn : 2 ≤ n) (hs : KeptBySig P base (n / 2)) {st st' : Store F}
    (h : mixForward num n base st = .ok st') (h0 : P st) : P st' := by
  unfold mixForward at h
  simp only [except_bind_ok] at h
  obtain ⟨c0, -, h1⟩ := h
  refine forRange_keeps (fun _ s => P s) h1 (hs _ _ _ (by omega) h0) ?_
  intro k a b hk0 hk hP hb
  unfold mixPairForward at hb
  simp only [except_bind_ok, except_pure] at hb
  obtain ⟨x, -, y, -, hb⟩ := hb
  cases hb
  exact mixWrite_keeps num hs (by omega) (by omega) hP

theorem mixInverse_keeps (hn : 2 ≤ n) (hs : KeptBySig P base (n / 2)) {st st' : Store F}
    (h : mixInverse num n base st = .ok st') (h0 : P st) : P st' := by
  unfold mixInverse at h
  simp only [except_bind_ok] at h
  obtain ⟨c0, -, h1⟩ := h
  refine forRange_keeps (fun _ s => P s) h1 (hs _ _ _ (by omega) h0) ?_
  intro k a b hk0 hk hP hb
  unfold mixPairInverse at hb
  simp only [except_bind_ok, except_pure] at hb
  obtain ⟨x, -, y, -, hb⟩ := hb
  cases hb
  exact mixWrite_keeps num hs (by omega) (by omega) hP

/-- What RMIX keeps (44_real_transform R232). -/
theorem rmixBody_keeps {dir : Dir} (hn : 2 ≤ n) (hs : KeptBySig P base (n / 2)) {st st' : Store F}
    (h : rmixBody num n base dir st = .ok st') (h0 : P st) : P st' := by
  cases dir
  · exact mixForward_keeps num hn hs h h0
  · exact mixInverse_keeps num hn hs h h0

/-- What FFT keeps, from the cleared workspace to its last clearing (43_driver_workspace R206). -/
theorem fftBody_keeps {dir : Dir} (hw : KeptByWs P (wsLength n)) (hs : KeptBySig P base n)
    (hc : ∀ s, P s → P (clearWs s)) {st st' : Store F} (h : fftBody num n dir base st = .ok st')
    (h0 : P (clearWs st)) : P st' := by
  unfold fftBody at h
  simp only [except_bind_ok, except_pure] at h
  obtain ⟨s1, h1, h2⟩ := h
  cases h2
  exact hc _ (cztBody_keeps num hw hs h1 h0)

/-- What RFFT keeps, from the cleared workspace to its last clearing (44_real_transform R240). -/
theorem rfftBody_keeps {dir : Dir} (hn : 2 ≤ n) (hw : KeptByWs P (wsLength (n / 2))) (hs : KeptBySig P base (n / 2))
    (hc : ∀ s, P s → P (clearWs s)) {st st' : Store F} (h : rfftBody num n base dir st = .ok st')
    (h0 : P (clearWs st)) : P st' := by
  unfold rfftBody at h
  simp only [except_bind_ok, except_pure] at h
  obtain ⟨s2, h1, h2⟩ := h
  cases h2
  refine hc _ ?_
  cases dir <;> unfold rfftPasses at h1 <;> simp only [except_bind_ok] at h1 <;> obtain ⟨s1, h1, h2⟩ := h1
  · exact mixForward_keeps num hn hs h2 (cztBody_keeps num hw hs h1 h0)
  · exact cztBody_keeps num hw hs h2 (mixInverse_keeps num hn hs h1 h0)

end Real

end Sys2Proof.Machine
end

