-- ==== Sys2Proof/Laws/Bodies.lean ====
section
/-!
SUPPORT. What each body computes, said once: it answers when what it reads holds a value, and then each element reads as
the rule says and every other element reads as before.
-/

namespace Sys2Proof.Machine

variable {F : Type}

/-- Division by the count `n` always has a quotient. -/
def Divides (num : Scalar F) (n : Nat) : Prop := ∀ a, ∃ q, num.div a (num.real n) = some q

theorem b64_divides (p : Params) (n : Nat) : Divides (b64 p).toScalar n := fun a => ⟨fdiv p a (freal n), rfl⟩

theorem cdivr_ok {num : Scalar F} {n : Nat} (hd : Divides num n) (a : Cx F) : ∃ q, cdivr num a n = .ok q := by
  obtain ⟨re, hre⟩ := hd a.re
  obtain ⟨im, him⟩ := hd a.im
  exact ⟨⟨re, im⟩, by simp [cdivr, sdiv, hre, him]⟩

/-- In binary64 a division by a count divides each component (00_scope R11). -/
theorem cdivr_b64 (p : Params) (a : Cx F64) (n : Nat) :
    cdivr (b64 p).toScalar a n = .ok ⟨fdiv p a.re (freal n), fdiv p a.im (freal n)⟩ := rfl

section Bluestein

variable (num : Num F) {n base : Nat} {st : Store F}

/-- 42_bluestein R171. -/
theorem chirpBody_spec (dir : Dir) : ∃ st', chirpBody num n dir st = .ok st' ∧ st'.sig = st.sig ∧
    ∀ i, wsRead st' i = if i < n then .ok (num.cis dir (i * i) n) else wsRead st i := by
  obtain ⟨st', h, hP⟩ := forRange_total (body := fun k (st : Store F) =>
      (.ok (wsWrite st (region1 + k) (num.cis dir (k * k) n)) : Except ModelFault (Store F)))
    (fun k s => s.sig = st.sig ∧ ∀ i, wsRead s i = if i < k then .ok (num.cis dir (i * i) n) else wsRead st i)
    (n := n) (k := 0) (s := st) ⟨rfl, fun i => by simp⟩ (by
      rintro j a - - ⟨hs, hr⟩
      refine ⟨_, rfl, hs, fun i => ?_⟩
      simp only [wsRead_wsWrite, region1, hr, Nat.zero_add]
      by_cases h : i = j
      · subst h; simp
      · have : i < j + 1 ↔ i < j := by omega
        simp [h, this])
  exact ⟨st', h, hP.1, by simpa using hP.2⟩

/-- 42_bluestein R172. -/
theorem chirpmulBody_spec {w x : Nat → Cx F} (hw : ∀ k, k < n → wsRead st k = .ok (w k))
    (hx : ∀ k, k < n → sigCRead st base k = .ok (x k)) :
    ∃ st', chirpmulBody num n base st = .ok st' ∧ st'.sig = st.sig ∧
      ∀ i, wsRead st' i = if i < n then wsRead st i else if i < 2 * n then .ok (cmul num.toScalar (w (i - n)) (x (i - n)))
        else if i < n + largerSize n then .ok (czero num.toScalar) else wsRead st i := by
  have hM := two_mul_le_largerSize n
  obtain ⟨s1, h1, hs1, hr1⟩ := forRange_total (body := fun k (st : Store F) => (do
      let w ← wsRead st (region1 + k)
      let x ← sigCRead st base k
      return wsWrite st (region2 n + k) (cmul num.toScalar w x) : Except ModelFault (Store F)))
    (fun k s => s.sig = st.sig ∧ ∀ i, wsRead s i =
      if n ≤ i ∧ i < n + k then .ok (cmul num.toScalar (w (i - n)) (x (i - n))) else wsRead st i)
    (n := n) (k := 0) (s := st) ⟨rfl, fun i => by
      rw [if_neg (by omega)]⟩ (by
      rintro j a - hj ⟨hs, hr⟩
      have hwj : wsRead a (region1 + j) = .ok (w j) := by
        have : ¬ (n ≤ j ∧ j < n + j) := by omega
        simp only [region1, Nat.zero_add, hr, this, if_false]
        exact hw j (by omega)
      have hxj : sigCRead a base j = .ok (x j) := by
        have := hx j (by omega)
        rw [sigCRead_ok_iff] at this ⊢
        rwa [hs]
      refine ⟨wsWrite a (region2 n + j) (cmul num.toScalar (w j) (x j)), by simp only [hwj, hxj, except_ok_bind, except_pure], hs, fun i => ?_⟩
      simp only [wsRead_wsWrite, region2, hr]
      by_cases h : i = n + j
      · subst h
        simp
      · have : (n ≤ i ∧ i < n + (j + 1)) ↔ (n ≤ i ∧ i < n + j) := by omega
        simp only [h, if_false, this])
  obtain ⟨s2, h2, hs2, hr2⟩ := forRange_total (body := fun k (st : Store F) =>
      (.ok (wsWrite st (region2 n + k) (czero num.toScalar)) : Except ModelFault (Store F)))
    (fun k s => s.sig = st.sig ∧ ∀ i, wsRead s i =
      if 2 * n ≤ i ∧ i < n + k then .ok (czero num.toScalar) else wsRead s1 i)
    (n := largerSize n - n) (k := n) (s := s1) ⟨hs1, fun i => by
      have : ¬ (2 * n ≤ i ∧ i < n + n) := by omega
      simp [this]⟩ (by
      rintro j a hj0 hj ⟨hs, hr⟩
      refine ⟨_, rfl, hs, fun i => ?_⟩
      simp only [wsRead_wsWrite, region2, hr]
      by_cases h : i = n + j
      · subst h
        have : 2 * n ≤ n + j ∧ n + j < n + (j + 1) := by omega
        simp [this]
      · have : (2 * n ≤ i ∧ i < n + (j + 1)) ↔ (2 * n ≤ i ∧ i < n + j) := by omega
        simp only [h, if_false, this])
  refine ⟨s2, ?_, hs2, fun i => ?_⟩
  · unfold chirpmulBody
    simp only [except_bind_ok]
    exact ⟨s1, h1, h2⟩
  · rw [hr2, hr1]
    have e : n + (largerSize n - n) = largerSize n := by omega
    rw [e]
    by_cases a1 : i < n
    · have b1 : ¬ (2 * n ≤ i ∧ i < n + largerSize n) := by omega
      have b2 : ¬ (n ≤ i ∧ i < n + (0 + n)) := by omega
      rw [if_pos a1, if_neg b1, if_neg b2]
    · by_cases a2 : i < 2 * n
      · have b1 : ¬ (2 * n ≤ i ∧ i < n + largerSize n) := by omega
        have b2 : n ≤ i ∧ i < n + (0 + n) := by omega
        rw [if_neg a1, if_pos a2, if_neg b1, if_pos b2]
      · by_cases a3 : i < n + largerSize n
        · have b1 : 2 * n ≤ i ∧ i < n + largerSize n := by omega
          rw [if_neg a1, if_neg a2, if_pos a3, if_pos b1]
        · have b1 : ¬ (2 * n ≤ i ∧ i < n + largerSize n) := by omega
          have b2 : ¬ (n ≤ i ∧ i < n + (0 + n)) := by omega
          rw [if_neg a1, if_neg a2, if_neg a3, if_neg b1, if_neg b2]

/-- 42_bluestein R173. -/
theorem kernelBody_spec (hn : 1 ≤ n) {w : Nat → Cx F} (hw : ∀ k, k < n → wsRead st k = .ok (w k)) :
    ∃ st', kernelBody num n st = .ok st' ∧ st'.sig = st.sig ∧
      ∀ i, wsRead st' i = if region3 n ≤ i ∧ i < region3 n + largerSize n
        then .ok (kernelAt num.toScalar n w (i - region3 n)) else wsRead st i := by
  have hM := two_mul_le_largerSize n
  have hr3 : n ≤ region3 n := by unfold region3; omega
  obtain ⟨s1, h1, hs1, hr1⟩ := forRange_total (body := fun k (st : Store F) => (do
      let w ← wsRead st (region1 + k)
      let c := cconj num.toScalar w
      return wsWrite (wsWrite st (region3 n + k) c) (region3 n + largerSize n - k) c : Except ModelFault (Store F)))
    (fun k s => s.sig = st.sig ∧ ∀ i, wsRead s i =
      if region3 n ≤ i ∧ i < region3 n + k ∨ region3 n + largerSize n - k < i ∧ i < region3 n + largerSize n
      then .ok (kernelAt num.toScalar n w (i - region3 n)) else wsRead st i)
    (n := n - 1) (k := 1) (s := wsWrite st (region3 n) (w 0)) ⟨rfl, fun i => by
      simp only [wsRead_wsWrite]
      by_cases h : i = region3 n
      · subst h
        simp [kernelAt]
      · have : ¬ (region3 n ≤ i ∧ i < region3 n + 1 ∨
            region3 n + largerSize n - 1 < i ∧ i < region3 n + largerSize n) := by omega
        simp only [h, this, if_false]⟩ (by
      rintro j a hj0 hj ⟨hs, hr⟩
      have hwj : wsRead a (region1 + j) = .ok (w j) := by
        have : ¬ (region3 n ≤ j ∧ j < region3 n + j ∨
            region3 n + largerSize n - j < j ∧ j < region3 n + largerSize n) := by omega
        simp only [region1, Nat.zero_add, hr, this, if_false]
        exact hw j (by omega)
      refine ⟨wsWrite (wsWrite a (region3 n + j) (cconj num.toScalar (w j))) (region3 n + largerSize n - j)
          (cconj num.toScalar (w j)), by simp only [hwj, except_ok_bind, except_pure], hs, fun i => ?_⟩
      simp only [wsRead_wsWrite, hr]
      by_cases h : i = region3 n + largerSize n - j
      · have c1 : region3 n ≤ i ∧ i < region3 n + (j + 1) ∨
            region3 n + largerSize n - (j + 1) < i ∧ i < region3 n + largerSize n := by omega
        have k1 : ¬ i - region3 n = 0 := by omega
        have k2 : ¬ i - region3 n < n := by omega
        have k3 : largerSize n - n < i - region3 n := by omega
        have k4 : largerSize n - (i - region3 n) = j := by omega
        simp only [if_pos h, if_pos c1, kernelAt, k1, k2, k3, k4, if_true, if_false]
      · by_cases h' : i = region3 n + j
        · have c1 : region3 n ≤ i ∧ i < region3 n + (j + 1) ∨
              region3 n + largerSize n - (j + 1) < i ∧ i < region3 n + largerSize n := by omega
          have k4 : i - region3 n = j := by omega
          have k1 : ¬ j = 0 := by omega
          have k2 : j < n := by omega
          rw [if_neg h, if_pos h', if_pos c1, k4]
          simp only [kernelAt, k1, k2, if_true, if_false]
        · have : (region3 n ≤ i ∧ i < region3 n + (j + 1) ∨
              region3 n + largerSize n - (j + 1) < i ∧ i < region3 n + largerSize n) ↔
              (region3 n ≤ i ∧ i < region3 n + j ∨
              region3 n + largerSize n - j < i ∧ i < region3 n + largerSize n) := by omega
          simp only [h, h', if_false, this])
  obtain ⟨s2, h2, hs2, hr2⟩ := forRange_total (body := fun k (st : Store F) =>
      (.ok (wsWrite st (region3 n + k) (czero num.toScalar)) : Except ModelFault (Store F)))
    (fun k s => s.sig = st.sig ∧ ∀ i, wsRead s i =
      if region3 n + n ≤ i ∧ i < region3 n + k then .ok (czero num.toScalar) else wsRead s1 i)
    (n := largerSize n - 2 * n + 1) (k := n) (s := s1) ⟨hs1, fun i => by
      have : ¬ (region3 n + n ≤ i ∧ i < region3 n + n) := by omega
      simp [this]⟩ (by
      rintro j a hj0 hj ⟨hs, hr⟩
      refine ⟨_, rfl, hs, fun i => ?_⟩
      simp only [wsRead_wsWrite, hr]
      by_cases h : i = region3 n + j
      · have : region3 n + n ≤ i ∧ i < region3 n + (j + 1) := by omega
        rw [if_pos h, if_pos this]
      · have : (region3 n + n ≤ i ∧ i < region3 n + (j + 1)) ↔ (region3 n + n ≤ i ∧ i < region3 n + j) := by omega
        simp only [h, if_false, this])
  refine ⟨s2, ?_, hs2, fun i => ?_⟩
  · unfold kernelBody
    have h0 := hw 0 (by omega)
    simp only [except_bind_ok, region1]
    exact ⟨w 0, h0, s1, h1, h2⟩
  · rw [hr2, hr1]
    by_cases a1 : region3 n ≤ i ∧ i < region3 n + largerSize n
    · rw [if_pos a1]
      by_cases a2 : region3 n + n ≤ i ∧ i < region3 n + (n + (largerSize n - 2 * n + 1))
      · rw [if_pos a2]
        have k1 : ¬ i - region3 n = 0 := by omega
        have k2 : ¬ i - region3 n < n := by omega
        have k3 : ¬ largerSize n - n < i - region3 n := by omega
        simp only [kernelAt, k1, k2, k3, if_false]
      · rw [if_neg a2, if_pos (by omega)]
    · rw [if_neg a1, if_neg (by omega), if_neg (by omega)]

/-- 42_bluestein R174. -/
theorem pmulBody_spec {a b : Nat → Cx F} (ha : ∀ k, k < largerSize n → wsRead st (region2 n + k) = .ok (a k))
    (hb : ∀ k, k < largerSize n → wsRead st (region3 n + k) = .ok (b k)) :
    ∃ st', pmulBody num n st = .ok st' ∧ st'.sig = st.sig ∧
      ∀ i, wsRead st' i = if region2 n ≤ i ∧ i < region2 n + largerSize n
        then .ok (cmul num.toScalar (a (i - region2 n)) (b (i - region2 n))) else wsRead st i := by
  obtain ⟨s1, h1, hs1, hr1⟩ := forRange_total (body := fun k (st : Store F) => (do
      let a ← wsRead st (region2 n + k)
      let b ← wsRead st (region3 n + k)
      return wsWrite st (region2 n + k) (cmul num.toScalar a b) : Except ModelFault (Store F)))
    (fun k s => s.sig = st.sig ∧ ∀ i, wsRead s i = if region2 n ≤ i ∧ i < region2 n + k
        then .ok (cmul num.toScalar (a (i - region2 n)) (b (i - region2 n))) else wsRead st i)
    (n := largerSize n) (k := 0) (s := st) ⟨rfl, fun i => by
      rw [if_neg (by omega)]⟩ (by
      rintro j s - hj ⟨hs, hr⟩
      have h2 : wsRead s (region2 n + j) = .ok (a j) := by
        have : ¬ (region2 n ≤ region2 n + j ∧ region2 n + j < region2 n + j) := by omega
        rw [hr, if_neg this]
        exact ha j (by omega)
      have h3 : wsRead s (region3 n + j) = .ok (b j) := by
        have : ¬ (region2 n ≤ region3 n + j ∧ region3 n + j < region2 n + j) := by
          unfold region2 region3
          omega
        rw [hr, if_neg this]
        exact hb j (by omega)
      refine ⟨wsWrite s (region2 n + j) (cmul num.toScalar (a j) (b j)), by simp only [h2, h3, except_ok_bind, except_pure], hs, fun i => ?_⟩
      simp only [wsRead_wsWrite, hr]
      by_cases h : i = region2 n + j
      · subst h
        simp
      · have : (region2 n ≤ i ∧ i < region2 n + (j + 1)) ↔ (region2 n ≤ i ∧ i < region2 n + j) := by omega
        simp only [h, if_false, this])
  exact ⟨s1, h1, hs1, by simpa using hr1⟩

/-- 42_bluestein R175. -/
theorem recoverBody_spec {w c : Nat → Cx F} (hw : ∀ k, k < n → wsRead st k = .ok (w k))
    (hc : ∀ k, k < n → wsRead st (region2 n + k) = .ok (c k)) :
    ∃ st', recoverBody num n base st = .ok st' ∧ st'.wsRe = st.wsRe ∧ st'.wsIm = st.wsIm ∧
      ∀ k, sigCRead st' base k = if k < n then .ok (cmul num.toScalar (w k) (c k)) else sigCRead st base k := by
  obtain ⟨s1, h1, hs1, hs2, hr1⟩ := forRange_total (body := fun k (st : Store F) => (do
      let w ← wsRead st (region1 + k)
      let c ← wsRead st (region2 n + k)
      return sigCWrite st base k (cmul num.toScalar w c) : Except ModelFault (Store F)))
    (fun k s => s.wsRe = st.wsRe ∧ s.wsIm = st.wsIm ∧ ∀ j, sigCRead s base j =
      if j < k then .ok (cmul num.toScalar (w j) (c j)) else sigCRead st base j)
    (n := n) (k := 0) (s := st) ⟨rfl, rfl, fun j => by simp⟩ (by
      rintro j s - hj ⟨hs, hs', hr⟩
      have h1 : wsRead s (region1 + j) = .ok (w j) := by
        have := hw j (by omega)
        rw [wsRead_ok_iff] at this ⊢
        rwa [hs, hs', region1, Nat.zero_add]
      have h2 : wsRead s (region2 n + j) = .ok (c j) := by
        have := hc j (by omega)
        rw [wsRead_ok_iff] at this ⊢
        rwa [hs, hs']
      refine ⟨sigCWrite s base j (cmul num.toScalar (w j) (c j)), by simp only [h1, h2, except_ok_bind, except_pure], hs, hs', fun i => ?_⟩
      simp only [sigCRead_sigCWrite, hr]
      by_cases h : i = j
      · subst h
        simp
      · have : i < j + 1 ↔ i < j := by omega
        simp only [h, if_false, this])
  exact ⟨s1, h1, hs1, hs2, by simpa using hr1⟩

/-- 42_bluestein R176. -/
theorem normnBody_spec {c q : Nat → Cx F} (hc : ∀ k, k < n → sigCRead st base k = .ok (c k))
    (hq : ∀ k, k < n → cdivr num.toScalar (c k) n = .ok (q k)) :
    ∃ st', normnBody num n base st = .ok st' ∧ st'.wsRe = st.wsRe ∧ st'.wsIm = st.wsIm ∧
      ∀ k, sigCRead st' base k = if k < n then .ok (q k) else sigCRead st base k := by
  obtain ⟨s1, h1, hs1, hs2, hr1⟩ := forRange_total (body := fun k (st : Store F) => (do
      let c ← sigCRead st base k
      let q ← cdivr num.toScalar c n
      return sigCWrite st base k q : Except ModelFault (Store F)))
    (fun k s => s.wsRe = st.wsRe ∧ s.wsIm = st.wsIm ∧ ∀ j, sigCRead s base j =
      if j < k then .ok (q j) else sigCRead st base j)
    (n := n) (k := 0) (s := st) ⟨rfl, rfl, fun j => by simp⟩ (by
      rintro j s - hj ⟨hs, hs', hr⟩
      have h1 : sigCRead s base j = .ok (c j) := by
        rw [hr, if_neg (by omega)]
        exact hc j (by omega)
      refine ⟨sigCWrite s base j (q j), by simp only [h1, hq j (by omega), except_ok_bind, except_pure], hs, hs', fun i => ?_⟩
      simp only [sigCRead_sigCWrite, hr]
      by_cases h : i = j
      · subst h
        simp
      · have : i < j + 1 ↔ i < j := by omega
        simp only [h, if_false, this])
  exact ⟨s1, h1, hs1, hs2, by simpa using hr1⟩

end Bluestein

end Sys2Proof.Machine
end

