-- ==== Sys2Proof/Laws/Fft2.lean ====
section
/-!
SUPPORT. What each stage of FFT2 computes, said once: it answers when the operand and the table it reads hold values, and
then each element reads as the rule says (41_radix2_fft R145 to R148).
-/

namespace Sys2Proof.Machine

variable {F : Type}

/-- A remainder that is already below the divisor stays. -/
theorem mul_add_mod_of_lt (a : Nat) {n c : Nat} (h : c < n) : (a * n + c) % n = c := by
  rw [Nat.mul_comm, Nat.mul_add_mod, Nat.mod_eq_of_lt h]

section BitReversal

/-- The reversal read from the other end: the top bit of the index becomes the bottom bit. -/
theorem bitRev_succ_top (b i : Nat) : bitRev (b + 1) i = 2 * bitRev b (i % 2 ^ b) + i / 2 ^ b % 2 := by
  induction b generalizing i with
  | zero => simp [bitRev]
  | succ b ih =>
    rw [bitRev, ih (i / 2), bitRev]
    have h1 : i % 2 ^ (b + 1) % 2 = i % 2 := by
      rw [pow_succ, Nat.mod_mul_left_mod]
    have h2 : i % 2 ^ (b + 1) / 2 = i / 2 % 2 ^ b := by
      rw [pow_succ, mul_comm, Nat.mod_mul_right_div_self]
    have h3 : i / 2 / 2 ^ b = i / 2 ^ (b + 1) := by
      rw [Nat.div_div_eq_div_mul, pow_succ, mul_comm]
    rw [h1, h2, h3]
    ring

/-- `rev_b` is an involution on [0, 2^b) (41_radix2_fft R145). -/
theorem bitRev_bitRev {b i : Nat} (h : i < 2 ^ b) : bitRev b (bitRev b i) = i := by
  induction b generalizing i with
  | zero =>
    have : i = 0 := by simpa using h
    subst this
    rfl
  | succ b ih =>
    have hlt := bitRev_lt b (i / 2)
    have h2 : i % 2 < 2 := Nat.mod_lt _ (by norm_num)
    rw [bitRev_succ_top]
    have e1 : bitRev (b + 1) i % 2 ^ b = bitRev b (i / 2) := by
      rw [bitRev, mul_add_mod_of_lt _ hlt]
    have e2 : bitRev (b + 1) i / 2 ^ b = i % 2 := by
      rw [bitRev, mul_comm, Nat.mul_add_div (Nat.two_pow_pos b), Nat.div_eq_of_lt hlt, Nat.add_zero]
    rw [e1, e2, ih (by rw [pow_succ] at h; omega)]
    omega

end BitReversal

section Stages

variable (num : Num F) {dsp : Space} {o : Operands} {st : Store F}

/-- 41_radix2_fft R145: an element at a position equal to its own reversal is neither read nor written. -/
theorem bitRevStage_swaps {b : Nat} (hb : o.size = 2 ^ b) (hs : 1 ≤ o.stride) {d : Nat → Cx F}
    (hd : ∀ e, e < o.size → bitRev b e ≠ e → dataRead dsp o st e = .ok (d e)) :
    ∃ st', bitRevStage dsp o st = .ok st' ∧ ∀ e, e < o.size →
      (bitRev b e ≠ e → dataRead dsp o st' e = .ok (d (bitRev b e))) ∧
      (bitRev b e = e → dataRead dsp o st' e = dataRead dsp o st e) := by
  have hlog : Nat.log2 o.size = b := by rw [hb, Nat.log2_two_pow]
  obtain ⟨st', h, hP⟩ := forRange_total (body := bitRevSwap dsp o)
    (fun k s => ∀ e, e < o.size →
      (bitRev b e ≠ e → dataRead dsp o s e = .ok (d (if min e (bitRev b e) < k then bitRev b e else e))) ∧
      (bitRev b e = e → dataRead dsp o s e = dataRead dsp o st e))
    (n := o.size) (k := 0) (s := st) (fun e he => ⟨fun hne => by simpa using hd e he hne, fun _ => rfl⟩) (by
      intro j a _ hj hP
      have hjs : j < o.size := by omega
      have hr : bitRev b j < o.size := by rw [hb]; exact bitRev_lt b j
      have hrr : bitRev b (bitRev b j) = j := bitRev_bitRev (by omega)
      unfold bitRevSwap
      simp only [hlog]
      by_cases hlt : j < bitRev b j
      · have e1 := (hP j hjs).1 (by omega)
        have e2 := (hP (bitRev b j) hr).1 (by omega)
        rw [if_neg (by omega)] at e1
        rw [hrr, if_neg (by omega)] at e2
        refine ⟨dataWrite dsp o (dataWrite dsp o a j (d (bitRev b j))) (bitRev b j) (d j), ?_,
          fun e he => ⟨fun hne => ?_, fun heq => ?_⟩⟩
        · simp only [if_pos hlt, e1, e2, except_ok_bind, except_pure]
        · by_cases h1 : e = bitRev b j
          · subst h1
            rw [dataRead_dataWrite_same, hrr, if_pos (by omega)]
          · rw [dataRead_dataWrite_ne hs _ _ h1]
            by_cases h2 : e = j
            · subst h2
              rw [dataRead_dataWrite_same, if_pos (by omega)]
            · rw [dataRead_dataWrite_ne hs _ _ h2, (hP e he).1 hne]
              have h3 : bitRev b e ≠ j := fun h => h1 (by rw [← h, bitRev_bitRev (by omega)])
              have : min e (bitRev b e) < j + 1 ↔ min e (bitRev b e) < j := by omega
              simp only [this]
        · have h1 : e ≠ bitRev b j := by
            rintro rfl
            omega
          have h2 : e ≠ j := by
            rintro rfl
            omega
          rw [dataRead_dataWrite_ne hs _ _ h1, dataRead_dataWrite_ne hs _ _ h2, (hP e he).2 heq]
      · refine ⟨a, by simp only [if_neg hlt], fun e he => ⟨fun hne => ?_, (hP e he).2⟩⟩
        rw [(hP e he).1 hne]
        by_cases h2 : e = j
        · subst h2
          have : min e (bitRev b e) < e + 1 ↔ min e (bitRev b e) < e := by omega
          simp only [this]
        · by_cases h3 : bitRev b e = j
          · have h4 : bitRev b j = e := by rw [← h3, bitRev_bitRev (by omega)]
            have : min e (bitRev b e) < j + 1 ↔ min e (bitRev b e) < j := by omega
            simp only [this]
          · have : min e (bitRev b e) < j + 1 ↔ min e (bitRev b e) < j := by omega
            simp only [this])
  refine ⟨st', h, fun e he => ⟨fun hne => ?_, (hP e he).2⟩⟩
  rw [(hP e he).1 hne, if_pos (by omega)]

/-- 41_radix2_fft R145, for an operand that holds values throughout. -/
theorem bitRevStage_spec {b : Nat} (hb : o.size = 2 ^ b) (hs : 1 ≤ o.stride) {d : Nat → Cx F}
    (hd : ∀ e, e < o.size → dataRead dsp o st e = .ok (d e)) :
    ∃ st', bitRevStage dsp o st = .ok st' ∧ ∀ e, e < o.size → dataRead dsp o st' e = .ok (d (bitRev b e)) := by
  obtain ⟨st', h, hP⟩ := bitRevStage_swaps hb hs (fun e he _ => hd e he)
  refine ⟨st', h, fun e he => ?_⟩
  by_cases heq : bitRev b e = e
  · rw [(hP e he).2 heq, hd e he, heq]
  · exact (hP e he).1 heq

/-- 41_radix2_fft R146. -/
theorem twiddleStage_spec (dir : Dir) : ∃ st', twiddleStage num o dir st = .ok st' ∧ st'.sig = st.sig ∧
    ∀ i, wsRead st' i = if o.tbase ≤ i ∧ i < o.tbase + o.size / 2
      then .ok (num.cis dir (i - o.tbase) (o.size / 2)) else wsRead st i := by
  obtain ⟨st', h, hP⟩ := forRange_total (body := fun k (st : Store F) =>
      (.ok (twiddleWrite o st k (num.cis dir k (o.size / 2))) : Except ModelFault (Store F)))
    (fun k s => s.sig = st.sig ∧ ∀ i, wsRead s i = if o.tbase ≤ i ∧ i < o.tbase + k
      then .ok (num.cis dir (i - o.tbase) (o.size / 2)) else wsRead st i)
    (n := o.size / 2) (k := 0) (s := st) ⟨rfl, fun i => by rw [if_neg (by omega)]⟩ (by
      rintro j a - - ⟨hs, hr⟩
      refine ⟨_, rfl, hs, fun i => ?_⟩
      simp only [twiddleWrite, Operands.twiddleIndex, wsRead_wsWrite, hr]
      by_cases h : i = o.tbase + j
      · subst h
        simp
      · have : (o.tbase ≤ i ∧ i < o.tbase + (j + 1)) ↔ (o.tbase ≤ i ∧ i < o.tbase + j) := by omega
        simp only [h, if_false, this])
  exact ⟨st', h, hP.1, by simpa using hP.2⟩

/-- The table and the data operand do not meet (41_radix2_fft R141, R153). -/
def Apart (dsp : Space) (o : Operands) : Prop :=
  dsp = .ws → ∀ e k, e < o.size → k < o.size / 2 → o.dataIndex e ≠ o.twiddleIndex k

/-- What the overlap check of 41_radix2_fft R141 leaves keeps data and table apart. -/
theorem apart_of_span {dsp : Space} {o : Operands}
    (h : dsp = .ws → 2 ≤ o.size → o.tbase + o.size / 2 ≤ o.dbase ∨ o.last < o.tbase) : Apart dsp o := by
  intro hd e k he hk
  have hle : e * o.stride ≤ (o.size - 1) * o.stride := Nat.mul_le_mul_right _ (by omega)
  rcases h hd (by omega) with h | h
  · unfold Operands.dataIndex Operands.twiddleIndex
    omega
  · unfold Operands.last at h
    unfold Operands.dataIndex Operands.twiddleIndex
    omega

theorem twiddleRead_dataWrite (ha : Apart dsp o) (st : Store F) {e k : Nat} (c : Cx F) (he : e < o.size)
    (hk : k < o.size / 2) : twiddleRead o (dataWrite dsp o st e c) k = twiddleRead o st k := by
  cases dsp with
  | sig => rfl
  | ws =>
    have := ha rfl e k he hk
    simp [twiddleRead, dataWrite, Ne.symm this]

/-- Two stores that agree on the data operand's space read the same data. -/
theorem dataRead_congr {st' : Store F} (hsig : dsp = .sig → st'.sig = st.sig)
    (hws : dsp = .ws → ∀ e, e < o.size → wsRead st' (o.dataIndex e) = wsRead st (o.dataIndex e)) {e : Nat}
    (he : e < o.size) : dataRead dsp o st' e = dataRead dsp o st e := by
  cases dsp with
  | sig => simp [dataRead, sigCRead, sigRead, hsig rfl]
  | ws => exact hws rfl e he

/-- The table entry a butterfly reads lies in the table. -/
theorem table_index {b t j : Nat} (ht : t < b) (hj : j < 2 ^ t) : j * (2 ^ b / 2 / 2 ^ t) < 2 ^ b / 2 := by
  obtain ⟨c, rfl⟩ : ∃ c, b = t + c + 1 := ⟨b - t - 1, by omega⟩
  have h1 : 2 ^ (t + c + 1) / 2 = 2 ^ t * 2 ^ c := by
    rw [pow_succ, pow_add]
    omega
  rw [h1, Nat.mul_div_cancel_left _ (Nat.two_pow_pos t)]
  exact Nat.mul_lt_mul_of_pos_right hj (Nat.two_pow_pos c)

/-- 41_radix2_fft R147: one pass over the operand is one layer of the network. -/
theorem butterflyPass_spec {b t : Nat} (hb : o.size = 2 ^ b) (ht : t < b) (hs : 1 ≤ o.stride) (ha : Apart dsp o)
    {d w : Nat → Cx F} (hd : ∀ e, e < o.size → dataRead dsp o st e = .ok (d e))
    (hw : ∀ k, k < o.size / 2 → twiddleRead o st k = .ok (w k)) :
    ∃ st', butterflyPass num dsp o t st = .ok st' ∧
      (∀ e, e < o.size → dataRead dsp o st' e = .ok (butterflyLayer num.toScalar o.size w t d e)) ∧
      ∀ k, k < o.size / 2 → twiddleRead o st' k = .ok (w k) := by
  set step := 2 ^ t with hstep
  have hsp : 0 < step := Nat.two_pow_pos t
  have hdiv : o.size / (2 * step) * (2 * step) = o.size := by
    apply Nat.div_mul_cancel
    rw [hb, hstep, ← pow_succ']
    exact Nat.pow_dvd_pow 2 (by omega)
  obtain ⟨st', h, hP, hT⟩ := forRange_total (body := butterflyGroup num dsp o step)
    (fun q s => (∀ e, e < o.size → dataRead dsp o s e =
        .ok (if e < q * (2 * step) then butterflyLayer num.toScalar o.size w t d e else d e)) ∧
      ∀ k, k < o.size / 2 → twiddleRead o s k = .ok (w k))
    (n := o.size / (2 * step)) (k := 0) (s := st) ⟨fun e he => by simpa using hd e he, hw⟩ (by
      rintro q a - hq ⟨hP, hT⟩
      have hq' : q < o.size / (2 * 2 ^ t) := by
        rw [← hstep]
        omega
      obtain ⟨a', h, hP', hT'⟩ := forRange_total (body := butterfly num dsp o step (q * (2 * step)))
        (fun j s => (∀ e, e < o.size → dataRead dsp o s e =
            .ok (if e < q * (2 * step) ∨ (q * (2 * step) ≤ e ∧ e < q * (2 * step) + j) ∨
                (q * (2 * step) + step ≤ e ∧ e < q * (2 * step) + step + j)
              then butterflyLayer num.toScalar o.size w t d e else d e)) ∧
          ∀ k, k < o.size / 2 → twiddleRead o s k = .ok (w k))
        (n := step) (k := 0) (s := a) ⟨fun e he => by
          rw [hP e he]
          have : (e < q * (2 * step) ∨ (q * (2 * step) ≤ e ∧ e < q * (2 * step) + 0) ∨
              (q * (2 * step) + step ≤ e ∧ e < q * (2 * step) + step + 0)) ↔ e < q * (2 * step) := by omega
          simp only [this], hT⟩ (by
          rintro j s - hj ⟨hP, hT⟩
          have hj' : j < step := by omega
          have hlt := butterfly_index (size := o.size) hq' hj'
          rw [← hstep] at hlt
          have hti : j * (o.size / 2 / step) < o.size / 2 := by
            rw [hb]
            exact table_index ht hj'
          have hw' := hT _ hti
          have hx := hP (q * (2 * step) + j) (by omega)
          have hy := hP (q * (2 * step) + j + step) (by omega)
          rw [if_neg (by omega)] at hx hy
          have m1 : (q * (2 * step) + j) % (2 * step) = j := by
            rw [mul_add_mod_of_lt _ (by omega)]
          have m2 : (q * (2 * step) + j + step) % (2 * step) = j + step := by
            rw [Nat.add_assoc, mul_add_mod_of_lt _ (by omega)]
          refine ⟨_, by simp only [butterfly, hw', hx, hy, except_ok_bind, except_pure]; rfl, fun e he => ?_,
            fun k hk => ?_⟩
          · by_cases h1 : e = q * (2 * step) + j + step
            · subst h1
              rw [dataRead_dataWrite_same, if_pos (by omega)]
              have n1 : ¬ j + step < step := by omega
              simp only [butterflyLayer, ← hstep, m2, n1, if_false, Nat.add_sub_cancel]
            · rw [dataRead_dataWrite_ne hs _ _ h1]
              by_cases h2 : e = q * (2 * step) + j
              · subst h2
                rw [dataRead_dataWrite_same, if_pos (by omega)]
                simp only [butterflyLayer, ← hstep, m1, hj', if_true]
              · rw [dataRead_dataWrite_ne hs _ _ h2, hP e he]
                have : (e < q * (2 * step) ∨ (q * (2 * step) ≤ e ∧ e < q * (2 * step) + (j + 1)) ∨
                    (q * (2 * step) + step ≤ e ∧ e < q * (2 * step) + step + (j + 1))) ↔
                    (e < q * (2 * step) ∨ (q * (2 * step) ≤ e ∧ e < q * (2 * step) + j) ∨
                    (q * (2 * step) + step ≤ e ∧ e < q * (2 * step) + step + j)) := by omega
                simp only [this]
          · rw [twiddleRead_dataWrite ha _ _ (by omega) hk, twiddleRead_dataWrite ha _ _ (by omega) hk, hT k hk])
      refine ⟨a', h, fun e he => ?_, hT'⟩
      rw [hP' e he]
      have hm : (q + 1) * (2 * step) = q * (2 * step) + 2 * step := by rw [Nat.add_mul, one_mul]
      have : (e < q * (2 * step) ∨ (q * (2 * step) ≤ e ∧ e < q * (2 * step) + (0 + step)) ∨
          (q * (2 * step) + step ≤ e ∧ e < q * (2 * step) + step + (0 + step))) ↔ e < (q + 1) * (2 * step) := by omega
      simp only [this])
  refine ⟨st', h, fun e he => ?_, hT⟩
  rw [hP e he, Nat.zero_add, hdiv, if_pos he]

/-- 41_radix2_fft R147. -/
theorem butterflyStage_spec {b : Nat} (hb : o.size = 2 ^ b) (hs : 1 ≤ o.stride) (ha : Apart dsp o)
    {d w : Nat → Cx F} (hd : ∀ e, e < o.size → dataRead dsp o st e = .ok (d e))
    (hw : ∀ k, k < o.size / 2 → twiddleRead o st k = .ok (w k)) :
    ∃ st', butterflyStage num dsp o st = .ok st' ∧
      (∀ e, e < o.size → dataRead dsp o st' e = .ok (butterflyLayers num.toScalar o.size w b d e)) ∧
      ∀ k, k < o.size / 2 → twiddleRead o st' k = .ok (w k) := by
  have hlog : Nat.log2 o.size = b := by rw [hb, Nat.log2_two_pow]
  obtain ⟨st', h, hP⟩ := forRange_total (body := butterflyPass num dsp o)
    (fun t s => (∀ e, e < o.size → dataRead dsp o s e = .ok (butterflyLayers num.toScalar o.size w t d e)) ∧
      ∀ k, k < o.size / 2 → twiddleRead o s k = .ok (w k))
    (n := b) (k := 0) (s := st) ⟨hd, hw⟩ (by
      rintro t a - ht ⟨hP, hT⟩
      exact butterflyPass_spec num hb (by omega) hs ha hP hT)
  refine ⟨st', by rw [butterflyStage, hlog]; exact h, ?_⟩
  rwa [Nat.zero_add] at hP

/-- 41_radix2_fft R148. -/
theorem normalizeStage_spec (hs : 1 ≤ o.stride) {d q : Nat → Cx F}
    (hd : ∀ e, e < o.size → dataRead dsp o st e = .ok (d e))
    (hq : ∀ e, e < o.size → cdivr num.toScalar (d e) o.size = .ok (q e)) :
    ∃ st', normalizeStage num dsp o st = .ok st' ∧ ∀ e, e < o.size → dataRead dsp o st' e = .ok (q e) := by
  obtain ⟨st', h, hP⟩ := forRange_total (body := fun e (st : Store F) => (do
      let c ← dataRead dsp o st e
      let q ← cdivr num.toScalar c o.size
      return dataWrite dsp o st e q : Except ModelFault (Store F)))
    (fun k s => ∀ e, e < o.size → dataRead dsp o s e = .ok (if e < k then q e else d e))
    (n := o.size) (k := 0) (s := st) (fun e he => by simpa using hd e he) (by
      intro j a _ hj hP
      have h1 := hP j (by omega)
      rw [if_neg (by omega)] at h1
      refine ⟨dataWrite dsp o a j (q j), by simp only [h1, hq j (by omega), except_ok_bind, except_pure],
        fun e he => ?_⟩
      by_cases h2 : e = j
      · subst h2
        rw [dataRead_dataWrite_same, if_pos (by omega)]
      · rw [dataRead_dataWrite_ne hs _ _ h2, hP e he]
        have : e < j + 1 ↔ e < j := by omega
        simp only [this])
  refine ⟨st', h, fun e he => ?_⟩
  rw [hP e he, if_pos (by omega)]

/-- 41_radix2_fft R140, for a plan that touches the data operand. -/
theorem fft2Body_spec {b : Nat} {plan : Plan} (hb : o.size = 2 ^ b) (hs : 1 ≤ o.stride)
    (ha : plan.tw = true ∨ plan.bf = true → Apart dsp o) (dir : Dir)
    {d w : Nat → Cx F} {quot : Cx F → Cx F} (hd : ∀ e, e < o.size → dataRead dsp o st e = .ok (d e))
    (hw : plan.bf = true → plan.tw = false → ∀ k, k < o.size / 2 → twiddleRead o st k = .ok (w k))
    (hq : plan.nm = true → ∀ c, cdivr num.toScalar c o.size = .ok (quot c)) :
    ∃ st', fft2Body num dsp o dir plan st = .ok st' ∧
      ∀ e, e < o.size → dataRead dsp o st' e = .ok (fft2Result num o.size b dir plan quot w d e) := by
  obtain ⟨br, tw, bf, nm⟩ := plan
  simp only at ha hw hq
  have hbr : ∃ s1, stage br (bitRevStage dsp o) st = .ok s1 ∧
      (∀ e, e < o.size → dataRead dsp o s1 e = .ok ((if br then fun e => d (bitRev b e) else d) e)) ∧
      (bf = true → tw = false → ∀ k, k < o.size / 2 → twiddleRead o s1 k = .ok (w k)) := by
    cases br with
    | false => exact ⟨st, rfl, hd, hw⟩
    | true =>
      obtain ⟨s1, h1, hd1⟩ := bitRevStage_spec hb hs hd
      refine ⟨s1, h1, hd1, fun hbf htw k hk => ?_⟩
      refine bitRevStage_keeps (P := fun s => twiddleRead o s k = .ok (w k)) (by rw [hb]; exact isPow2_two_pow b) ?_ h1
        (hw hbf htw k hk)
      intro s e c he hP
      rw [twiddleRead_dataWrite (ha (.inr hbf)) _ _ he hk, hP]
  obtain ⟨s1, h1, hd1, hw1⟩ := hbr
  have htw : ∃ s2, stage tw (twiddleStage num o dir) s1 = .ok s2 ∧
      (∀ e, e < o.size → dataRead dsp o s2 e = .ok ((if br then fun e => d (bitRev b e) else d) e)) ∧
      (bf = true → ∀ k, k < o.size / 2 →
        twiddleRead o s2 k = .ok ((if tw then fun k => num.cis dir k (o.size / 2) else w) k)) := by
    cases tw with
    | false => exact ⟨s1, rfl, hd1, fun hbf => hw1 hbf rfl⟩
    | true =>
      obtain ⟨s2, h2, hs2, hr2⟩ := twiddleStage_spec num (o := o) (st := s1) dir
      refine ⟨s2, h2, fun e he => ?_, fun _ k hk => ?_⟩
      · rw [dataRead_congr (st := s1) (fun _ => hs2) (fun hws e he => ?_) he, hd1 e he]
        rw [hr2, if_neg]
        rintro ⟨g1, g2⟩
        exact ha (.inl rfl) hws e (o.dataIndex e - o.tbase) he (by omega) (by unfold Operands.twiddleIndex; omega)
      · unfold twiddleRead Operands.twiddleIndex
        rw [hr2, if_pos (by omega), Nat.add_sub_cancel_left]
        rfl
  obtain ⟨s2, h2, hd2, hw2⟩ := htw
  have hbf : ∃ s3, stage bf (butterflyStage num dsp o) s2 = .ok s3 ∧
      ∀ e, e < o.size → dataRead dsp o s3 e = .ok ((if bf then butterflyLayers num.toScalar o.size
        (if tw then fun k => num.cis dir k (o.size / 2) else w) b (if br then fun e => d (bitRev b e) else d)
        else (if br then fun e => d (bitRev b e) else d)) e) := by
    cases bf with
    | false => exact ⟨s2, rfl, hd2⟩
    | true =>
      obtain ⟨s3, h3, hd3, -⟩ := butterflyStage_spec num hb hs (ha (.inr rfl)) hd2 (hw2 rfl)
      exact ⟨s3, h3, hd3⟩
  obtain ⟨s3, h3, hd3⟩ := hbf
  have hnm : ∃ s4, stage nm (normalizeStage num dsp o) s3 = .ok s4 ∧
      ∀ e, e < o.size → dataRead dsp o s4 e =
        .ok (fft2Result num o.size b dir ⟨br, tw, bf, nm⟩ quot w d e) := by
    cases nm with
    | false => exact ⟨s3, rfl, hd3⟩
    | true => exact normalizeStage_spec num hs hd3 (fun e _ => hq rfl _)
  obtain ⟨s4, h4, hd4⟩ := hnm
  refine ⟨s4, ?_, hd4⟩
  unfold fft2Body
  simp only [except_bind_ok]
  exact ⟨s1, h1, s2, h2, s3, h3, h4⟩

/-- 41_radix2_fft R140, R146: the table that a plan generates is there after the later stages. -/
theorem fft2Body_table {dir : Dir} {plan : Plan} {st' : Store F} (ha : planNeedsData plan = true → Apart dsp o)
    (htw : plan.tw = true) (h : fft2Body num dsp o dir plan st = .ok st') {k : Nat} (hk : k < o.size / 2) :
    twiddleRead o st' k = .ok (num.cis dir k (o.size / 2)) := by
  unfold fft2Body at h
  simp only [except_bind_ok, htw, stage_on] at h
  obtain ⟨s1, -, s2, h2, s3, h3, h4⟩ := h
  obtain ⟨s2', h2', -, hr2⟩ := twiddleStage_spec num (o := o) (st := s1) dir
  obtain rfl : s2' = s2 := by
    rw [h2'] at h2
    exact Except.ok.inj h2
  have hd : planNeedsData plan = true → ∀ (s : Store F) (e : Nat) (c : Cx F), e < o.size →
      twiddleRead o s k = .ok (num.cis dir k (o.size / 2)) →
      twiddleRead o (dataWrite dsp o s e c) k = .ok (num.cis dir k (o.size / 2)) := by
    intro hn s e c he hP
    rw [twiddleRead_dataWrite (ha hn) _ _ he hk, hP]
  have h0 : twiddleRead o s2' k = .ok (num.cis dir k (o.size / 2)) := by
    unfold twiddleRead Operands.twiddleIndex
    rw [hr2, if_pos (by omega), Nat.add_sub_cancel_left]
  have k3 := stage_keeps (fun s => twiddleRead o s k = .ok (num.cis dir k (o.size / 2))) h3 h0
    (fun hbf a b ha hb => butterflyStage_keeps num (hd (by simp [planNeedsData, hbf])) hb ha)
  exact stage_keeps (fun s => twiddleRead o s k = .ok (num.cis dir k (o.size / 2))) h4 k3
    (fun hnm a b ha hb => normalizeStage_keeps num (hd (by simp [planNeedsData, hnm])) hb ha)

end Stages

end Sys2Proof.Machine
end

