-- ==== Sys2Proof/Laws/Mix.lean ====
section
/-!
SUPPORT. What the mixing passes compute, said once (44_real_transform R233 to R236): they answer when the complex view holds
values, and then each element reads as the rule says.
-/

namespace Sys2Proof.Machine

variable {F : Type}

variable (num : Num F) {n base : Nat} {st : Store F}

/-- The loop of a mixing pass, over its pairs. -/
theorem mixLoop_spec {body : Nat → Store F → Except ModelFault (Store F)} {zx t : Nat → Cx F → Cx F → Cx F} {h : Nat}
    (hbody : ∀ i st, body i st = (do
      let ci ← sigCRead st base i
      let cj ← sigCRead st base (h - i)
      return mixWrite num base i (h - i) (zx i ci cj) (t i ci cj) st))
    {c : Nat → Cx F} {zero : Cx F} (h0 : 0 < h → sigCRead st base 0 = .ok zero)
    (hc : ∀ k, k < h → k ≠ 0 → sigCRead st base k = .ok (c k)) :
    ∃ st', forRange body (h / 2) 1 st = .ok st' ∧ st'.wsRe = st.wsRe ∧ st'.wsIm = st.wsIm ∧
      ∀ k, k < h → sigCRead st' base k = .ok (mixedAt h zero (fun i =>
        (cadd num.toScalar (zx i (c i) (c (h - i))) (t i (c i) (c (h - i))),
         cconj num.toScalar (csub num.toScalar (zx i (c i) (c (h - i))) (t i (c i) (c (h - i)))))) k) := by
  set pair : Nat → Cx F × Cx F := fun i =>
    (cadd num.toScalar (zx i (c i) (c (h - i))) (t i (c i) (c (h - i))),
     cconj num.toScalar (csub num.toScalar (zx i (c i) (c (h - i))) (t i (c i) (c (h - i))))) with hpair
  obtain ⟨st', hr, hre, him, hP⟩ := forRange_total (body := body)
    (fun i s => s.wsRe = st.wsRe ∧ s.wsIm = st.wsIm ∧ ∀ k, k < h → sigCRead s base k =
      .ok (if k = 0 ∨ k < i ∨ h < i + k then mixedAt h zero pair k else c k))
    (n := h / 2) (k := 1) (s := st) ⟨rfl, rfl, fun k hk => by
      by_cases h1 : k = 0
      · subst h1
        rw [h0 hk, if_pos (by omega)]
        simp [mixedAt]
      · rw [hc k hk h1, if_neg (by omega)]⟩ (by
      rintro j a hj1 hj ⟨hre, him, hP⟩
      have hjh : 2 * j ≤ h := by omega
      have e1 := hP j (by omega)
      have e2 := hP (h - j) (by omega)
      rw [if_neg (by omega)] at e1 e2
      refine ⟨mixWrite num base j (h - j) (zx j (c j) (c (h - j))) (t j (c j) (c (h - j))) a, by
        rw [hbody]
        simp only [e1, e2, except_ok_bind, except_pure], ?_, ?_, fun k hk => ?_⟩
      · unfold mixWrite
        simp only
        split <;> exact hre
      · unfold mixWrite
        simp only
        split <;> exact him
      · have p1 : (pair j).1 = cadd num.toScalar (zx j (c j) (c (h - j))) (t j (c j) (c (h - j))) := rfl
        have p2 : (pair j).2 =
            cconj num.toScalar (csub num.toScalar (zx j (c j) (c (h - j))) (t j (c j) (c (h - j)))) := rfl
        unfold mixWrite
        simp only [← p1, ← p2]
        by_cases hmid : j < h - j
        · rw [if_pos hmid]
          simp only [sigCRead_sigCWrite, hP k hk]
          by_cases h1 : k = h - j
          · rw [if_pos h1, if_pos (by omega)]
            have k0 : ¬ k = 0 := by omega
            have k2 : ¬ 2 * k ≤ h := by omega
            have k3 : h - k = j := by omega
            simp only [mixedAt, k0, k2, k3, if_false]
          · rw [if_neg h1]
            by_cases h2 : k = j
            · rw [if_pos h2, if_pos (by omega), h2]
              simp only [mixedAt]
              rw [if_neg (by omega), if_pos hjh]
            · rw [if_neg h2]
              have : (k = 0 ∨ k < j + 1 ∨ h < j + 1 + k) ↔ (k = 0 ∨ k < j ∨ h < j + k) := by omega
              simp only [this]
        · rw [if_neg hmid]
          simp only [sigCRead_sigCWrite, hP k hk]
          by_cases h2 : k = j
          · rw [if_pos h2, if_pos (by omega), h2]
            simp only [mixedAt]
            rw [if_neg (by omega), if_pos hjh]
          · rw [if_neg h2]
            have : (k = 0 ∨ k < j + 1 ∨ h < j + 1 + k) ↔ (k = 0 ∨ k < j ∨ h < j + k) := by omega
            simp only [this])
  refine ⟨st', hr, hre, him, fun k hk => ?_⟩
  rw [hP k hk, if_pos (by omega)]

/-- 44_real_transform R233. -/
theorem mixForward_spec {c : Nat → Cx F} (hn : 2 ≤ n) (hc : ∀ k, k < n / 2 → sigCRead st base k = .ok (c k)) :
    ∃ st', mixForward num n base st = .ok st' ∧ st'.wsRe = st.wsRe ∧ st'.wsIm = st.wsIm ∧
      ∀ k, k < n / 2 → sigCRead st' base k = .ok (mixedAt (n / 2)
        ⟨num.add (c 0).re (c 0).im, num.sub (c 0).re (c 0).im⟩
        (fun i => mixedForward num.toScalar (num.cis .forward i (n / 2)) (c i) (c (n / 2 - i))) k) := by
  obtain ⟨st', h, hre, him, hP⟩ := mixLoop_spec num (base := base) (h := n / 2) (body := mixPairForward num n base)
    (zx := fun _ ci cj => chalf num.toScalar (cadd num.toScalar ci (cconj num.toScalar cj)))
    (t := fun i ci cj => cmul num.toScalar (num.cis .forward i (n / 2))
      (chalf num.toScalar (cmulnegi num.toScalar (csub num.toScalar ci (cconj num.toScalar cj)))))
    (fun _ _ => rfl) (c := c) (st := sigCWrite st base 0 ⟨num.add (c 0).re (c 0).im, num.sub (c 0).re (c 0).im⟩)
    (zero := ⟨num.add (c 0).re (c 0).im, num.sub (c 0).re (c 0).im⟩) (fun _ => by simp)
    (fun k hk hk0 => by simp [hk0, hc k hk])
  refine ⟨st', ?_, hre, him, hP⟩
  unfold mixForward
  rw [hc 0 (by omega)]
  exact h

/-- 44_real_transform R234. -/
theorem mixInverse_spec {y : Nat → Cx F} (hn : 2 ≤ n) (hy : ∀ k, k < n / 2 → sigCRead st base k = .ok (y k)) :
    ∃ st', mixInverse num n base st = .ok st' ∧ st'.wsRe = st.wsRe ∧ st'.wsIm = st.wsIm ∧
      ∀ k, k < n / 2 → sigCRead st' base k = .ok (mixedAt (n / 2)
        ⟨num.half (num.add (y 0).re (y 0).im), num.half (num.sub (y 0).re (y 0).im)⟩
        (fun i => mixedInverse num.toScalar (num.cis .inverse i (n / 2)) (y i) (y (n / 2 - i))) k) := by
  obtain ⟨st', h, hre, him, hP⟩ := mixLoop_spec num (base := base) (h := n / 2) (body := mixPairInverse num n base)
    (zx := fun _ yi yj => chalf num.toScalar (cadd num.toScalar yi (cconj num.toScalar yj)))
    (t := fun i yi yj => cmuli num.toScalar (cmul num.toScalar
      (chalf num.toScalar (csub num.toScalar yi (cconj num.toScalar yj))) (num.cis .inverse i (n / 2))))
    (fun _ _ => rfl) (c := y)
    (st := sigCWrite st base 0 ⟨num.half (num.add (y 0).re (y 0).im), num.half (num.sub (y 0).re (y 0).im)⟩)
    (zero := ⟨num.half (num.add (y 0).re (y 0).im), num.half (num.sub (y 0).re (y 0).im)⟩) (fun _ => by simp)
    (fun k hk hk0 => by simp [hk0, hy k hk])
  refine ⟨st', ?_, hre, him, hP⟩
  unfold mixInverse
  rw [hy 0 (by omega)]
  exact h

end Sys2Proof.Machine
end

