-- ==== Sys2Proof/Laws/Czt.lean ====
section
/-!
SUPPORT. What the CZT body computes, said once: it answers when the signal buffer holds values, and then the buffer and the
four regions read as 42_bluestein R177 says.
-/

namespace Sys2Proof.Machine

variable {F : Type}

section Composition

variable (num : Num F) (n : Nat)

/-- The exponent of M: M = 2^(log2 M). -/
def cztBits : Nat := Nat.log2 (largerSize n)

theorem largerSize_bits : largerSize n = 2 ^ cztBits n := by
  unfold cztBits largerSize
  rw [Nat.log2_two_pow]

/-- The chirp-multiplied input, zero-padded (42_bluestein R172). -/
def cztInput (dir : Dir) (x : Nat → Cx F) (k : Nat) : Cx F :=
  if k < n then cmul num.toScalar (num.cis dir (k * k) n) (x k) else czero num.toScalar

/-- The table of the forward inner transforms (42_bluestein R177). -/
def cztTable (dir : Dir) (k : Nat) : Cx F := num.cis dir k (largerSize n / 2)

/-- The transformed input (42_bluestein R177). -/
def cztLeft (dir : Dir) (quotM : Cx F → Cx F) (x : Nat → Cx F) : Nat → Cx F :=
  fft2Result num (largerSize n) (cztBits n) .forward planGenerate quotM (cztTable num n .forward) (cztInput num n dir x)

/-- The transformed kernel (42_bluestein R177). -/
def cztRight (dir : Dir) (quotM : Cx F → Cx F) : Nat → Cx F :=
  fft2Result num (largerSize n) (cztBits n) .forward planReuse quotM (cztTable num n .forward)
    (kernelAt num.toScalar n fun k => num.cis dir (k * k) n)

/-- The convolution (42_bluestein R174, R177). -/
def cztConvolution (dir : Dir) (quotM : Cx F → Cx F) (x : Nat → Cx F) : Nat → Cx F :=
  fft2Result num (largerSize n) (cztBits n) .inverse planInverse quotM (cztTable num n .inverse)
    fun k => cmul num.toScalar (cztLeft num n dir quotM x k) (cztRight num n dir quotM k)

/-- The recovered result (42_bluestein R175, R176). -/
def cztResult (dir : Dir) (quotM quotN : Cx F → Cx F) (x : Nat → Cx F) (k : Nat) : Cx F :=
  let y := cmul num.toScalar (num.cis dir (k * k) n) (cztConvolution num n dir quotM x k)
  if dir = .inverse then quotN y else y

end Composition

variable (num : Num F) {n base : Nat} {st : Store F}

/-- An inner FFT2 of CZT leaves alone the signal memory, what lies outside its data, and region 4 unless it generates
(42_bluestein R177). -/
theorem inner_frame {dbase : Nat} {dir : Dir} {plan : Plan} {st' : Store F} {i : Nat}
    (hi : i < dbase ∨ dbase + largerSize n ≤ i) (ht : plan.tw = true → i < region4 n)
    (h : fft2Body num .ws (innerOperands n dbase) dir plan st = .ok st') : wsRead st' i = wsRead st i ∧ st'.sig = st.sig := by
  refine fft2Body_keeps num (P := fun s => wsRead s i = wsRead st i ∧ s.sig = st.sig) (isPow2_largerSize n)
    ⟨fun _ s e c he hP => ?_, fun htw s k c hk hP => ?_⟩ h ⟨rfl, rfl⟩
  · have : i ≠ dbase + e * 1 := by
      simp only [innerOperands] at he
      omega
    simp only [dataWrite, Operands.dataIndex, innerOperands, wsRead_wsWrite, wsWrite_sig, this, if_false]
    exact hP
  · have h1 := ht htw
    have : i ≠ region4 n + k := by omega
    simp only [twiddleWrite, Operands.twiddleIndex, innerOperands, wsRead_wsWrite, wsWrite_sig, this, if_false]
    exact hP

/-- An inner FFT2 of CZT computes its stages on the region that starts at `dbase` (42_bluestein R177). -/
theorem inner_spec {dbase : Nat} (hr : dbase + largerSize n ≤ region4 n) (dir : Dir) (plan : Plan)
    {d w : Nat → Cx F} {quot : Cx F → Cx F} (hd : ∀ e, e < largerSize n → wsRead st (dbase + e) = .ok (d e))
    (hw : plan.tw = false → ∀ k, k < largerSize n / 2 → wsRead st (region4 n + k) = .ok (w k))
    (hq : ∀ c, cdivr num.toScalar c (largerSize n) = .ok (quot c)) :
    ∃ st', fft2Body num .ws (innerOperands n dbase) dir plan st = .ok st' ∧
      ∀ e, e < largerSize n → wsRead st' (dbase + e) =
        .ok (fft2Result num (largerSize n) (cztBits n) dir plan quot w d e) := by
  have hM2 := two_le_largerSize n
  have ha : Apart .ws (innerOperands n dbase) := apart_of_span fun _ _ => .inr (by
    simp only [innerOperands, Operands.last]
    omega)
  have hd' : ∀ e, e < (innerOperands n dbase).size → dataRead .ws (innerOperands n dbase) st e = .ok (d e) := by
    intro e he
    simpa [dataRead, Operands.dataIndex, innerOperands] using hd e he
  obtain ⟨st', h, hP⟩ := fft2Body_spec num (plan := plan) (largerSize_bits n) (le_refl 1) (fun _ => ha) dir hd'
    (fun _ htw k hk => hw htw k hk) (fun _ => hq)
  refine ⟨st', h, fun e he => ?_⟩
  have := hP e he
  simpa [dataRead, Operands.dataIndex, innerOperands] using this

/-- The inverse inner FFT2 leaves its table in region 4 (42_bluestein R177). -/
theorem inner_table {dbase : Nat} (hr : dbase + largerSize n ≤ region4 n) {dir : Dir} {plan : Plan} {st' : Store F}
    (htw : plan.tw = true) (h : fft2Body num .ws (innerOperands n dbase) dir plan st = .ok st') {k : Nat}
    (hk : k < largerSize n / 2) : wsRead st' (region4 n + k) = .ok (cztTable num n dir k) := by
  have hM2 := two_le_largerSize n
  exact fft2Body_table num (fun _ => apart_of_span fun _ _ => .inr (by
    simp only [innerOperands, Operands.last]
    omega)) htw h hk

/-- 42_bluestein R177. -/
theorem cztBody_spec (hn : 1 ≤ n) (dir : Dir) {x : Nat → Cx F} {quotM quotN : Cx F → Cx F}
    (hx : ∀ k, k < n → sigCRead st base k = .ok (x k))
    (hqM : ∀ c, cdivr num.toScalar c (largerSize n) = .ok (quotM c))
    (hqN : dir = .inverse → ∀ c, cdivr num.toScalar c n = .ok (quotN c)) :
    ∃ st', cztBody num n dir base st = .ok st' ∧
      (∀ k, k < n → sigCRead st' base k = .ok (cztResult num n dir quotM quotN x k)) ∧
      (∀ k, k < n → wsRead st' k = .ok (num.cis dir (k * k) n)) ∧
      (∀ k, k < largerSize n → wsRead st' (region2 n + k) = .ok (cztConvolution num n dir quotM x k)) ∧
      (∀ k, k < largerSize n → wsRead st' (region3 n + k) = .ok (cztRight num n dir quotM k)) ∧
      ∀ k, k < largerSize n / 2 → wsRead st' (region4 n + k) = .ok (cztTable num n .inverse k) := by
  have hM := two_mul_le_largerSize n
  have hM2 := two_le_largerSize n
  have e2 : region2 n = n := rfl
  have e3 : region3 n = n + largerSize n := rfl
  have e4 : region4 n = n + 2 * largerSize n := rfl
  -- the chirp factors
  obtain ⟨s1, h1, g1, r1⟩ := chirpBody_spec num (n := n) (st := st) dir
  have w1 : ∀ k, k < n → wsRead s1 k = .ok (num.cis dir (k * k) n) := fun k hk => by rw [r1, if_pos hk]
  have x1 : ∀ k, k < n → sigCRead s1 base k = .ok (x k) := fun k hk => by
    have := hx k hk
    rw [sigCRead_ok_iff] at this ⊢
    rwa [g1]
  -- the chirp-multiplied input
  obtain ⟨s2, h2, g2, r2⟩ := chirpmulBody_spec num (base := base) w1 x1
  have w2 : ∀ k, k < n → wsRead s2 k = .ok (num.cis dir (k * k) n) := fun k hk => by rw [r2, if_pos hk, w1 k hk]
  have a2 : ∀ k, k < largerSize n → wsRead s2 (region2 n + k) = .ok (cztInput num n dir x k) := fun k hk => by
    rw [r2, e2, if_neg (by omega)]
    unfold cztInput
    by_cases h : k < n
    · rw [if_pos (by omega), if_pos h, Nat.add_sub_cancel_left]
    · rw [if_neg (by omega), if_pos (by omega), if_neg h]
  -- the kernel
  obtain ⟨s3, h3, g3, r3⟩ := kernelBody_spec num hn w2
  have w3 : ∀ k, k < n → wsRead s3 k = .ok (num.cis dir (k * k) n) := fun k hk => by
    rw [r3, if_neg (by omega), w2 k hk]
  have a3 : ∀ k, k < largerSize n → wsRead s3 (region2 n + k) = .ok (cztInput num n dir x k) := fun k hk => by
    rw [r3, if_neg (by omega), a2 k hk]
  have b3 : ∀ k, k < largerSize n → wsRead s3 (region3 n + k) =
      .ok (kernelAt num.toScalar n (fun k => num.cis dir (k * k) n) k) := fun k hk => by
    rw [r3, if_pos (by omega), Nat.add_sub_cancel_left]
  -- the transform of the input
  obtain ⟨s4, h4, a4⟩ := inner_spec num (dbase := region2 n) (by omega) .forward planGenerate
    (w := cztTable num n .forward) a3 (fun h => by cases h) hqM
  have w4 : ∀ k, k < n → wsRead s4 k = .ok (num.cis dir (k * k) n) := fun k hk => by
    rw [(inner_frame num (i := k) (by omega) (fun _ => by omega) h4).1, w3 k hk]
  have b4 : ∀ k, k < largerSize n → wsRead s4 (region3 n + k) =
      .ok (kernelAt num.toScalar n (fun k => num.cis dir (k * k) n) k) := fun k hk => by
    rw [(inner_frame num (by omega) (fun _ => by omega) h4).1, b3 k hk]
  have t4 : ∀ k, k < largerSize n / 2 → wsRead s4 (region4 n + k) = .ok (cztTable num n .forward k) :=
    fun k hk => inner_table num (by omega) rfl h4 hk
  -- the transform of the kernel
  obtain ⟨s5, h5, b5⟩ := inner_spec num (dbase := region3 n) (by omega) .forward planReuse
    (w := cztTable num n .forward) b4 (fun _ => t4) hqM
  have w5 : ∀ k, k < n → wsRead s5 k = .ok (num.cis dir (k * k) n) := fun k hk => by
    rw [(inner_frame num (by omega) (fun _ => by omega) h5).1, w4 k hk]
  have a5 : ∀ k, k < largerSize n → wsRead s5 (region2 n + k) = .ok (cztLeft num n dir quotM x k) := fun k hk => by
    rw [(inner_frame num (by omega) (fun _ => by omega) h5).1, a4 k hk]
    rfl
  -- the pointwise product
  obtain ⟨s6, h6, g6, r6⟩ := pmulBody_spec num (n := n) (st := s5) (a := cztLeft num n dir quotM x)
    (b := cztRight num n dir quotM) a5 b5
  have w6 : ∀ k, k < n → wsRead s6 k = .ok (num.cis dir (k * k) n) := fun k hk => by
    rw [r6, if_neg (by omega), w5 k hk]
  have p6 : ∀ k, k < largerSize n → wsRead s6 (region2 n + k) =
      .ok (cmul num.toScalar (cztLeft num n dir quotM x k) (cztRight num n dir quotM k)) := fun k hk => by
    rw [r6, if_pos (by omega), Nat.add_sub_cancel_left]
  have b6 : ∀ k, k < largerSize n → wsRead s6 (region3 n + k) = .ok (cztRight num n dir quotM k) := fun k hk => by
    rw [r6, if_neg (by omega)]
    exact b5 k hk
  -- the inverse transform
  obtain ⟨s7, h7, c7⟩ := inner_spec num (dbase := region2 n) (by omega) .inverse planInverse
    (w := cztTable num n .inverse) p6 (fun h => by cases h) hqM
  have w7 : ∀ k, k < n → wsRead s7 k = .ok (num.cis dir (k * k) n) := fun k hk => by
    rw [(inner_frame num (by omega) (fun _ => by omega) h7).1, w6 k hk]
  have b7 : ∀ k, k < largerSize n → wsRead s7 (region3 n + k) = .ok (cztRight num n dir quotM k) := fun k hk => by
    rw [(inner_frame num (by omega) (fun _ => by omega) h7).1, b6 k hk]
  have t7 : ∀ k, k < largerSize n / 2 → wsRead s7 (region4 n + k) = .ok (cztTable num n .inverse k) :=
    fun k hk => inner_table num (by omega) rfl h7 hk
  -- the recovered result
  obtain ⟨s8, h8, g8, g8', r8⟩ := recoverBody_spec num (base := base) w7
    (c := cztConvolution num n dir quotM x) (fun k hk => c7 k (by omega))
  have y8 : ∀ k, k < n → sigCRead s8 base k =
      .ok (cmul num.toScalar (num.cis dir (k * k) n) (cztConvolution num n dir quotM x k)) := fun k hk => by
    rw [r8, if_pos hk]
  have hlast : ∃ s9, stage (dir == .inverse) (normnBody num n base) s8 = .ok s9 ∧ s9.wsRe = s8.wsRe ∧
      s9.wsIm = s8.wsIm ∧ ∀ k, k < n → sigCRead s9 base k = .ok (cztResult num n dir quotM quotN x k) := by
    cases dir with
    | forward => exact ⟨s8, rfl, rfl, rfl, y8⟩
    | inverse =>
      obtain ⟨s9, h9, g9, g9', r9⟩ := normnBody_spec num (base := base) y8 (fun k _ => hqN rfl _)
      exact ⟨s9, h9, g9, g9', fun k hk => by
        rw [r9, if_pos hk]
        rfl⟩
  obtain ⟨s9, h9, g9, g9', y9⟩ := hlast
  have hws : ∀ i, wsRead s9 i = wsRead s7 i := fun i => by simp [wsRead, g9, g9', g8, g8']
  refine ⟨s9, ?_, y9, fun k hk => ?_, fun k hk => ?_, fun k hk => ?_, fun k hk => ?_⟩
  · unfold cztBody
    simp only [except_bind_ok]
    exact ⟨s1, h1, s2, h2, s3, h3, s4, h4, s5, h5, s6, h6, s7, h7, s8, h8, h9⟩
  · rw [hws, w7 k hk]
  · rw [hws]
    exact c7 k hk
  · rw [hws, b7 k hk]
  · rw [hws, t7 k hk]

end Sys2Proof.Machine
end

