-- ==== Sys2Proof/Laws/Step.lean ====
section
/-!
SUPPORT. What a step does, said once: one lemma per head of the queue of pending moves, and the one list of its outcomes.
-/

namespace Sys2Proof.Machine

variable {s : State} {rest : List HostEvent}

theorem step_nil (h : s.inputs = []) : step s = engineStep s := by
  simp [step, advance, h]

theorem step_regWrite {offset width : Nat} {v : Word64} (h : s.inputs = .regWrite offset width v :: rest) :
    step s = hostRegWrite { s with inputs := rest } offset width v := by
  simp [step, advance, h, hostMove]

theorem step_regRead {offset width : Nat} (h : s.inputs = .regRead offset width :: rest) :
    step s = hostRegRead { s with inputs := rest } offset width := by
  simp [step, advance, h, hostMove]

theorem step_sigWrite {w : Nat} {v : Word64} (h : s.inputs = .sigWrite w v :: rest) :
    step s = hostSigWrite { s with inputs := rest } w v := by
  simp [step, advance, h, hostMove]

theorem step_sigRead {w : Nat} (h : s.inputs = .sigRead w :: rest) :
    step s = hostSigRead { s with inputs := rest } w := by
  simp [step, advance, h, hostMove]

theorem step_poll (h : s.inputs = .poll :: rest) :
    step s = if s.busy then engineStep s else hostRegRead { s with inputs := rest } 0x10 64 := by
  simp [step, advance, h, hostMove]

theorem step_engine (h : s.inputs = .engine :: rest) : step s = engineStep { s with inputs := rest } := by
  simp [step, advance, h, hostMove]

theorem step_reset (h : s.inputs = .reset :: rest) : step s = .next { s with inputs := rest }.applyReset := by
  simp [step, advance, h, hostMove]

/-- A register write writes the register the access reaches. -/
theorem hostRegWrite_at {offset width : Nat} {r : Reg} (v : Word64) (h : registerAt offset width = some r) :
    hostRegWrite s offset width v = .next (s.writeReg r v) := by
  simp [hostRegWrite, h]

/-- A register read latches the value of the register the access reaches. -/
theorem hostRegRead_at {offset width : Nat} {r : Reg} {v : Word64} (h : registerAt offset width = some r)
    (hv : s.readReg r = .ok v) : hostRegRead s offset width = .next { s.observe r with rdData := v } := by
  simp [hostRegRead, h, hv]

/-- A write is dropped, or has its effect (10_state R48). -/
theorem writeReg_cases (s : State) (r : Reg) (v : Word64) :
    (s.busy = true ∧ r.droppedWhileBusy = true ∧ s.writeReg r v = { s with overrun := true }) ∨
    ((s.busy = false ∨ r.droppedWhileBusy = false) ∧ s.writeReg r v = s.writeRegIdle r v) := by
  unfold State.writeReg
  cases hb : s.busy <;> cases hr : r.droppedWhileBusy <;> simp

/-- A register value does not depend on what is pending. -/
theorem readReg_inputs (s : State) (rest : List HostEvent) (r : Reg) :
    State.readReg { s with inputs := rest } r = s.readReg r := by
  cases r <;> rfl

/-- A fill of free values keeps every word outside it. -/
theorem cellGet_freeFill {draw count start w : Nat} {c : Cells F64} (h : ¬ (start ≤ w ∧ w < start + count)) :
    cellGet (freeFill draw count start c) w = cellGet c w := by
  induction count generalizing draw start c with
  | zero => rfl
  | succ n ih =>
    unfold freeFill
    rw [ih (by omega), cellGet_cellSet_ne _ _ (by omega)]

/-- A fill of free values keeps the canonical form. -/
theorem cellsWf_freeFill {draw count start : Nat} {c : Cells F64} (h : cellsWf c = true) :
    cellsWf (freeFill draw count start c) = true := by
  induction count generalizing draw start c with
  | zero => exact h
  | succ n ih => exact ih (cellsWf_cellSet _ _ h)

/-- A fill of free values below `bound` stays below it. -/
theorem cellsBelow_freeFill {draw count start bound : Nat} {c : Cells F64} (h : cellsBelow bound c = true)
    (hb : count = 0 ∨ start + count ≤ bound) : cellsBelow bound (freeFill draw count start c) = true := by
  induction count generalizing draw start c with
  | zero => exact h
  | succ n ih => exact ih (cellsBelow_cellSet _ h (by omega)) (by omega)

/-- Free values stand in the words of the range that hold a value, and every other word keeps what it holds. -/
@[simp] theorem cellGet_freeHeld (draw lo hi : Nat) (c : Cells F64) (w : Nat) : cellGet (freeHeld draw lo hi c) w =
    (cellGet c w).map (fun v => if lo ≤ w ∧ w < hi then Config.freeWord (draw + w) else v) := by
  induction c with
  | nil => rfl
  | cons x rest ih =>
    obtain ⟨j, u⟩ := x
    unfold freeHeld at ih ⊢
    by_cases hj : w = j
    · subst hj
      by_cases hr : lo ≤ w ∧ w < hi <;> simp [cellGet, hr]
    · by_cases hr : lo ≤ j ∧ j < hi <;> simp [cellGet, hj, hr, ih]

/-- A word outside the range keeps what it holds. -/
theorem cellGet_freeHeld_of_not {draw lo hi : Nat} {c : Cells F64} {w : Nat} (h : ¬ (lo ≤ w ∧ w < hi)) :
    cellGet (freeHeld draw lo hi c) w = cellGet c w := by
  rw [cellGet_freeHeld]
  simp only [h, if_false, Option.map_id_fun', id]

/-- Free values stand at the indices the memory lists. -/
theorem freeHeld_map_fst (draw lo hi : Nat) (c : Cells F64) : (freeHeld draw lo hi c).map Prod.fst = c.map Prod.fst := by
  unfold freeHeld
  rw [List.map_map]
  refine List.map_congr_left fun x _ => ?_
  by_cases hr : lo ≤ x.1 ∧ x.1 < hi <;> simp [hr]

/-- Free values keep the canonical form. -/
theorem cellsWf_freeHeld {draw lo hi : Nat} {c : Cells F64} (h : cellsWf c = true) :
    cellsWf (freeHeld draw lo hi c) = true := by
  rwa [cellsWf_congr (freeHeld_map_fst draw lo hi c)]

/-- Free values stay below a bound. -/
theorem cellsBelow_freeHeld {draw lo hi bound : Nat} {c : Cells F64} (h : cellsBelow bound c = true) :
    cellsBelow bound (freeHeld draw lo hi c) = true := by
  rwa [cellsBelow_congr (freeHeld_map_fst draw lo hi c)]

theorem inRunning_iff (s : State) (w : Nat) : s.inRunning w = true ↔ s.IsRunningWord w := by
  unfold State.inRunning State.IsRunningWord
  cases s.runningBuffer <;> simp

/-- The range of a race on `w` holds `w`, and apart from `w` only words of the running command's buffer, and of that buffer
only if `w` belongs to it. -/
theorem mem_raceRange {s : State} {w i : Nat} : (s.raceRange w).1 ≤ i ∧ i < (s.raceRange w).2 ↔
    i = w ∨ (s.IsRunningWord w ∧ s.IsRunningWord i) := by
  by_cases h : s.inRunning w = true
  · have hw := (inRunning_iff s w).1 h
    obtain ⟨b, hb, h1, h2⟩ := hw
    simp only [State.raceRange, h, if_true, hb, Option.getD_some]
    constructor
    · exact fun hi => .inr ⟨⟨b, hb, h1, h2⟩, b, hb, hi⟩
    · rintro (rfl | ⟨-, b', hb', hi⟩)
      · exact ⟨h1, h2⟩
      · rw [hb] at hb'
        cases hb'
        exact hi
  · simp only [State.raceRange, h]
    have hn : ¬ s.IsRunningWord w := fun hw => h ((inRunning_iff s w).2 hw)
    constructor
    · exact fun hi => .inl (by simp at hi; omega)
    · rintro (rfl | ⟨hw, -⟩)
      · simp
      · exact absurd hw hn

/-- What a race leaves in each word. -/
theorem race_sig (s : State) (w : Nat) (v : Word64) (i : Nat) :
    (cellGet (s.race w v).mem.sig i).isSome = (decide (i = w) || (cellGet s.mem.sig i).isSome) ∧
    (i ≠ w → ¬ (s.IsRunningWord w ∧ s.IsRunningWord i) → cellGet (s.race w v).mem.sig i = cellGet s.mem.sig i) := by
  rw [State.race_mem]
  refine ⟨?_, fun h1 h2 => ?_⟩
  · by_cases h : i = w <;> simp [h]
  · rw [cellGet_freeHeld_of_not (fun hr => (mem_raceRange.1 hr).elim h1 h2), cellGet_cellSet_ne _ _ h1]

/-- The engine's step on a legal word. -/
theorem engineStep_ok {v : Word32} {i : Instr} (hr : s.running = some v) (hd : decode v = .ok i) :
    engineStep s = settleRace s (exec i s) := by
  simp [engineStep, hr, hd]

/-- The engine's step on an illegal word (30_encoding R97). -/
theorem engineStep_error {v : Word32} {e : DecodeError} (hr : s.running = some v) (hd : decode v = .error e) :
    engineStep s = .next (s.raise (.illegalCmd v)) := by
  simp [engineStep, hr, hd]

/-- Without a race a command leaves what `exec` says. -/
theorem settleRace_of_not_raced (h : s.raced = false) (r : Result) : settleRace s r = r := by
  simp [settleRace, h]

/-- Everything the end of a raced command changes: words of its buffer that hold a value. -/
theorem settleRace_next (h : s.raced = true) (t : State) : ∃ c d,
    settleRace s (.next t) = .next { t with mem := { t.mem with sig := c }, draws := d, raced := false } ∧
    ∀ w, (cellGet c w).isSome = (cellGet t.mem.sig w).isSome ∧ (¬ s.IsRunningWord w → cellGet c w = cellGet t.mem.sig w) := by
  let range := s.runningBuffer.getD (0, 0)
  refine ⟨freeHeld t.draws range.1 range.2 t.mem.sig, t.draws + range.2, ?_, fun w => ⟨by simp, fun hn => ?_⟩⟩
  · simp only [settleRace, h, if_true]
    rfl
  · refine cellGet_freeHeld_of_not fun hw => hn ?_
    unfold State.IsRunningWord
    cases hb : s.runningBuffer with
    | none =>
      simp only [range, hb, Option.getD_none] at hw
      omega
    | some b =>
      simp only [range, hb, Option.getD_some] at hw
      exact ⟨b, rfl, hw⟩

/-- The words a reset fills with free values exist. -/
theorem lostWords_le (s : State) : s.lostWords.2 = 0 ∨ s.lostWords.1 + s.lostWords.2 ≤ s.cfg.sigWords := by
  unfold State.lostWords
  split
  · exact .inl rfl
  · show _ - _ = 0 ∨ _ + (_ - _) ≤ s.cfg.sigWords
    omega

/-- The words a reset fills with free values lie in the running command's buffer; without one there are none. -/
theorem lostWords_buffer {s : State} {w : Nat} (h : s.lostWords.1 ≤ w ∧ w < s.lostWords.1 + s.lostWords.2) :
    ∃ b, s.runningBuffer = some b ∧ b.1 ≤ w ∧ w < b.2 := by
  unfold State.lostWords at h
  cases hb : s.runningBuffer with
  | none =>
    rw [hb] at h
    simp only at h
    omega
  | some b =>
    rw [hb] at h
    simp only at h
    exact ⟨b, rfl, h.1, by omega⟩

/-- STATUS and WSSTAT read 0 after a reset (70_reset R290). -/
theorem applyReset_statusWord (s : State) : s.applyReset.statusWord = 0 := by
  have h : s.applyReset.statusWord = State.reset.statusWord := rfl
  rw [h]
  decide

theorem applyReset_wsStat (s : State) : s.applyReset.wsStat = 0 := by
  have h : s.applyReset.wsStat = State.reset.wsStat := rfl
  rw [h]
  decide

/-- The bits of STATUS (10_state R24). -/
theorem statusWord_fields (s : State) :
    s.statusWord.getLsbD 0 = s.running.isSome ∧ s.statusWord.getLsbD 1 = s.done ∧ s.statusWord.getLsbD 2 = s.overrun ∧
    s.statusWord.extractLsb' 3 5 = 0 ∧ s.statusWord.extractLsb' 8 8 = s.err ∧ s.statusWord.extractLsb' 16 16 = 0 ∧
    s.statusWord.extractLsb' 32 32 = s.errInfo := by
  unfold State.statusWord State.busy
  refine ⟨?_, ?_, ?_, ?_, ?_, ?_, ?_⟩
  · simp only [BitVec.getLsbD_append]
    simp
  · simp only [BitVec.getLsbD_append]
    simp
  · simp only [BitVec.getLsbD_append]
    simp
  all_goals
    apply BitVec.eq_of_getLsbD_eq
    intro i hi
    simp only [BitVec.getLsbD_extractLsb', BitVec.getLsbD_append, hi, decide_true, Bool.true_and]
  · interval_cases i <;> simp
  · interval_cases i <;> simp
  · interval_cases i <;> simp
  · have h1 : ¬ 32 + i < 1 := by omega
    have h2 : ¬ 32 + i - 1 < 1 := by omega
    have h3 : ¬ 32 + i - 1 - 1 < 1 := by omega
    have h4 : ¬ 32 + i - 1 - 1 - 1 < 5 := by omega
    have h5 : ¬ 32 + i - 1 - 1 - 1 - 5 < 8 := by omega
    have h6 : ¬ 32 + i - 1 - 1 - 1 - 5 - 8 < 16 := by omega
    have h7 : 32 + i - 1 - 1 - 1 - 5 - 8 - 16 = i := by omega
    simp only [h1, h2, h3, h4, h5, h6, h7, if_false]

end Sys2Proof.Machine
end

