-- ==== Sys2Proof/Laws/Exec.lean ====
section
/-!
SUPPORT. Everything a command can do, said once: the forms of its next state, and what it keeps of the memories.
-/

namespace Sys2Proof.Machine

/-- The forms of the next state `t` of a command. -/
inductive ExecNext (i : Instr) (s : State) : State → Prop
  /-- A check failed. -/
  | error (e : Err) : i.isAlu = false → i ≠ .wsfree → ExecNext i s (s.raise e)
  /-- The allocation failed. -/
  | outOfMemory (len : Nat) : i.allocates = true → s.wsValid = false →
      ExecNext i s (s.drawAlloc.raise (.outOfMemory len))
  /-- A complex ALU command. -/
  | alu (c : Cx F64) : i.isAlu = true → ExecNext i s { s with cr := c }.complete
  /-- A command that works on the memories. -/
  | memory (m : Store F64) : i.isAlu = false → i.allocates = false → i ≠ .wsfree →
      ExecNext i s { s with mem := m }.complete
  /-- WSFREE. -/
  | free : i = .wsfree → ExecNext i s s.release.complete
  /-- WSALLOC. -/
  | allocated : i = .wsalloc → s.wsValid = false → 1 ≤ s.len.toNat → s.len.toNat ≤ nMax →
      s.allocOk (wsLength s.len.toNat) = true → ExecNext i s (s.drawAlloc.allocate s.len.toNat).complete
  /-- FFT and RFFT: a workspace was allocated, and is released. -/
  | driver (n : Nat) (m : Store F64) : i.allocates = true → i ≠ .wsalloc → s.wsValid = false →
      ExecNext i s ({ s.drawAlloc.allocate n with mem := m }.release).complete

/-- What a command can answer as its next state. -/
theorem exec_next {i : Instr} {s t : State} (h : exec i s = .next t) : ExecNext i s t := by
  have mem : ∀ {i : Instr} {error : Option Err} {r : Except ModelFault (Store F64)}, i.isAlu = false →
      i.allocates = false → i ≠ .wsfree → checked s error (commit i s r fun m => { s with mem := m }) = .next t →
      ExecNext i s t := by
    intro i error r h1 h2 h3 h
    rcases memoryCommand_next h with ⟨e, -, rfl⟩ | ⟨-, m, -, rfl⟩
    · exact .error e h1 h3
    · exact .memory m h1 h2 h3
  cases i with
  | fft dir =>
    rcases driverCommand_next h with ⟨e, -, rfl⟩ | ⟨hc, -, rfl⟩ | ⟨hc, -, m, -, rfl⟩
    · exact .error e rfl (by simp)
    · simp only [fftCheck, firstError_none, List.forall_mem_cons] at hc
      exact .outOfMemory _ rfl (by tauto)
    · simp only [fftCheck, firstError_none, List.forall_mem_cons] at hc
      exact .driver _ m rfl (by simp) (by tauto)
  | rfft dir =>
    rcases driverCommand_next h with ⟨e, -, rfl⟩ | ⟨hc, -, rfl⟩ | ⟨hc, -, m, -, rfl⟩
    · exact .error e rfl (by simp)
    · simp only [rfftCheck, firstError_none, List.forall_mem_cons] at hc
      exact .outOfMemory _ rfl (by tauto)
    · simp only [rfftCheck, firstError_none, List.forall_mem_cons] at hc
      exact .driver _ m rfl (by simp) (by tauto)
  | wsalloc =>
    rcases execWsalloc_next h with ⟨e, -, rfl⟩ | ⟨hc, -, rfl⟩ | ⟨hc, ha, rfl⟩
    · exact .error e rfl (by simp)
    · simp only [wsallocCheck, firstError_none, List.forall_mem_cons] at hc
      exact .outOfMemory _ rfl (by tauto)
    · simp only [wsallocCheck, firstError_none, List.forall_mem_cons, State.operands] at hc
      obtain ⟨h0, h1, h2, -⟩ := hc
      replace h0 := of_decide_eq_false h0
      replace h1 := of_decide_eq_false h1
      exact .allocated rfl h2 (by omega) (by omega) ha
  | wsfree =>
    cases h
    exact .free rfl
  | fft2 dir plan dsp => exact mem rfl rfl (by simp) h
  | czt dir => exact mem rfl rfl (by simp) h
  | chirp dir => exact mem rfl rfl (by simp) h
  | chirpmul => exact mem rfl rfl (by simp) h
  | kernel => exact mem rfl rfl (by simp) h
  | pmul => exact mem rfl rfl (by simp) h
  | recover => exact mem rfl rfl (by simp) h
  | normn => exact mem rfl rfl (by simp) h
  | rmix dir => exact mem rfl rfl (by simp) h
  | cadd =>
    cases h
    exact .alu _ rfl
  | csub =>
    cases h
    exact .alu _ rfl
  | cmul =>
    cases h
    exact .alu _ rfl
  | cdiv =>
    cases h
    exact .alu _ rfl
  | cexp =>
    cases h
    exact .alu _ rfl
  | cconj =>
    cases h
    exact .alu _ rfl

/-- An error code is not NONE and is assigned (60_exceptions R260). -/
theorem ErrCode.code_ne_zero (c : ErrCode) : c.code ≠ 0 := by cases c <;> decide

theorem ErrCode.code_le (c : ErrCode) : c.code.toNat ≤ 7 := by cases c <;> decide

/-- A draw changes nothing but the model's count of draws. -/
theorem State.drawAlloc_eq (s : State) : s.drawAlloc = { s with draws := s.drawAlloc.draws } := by
  unfold State.drawAlloc
  cases s.cfg.allocNondet <;> rfl

/-- The memories `m` of a command keep `P`, if the writes to its signal buffer and to the workspace keep it. -/
theorem exec_keeps {i : Instr} {s t : State} (h : exec i s = .next t) (P : Store F64 → Prop)
    (hsig : i.writesSig = true → ∀ st w v, (∃ b, signalBuffer s.operands i = some b ∧ b.1 ≤ w ∧ w < b.2) →
      w < s.cfg.sigWords → P st → P (sigWrite st w v))
    (hws : i.writesWs = true → ∀ st k c, k < s.wsLen → P st → P (wsWrite st k c))
    (ha : i.allocates = false) (hf : i ≠ .wsfree) (h0 : P s.mem) : P t.mem := by
  have mem : ∀ {i : Instr} {error : Option Err} {r : Except ModelFault (Store F64)},
      checked s error (commit i s r fun m => { s with mem := m }) = .next t →
      (error = none → ∀ m, r = .ok m → P m) → P t.mem := by
    intro i error r h hk
    rcases memoryCommand_next h with ⟨e, -, rfl⟩ | ⟨he, m, hm, rfl⟩
    · exact h0
    · exact hk he m hm
  have checks : ∀ {b : Bool}, bluesteinCheck s b s.operands = none →
      wsLength s.len.toNat = s.wsLen ∧ (b = true → s.sigBase.toNat + 2 * s.len.toNat ≤ s.cfg.sigWords) := by
    intro b hc
    simp only [bluesteinCheck, firstError_none, List.forall_mem_cons, State.operands, Bool.or_eq_false_iff,
      Bool.not_eq_false'] at hc
    obtain ⟨-, -, ⟨h2, h2'⟩, h3, -⟩ := hc
    replace h2' := not_not.mp (of_decide_eq_false h2')
    constructor
    · simp [State.wsLen, State.geometry, h2, h2']
    · rintro rfl
      exact Nat.le_of_not_lt (of_decide_eq_false h3)
  have sig : i.writesSig = true → signalBuffer s.operands i = some (s.sigBase.toNat, s.sigBase.toNat + 2 * s.len.toNat) →
      s.sigBase.toNat + 2 * s.len.toNat ≤ s.cfg.sigWords → KeptBySig P s.sigBase.toNat s.len.toNat := by
    intro hw hb hle st k c hk hP
    have h1 := hsig hw st (s.sigBase.toNat + 2 * k) c.re ⟨_, hb, by simp, by simp only; omega⟩ (by omega) hP
    exact hsig hw _ (s.sigBase.toNat + 2 * k + 1) c.im ⟨_, hb, by simp only; omega, by simp only; omega⟩ (by omega) h1
  have ws : i.writesWs = true → wsLength s.len.toNat = s.wsLen → KeptByWs P (wsLength s.len.toNat) := by
    intro hw he st k c hk hP
    exact hws hw st k c (he ▸ hk) hP
  cases i with
  | fft dir => cases ha
  | rfft dir => cases ha
  | wsalloc => cases ha
  | wsfree => exact absurd rfl hf
  | fft2 dir plan dsp =>
    refine mem h fun hc m hm => ?_
    simp only [fft2Check, firstError_none, List.forall_mem_cons, Bool.or_eq_false_iff, Bool.not_eq_false'] at hc
    obtain ⟨-, c1, -, c3, c4, c5, -⟩ := hc
    have last : ∀ e, e < s.operands.size → s.operands.dataIndex e ≤ s.operands.last := fun e he =>
      Nat.add_le_add_left (Nat.mul_le_mul_right _ (by omega)) _
    refine fft2Body_keeps _ c1.1 ⟨fun hn st e c he hP => ?_, fun ht st k c hk hP => ?_⟩ hm h0
    · have hl := last e he
      cases dsp with
      | sig =>
        simp only [hn, Bool.true_and, beq_self_eq_true, decide_eq_false_iff_not] at c3
        have hb : signalBuffer s.operands (.fft2 dir plan .sig) =
            some (s.operands.sigBase, s.operands.sigBase + 2 * s.operands.last + 2) := by
          have hn' : (plan.br || plan.bf || plan.nm) = true := hn
          simp only [signalBuffer, hn', Bool.true_and, decide_eq_true_eq]
          rw [if_pos (by omega)]
        have hw : (Instr.fft2 dir plan .sig).writesSig = true := by simp [Instr.writesSig, hn]
        have h1 := hsig hw st (s.operands.sigBase + 2 * s.operands.dataIndex e) c.re ⟨_, hb, by simp, by simp only; omega⟩
          (by omega) hP
        exact hsig hw _ (s.operands.sigBase + 2 * s.operands.dataIndex e + 1) c.im
          ⟨_, hb, by simp only; omega, by simp only; omega⟩ (by omega) h1
      | ws =>
        simp only [hn, Bool.true_and, beq_self_eq_true, decide_eq_false_iff_not] at c4
        exact hws (by simp [Instr.writesWs, hn]) st _ c (by omega) hP
    · have hs : 2 ≤ s.operands.size := by omega
      simp only [planNeedsTable, ht, Bool.true_or, Bool.true_and, hs, decide_true, decide_eq_false_iff_not] at c5
      exact hws (by simp [Instr.writesWs, ht]) st _ c (by simp only [Operands.twiddleIndex]; omega) hP
  | czt dir => exact mem h fun hc m hm => cztBody_keeps _ (ws rfl (checks hc).1) (sig rfl rfl ((checks hc).2 rfl)) hm h0
  | chirp dir => exact mem h fun hc m hm => chirpBody_keeps _ (ws rfl (checks hc).1) hm h0
  | chirpmul => exact mem h fun hc m hm => chirpmulBody_keeps _ (ws rfl (checks hc).1) hm h0
  | kernel => exact mem h fun hc m hm => kernelBody_keeps _ (ws rfl (checks hc).1) hm h0
  | pmul => exact mem h fun hc m hm => pmulBody_keeps _ (ws rfl (checks hc).1) hm h0
  | recover => exact mem h fun hc m hm => recoverBody_keeps _ (sig rfl rfl ((checks hc).2 rfl)) hm h0
  | normn => exact mem h fun hc m hm => normnBody_keeps _ (sig rfl rfl ((checks hc).2 rfl)) hm h0
  | rmix dir =>
    refine mem h fun hc m hm => ?_
    simp only [rmixCheck, firstError_none, List.forall_mem_cons, State.operands] at hc
    obtain ⟨c0, c1, -, c3, -⟩ := hc
    replace c0 := of_decide_eq_false c0
    replace c1 := of_decide_eq_false c1
    replace c3 := of_decide_eq_false c3
    refine rmixBody_keeps (n := s.len.toNat) (base := s.sigBase.toNat) (b64 s.cfg) (by omega) ?_ hm h0
    intro st k c hk hP
    have h1 := hsig rfl st (s.sigBase.toNat + 2 * k) c.re ⟨_, rfl, by simp [State.operands],
      by simp only [State.operands]; omega⟩ (by omega) hP
    exact hsig rfl _ (s.sigBase.toNat + 2 * k + 1) c.im ⟨_, rfl, by simp only [State.operands]; omega,
      by simp only [State.operands]; omega⟩ (by omega) h1
  | cadd =>
    cases h
    exact h0
  | csub =>
    cases h
    exact h0
  | cmul =>
    cases h
    exact h0
  | cdiv =>
    cases h
    exact h0
  | cexp =>
    cases h
    exact h0
  | cconj =>
    cases h
    exact h0

/-- The signal memory after a command that allocates keeps `P`, if the writes to the command's buffer keep it. -/
theorem exec_driver_keeps {i : Instr} {s t : State} (h : exec i s = .next t) (P : Store F64 → Prop)
    (hsig : ∀ st w v, (∃ b, signalBuffer s.operands i = some b ∧ b.1 ≤ w ∧ w < b.2) → w < s.cfg.sigWords → P st →
      P (sigWrite st w v))
    (hws : ∀ st k c, P st → P (wsWrite st k c)) (hc : ∀ st, P st → P (clearWs st)) (ha : i.allocates = true ∨ i = .wsfree)
    (h0 : P s.mem) : P t.mem := by
  have mem : ∀ {i : Instr} {n : Nat} {error : Option Err} {body : Store F64 → Except ModelFault (Store F64)},
      checked s error (withAllocation s n fun u => commit i u (body u.mem) fun m => { u with mem := m }.release) = .next t →
      (error = none → ∀ m, body (clearWs s.mem) = .ok m → P m) → P t.mem := by
    intro i n error body h hk
    rcases driverCommand_next h with ⟨e, -, rfl⟩ | ⟨-, -, rfl⟩ | ⟨he, -, m, hm, rfl⟩
    · exact h0
    · simpa using h0
    · have h1 : (s.drawAlloc.allocate n).mem = clearWs s.mem := by simp [State.allocate]
      rw [h1] at hm
      exact hc _ (hk he m hm)
  cases i with
  | fft dir =>
    refine mem h fun hck m hm => ?_
    simp only [fftCheck, firstError_none, List.forall_mem_cons, State.operands] at hck
    obtain ⟨-, -, -, c3, -⟩ := hck
    replace c3 := of_decide_eq_false c3
    refine fftBody_keeps (n := s.len.toNat) (base := s.sigBase.toNat) (b64 s.cfg) (fun st k c _ hP => hws st k c hP) ?_ hc hm
      (hc _ (hc _ h0))
    intro st k c hk hP
    have h1 := hsig st (s.sigBase.toNat + 2 * k) c.re ⟨_, rfl, by simp [State.operands],
      by simp only [State.operands]; omega⟩ (by omega) hP
    exact hsig _ (s.sigBase.toNat + 2 * k + 1) c.im ⟨_, rfl, by simp only [State.operands]; omega,
      by simp only [State.operands]; omega⟩ (by omega) h1
  | rfft dir =>
    refine mem h fun hck m hm => ?_
    simp only [rfftCheck, firstError_none, List.forall_mem_cons, State.operands] at hck
    obtain ⟨c0, c1, -, -, c3, -⟩ := hck
    replace c0 := of_decide_eq_false c0
    replace c1 := of_decide_eq_false c1
    replace c3 := of_decide_eq_false c3
    refine rfftBody_keeps (n := s.len.toNat) (base := s.sigBase.toNat) (b64 s.cfg) (by omega)
      (fun st k c _ hP => hws st k c hP) ?_ hc hm (hc _ (hc _ h0))
    intro st k c hk hP
    have h1 := hsig st (s.sigBase.toNat + 2 * k) c.re ⟨_, rfl, by simp [State.operands],
      by simp only [State.operands]; omega⟩ (by omega) hP
    exact hsig _ (s.sigBase.toNat + 2 * k + 1) c.im ⟨_, rfl, by simp only [State.operands]; omega,
      by simp only [State.operands]; omega⟩ (by omega) h1
  | wsalloc =>
    rcases execWsalloc_next h with ⟨e, -, rfl⟩ | ⟨-, -, rfl⟩ | ⟨-, -, rfl⟩
    · exact h0
    · simpa using h0
    · simpa [State.allocate] using hc _ h0
  | wsfree =>
    cases h
    exact hc _ h0
  | fft2 dir plan dsp => simp [Instr.allocates] at ha
  | czt dir => simp [Instr.allocates] at ha
  | chirp dir => simp [Instr.allocates] at ha
  | chirpmul => simp [Instr.allocates] at ha
  | kernel => simp [Instr.allocates] at ha
  | pmul => simp [Instr.allocates] at ha
  | recover => simp [Instr.allocates] at ha
  | normn => simp [Instr.allocates] at ha
  | rmix dir => simp [Instr.allocates] at ha
  | cadd => simp [Instr.allocates] at ha
  | csub => simp [Instr.allocates] at ha
  | cmul => simp [Instr.allocates] at ha
  | cdiv => simp [Instr.allocates] at ha
  | cexp => simp [Instr.allocates] at ha
  | cconj => simp [Instr.allocates] at ha

end Sys2Proof.Machine
end

