-- ==== Sys2Proof/Laws/Needs.lean ====
section
/-!
SUPPORT. What the bodies of the engine must be able to read: where a body answers, the words and elements that its rule reads
hold values. So a command that reads one without a value ends in the fault UNINIT (00_scope R17, 60_exceptions R270).
-/

namespace Sys2Proof.Machine

variable {F : Type} (num : Num F)

section Bluestein

variable {n base : Nat} {st st' : Store F}

theorem chirpmulBody_needs (h : chirpmulBody num n base st = .ok st') {k : Nat} (hk : k < n) :
    (∃ c, wsRead st k = .ok c) ∧ ∃ c, sigCRead st base k = .ok c := by
  unfold chirpmulBody at h
  simp only [except_bind_ok] at h
  obtain ⟨s1, h1, -⟩ := h
  obtain ⟨a, b, ⟨ha, hs⟩, hb⟩ := forRange_visits (fun _ s => wsRead s k = wsRead st k ∧ s.sig = st.sig) h1 ⟨rfl, rfl⟩
    (fun j a b _ hj hP hb => by
      simp only [except_bind_ok, except_pure] at hb
      obtain ⟨w, -, x, -, hb⟩ := hb
      cases hb
      have : k ≠ region2 n + j := by
        unfold region2
        omega
      simpa [this] using hP) (Nat.zero_le k) (by omega)
  simp only [except_bind_ok, region1, Nat.zero_add] at hb
  obtain ⟨w, hw, x, hx, -⟩ := hb
  refine ⟨⟨w, ha ▸ hw⟩, x, ?_⟩
  simpa only [sigCRead, sigRead, hs] using hx

theorem kernelBody_needs (h : kernelBody num n st = .ok st') {k : Nat} (hk : k < n) : ∃ c, wsRead st k = .ok c := by
  have hM := two_mul_le_largerSize n
  unfold kernelBody at h
  simp only [except_bind_ok] at h
  obtain ⟨w0, h0, s1, h1, -⟩ := h
  by_cases hk0 : k = 0
  · subst hk0
    exact ⟨w0, h0⟩
  obtain ⟨a, b, ha, hb⟩ := forRange_visits (fun _ s => wsRead s k = wsRead st k) h1 (by
      have : k ≠ region3 n := by
        unfold region3
        omega
      simp [this])
    (fun j a b _ hj hP hb => by
      simp only [except_bind_ok, except_pure] at hb
      obtain ⟨w, -, hb⟩ := hb
      cases hb
      have e1 : k ≠ region3 n + j := by
        unfold region3
        omega
      have e2 : k ≠ region3 n + largerSize n - j := by
        unfold region3
        omega
      simpa [e1, e2] using hP) (by omega : 1 ≤ k) (by omega)
  simp only [except_bind_ok, region1, Nat.zero_add] at hb
  obtain ⟨w, hw, -⟩ := hb
  exact ⟨w, ha ▸ hw⟩

theorem pmulBody_needs (h : pmulBody num n st = .ok st') {k : Nat} (hk : k < largerSize n) :
    (∃ c, wsRead st (n + k) = .ok c) ∧ ∃ c, wsRead st (n + largerSize n + k) = .ok c := by
  obtain ⟨a, b, ⟨ha, ha'⟩, hb⟩ := forRange_visits (fun j s => (j ≤ k → wsRead s (n + k) = wsRead st (n + k)) ∧
      wsRead s (n + largerSize n + k) = wsRead st (n + largerSize n + k)) h ⟨fun _ => rfl, rfl⟩
    (fun j a b _ hj hP hb => by
      simp only [except_bind_ok, except_pure] at hb
      obtain ⟨x, -, y, -, hb⟩ := hb
      cases hb
      have e2 : n + largerSize n + k ≠ region2 n + j := by
        unfold region2
        omega
      refine ⟨fun hle => ?_, by simpa [e2] using hP.2⟩
      have e1 : n + k ≠ region2 n + j := by
        unfold region2
        omega
      simpa [e1] using hP.1 (by omega)) (Nat.zero_le k) (by omega)
  simp only [except_bind_ok, region2, region3] at hb
  obtain ⟨x, hx, y, hy, -⟩ := hb
  exact ⟨⟨x, ha le_rfl ▸ hx⟩, y, ha' ▸ hy⟩

theorem recoverBody_needs (h : recoverBody num n base st = .ok st') {k : Nat} (hk : k < n) :
    (∃ c, wsRead st k = .ok c) ∧ ∃ c, wsRead st (n + k) = .ok c := by
  obtain ⟨a, b, hP, hb⟩ := forRange_visits (fun _ s => ∀ i, wsRead s i = wsRead st i) h (fun _ => rfl)
    (fun j a b _ hj hP hb => by
      simp only [except_bind_ok, except_pure] at hb
      obtain ⟨x, -, y, -, hb⟩ := hb
      cases hb
      exact hP) (Nat.zero_le k) (by omega)
  simp only [except_bind_ok, region1, region2, Nat.zero_add, hP] at hb
  obtain ⟨x, hx, y, hy, -⟩ := hb
  exact ⟨⟨x, hx⟩, y, hy⟩

theorem normnBody_needs (h : normnBody num n base st = .ok st') {k : Nat} (hk : k < n) :
    ∃ c, sigCRead st base k = .ok c := by
  obtain ⟨a, b, hP, hb⟩ := forRange_visits (fun j s => j ≤ k → sigCRead s base k = sigCRead st base k) h (fun _ => rfl)
    (fun j a b _ hj hP hb hle => by
      simp only [except_bind_ok, except_pure] at hb
      obtain ⟨x, -, y, -, hb⟩ := hb
      cases hb
      have : k ≠ j := by omega
      simpa [this] using hP (by omega)) (Nat.zero_le k) (by omega)
  simp only [except_bind_ok] at hb
  obtain ⟨x, hx, -⟩ := hb
  exact ⟨x, hP le_rfl ▸ hx⟩

/-- CZT reads all of its signal buffer (42_bluestein R177). -/
theorem cztBody_needs {dir : Dir} (h : cztBody num n dir base st = .ok st') {k : Nat} (hk : k < n) :
    ∃ c, sigCRead st base k = .ok c := by
  unfold cztBody at h
  simp only [except_bind_ok] at h
  obtain ⟨s1, h1, s2, h2, -⟩ := h
  obtain ⟨s1', h1', hs, -⟩ := chirpBody_spec num (n := n) (st := st) dir
  obtain rfl : s1' = s1 := by
    rw [h1'] at h1
    exact Except.ok.inj h1
  obtain ⟨c, hc⟩ := (chirpmulBody_needs num h2 hk).2
  exact ⟨c, by simpa only [sigCRead, sigRead, hs] using hc⟩

end Bluestein

section Real

variable {n base : Nat} {st st' : Store F}

/-- The writes of a pair leave the other elements alone. -/
theorem sigCRead_mixWrite {i j k : Nat} (hi : k ≠ i) (hj : k ≠ j) (zx t : Cx F) (st : Store F) :
    sigCRead (mixWrite num base i j zx t st) base k = sigCRead st base k := by
  unfold mixWrite
  simp only
  split <;> simp [hi, hj]

/-- What both passes share: index 0, then the pairs `(i, h - i)` in turn, each read before it is written. -/
theorem mixPasses_need {pair : Nat → Store F → Except ModelFault (Store F)} {c : Cx F}
    (hp : ∀ j a b, pair j a = .ok b → (∃ x, sigCRead a base j = .ok x) ∧ (∃ x, sigCRead a base (n / 2 - j) = .ok x) ∧
      ∀ k, k ≠ j → k ≠ n / 2 - j → sigCRead b base k = sigCRead a base k)
    (h : forRange pair (n / 2 / 2) 1 (sigCWrite st base 0 c) = .ok st') {k : Nat} (hk0 : 1 ≤ k) (hk : k < n / 2) :
    ∃ x, sigCRead st base k = .ok x := by
  have key : ∀ j, 1 ≤ j → j < 1 + n / 2 / 2 → ∀ i, (i = j ∨ i = n / 2 - j) → 1 ≤ i → ∃ x, sigCRead st base i = .ok x := by
    intro j hj hj' i hi hi1
    obtain ⟨a, b, hP, hb⟩ := forRange_visits (fun j s => ∀ i, j ≤ i → i ≤ n / 2 - j → sigCRead s base i = sigCRead st base i) h
      (fun i hi _ => by
        have : i ≠ 0 := by omega
        simp [this])
      (fun j a b _ hj hP hb i hi hi' => by rw [(hp j a b hb).2.2 i (by omega) (by omega), hP i (by omega) (by omega)]) hj hj'
    obtain ⟨⟨x, hx⟩, ⟨y, hy⟩, -⟩ := hp j a b hb
    rcases hi with rfl | rfl
    · exact ⟨x, hP _ le_rfl (by omega) ▸ hx⟩
    · exact ⟨y, hP _ (by omega) le_rfl ▸ hy⟩
  by_cases hh : k ≤ n / 2 / 2
  · exact key k hk0 (by omega) k (.inl rfl) hk0
  · exact key (n / 2 - k) (by omega) (by omega) k (.inr (by omega)) hk0

/-- A mixing pass reads all of its buffer (44_real_transform R233, R234). -/
theorem rmixBody_needs {dir : Dir} (h : rmixBody num n base dir st = .ok st') {k : Nat} (hk : k < n / 2) :
    ∃ c, sigCRead st base k = .ok c := by
  cases dir
  · unfold rmixBody mixForward at h
    simp only [except_bind_ok] at h
    obtain ⟨c0, h0, h1⟩ := h
    by_cases hk0 : k = 0
    · subst hk0
      exact ⟨c0, h0⟩
    refine mixPasses_need (fun j a b hb => ?_) h1 (by omega) hk
    unfold mixPairForward at hb
    simp only [except_bind_ok, except_pure] at hb
    obtain ⟨x, hx, y, hy, hb⟩ := hb
    cases hb
    exact ⟨⟨x, hx⟩, ⟨y, hy⟩, fun k h1 h2 => sigCRead_mixWrite num h1 h2 _ _ _⟩
  · unfold rmixBody mixInverse at h
    simp only [except_bind_ok] at h
    obtain ⟨c0, h0, h1⟩ := h
    by_cases hk0 : k = 0
    · subst hk0
      exact ⟨c0, h0⟩
    refine mixPasses_need (fun j a b hb => ?_) h1 (by omega) hk
    unfold mixPairInverse at hb
    simp only [except_bind_ok, except_pure] at hb
    obtain ⟨x, hx, y, hy, hb⟩ := hb
    cases hb
    exact ⟨⟨x, hx⟩, ⟨y, hy⟩, fun k h1 h2 => sigCRead_mixWrite num h1 h2 _ _ _⟩

/-- FFT reads all of its buffer (43_driver_workspace R206). -/
theorem fftBody_needs {dir : Dir} (h : fftBody num n dir base st = .ok st') {k : Nat} (hk : k < n) :
    ∃ c, sigCRead st base k = .ok c := by
  unfold fftBody at h
  simp only [except_bind_ok] at h
  obtain ⟨s1, h1, -⟩ := h
  exact cztBody_needs num h1 hk

/-- RFFT reads all of its buffer (44_real_transform R240). -/
theorem rfftBody_needs {dir : Dir} (h : rfftBody num n base dir st = .ok st') {k : Nat} (hk : k < n / 2) :
    ∃ c, sigCRead st base k = .ok c := by
  unfold rfftBody at h
  simp only [except_bind_ok] at h
  obtain ⟨s2, h1, -⟩ := h
  cases dir <;> unfold rfftPasses at h1 <;> simp only [except_bind_ok] at h1 <;> obtain ⟨s1, h1, h2⟩ := h1
  · exact cztBody_needs num h1 hk
  · exact rmixBody_needs num (dir := .inverse) h1 hk

end Real

section Fft2

variable {dsp : Space} {o : Operands} {st st' : Store F}

/-- BITREV reads each element that moves (41_radix2_fft R145). -/
theorem bitRevStage_needs {b : Nat} (hb : o.size = 2 ^ b) (hs : 1 ≤ o.stride) (h : bitRevStage dsp o st = .ok st') {e : Nat}
    (he : e < o.size) (hne : bitRev b e ≠ e) : ∃ d, dataRead dsp o st e = .ok d := by
  have hlog : Nat.log2 o.size = b := by rw [hb, Nat.log2_two_pow]
  have hr : ∀ i, i < o.size → bitRev b (bitRev b i) = i := fun i hi => bitRev_bitRev (by omega)
  obtain ⟨a, c, hP, hc⟩ := forRange_visits
    (fun j s => ∀ i, i < o.size → j ≤ min i (bitRev b i) → dataRead dsp o s i = dataRead dsp o st i) h (fun _ _ _ => rfl)
    (fun j a c _ hj hP hc i hi hle => by
      unfold bitRevSwap at hc
      simp only [hlog] at hc
      split at hc
      · simp only [except_bind_ok, except_pure] at hc
        obtain ⟨x, -, y, -, hc⟩ := hc
        cases hc
        have h1 : i ≠ j := by
          rintro rfl
          omega
        have h2 : i ≠ bitRev b j := by
          rintro rfl
          rw [hr j (by omega)] at hle
          omega
        rw [dataRead_dataWrite_ne hs _ _ h2, dataRead_dataWrite_ne hs _ _ h1, hP i hi (by omega)]
      · cases hc
        exact hP i hi (by omega)) (Nat.zero_le (min e (bitRev b e))) (by omega)
  have hlt : bitRev b e < o.size := by
    rw [hb]
    exact bitRev_lt b e
  unfold bitRevSwap at hc
  simp only [hlog] at hc
  rcases Nat.lt_or_gt_of_ne hne with hlt' | hgt
  · have hmin : min e (bitRev b e) = bitRev b e := by omega
    rw [hmin] at hP hc
    rw [hr e he, if_pos hlt'] at hc
    simp only [except_bind_ok] at hc
    obtain ⟨x, -, y, hy, -⟩ := hc
    exact ⟨y, hP e he (by omega) ▸ hy⟩
  · have hmin : min e (bitRev b e) = e := by omega
    rw [hmin] at hP hc
    rw [if_pos hgt] at hc
    simp only [except_bind_ok] at hc
    obtain ⟨x, hx, -⟩ := hc
    exact ⟨x, hP e he (by omega) ▸ hx⟩

/-- BUTTERFLY reads each element (41_radix2_fft R147). -/
theorem butterflyStage_needs {b : Nat} (hb : o.size = 2 ^ b) (h2 : 2 ≤ o.size) (hs : 1 ≤ o.stride)
    (h : butterflyStage num dsp o st = .ok st') {e : Nat} (he : e < o.size) : ∃ d, dataRead dsp o st e = .ok d := by
  have hlog : Nat.log2 o.size = b := by rw [hb, Nat.log2_two_pow]
  have hb1 : 1 ≤ b := by
    rcases Nat.eq_zero_or_pos b with rfl | h
    · omega
    · exact h
  have heven : 2 * (o.size / 2) = o.size := by
    obtain ⟨m, rfl⟩ : ∃ m, b = m + 1 := ⟨b - 1, by omega⟩
    rw [hb, pow_succ]
    omega
  unfold butterflyStage at h
  rw [hlog] at h
  obtain ⟨a, c, hP, hc⟩ := forRange_visits (fun j s => j = 0 → s = st) h (fun _ => rfl)
    (fun j a b _ _ _ _ hj => by omega) (le_refl 0) (by omega)
  obtain rfl := hP rfl
  unfold butterflyPass at hc
  simp only [pow_zero, mul_one] at hc
  obtain ⟨a', c', hP, hc'⟩ := forRange_visits (fun q s => ∀ i, 2 * q ≤ i → dataRead dsp o s i = dataRead dsp o a i) hc
    (fun _ _ => rfl) (fun q x y _ _ hP hy i hi => by
      refine forRange_keeps (fun _ s => dataRead dsp o s i = dataRead dsp o a i) hy (hP i (by omega)) ?_
      intro j u v _ hj hu hv
      unfold butterfly at hv
      simp only [except_bind_ok, except_pure] at hv
      obtain ⟨w, -, p, -, r, -, hv⟩ := hv
      cases hv
      rw [dataRead_dataWrite_ne hs _ _ (by omega), dataRead_dataWrite_ne hs _ _ (by omega), hu])
    (Nat.zero_le (e / 2)) (by omega)
  obtain ⟨u, v, hu, hv⟩ := forRange_visits (fun j s => j = 0 → s = a') hc' (fun _ => rfl)
    (fun j a b _ _ _ _ hj => by omega) (le_refl 0) (by omega)
  obtain rfl := hu rfl
  unfold butterfly at hv
  simp only [except_bind_ok] at hv
  obtain ⟨w, -, p, hp, r, hr, -⟩ := hv
  rcases Nat.mod_two_eq_zero_or_one e with h0 | h1
  · have : e / 2 * (2 * 1) + 0 = e := by omega
    rw [this, hP e (by omega)] at hp
    exact ⟨p, hp⟩
  · have : e / 2 * (2 * 1) + 0 + 1 = e := by omega
    rw [this, hP e (by omega)] at hr
    exact ⟨r, hr⟩

/-- BUTTERFLY reads each table entry (41_radix2_fft R147). -/
theorem butterflyStage_needs_table {b : Nat} (hb : o.size = 2 ^ b) (ha : Apart dsp o)
    (h : butterflyStage num dsp o st = .ok st') {k : Nat} (hk : k < o.size / 2) : ∃ w, twiddleRead o st k = .ok w := by
  have hlog : Nat.log2 o.size = b := by rw [hb, Nat.log2_two_pow]
  obtain ⟨m, rfl⟩ : ∃ m, b = m + 1 := by
    cases b with
    | zero => simp [hb] at hk
    | succ m => exact ⟨m, rfl⟩
  have hhalf : o.size / 2 = 2 ^ m := by
    rw [hb, pow_succ]
    omega
  have hd : ∀ (s : Store F) (e : Nat) (c : Cx F), e < o.size → twiddleRead o s k = twiddleRead o st k →
      twiddleRead o (dataWrite dsp o s e c) k = twiddleRead o st k := fun s e c he hP => by
    rw [twiddleRead_dataWrite ha _ _ he hk, hP]
  have hbf : ∀ {t q j : Nat} {x y : Store F}, q < o.size / (2 * 2 ^ t) → j < 2 ^ t →
      twiddleRead o x k = twiddleRead o st k → butterfly num dsp o (2 ^ t) (q * (2 * 2 ^ t)) j x = .ok y →
      twiddleRead o y k = twiddleRead o st k := by
    intro t q j x y hq hj hx hy
    have hi := butterfly_index hq hj
    unfold butterfly at hy
    simp only [except_bind_ok, except_pure] at hy
    obtain ⟨w, -, p, -, r, -, hy⟩ := hy
    cases hy
    exact hd _ _ _ hi (hd _ _ _ (by omega) hx)
  unfold butterflyStage at h
  rw [hlog] at h
  obtain ⟨a, c, hP, hc⟩ := forRange_visits (fun _ s => twiddleRead o s k = twiddleRead o st k) h rfl
    (fun t x y _ _ hx hy => forRange_keeps (fun _ s => twiddleRead o s k = twiddleRead o st k) hy hx
      fun q x y _ hq hx hy => forRange_keeps (fun _ s => twiddleRead o s k = twiddleRead o st k) hy hx
        fun j x y _ hj hx hy => hbf (by omega) (by omega) hx hy) (Nat.zero_le m) (by omega)
  have hone : o.size / (2 * 2 ^ m) = 1 := by
    rw [hb, pow_succ, mul_comm, Nat.div_self (by positivity)]
  obtain ⟨a', c', hP', hc'⟩ := forRange_visits (fun q s => q = 0 → s = a) hc (fun _ => rfl)
    (fun j a b _ _ _ _ hj => by omega) (le_refl 0) (by omega)
  obtain rfl := hP' rfl
  obtain ⟨u, v, hu, hv⟩ := forRange_visits (fun _ s => twiddleRead o s k = twiddleRead o st k) hc' hP
    (fun j x y _ hj hx hy => hbf (by omega) (by omega) hx hy) (Nat.zero_le k) (by omega)
  unfold butterfly at hv
  simp only [except_bind_ok] at hv
  obtain ⟨w, hw, -⟩ := hv
  rw [hhalf, Nat.div_self (by positivity), mul_one, hu] at hw
  exact ⟨w, hw⟩

/-- NORMALIZE reads each element (41_radix2_fft R148). -/
theorem normalizeStage_needs (hs : 1 ≤ o.stride) (h : normalizeStage num dsp o st = .ok st') {e : Nat} (he : e < o.size) :
    ∃ d, dataRead dsp o st e = .ok d := by
  obtain ⟨a, b, hP, hb⟩ := forRange_visits (fun j s => j ≤ e → dataRead dsp o s e = dataRead dsp o st e) h (fun _ => rfl)
    (fun j a b _ hj hP hb hle => by
      simp only [except_bind_ok, except_pure] at hb
      obtain ⟨x, -, y, -, hb⟩ := hb
      cases hb
      rw [dataRead_dataWrite_ne hs _ _ (by omega), hP (by omega)]) (Nat.zero_le e) (by omega)
  simp only [except_bind_ok] at hb
  obtain ⟨x, hx, -⟩ := hb
  exact ⟨x, hP le_rfl ▸ hx⟩

/-- FFT2 with NM, or with BF on at least two elements, reads each element (41_radix2_fft R140). -/
theorem fft2Body_needs {b : Nat} (hb : o.size = 2 ^ b) (hs : 1 ≤ o.stride) {dir : Dir} {plan : Plan}
    (ha : plan.tw = true → Apart dsp o) (hp : plan.nm = true ∨ plan.bf = true ∧ 2 ≤ o.size)
    (h : fft2Body num dsp o dir plan st = .ok st') {e : Nat} (he : e < o.size) : ∃ d, dataRead dsp o st e = .ok d := by
  unfold fft2Body at h
  simp only [except_bind_ok] at h
  obtain ⟨s1, h1, s2, h2, s3, h3, h4⟩ := h
  have k2 : ∀ e, e < o.size → ∃ d, dataRead dsp o s2 e = .ok d := by
    intro e he
    by_cases hbf : plan.bf = true ∧ 2 ≤ o.size
    · rw [hbf.1, stage_on] at h3
      exact butterflyStage_needs num hb hbf.2 hs h3 he
    · have hnm : plan.nm = true := by tauto
      have : s3 = s2 := by
        cases hf : plan.bf with
        | false =>
          rw [hf] at h3
          exact (Except.ok.inj h3).symm
        | true =>
          have hlt : ¬ 2 ≤ o.size := fun g => hbf ⟨hf, g⟩
          have h1 : o.size = 1 := by omega
          rw [hf, stage_on, butterflyStage, h1] at h3
          exact (Except.ok.inj h3).symm
      rw [hnm, stage_on, this] at h4
      exact normalizeStage_needs num hs h4 he
  have k1 : ∀ e, e < o.size → dataRead dsp o s2 e = dataRead dsp o s1 e := by
    intro e he
    cases ht : plan.tw with
    | false =>
      rw [ht] at h2
      rw [Except.ok.inj h2]
    | true =>
      rw [ht, stage_on] at h2
      obtain ⟨s2', h2', hsig, hr⟩ := twiddleStage_spec num (o := o) (st := s1) dir
      obtain rfl : s2' = s2 := by
        rw [h2'] at h2
        exact Except.ok.inj h2
      refine dataRead_congr (fun _ => hsig) (fun hws e he => ?_) he
      rw [hr, if_neg]
      rintro ⟨g1, g2⟩
      exact ha ht hws e (o.dataIndex e - o.tbase) he (by omega) (by unfold Operands.twiddleIndex; omega)
  cases hbr : plan.br with
  | false =>
    rw [hbr] at h1
    obtain ⟨d, hd⟩ := k2 e he
    rw [k1 e he, ← Except.ok.inj h1] at hd
    exact ⟨d, hd⟩
  | true =>
    rw [hbr, stage_on] at h1
    by_cases hne : bitRev b e = e
    · have hd : ∀ i, ∃ d, i < o.size → bitRev b i ≠ i → dataRead dsp o st i = .ok d := by
        intro i
        by_cases hi : i < o.size ∧ bitRev b i ≠ i
        · obtain ⟨d, hd⟩ := bitRevStage_needs hb hs h1 hi.1 hi.2
          exact ⟨d, fun _ _ => hd⟩
        · obtain ⟨d, -⟩ := k2 e he
          exact ⟨d, fun g1 g2 => absurd ⟨g1, g2⟩ hi⟩
      choose d hd using hd
      obtain ⟨s1', h1', hsame⟩ := bitRevStage_swaps hb hs hd
      obtain rfl : s1' = s1 := by
        rw [h1'] at h1
        exact Except.ok.inj h1
      obtain ⟨x, hx⟩ := k2 e he
      rw [k1 e he, (hsame e he).2 hne] at hx
      exact ⟨x, hx⟩
    · exact bitRevStage_needs hb hs h1 he hne

/-- FFT2 with BF and without TW reads each table entry (41_radix2_fft R140). -/
theorem fft2Body_needs_table {b : Nat} (hb : o.size = 2 ^ b) (ha : Apart dsp o) {dir : Dir} {plan : Plan}
    (hbf : plan.bf = true) (htw : plan.tw = false) (h : fft2Body num dsp o dir plan st = .ok st') {k : Nat}
    (hk : k < o.size / 2) : ∃ w, twiddleRead o st k = .ok w := by
  unfold fft2Body at h
  simp only [except_bind_ok, hbf, htw, stage_on, stage_off] at h
  obtain ⟨s1, h1, s2, h2, s3, h3, -⟩ := h
  cases h2
  have hsame : twiddleRead o s1 k = twiddleRead o st k := by
    refine stage_keeps (fun s => twiddleRead o s k = twiddleRead o st k) h1 rfl fun _ a c ha' hc => ?_
    refine bitRevStage_keeps (P := fun s => twiddleRead o s k = twiddleRead o st k) (by rw [hb]; exact isPow2_two_pow b) ?_ hc ha'
    intro s e c he hP
    rw [twiddleRead_dataWrite ha _ _ he hk, hP]
  obtain ⟨w, hw⟩ := butterflyStage_needs_table num hb ha h3 hk
  exact ⟨w, hsame ▸ hw⟩

end Fft2

end Sys2Proof.Machine
end

