-- ==== Sys2Proof/Laws/PerInstr.lean ====
section
/-!
SUPPORT. One lemma per command: its word carries its opcode in bits [7:0] and zero in bits [31:16] (30_encoding R91, R98).
-/

namespace Sys2Proof

/-- What the family `Opcode` says of a command. -/
def Laws.Opcode.Statement (i : Instr) : Prop :=
  (encode i).extractLsb' 0 8 = i.opcode ∧ (encode i).extractLsb' 16 16 = 0

theorem Laws.Opcode.fft (dir : Dir) : Laws.Opcode.Statement (.fft dir) := by
  cases dir <;> exact ⟨by decide, by decide⟩

theorem Laws.Opcode.rfft (dir : Dir) : Laws.Opcode.Statement (.rfft dir) := by
  cases dir <;> exact ⟨by decide, by decide⟩

theorem Laws.Opcode.wsalloc : Laws.Opcode.Statement .wsalloc := ⟨by decide, by decide⟩

theorem Laws.Opcode.wsfree : Laws.Opcode.Statement .wsfree := ⟨by decide, by decide⟩

theorem Laws.Opcode.fft2 (dir : Dir) (plan : Plan) (dsp : Space) : Laws.Opcode.Statement (.fft2 dir plan dsp) := by
  obtain ⟨br, tw, bf, nm⟩ := plan
  cases dir <;> cases dsp <;> cases br <;> cases tw <;> cases bf <;> cases nm <;> exact ⟨by decide, by decide⟩

theorem Laws.Opcode.czt (dir : Dir) : Laws.Opcode.Statement (.czt dir) := by
  cases dir <;> exact ⟨by decide, by decide⟩

theorem Laws.Opcode.chirp (dir : Dir) : Laws.Opcode.Statement (.chirp dir) := by
  cases dir <;> exact ⟨by decide, by decide⟩

theorem Laws.Opcode.chirpmul : Laws.Opcode.Statement .chirpmul := ⟨by decide, by decide⟩

theorem Laws.Opcode.kernel : Laws.Opcode.Statement .kernel := ⟨by decide, by decide⟩

theorem Laws.Opcode.pmul : Laws.Opcode.Statement .pmul := ⟨by decide, by decide⟩

theorem Laws.Opcode.recover : Laws.Opcode.Statement .recover := ⟨by decide, by decide⟩

theorem Laws.Opcode.normn : Laws.Opcode.Statement .normn := ⟨by decide, by decide⟩

theorem Laws.Opcode.rmix (dir : Dir) : Laws.Opcode.Statement (.rmix dir) := by
  cases dir <;> exact ⟨by decide, by decide⟩

theorem Laws.Opcode.cadd : Laws.Opcode.Statement .cadd := ⟨by decide, by decide⟩

theorem Laws.Opcode.csub : Laws.Opcode.Statement .csub := ⟨by decide, by decide⟩

theorem Laws.Opcode.cmul : Laws.Opcode.Statement .cmul := ⟨by decide, by decide⟩

theorem Laws.Opcode.cdiv : Laws.Opcode.Statement .cdiv := ⟨by decide, by decide⟩

theorem Laws.Opcode.cexp : Laws.Opcode.Statement .cexp := ⟨by decide, by decide⟩

theorem Laws.Opcode.cconj : Laws.Opcode.Statement .cconj := ⟨by decide, by decide⟩

end Sys2Proof
end

