-- ==== Sys2Proof/Tests/Slice0.lean ====
section
/-!
SUPPORT. Tests of the model, and witnesses that the hypotheses of the statements can be met. The expected values are those of
spec/95_test_vectors (V...), or worked by hand from the rule a comment cites.
-/

namespace Sys2Proof.Tests

open Sys2Proof.Machine

set_option Elab.async false

/-! Concrete states. -/

/-- Small parameters with the binary64 nearest to pi (00_scope R5). -/
def cfg : Params := ⟨64, 64, false, .little, 0x400921FB54442D18, 0x7FF8000000000000⟩

/-- The state after reset, with these parameters. -/
def idle : State := { State.reset with cfg := cfg }

/-- Cells from `start` on. -/
def cellsFrom : Nat → List F64 → Cells F64
  | _, [] => []
  | start, v :: rest => (start, v) :: cellsFrom (start + 1) rest

/-- The signal memory holds these words from word 0 on. -/
def withSig (s : State) (words : List F64) : State := { s with mem := { s.mem with sig := cellsFrom 0 words } }

/-- LEN is `n`, and a workspace for `n` is allocated whose first elements are these. -/
def withWs (s : State) (n : Nat) (elements : List (Cx F64)) : State :=
  { s with
    len := BitVec.ofNat 32 n
    wsValid := true
    wsN := BitVec.ofNat 32 n
    mem := ⟨s.mem.sig, cellsFrom 0 (elements.map Cx.re), cellsFrom 0 (elements.map Cx.im)⟩ }

/-- A real number as a complex sample. -/
def re (n : Nat) : Cx F64 := ⟨freal n, fZero⟩

/-- The state with this one move of the outside world pending. -/
def pending (s : State) (ev : HostEvent) : State := { s with inputs := [ev] }

/-- The step on a command word placed for the engine. -/
def run (s : State) (word : Nat) : Option State := nextState (step (s.withFetchWord 32 word))

/-- ERR, ERR_INFO and BUSY after the step on a command word. -/
def statusAfter (s : State) (word : Nat) : Option (Nat × Nat × Bool) :=
  (run s word).map fun t => (t.err.toNat, t.errInfo.toNat, t.busy)

/-- The fault a result names. -/
def faultOf : Result → Option Fault
  | .next _ => none
  | .fault f => some f
  | .refused _ => none

/-- The signal words `0` to `n - 1` after a step. -/
def sigAfter (n : Nat) (t : Option State) : Option (List (Option F64)) :=
  t.map fun t => (List.range n).map (cellGet t.mem.sig)

/-- The workspace elements `0` to `n - 1` after a step. -/
def wsAfter (n : Nat) (t : Option State) : Option (List (Option F64 × Option F64)) :=
  t.map fun t => (List.range n).map fun i => (cellGet t.mem.wsRe i, cellGet t.mem.wsIm i)

theorem next_of {r : Result} {t : State} (h : nextState r = some t) : r = .next t := by
  cases r <;> simp_all [nextState]

theorem exists_next {r : Result} (h : (nextState r).isSome = true) : ∃ t, r = .next t := by
  cases r <;> simp_all [nextState]

theorem fault_of {r : Result} {f : Fault} (h : faultOf r = some f) : r = .fault f := by
  cases r <;> simp_all [faultOf]

/-! WellFormed (30_encoding R96). -/

theorem test_wf_refuses_forward_norm : (Instr.fft2 .forward ⟨false, false, false, true⟩ .sig).wf = false := by decide

theorem test_wf_accepts_inverse_norm : (Instr.fft2 .inverse ⟨false, false, false, true⟩ .sig).wf = true := by decide

/-! Decoding: one word per constructor, its bits written out as the format patterns of 30_encoding R92 give them with the
opcode of R98. -/

theorem test_decode_fft : decode 0b0000000000000000_00_0_0000_1_00000001 = .ok (.fft .inverse) := by decide
theorem test_decode_rfft : decode 0b0000000000000000_00_0_0000_1_00000010 = .ok (.rfft .inverse) := by decide
theorem test_decode_wsalloc : decode 0b0000000000000000_00_0_0000_0_00010000 = .ok .wsalloc := by decide
theorem test_decode_wsfree : decode 0b0000000000000000_00_0_0000_0_00010001 = .ok .wsfree := by decide
theorem test_decode_fft2_bits :
    decode 0b0000000000000000_00_0_0001_0_00100000 = .ok (.fft2 .forward ⟨true, false, false, false⟩ .sig) ∧
    decode 0b0000000000000000_00_0_0010_0_00100000 = .ok (.fft2 .forward ⟨false, true, false, false⟩ .sig) ∧
    decode 0b0000000000000000_00_0_0100_0_00100000 = .ok (.fft2 .forward ⟨false, false, true, false⟩ .sig) ∧
    decode 0b0000000000000000_01_0_1000_1_00100000 = .ok (.fft2 .inverse ⟨false, false, false, true⟩ .ws) := by decide
theorem test_decode_czt : decode 0b0000000000000000_00_0_0000_0_00110000 = .ok (.czt .forward) := by decide
theorem test_decode_chirp : decode 0b0000000000000000_00_0_0000_1_00110001 = .ok (.chirp .inverse) := by decide
theorem test_decode_chirpmul : decode 0b0000000000000000_00_0_0000_0_00110010 = .ok .chirpmul := by decide
theorem test_decode_kernel : decode 0b0000000000000000_00_0_0000_0_00110011 = .ok .kernel := by decide
theorem test_decode_pmul : decode 0b0000000000000000_00_0_0000_0_00110100 = .ok .pmul := by decide
theorem test_decode_recover : decode 0b0000000000000000_00_0_0000_0_00110101 = .ok .recover := by decide
theorem test_decode_normn : decode 0b0000000000000000_00_0_0000_0_00110110 = .ok .normn := by decide
theorem test_decode_rmix : decode 0b0000000000000000_00_0_0000_0_01000000 = .ok (.rmix .forward) := by decide
theorem test_decode_cadd : decode 0b0000000000000000_00_0_0000_0_01010000 = .ok .cadd := by decide
theorem test_decode_csub : decode 0b0000000000000000_00_0_0000_0_01010001 = .ok .csub := by decide
theorem test_decode_cmul : decode 0b0000000000000000_00_0_0000_0_01010010 = .ok .cmul := by decide
theorem test_decode_cdiv : decode 0b0000000000000000_00_0_0000_0_01010011 = .ok .cdiv := by decide
theorem test_decode_cexp : decode 0b0000000000000000_00_0_0000_0_01010100 = .ok .cexp := by decide
theorem test_decode_cconj : decode 0b0000000000000000_00_0_0000_0_01010101 = .ok .cconj := by decide

/-- V10, V12: illegal words, each with its reason. -/
theorem test_decode_illegal :
    decode 0x00000000 = .error .unassignedOpcode ∧ decode 0x00000056 = .error .unassignedOpcode ∧
    decode 0x00000201 = .error .mustBeZero ∧ decode 0x00010001 = .error .mustBeZero ∧
    decode 0x00000150 = .error .mustBeZero ∧ decode 0x00000110 = .error .mustBeZero ∧
    decode 0x00000132 = .error .mustBeZero := by decide

/-- V11: illegal words of FFT2, each with its reason. -/
theorem test_decode_illegal_fft2 :
    decode 0x00001020 = .error .normForward ∧ decode 0x00002020 = .error .zeroAux ∧
    decode 0x00008020 = .error .reservedSpace ∧ decode 0x0000C020 = .error .reservedSpace ∧
    decode 0x00010020 = .error .mustBeZero := by decide

/-- V11: legal words of FFT2. -/
theorem test_encode_fft2 :
    encode (.fft2 .inverse ⟨false, false, false, true⟩ .sig) = 0x00001120 ∧
    encode (.fft2 .forward ⟨true, true, true, false⟩ .sig) = 0x00000E20 ∧
    encode (.fft2 .inverse ⟨true, true, true, true⟩ .sig) = 0x00001F20 ∧
    encode (.fft2 .forward ⟨false, false, false, false⟩ .sig) = 0x00000020 := by decide

/-- 30_encoding R104: the examples of the assembler syntax. -/
theorem test_assemble :
    (assemble ⟨"fft2", some .forward, some (.ws, [.br, .tw, .bf])⟩).map encode = .ok 0x00004E20 ∧
    (assemble ⟨"fft", some .inverse, none⟩).map encode = .ok 0x00000101 ∧
    assemble ⟨"fft2", some .forward, some (.ws, [.nm])⟩ = .error .normForward ∧
    assemble ⟨"fft2", some .inverse, some (.ws, [.br, .br])⟩ = .error .repeatedStage ∧
    assemble ⟨"kernel", some .forward, none⟩ = .error .unexpectedSuffix := by decide +kernel

/-- 30_encoding R106: `norm ws` stands for `fft2.i ws, nm`. -/
theorem test_pseudo : (Pseudo.norm .ws).expand = [.regWrite 0x08 64 0x00005120] := by decide

/-! Arithmetic (00_scope R10), worked by hand. -/

/-- 1 + 2^-53 is a tie and goes to the even 1; (1 + 2^-52) + 2^-53 is a tie and goes to 1 + 2^-51; 1/3 rounds down. -/
theorem test_round_ties :
    fadd cfg fOne 0x3CA0000000000000 = fOne ∧
    fadd cfg 0x3FF0000000000001 0x3CA0000000000000 = 0x3FF0000000000002 ∧
    fdiv cfg fOne 0x4008000000000000 = 0x3FD5555555555555 := by decide +kernel

/-- Half the least subnormal is a tie and goes to 0; half of three of them goes to two; the least normal halves to a
subnormal; the largest finite value doubled is an infinity. -/
theorem test_round_ends :
    fhalf cfg 0x0000000000000001 = fZero ∧ fhalf cfg 0x0000000000000003 = 0x0000000000000002 ∧
    fhalf cfg 0x0010000000000000 = 0x0008000000000000 ∧
    fadd cfg 0x7FEFFFFFFFFFFFFF 0x7FEFFFFFFFFFFFFF = 0x7FF0000000000000 := by decide +kernel

/-- The counts of 00_scope R10: 3, 2^29 and 2^53 + 1, which rounds to 2^53. -/
theorem test_real :
    freal 3 = 0x4008000000000000 ∧ freal (2 ^ 29) = 0x41C0000000000000 ∧ freal (2 ^ 53 + 1) = 0x4340000000000000 := by
  decide +kernel

/-! The complex ALU. -/

/-- CR after an ALU command on CA and CB. -/
def aluAfter (ca cb : Cx F64) (word : Nat) : Option (Cx F64) := (run { idle with ca := ca, cb := cb } word).map State.cr

/-- V15a, V16b. -/
theorem test_cadd :
    aluAfter (⟨freal 1, freal 2⟩) ⟨freal 3, fneg fOne⟩ 0x50 = some ⟨0x4010000000000000, 0x3FF0000000000000⟩ ∧
    aluAfter ⟨fZero, fneg fZero⟩ ⟨fneg fZero, fneg fZero⟩ 0x50 = some ⟨0x0, 0x8000000000000000⟩ := by decide +kernel

/-- V16e: opposite infinities. -/
theorem test_cadd_infinities :
    aluAfter ⟨0x7FF0000000000000, fZero⟩ ⟨0xFFF0000000000000, fZero⟩ 0x50 = some ⟨0x7FF8000000000000, 0x0⟩ := by
  decide +kernel

/-- V15b, V16c. -/
theorem test_csub :
    aluAfter (⟨freal 1, freal 2⟩) ⟨freal 3, fneg fOne⟩ 0x51 = some ⟨0xC000000000000000, 0x4008000000000000⟩ ∧
    aluAfter ⟨fOne, fOne⟩ ⟨fOne, fOne⟩ 0x51 = some ⟨0x0, 0x0⟩ := by decide +kernel

/-- V15c, V19. -/
theorem test_cmul :
    aluAfter (⟨freal 1, freal 2⟩) ⟨freal 3, freal 4⟩ 0x52 = some ⟨0xC014000000000000, 0x4024000000000000⟩ ∧
    aluAfter (⟨freal 3, freal 4⟩) ⟨freal 1, freal 2⟩ 0x52 = some ⟨0xC014000000000000, 0x4024000000000000⟩ := by
  decide +kernel

/-- V16d, V67: infinity times zero, and an overflow that is no error. -/
theorem test_cmul_special :
    aluAfter ⟨fOne, fZero⟩ ⟨0x7FF0000000000000, fZero⟩ 0x52 = some ⟨0x7FF0000000000000, 0x7FF8000000000000⟩ ∧
    statusAfter { idle with ca := ⟨0x7FE1CCF385EBC8A0, fZero⟩, cb := ⟨freal 10, fZero⟩ } 0x52 = some (0, 0, false) ∧
    aluAfter ⟨0x7FE1CCF385EBC8A0, fZero⟩ ⟨freal 10, fZero⟩ 0x52 = some ⟨0x7FF0000000000000, fZero⟩ := by decide +kernel

/-- V15d. -/
theorem test_cdiv :
    aluAfter ⟨fneg (freal 5), freal 10⟩ ⟨freal 3, freal 4⟩ 0x53 = some ⟨0x3FF0000000000000, 0x4000000000000000⟩ := by
  decide +kernel

/-- V16f, V16g: division by zero. -/
theorem test_cdiv_zero :
    aluAfter (⟨freal 1, freal 2⟩) ⟨fZero, fZero⟩ 0x53 = some ⟨0x7FF8000000000000, 0x7FF8000000000000⟩ ∧
    aluAfter (⟨freal 1, freal 2⟩) ⟨fZero, fneg fZero⟩ 0x53 = some ⟨0x7FF8000000000000, 0x7FF8000000000000⟩ := by
  decide +kernel

/-- V15f. -/
theorem test_cexp : aluAfter ⟨fZero, fZero⟩ ⟨freal 7, freal 7⟩ 0x54 = some ⟨0x3FF0000000000000, 0x0⟩ := by decide +kernel

/-- V15e, V16a. -/
theorem test_cconj :
    aluAfter (⟨freal 1, freal 2⟩) ⟨fZero, fZero⟩ 0x55 = some ⟨0x3FF0000000000000, 0xC000000000000000⟩ ∧
    aluAfter ⟨fOne, fZero⟩ ⟨fZero, fZero⟩ 0x55 = some ⟨0x3FF0000000000000, 0x8000000000000000⟩ := by decide +kernel

/-! The generator (40_complex_alu R129). -/

/-- The CIS table of V19: the exact reduction of 4 mod 4 gives angle 0, of 9 mod 6 the same angle as 3. -/
theorem test_cis_reduction :
    cis64 cfg .forward 4 2 = ⟨0x3FF0000000000000, 0x8000000000000000⟩ ∧
    cis64 cfg .inverse 0 4 = ⟨0x3FF0000000000000, 0x0⟩ ∧
    cisAngle cfg .forward 9 3 = cisAngle cfg .forward 3 3 ∧ cisAngle cfg .inverse 1 2 = 0x3FF921FB54442D18 := by
  decide +kernel

/-! The radix-2 unit. -/

/-- The signal words of the complex elements 0 to `n - 1`, each a real number. -/
def reals (l : List Nat) : List F64 := l.flatMap fun n => [freal n, fZero]

/-- SIZE, STRIDE, DBASE and TBASE. -/
def sized (s : State) (size stride dbase tbase : Nat) : State := s.withFft2 size stride dbase tbase

/-- V21: the bit reversal of eight signal elements, with no workspace. -/
theorem test_fft2_bitrev :
    sigAfter 16 (run (sized (withSig idle (reals [0, 1, 2, 3, 4, 5, 6, 7])) 8 1 0 0) 0x0220) =
      some ((reals [0, 4, 2, 6, 1, 5, 3, 7]).map some) := by decide +kernel

/-- V24, V28: sizes 2, in the workspace, and in the signal memory with a stride of 2. -/
theorem test_fft2_size2 :
    wsAfter 2 (run (sized (withWs idle 2 [re 1, re 2]) 2 1 0 8) 0x4E20) =
      some [(some (freal 3), some fZero), (some (fneg fOne), some fZero)] ∧
    sigAfter 6 (run (sized (withWs (withSig idle (reals [1, 7, 2])) 1 []) 2 2 0 0) 0x0E20) =
      some ([freal 3, fZero, freal 7, fZero, fneg fOne, fZero].map some) := by decide +kernel

/-- V29: the checks of FFT2, in order. -/
theorem test_fft2_errors :
    statusAfter (sized (withWs idle 2 []) 3 1 0 8) 0x4E20 = some (7, 0x20, false) ∧
    statusAfter (sized idle 0 1 0 0) 0x0020 = some (7, 0x20, false) ∧
    statusAfter (sized idle (2 ^ 31) 1 0 0) 0x0220 = some (7, 0x20, false) ∧
    statusAfter (sized idle 4 0 0 0) 0x0220 = some (7, 0x28, false) ∧
    statusAfter (sized (withWs idle 2 []) 4 1 10 0) 0x4E20 = some (7, 0x30, false) ∧
    statusAfter (sized { idle with cfg := { cfg with sigWords := 8 } } 4 1 1 0) 0x0220 = some (7, 0x30, false) := by
  decide +kernel

/-- V29: the checks of the table, and of the workspace first of all. -/
theorem test_fft2_table_errors :
    statusAfter (sized (withWs idle 2 []) 4 1 0 11) 0x0420 = some (7, 0x38, false) ∧
    statusAfter (sized (withWs idle 2 []) 4 1 0 2) 0x4E20 = some (7, 0x38, false) ∧
    statusAfter (sized (withWs idle 2 []) 4 2 0 3) 0x4E20 = some (7, 0x38, false) ∧
    statusAfter (sized idle 3 1 0 0) 0x4E20 = some (6, 0x78, false) ∧
    statusAfter (sized idle 4 1 0 0) 0x0E20 = some (6, 0x78, false) := by decide +kernel

/-- V29l: a table entry that holds no value. -/
theorem test_fft2_uninit :
    faultOf (exec (.fft2 .forward ⟨true, false, true, false⟩ .ws) (sized (withWs idle 2 [re 1, re 2, re 3, re 4]) 4 1 0 8)) =
      some (.recorded [⟨.uninit .ws 8, some 0x4A20⟩]) := by decide +kernel

/-! The Bluestein engine. -/

/-- V34: the transform of one element is the element, in both directions. -/
theorem test_czt_one :
    sigAfter 2 (run (withWs (withSig idle [freal 5, fneg (freal 3)]) 1 []) 0x30) = some [some (freal 5), some (fneg (freal 3))] ∧
    sigAfter 2 (run (withWs (withSig idle [freal 5, fneg (freal 3)]) 1 []) 0x130) =
      some [some (freal 5), some (fneg (freal 3))] := by decide +kernel

/-- V39b to V39f, V63: the checks of the step commands and of CZT. -/
theorem test_czt_errors :
    statusAfter { idle with len := 2 } 0x31 = some (6, 0x78, false) ∧
    statusAfter { withWs idle 2 [] with len := 3 } 0x31 = some (6, 0x78, false) ∧
    statusAfter { withWs idle 2 [] with len := 0 } 0x33 = some (3, 0x18, false) ∧
    statusAfter { idle with len := 0x20000001 } 0x30 = some (4, 0x18, false) ∧
    statusAfter { withWs idle 2 [] with cfg := { cfg with sigWords := 3 } } 0x32 = some (7, 0x40, false) ∧
    statusAfter { withWs idle 2 [] with cfg := { cfg with sigWords := 0 }, len := 3 } 0x32 = some (6, 0x78, false) := by
  decide +kernel

/-- CHIRP for N = 1: w[0] = CIS(-1, 0, 1) = (1, -0) (42_bluestein R171, 40_complex_alu R130). -/
theorem test_chirp : wsAfter 2 (run (withWs idle 1 []) 0x31) =
    some [(some fOne, some (fneg fZero)), (none, none)] := by decide +kernel

/-- CHIRPMUL after V30 with w = [1, -i] exactly: R2 = [1, -2i, 0, 0] (V31a). -/
theorem test_chirpmul :
    wsAfter 6 (run (withWs (withSig idle (reals [1, 2])) 2 [re 1, ⟨fZero, fneg fOne⟩]) 0x32) =
      some [(some fOne, some fZero), (some fZero, some (fneg fOne)), (some fOne, some fZero), (some fZero, some (fneg (freal 2))),
        (some fZero, some fZero), (some fZero, some fZero)] := by decide +kernel

/-- V39h: CHIRPMUL where region 1 was never written. -/
theorem test_chirpmul_uninit :
    faultOf (exec .chirpmul (withWs (withSig idle (reals [1, 2])) 2 [])) = some (.recorded [⟨.uninit .ws 0, some 0x32⟩]) := by
  decide +kernel

/-- V31b, V38: the kernel of N = 2 from w = [(1, -0), -i], its first element copied literally; and of N = 3. -/
theorem test_kernel :
    (wsAfter 10 (run (withWs idle 2 [⟨fOne, fneg fZero⟩, ⟨fZero, fneg fOne⟩]) 0x33)).map (·.drop 6) =
      some [(some fOne, some (fneg fZero)), (some fZero, some fOne), (some fZero, some fZero), (some fZero, some fOne)] ∧
    (wsAfter 19 (run (withWs idle 3 [re 1, ⟨freal 2, freal 3⟩, ⟨freal 4, freal 5⟩]) 0x33)).map (·.drop 11) =
      some [(some fOne, some fZero), (some (freal 2), some (fneg (freal 3))), (some (freal 4), some (fneg (freal 5))),
        (some fZero, some fZero), (some fZero, some fZero), (some fZero, some fZero),
        (some (freal 4), some (fneg (freal 5))), (some (freal 2), some (fneg (freal 3)))] := by decide +kernel

/-- PMUL for N = 1, where M = 2: [2, 3] times [5, 7] (42_bluestein R174). -/
theorem test_pmul : wsAfter 5 (run (withWs idle 1 [re 9, re 2, re 3, re 5, re 7]) 0x34) =
    some [(some (freal 9), some fZero), (some (freal 10), some fZero), (some (freal 21), some fZero),
      (some (freal 5), some fZero), (some (freal 7), some fZero)] := by decide +kernel

/-- V39g: PMUL does not check the signal buffer, and meets regions that hold no value. -/
theorem test_pmul_uninit :
    faultOf (exec .pmul { withWs idle 2 [] with cfg := { cfg with sigWords := 3 } }) =
      some (.recorded [⟨.uninit .ws 2, some 0x34⟩]) := by decide +kernel

/-- V31g, exact: w = [1, -i] and conv = [3, -i, ...] give [3, -1]. -/
theorem test_recover :
    sigAfter 4 (run (withWs idle 2 [re 1, ⟨fZero, fneg fOne⟩, re 3, ⟨fZero, fneg fOne⟩]) 0x35) =
      some [some (freal 3), some fZero, some (fneg fOne), some (fneg fZero)] := by decide +kernel

/-- V39a. -/
theorem test_normn : sigAfter 4 (run (withWs (withSig idle (reals [8, 4])) 2 []) 0x36) =
    some ((reals [4, 2]).map some) := by decide +kernel

/-! The workspace manager and the drivers. -/

/-- What the geometry registers and WSSTAT read. -/
def geometryOf (s : State) : List (Except ModelFault Word64) :=
  [Reg.larger, .wslen, .r1base, .r2base, .r3base, .r4base, .wsstat].map s.readReg

/-- V50: WSALLOC on LEN = 11, with room for it (V52b: WS_CAPACITY = 91). -/
theorem test_wsalloc :
    (run { idle with len := 11, cfg := { cfg with wsCapacity := 91 } } 0x10).map geometryOf =
      some [.ok 32, .ok 91, .ok 0, .ok 11, .ok 43, .ok 75, .ok 0x0000000B00000001] := by decide +kernel

/-- V52, V53, V55, V55b, V55c, V64: the errors of WSALLOC. -/
theorem test_wsalloc_errors :
    statusAfter { idle with len := 11, cfg := { cfg with wsCapacity := 90 } } 0x10 = some (1, 91, false) ∧
    statusAfter { withWs idle 11 [] with len := 4 } 0x10 = some (6, 0x78, false) ∧
    statusAfter idle 0x10 = some (3, 0x18, false) ∧
    statusAfter { idle with len := 0x20000001 } 0x10 = some (4, 0x18, false) ∧
    statusAfter { withWs idle 11 [] with len := 0 } 0x10 = some (3, 0x18, false) ∧
    statusAfter { withWs idle 2 [] with cfg := { cfg with wsCapacity := 12 } } 0x10 = some (6, 0x78, false) := by
  decide +kernel

/-- V51: the geometry of N = 3, 5 and N_MAX. -/
theorem test_geometry :
    (largerSize 1, wsLength 1) = (2, 6) ∧ (largerSize 3, wsLength 3, region4 3) = (8, 23, 19) ∧
    (largerSize 5, wsLength 5, region3 5) = (16, 45, 21) ∧
    (largerSize nMax, wsLength nMax, region4 nMax) = (2 ^ 30, 0xC0000000, 5 * 2 ^ 29) := by decide +kernel

/-- V54b. -/
theorem test_wsfree :
    (run (withWs idle 2 [re 1]) 0x11).map geometryOf = some [.ok 0, .ok 0, .ok 0, .ok 0, .ok 0, .ok 0, .ok 0] ∧
    wsAfter 1 (run (withWs idle 2 [re 1]) 0x11) = some [(none, none)] := by decide +kernel

/-- V34 through the driver, and V58: no workspace is left. -/
theorem test_fft_one :
    sigAfter 2 (run (withSig { idle with len := 1 } [freal 5, fneg (freal 3)]) 0x01) =
      some [some (freal 5), some (fneg (freal 3))] ∧
    (run (withSig { idle with len := 1 } [freal 5, fneg (freal 3)]) 0x01).map State.wsValid = some false := by decide +kernel

/-- V57, V57b, V57c, V59, V61: the errors of FFT, and the fault of a buffer never written. -/
theorem test_fft_errors :
    statusAfter (withWs idle 8 []) 0x01 = some (6, 0x78, false) ∧
    statusAfter { idle with len := 8, cfg := { cfg with wsCapacity := 47 } } 0x01 = some (1, 48, false) ∧
    statusAfter { idle with len := 8, cfg := { cfg with sigWords := 15 } } 0x01 = some (7, 0x40, false) ∧
    statusAfter { withWs idle 2 [] with len := 0 } 0x01 = some (3, 0x18, false) ∧
    faultOf (exec (.fft .forward) { idle with len := 8 }) = some (.recorded [⟨.uninit .sig 0, some 0x01⟩]) := by
  decide +kernel

/-! The real transform. -/

/-- V41, V41b: N = 2, in both directions. -/
theorem test_rfft_two :
    sigAfter 2 (run (withSig { idle with len := 2 } [freal 3, freal 1]) 0x02) = some [some (freal 4), some (freal 2)] ∧
    sigAfter 2 (run (withSig { idle with len := 2 } [freal 4, freal 2]) 0x102) = some [some (freal 3), some (freal 1)] := by
  decide +kernel

/-- V3, V47, V48, V48b, V49a, V49c, V49d, V60: the errors of RFFT. -/
theorem test_rfft_errors :
    statusAfter { idle with len := 11 } 0x102 = some (2, 11, false) ∧
    statusAfter idle 0x02 = some (3, 0x18, false) ∧
    statusAfter { idle with len := 0x20000001 } 0x02 = some (2, 0x20000001, false) ∧
    statusAfter { idle with len := 0x40000000 } 0x102 = some (4, 0x18, false) ∧
    statusAfter (withWs idle 8 []) 0x02 = some (6, 0x78, false) ∧
    statusAfter { idle with len := 8, cfg := { cfg with sigWords := 7 } } 0x02 = some (7, 0x40, false) ∧
    statusAfter { idle with len := 8, cfg := { cfg with wsCapacity := 23 } } 0x102 = some (1, 24, false) ∧
    statusAfter { withWs idle 11 [] with cfg := { cfg with sigWords := 0 } } 0x02 = some (2, 11, false) := by decide +kernel

/-- V41 as a mixing pass: N = 2 has only index 0 (44_real_transform R233, R234). -/
theorem test_rmix_two :
    sigAfter 2 (run (withSig { idle with len := 2 } [freal 3, freal 1]) 0x40) = some [some (freal 4), some (freal 2)] ∧
    sigAfter 2 (run (withSig { idle with len := 2 } [freal 4, freal 2]) 0x140) = some [some (freal 3), some (freal 1)] := by
  decide +kernel

/-- V47b, V49e: the errors of RMIX. -/
theorem test_rmix_errors :
    statusAfter idle 0x40 = some (3, 0x18, false) ∧ statusAfter { idle with len := 3 } 0x40 = some (2, 3, false) := by
  decide +kernel

/-! The host. -/

/-- What the host reads from a register. -/
def readAfter (s : State) (offset : Nat) : Option Word64 :=
  (nextState (step (pending s (.regRead offset 64)))).map State.rdData

/-- V70, V71: registers after reset. -/
theorem test_reset_registers :
    readAfter idle 0x00 = some 0x0000000746465443 ∧ readAfter idle 0x10 = some 0 ∧ readAfter idle 0xB0 = some 64 ∧
    readAfter idle 0xD8 = some 0 ∧ readAfter idle 0x48 = some 0 := by decide +kernel

/-- V13: bits [63:32] of the word written to CMD are ignored. -/
theorem test_issue :
    (nextState (step (pending idle (.regWrite 0x08 64 0xFFFFFFFF00000001)))).map State.running = some (some 1) := by
  decide +kernel

/-- V14, V66: a write of LEN while BUSY = 1 is dropped, with OVERRUN set. -/
theorem test_overrun :
    (nextState (step (pending (idle.issue 0x50) (.regWrite 0x18 64 5)))).map
      (fun t => (t.len, t.overrun, t.running)) = some (0, true, some 0x50) := by decide +kernel

/-- V66b. -/
theorem test_overrun_clear :
    (nextState (step (pending { idle with overrun := true, done := true } (.regWrite 0x10 64 4)))).map State.statusWord =
      some 2 := by decide +kernel

/-- V56: the window on elements that hold no value, beyond the workspace, and closed; and one component written alone. -/
theorem test_window :
    faultOf (step (pending (withWs idle 2 []) (.regRead 0xC8 64))) = some (.recorded [⟨.uninit .ws 0, none⟩]) ∧
    readAfter { withWs idle 2 [] with wsIdx := 12 } 0xC8 = some 0 ∧ readAfter idle 0xC8 = some 0 ∧
    (nextState (step (pending { withWs idle 2 [] with wsIdx := 3 } (.regWrite 0xC8 64 fOne)))).map
      (fun t => (cellGet t.mem.wsRe 3, cellGet t.mem.wsIm 3)) = some (some fOne, none) := by decide +kernel

/-- V75: a read of a running command's buffer gives some value (20_memory R74 c); a write into it is a race, which leaves
words without a value as they are and is marked, and one outside it is no race. -/
theorem test_busy_buffer :
    (nextState (step (pending ({ idle with len := 2 }.issue 0x01) (.sigRead 0)))).isSome = true ∧
    (nextState (step (pending ({ idle with len := 2 }.issue 0x01) (.sigWrite 3 0)))).map
      (fun t => ((cellGet t.mem.sig 3).isSome, cellGet t.mem.sig 2, t.raced, t.busy)) = some (true, none, true, true) ∧
    (nextState (step (pending ({ idle with len := 2 }.issue 0x01) (.sigWrite 4 7)))).map (cellGet ·.mem.sig 4) =
      some (some 7) := by decide +kernel

/-- A command with which the host raced ends with some value in its buffer, and its race is over (93_implementation_defined
I7): NORMN with N = 1. -/
theorem test_race_settles :
    (nextState (step { (withWs (withSig idle [freal 5, freal 3]) 1 []).issue 0x36 with raced := true })).map
      (fun t => (t.busy, t.raced, (cellGet t.mem.sig 0).isSome, (cellGet t.mem.sig 1).isSome, cellGet t.mem.sig 2)) =
      some (false, false, true, true, none) := by decide +kernel

/-- V72: a reset during a command leaves the words outside its buffer. -/
theorem test_reset_busy :
    (nextState (step (pending ((withSig { idle with len := 1 } [1, 2, 3]).issue 0x01) .reset))).map
      (fun t => (t.busy, t.len, (cellGet t.mem.sig 0).isSome, cellGet t.mem.sig 2)) = some (false, 0, true, some 3) := by
  decide +kernel

/-- 30_encoding R105: a poll runs the command, then reads STATUS. -/
theorem test_poll :
    (nextState (step { idle.issue 0x50 with inputs := [.poll] })).map (fun t => (t.busy, t.inputs)) =
      some (false, [.poll]) ∧
    (nextState (step { idle with done := true, inputs := [.poll] })).map (fun t => (t.rdData, t.inputs)) = some (2, []) := by
  decide +kernel

/-- The word placed by `withFetchWord` is run by the first step after reset. -/
theorem test_first_step : (nextState (step (State.reset.withFetchWord 32 0x11))).map (fun t => (t.busy, t.done, t.err)) =
    some (false, true, 0) := by decide +kernel

/-! Witnesses: for each statement with hypotheses, states and operands that meet them, clause by clause. -/

/-- A workspace for N = 1, where every element and the two signal words hold values. -/
def full1 : State := withWs (withSig idle [freal 5, freal 3]) 1 [re 1, re 2, re 3, re 4, re 5, re 6]

/-- A workspace for N = 2, where every element and the four signal words hold values. -/
def full2 : State :=
  withWs (withSig idle (reals [1, 2])) 2
    [re 1, ⟨fZero, fneg fOne⟩, re 3, re 4, re 5, re 6, re 7, re 8, re 9, re 10, re 11, re 12]

/-- FFT2 on four workspace elements, and on two signal elements; the table at 8. -/
def fourWs : State := sized full2 4 1 0 8
def twoSig : State := sized full2 2 1 0 8

theorem witness_DecodeEncodeRoundTrip : (Instr.fft2 .inverse ⟨true, true, true, true⟩ .ws).wf = true := by decide

theorem witness_EncodeDecodeRoundTrip : decode 0x00005F20 = .ok (.fft2 .inverse ⟨true, true, true, true⟩ .ws) := by decide

theorem witness_DecodeAgreesWithMaskMatch :
    decode 0x00000140 = .ok (.rmix .inverse) ∧ ∃ r ∈ maskTable, (0x00000140 : Word32) &&& r.mask = r.pattern := by
  refine ⟨by decide, .d 0x40, by decide, by decide⟩

theorem witness_IllegalWordRaises :
    (idle.issue 0x1020).running = some 0x1020 ∧ (idle.issue 0x1020).inputs = [] ∧
    (pending (idle.issue 0x1020) .poll).inputs = .poll :: [] ∧
    (pending (idle.issue 0x1020) .engine).inputs = .engine :: [] ∧
    decode 0x1020 = .error .normForward := by decide +kernel

theorem witness_AssemblerRoundTrip :
    (Instr.fft2 .inverse ⟨true, false, false, true⟩ .sig).wf = true ∧
    assemble ⟨"fft2", some .inverse, some (.sig, [.nm, .br])⟩ = .ok (.fft2 .inverse ⟨true, false, false, true⟩ .sig) ∧
    (∀ i : Instr, (disassemble i).mnemonic ≠ "dct") ∧
    (pending idle (issueStatement .pmul)).busy = false ∧
    (pending idle (issueStatement .pmul)).inputs = issueStatement .pmul :: [] := by
  refine ⟨by decide, by decide +kernel, fun i => ?_, by decide, rfl⟩
  cases i <;> simp [disassemble]

/-- The engine's turns, without a race and with one (NORMN and UNINIT among the answers), and a poll with nothing running. -/
theorem witness_StepRunsDecodedInstruction :
    (idle.issue 0x50).running = some 0x50 ∧ decode 0x50 = .ok .cadd ∧ (idle.issue 0x50).inputs = [] ∧
    { idle.issue 0x50 with inputs := [.poll] }.inputs = .poll :: [] ∧
    { idle.issue 0x50 with inputs := [.engine] }.inputs = .engine :: [] ∧ idle.running = none ∧ idle.inputs = [] ∧
    (idle.issue 0x50).raced = false ∧ { full1.issue 0x36 with raced := true }.raced = true ∧
    (nextState (exec .normn { full1.issue 0x36 with raced := true })).isSome = true ∧
    (faultOf (exec .normn { withWs idle 1 [] with raced := true })).isSome = true ∧
    (pending idle .poll).running = none ∧ (pending idle .poll).inputs = .poll :: [] ∧
    (pending idle .engine).inputs = .engine :: [] := by
  decide +kernel

theorem witness_CmdWriteIssues :
    (pending idle (.regWrite 0x08 64 1)).busy = false ∧
    (pending idle (.regWrite 0x08 64 1)).inputs = .regWrite 0x08 64 1 :: [] ∧
    (let s := { twoSig with inputs := [.regWrite 0x08 64 0x0220] }
     decode 0x0220 = .ok (.fft2 .forward ⟨true, false, false, false⟩ .sig) ∧ s.bufferOf 0x0220 = some (0, 4)) ∧
    (pending idle (.regRead 0x08 64)).inputs = .regRead 0x08 64 :: [] ∧
    (pending (idle.issue 1) (.regWrite 0x08 64 1)).busy = true ∧
    (pending (idle.issue 1) (.regWrite 0x08 64 1)).inputs = .regWrite 0x08 64 1 :: [] := by decide +kernel

/-- An issue, a completion, a reset and another move. -/
theorem witness_BusyChangesOnlyAtIssueAndCompletion :
    (∃ t, step (pending idle (.regWrite 0x08 64 1)) = .next t) ∧ (∃ t, step (idle.issue 0x50) = .next t) ∧
    (∃ t, step (pending (idle.issue 0x50) .reset) = .next t) ∧ (∃ t, step (pending idle (.regRead 0 64)) = .next t) ∧
    ((idle.issue 0x50).busy = true ∧ (idle.issue 0x50).EngineTurn ∧ ∃ t, step (idle.issue 0x50) = .next t) ∧
    ((pending (idle.issue 0x50) .engine).EngineTurn ∧ ∃ t, step (pending (idle.issue 0x50) .engine) = .next t) ∧
    (pending idle (.regWrite 0x08 64 1)).busy = false ∧
    (pending idle (.regWrite 0x08 64 1)).inputs = .regWrite 0x08 64 1 :: [] :=
  ⟨exists_next (by decide +kernel), exists_next (by decide +kernel), exists_next (by decide +kernel),
    exists_next (by decide +kernel), ⟨rfl, .inl rfl, exists_next (by decide +kernel)⟩,
    ⟨.inr ⟨[], .inr rfl⟩, exists_next (by decide +kernel)⟩, rfl, rfl⟩

theorem witness_WritesWhileBusyDropped :
    (pending (idle.issue 0x50) (.regWrite 0xD0 64 1)).busy = true ∧ 0xD0 ∈ busyOffsets ∧ 0x08 ∈ busyOffsets ∧
    (pending (idle.issue 0x50) (.regWrite 0xD0 64 1)).inputs = .regWrite 0xD0 64 1 :: [] ∧
    registerAt 0x18 64 = some .len ∧ (pending (idle.issue 0x50) (.regRead 0x18 64)).readReg .len = .ok 0 ∧
    (pending (idle.issue 0x50) (.regRead 0x18 64)).inputs = .regRead 0x18 64 :: [] := by decide +kernel

/-- OVERRUN cleared by the host, cleared by the reset, set, and kept. -/
theorem witness_OverrunIsSticky :
    (∃ t, step (pending { idle with overrun := true } (.regWrite 0x10 64 4)) = .next t) ∧
    (∃ t, step (pending { idle with overrun := true } .reset) = .next t) ∧
    (∃ t, step (pending (idle.issue 0x50) (.regWrite 0x18 64 1)) = .next t) ∧
    ∃ t, step (pending { idle with overrun := true } (.regWrite 0x10 64 3)) = .next t :=
  ⟨exists_next (by decide +kernel), exists_next (by decide +kernel), exists_next (by decide +kernel),
    exists_next (by decide +kernel)⟩

theorem witness_StatusFields :
    (pending idle (.regRead 0x10 64)).inputs = .regRead 0x10 64 :: [] ∧
    (pending idle (.regWrite 0x10 64 4)).inputs = .regWrite 0x10 64 4 :: [] := by decide +kernel

theorem witness_ReadWriteRegisters :
    (pending idle (.regWrite 0xC0 64 0xFFFFFFFFFFFFFFFF)).busy = false ∧
    (pending idle (.regWrite 0xC0 64 0xFFFFFFFFFFFFFFFF)).inputs = .regWrite 0xC0 64 0xFFFFFFFFFFFFFFFF :: [] ∧
    (pending idle (.regRead 0x18 64)).inputs = .regRead 0x18 64 :: [] := by decide +kernel

/-- A read, an ignored write, and the refused accesses: a 32-bit one, and one at an offset not a multiple of 8. -/
theorem witness_ReadOnlyRegisters :
    (pending idle (.regRead 0x00 64)).inputs = .regRead 0x00 64 :: [] ∧
    (pending idle (.regWrite 0xF8 64 5)).inputs = .regWrite 0xF8 64 5 :: [] ∧
    ((32 ≠ 64 ∨ 0x18 % 8 ≠ 0) ∧ (pending idle (.regWrite 0x18 32 5)).inputs = .regWrite 0x18 32 5 :: []) ∧
    ((64 ≠ 64 ∨ 0x1C % 8 ≠ 0) ∧ (pending idle (.regRead 0x1C 64)).inputs = .regRead 0x1C 64 :: []) := by decide +kernel

/-- The window open on the last element, with a value and without, and closed one element further; a read and a write. -/
theorem witness_WindowAccess :
    (let s := pending { full2 with wsIdx := 11 } (.regRead 0xC8 64)
     s.inputs = .regRead 0xC8 64 :: [] ∧ (s.wsValid = true ∧ s.wsIdx.toNat < s.wsLen) ∧
       cellGet s.mem.wsRe s.wsIdx.toNat = some (freal 12)) ∧
    (let s := pending { withWs idle 2 [] with wsIdx := 11 } (.regRead 0xD0 64)
     (s.wsValid = true ∧ s.wsIdx.toNat < s.wsLen) ∧ cellGet s.mem.wsIm s.wsIdx.toNat = none) ∧
    (let s := pending { full2 with wsIdx := 12 } (.regWrite 0xC8 64 1)
     s.busy = false ∧ s.inputs = .regWrite 0xC8 64 1 :: [] ∧ ¬ (s.wsValid = true ∧ s.wsIdx.toNat < s.wsLen)) ∧
    (let s := pending { full2 with wsIdx := 0 } (.regWrite 0xD0 64 1)
     s.busy = false ∧ s.inputs = .regWrite 0xD0 64 1 :: [] ∧ s.wsValid = true ∧ s.wsIdx.toNat < s.wsLen) := by
  decide +kernel

theorem witness_ResetValues : (pending full2 .reset).running = none ∧ (pending full2 .reset).inputs = .reset :: [] := by
  decide +kernel

/-- A word of the buffer, and one outside it. -/
theorem witness_ResetDuringCommand :
    let s := pending (full2.issue 0x01) .reset
    s.running = some 0x01 ∧ s.inputs = .reset :: [] ∧ s.bufferOf 0x01 = some (0, 4) := by decide +kernel

/-- A word that does not exist, one in the buffer of a command not seen complete, and words outside it, with and without a
value; and the read of STATUS that ends the handshake. -/
theorem witness_SignalMemoryAccess :
    (let s := pending idle (.sigWrite 64 0)
     s.inputs = .sigWrite 64 0 :: [] ∧ s.cfg.sigWords ≤ 64) ∧
    (let s := pending (full2.issue 0x01) (.sigWrite 3 0)
     3 < s.cfg.sigWords ∧ s.inUnseen 3 = true ∧ s.running = some 0x01 ∧ s.bufferOf 0x01 = some (0, 4)) ∧
    (let s := pending { full2.issue 0x01 with running := none } (.sigWrite 0 0)
     0 < s.cfg.sigWords ∧ s.inUnseen 0 = true) ∧
    (let s := pending (full2.issue 0x01) (.sigWrite 4 0)
     4 < s.cfg.sigWords ∧ s.inUnseen 4 = false) ∧
    (let s := pending full2 (.sigRead 3)
     s.inputs = .sigRead 3 :: [] ∧ s.inUnseen 3 = false ∧ cellGet s.mem.sig 3 = some fZero) ∧
    (let s := pending full2 (.sigRead 63)
     63 < s.cfg.sigWords ∧ s.inUnseen 63 = false ∧ cellGet s.mem.sig 63 = none) ∧
    (let s := pending { full2.issue 0x01 with running := none } (.regRead 0x10 64)
     s.inputs = .regRead 0x10 64 :: [] ∧ s.busy = false ∧ (nextState (step s)).isSome = true) ∧
    (let s := pending { full2.issue 0x01 with running := none } .poll
     s.inputs = .poll :: [] ∧ s.busy = false ∧ (nextState (step s)).isSome = true) := by decide +kernel

/-- The invariant holds in a state with a workspace, memory, and a command running. -/
theorem full1_inv : Inv (full1.issue 0x30) :=
  ⟨by decide +kernel, by decide +kernel, by decide +kernel, by decide +kernel, by decide +kernel, by decide +kernel,
    by decide +kernel⟩

theorem witness_StepKeepsInv : Inv (full1.issue 0x30) ∧ ∃ t, step (full1.issue 0x30) = .next t :=
  ⟨full1_inv, exists_next (by decide +kernel)⟩

/-- Commands of each class, with a next state. -/
theorem witness_CommandFrame :
    (∃ t, exec (.czt .forward) full1 = .next t) ∧ (Instr.czt .forward).isAlu = false ∧ (Instr.czt .forward).allocates = false ∧
    (∃ t, exec .pmul full1 = .next t) ∧ Instr.pmul.writesSig = false ∧
    (∃ t, exec .recover full1 = .next t) ∧ Instr.recover.writesWs = false :=
  ⟨exists_next (by decide +kernel), rfl, rfl, exists_next (by decide +kernel), rfl, exists_next (by decide +kernel), rfl⟩

/-- A completion and an error, with ALLOC_NONDET false. -/
theorem witness_ErrorsChangeOnlyStatus :
    (∃ t, exec .pmul full1 = .next t ∧ t.err = 0) ∧ (∃ t, exec .wsalloc full1 = .next t ∧ t.err ≠ 0) ∧
    full1.cfg.allocNondet = false :=
  ⟨⟨_, next_of (t := (nextState (exec .pmul full1)).getD idle) (by decide +kernel), by decide +kernel⟩,
    ⟨_, next_of (t := (nextState (exec .wsalloc full1)).getD idle) (by decide +kernel), by decide +kernel⟩, rfl⟩

theorem witness_CommandsStopOnlyOnUninit : ∃ t, step (full1.issue 0x30) = .next t := exists_next (by decide +kernel)

/-- A workspace for N = 1 in which only the first element, and a signal memory in which only the first word, holds a value. -/
def half1 : State := withWs (withSig idle [freal 5]) 1 [re 1]

theorem half1_ready (touches : Bool) : BluesteinReady half1 touches :=
  ⟨by decide +kernel, by decide +kernel, by decide +kernel, by decide +kernel, fun _ => by decide +kernel⟩

/-- The last word or element that a command reads holds no value. -/
theorem witness_CommandsStopOnlyOnUninit_steps :
    BluesteinReady half1 true ∧ BluesteinReady half1 false ∧ ¬ SigReady half1.mem 0 2 ∧ ¬ WsReady half1.mem 0 2 ∧
    ¬ WsReady half1.mem 1 4 ∧ BluesteinReady (withWs idle 1 []) false ∧ ¬ WsReady (withWs idle 1 []).mem 0 1 := by
  refine ⟨half1_ready _, half1_ready _, by unfold SigReady; decide +kernel, by unfold WsReady; decide +kernel,
    by unfold WsReady; decide +kernel, ⟨by decide +kernel, by decide +kernel, by decide +kernel, by decide +kernel,
    fun h => by cases h⟩, by unfold WsReady; decide +kernel⟩

theorem witness_CommandsStopOnlyOnUninit_drivers :
    let s := { withSig idle [freal 1] with len := 2 }
    FftReady s ∧ ¬ SigReady s.mem 0 4 ∧ RfftReady s ∧ RmixReady s ∧ ¬ SigReady s.mem 0 2 := by
  refine ⟨⟨by decide +kernel, by decide +kernel, by decide +kernel, by decide +kernel, by decide +kernel⟩,
    by unfold SigReady; decide +kernel,
    ⟨⟨by decide +kernel, by decide +kernel, by decide +kernel, by decide +kernel⟩, by decide +kernel, by decide +kernel⟩,
    ⟨by decide +kernel, by decide +kernel, by decide +kernel, by decide +kernel⟩, by unfold SigReady; decide +kernel⟩

/-- FFT2 on four workspace elements of which the first two hold values, with a table of which the first entry does. -/
def halfWs : State := sized (withWs idle 2 [re 1, re 2]) 4 1 0 1

theorem witness_CommandsStopOnlyOnUninit_fft2 :
    Fft2Ready halfWs ⟨true, false, false, true⟩ .ws ∧ halfWs.operands.size = 2 ^ 2 ∧
    (∀ c, dataRead .ws halfWs.operands halfWs.mem 2 ≠ .ok c) ∧ bitRev 2 2 ≠ 2 ∧
    Fft2Ready { halfWs with dbase := 8 } ⟨false, false, true, false⟩ .ws ∧
    ¬ WsReady halfWs.mem halfWs.operands.tbase (halfWs.operands.size / 2) := by
  have h : dataRead .ws halfWs.operands halfWs.mem 2 = .error (.uninit .ws 2) := by decide +kernel
  refine ⟨⟨by unfold fft2WsOk; decide +kernel, ⟨2, by decide, by decide +kernel⟩, by unfold fft2StrideOk; decide +kernel,
    by unfold fft2DataOk; decide +kernel, by unfold fft2TableOk; decide +kernel, by unfold fft2ApartOk; decide +kernel⟩,
    by decide +kernel, fun c => by rw [h]; simp, by decide,
    ⟨by unfold fft2WsOk; decide +kernel, ⟨2, by decide, by decide +kernel⟩, by unfold fft2StrideOk; decide +kernel,
    by unfold fft2DataOk; decide +kernel, by unfold fft2TableOk; decide +kernel, by unfold fft2ApartOk; decide +kernel⟩,
    by unfold WsReady; decide +kernel⟩

/-- V39h, V59 and the like: NORMN, PMUL and `czt.f` on what holds no value record the fault (60_exceptions R270). -/
theorem test_uninit :
    faultOf (exec .normn half1) = some (.recorded [⟨.uninit .sig 1, some 0x36⟩]) ∧
    faultOf (exec (.czt .forward) half1) = some (.recorded [⟨.uninit .sig 1, some 0x30⟩]) ∧
    faultOf (exec .pmul half1) = some (.recorded [⟨.uninit .ws 1, some 0x34⟩]) := by decide +kernel

/-- A command that keeps the workspace, the engine's WSFREE, and a reset. -/
theorem witness_WorkspaceFixedUntilFreed :
    full1.wsValid = true ∧ (∃ t, step (full1.issue 0x34) = .next t) ∧ (∃ t, step (full1.issue 0x11) = .next t) ∧
    ∃ t, step (pending full1 .reset) = .next t :=
  ⟨rfl, exists_next (by decide +kernel), exists_next (by decide +kernel), exists_next (by decide +kernel)⟩

/-- Each check at its boundary, and all of them passed. -/
theorem witness_BluesteinErrors :
    Instr.bluestein .chirpmul = some true ∧ idle.len.toNat = 0 ∧
    nMax < { idle with len := 0x20000001 }.len.toNat ∧
    (let s := { full2 with len := 0x20000000 }
     1 ≤ s.len.toNat ∧ s.len.toNat ≤ nMax ∧ (s.wsValid = false ∨ s.wsN ≠ s.len)) ∧
    (let s := { full2 with sigBase := 61 }
     1 ≤ s.len.toNat ∧ s.len.toNat ≤ nMax ∧ s.wsValid = true ∧ s.wsN = s.len ∧
       s.cfg.sigWords < s.sigBase.toNat + 2 * s.len.toNat) := by decide +kernel

theorem full2_ready : BluesteinReady full2 true :=
  ⟨by decide +kernel, by decide +kernel, by decide +kernel, by decide +kernel, by decide +kernel⟩

theorem full2_ready_ws : BluesteinReady full2 false :=
  ⟨by decide +kernel, by decide +kernel, by decide +kernel, by decide +kernel, by decide +kernel⟩

theorem full1_ready : BluesteinReady full1 true :=
  ⟨by decide +kernel, by decide +kernel, by decide +kernel, by decide +kernel, by decide +kernel⟩

theorem witness_BluesteinErrors_pass : BluesteinReady full1 true ∧ ∃ t, exec (.czt .forward) full1 = .next t :=
  ⟨full1_ready, exists_next (by decide +kernel)⟩

/-- The plan BR+TW+BF on workspace data. -/
abbrev wsPlan : Plan := ⟨true, true, true, false⟩

theorem fourWs_ready : Fft2Ready fourWs wsPlan .ws :=
  ⟨by unfold fft2WsOk; decide +kernel, ⟨2, by decide, by decide +kernel⟩, by unfold fft2StrideOk; decide +kernel,
    by unfold fft2DataOk; decide +kernel, by unfold fft2TableOk; decide +kernel, by unfold fft2ApartOk; decide +kernel⟩

/-- Each check failing with those before it passed: no workspace, SIZE = 3, STRIDE = 0, data one element too far, table one
element too far, table under the last data element. -/
theorem witness_Fft2Errors_allocated :
    ¬ fft2WsOk (sized idle 4 1 0 8) wsPlan .ws :=
  by unfold fft2WsOk; decide +kernel

theorem witness_Fft2Errors_size :
    fft2WsOk (sized full2 3 1 0 8) wsPlan .ws ∧ ¬ fft2SizeOk (sized full2 3 1 0 8) :=
  ⟨by unfold fft2WsOk; decide +kernel,
    fun ⟨b, hb, h⟩ => (by decide +kernel : ∀ b, b ≤ 30 → (sized full2 3 1 0 8).size.toNat ≠ 2 ^ b) b hb h⟩

theorem witness_Fft2Errors_stride :
    fft2WsOk (sized full2 4 0 0 8) wsPlan .ws ∧ fft2SizeOk (sized full2 4 0 0 8) ∧
    ¬ fft2StrideOk (sized full2 4 0 0 8) wsPlan :=
  ⟨by unfold fft2WsOk; decide +kernel, ⟨2, by decide, by decide +kernel⟩, by unfold fft2StrideOk; decide +kernel⟩

theorem witness_Fft2Errors_data :
    fft2WsOk (sized full2 4 1 9 0) wsPlan .ws ∧ fft2SizeOk (sized full2 4 1 9 0) ∧
    fft2StrideOk (sized full2 4 1 9 0) wsPlan ∧ ¬ fft2DataOk (sized full2 4 1 9 0) wsPlan .ws :=
  ⟨by unfold fft2WsOk; decide +kernel, ⟨2, by decide, by decide +kernel⟩, by unfold fft2StrideOk; decide +kernel,
    by unfold fft2DataOk; decide +kernel⟩

theorem witness_Fft2Errors_table :
    fft2WsOk (sized full2 4 1 0 11) wsPlan .ws ∧ fft2SizeOk (sized full2 4 1 0 11) ∧
    fft2StrideOk (sized full2 4 1 0 11) wsPlan ∧ fft2DataOk (sized full2 4 1 0 11) wsPlan .ws ∧
    ¬ fft2TableOk (sized full2 4 1 0 11) wsPlan :=
  ⟨by unfold fft2WsOk; decide +kernel, ⟨2, by decide, by decide +kernel⟩, by unfold fft2StrideOk; decide +kernel,
    by unfold fft2DataOk; decide +kernel, by unfold fft2TableOk; decide +kernel⟩

theorem witness_Fft2Errors_apart :
    fft2WsOk (sized full2 4 1 0 3) wsPlan .ws ∧ fft2SizeOk (sized full2 4 1 0 3) ∧
    fft2StrideOk (sized full2 4 1 0 3) wsPlan ∧ fft2DataOk (sized full2 4 1 0 3) wsPlan .ws ∧
    fft2TableOk (sized full2 4 1 0 3) wsPlan ∧ ¬ fft2ApartOk (sized full2 4 1 0 3) wsPlan .ws :=
  ⟨by unfold fft2WsOk; decide +kernel, ⟨2, by decide, by decide +kernel⟩, by unfold fft2StrideOk; decide +kernel,
    by unfold fft2DataOk; decide +kernel, by unfold fft2TableOk; decide +kernel,
    by unfold fft2ApartOk; decide +kernel⟩

theorem witness_Fft2Errors_pass :
    Fft2Ready fourWs wsPlan .ws ∧ ∃ t, exec (.fft2 .forward wsPlan .ws) fourWs = .next t :=
  ⟨fourWs_ready, exists_next (by decide +kernel)⟩

theorem witness_OddLengthFirst : { idle with len := 0xFFFFFFFF }.len.toNat % 2 = 1 := by decide +kernel

/-- Each check at its boundary: LEN 0 and N_MAX + 1 (for RFFT the even N_MAX + 2), a workspace left, a buffer one word too
long, and a workspace one element above the capacity. -/
theorem witness_DriverErrors :
    idle.len.toNat = 0 ∧ nMax < { idle with len := 0x20000001 }.len.toNat ∧
    (nMax < { idle with len := 0x20000002 }.len.toNat ∧ { idle with len := 0x20000002 }.len.toNat % 2 = 0) ∧
    (1 ≤ full2.len.toNat ∧ full2.len.toNat ≤ nMax ∧ full2.wsValid = true ∧ full2.len.toNat % 2 = 0) ∧
    (let s := { idle with len := 2, sigBase := 63 }
     1 ≤ s.len.toNat ∧ s.len.toNat ≤ nMax ∧ s.len.toNat % 2 = 0 ∧ s.wsValid = false ∧
       s.cfg.sigWords < s.sigBase.toNat + 2 * s.len.toNat ∧ s.cfg.sigWords < s.sigBase.toNat + s.len.toNat) ∧
    (let s := { idle with len := 2, cfg := { cfg with wsCapacity := 11 } }
     1 ≤ s.len.toNat ∧ s.len.toNat ≤ nMax ∧ s.wsValid = false ∧ s.sigBase.toNat + 2 * s.len.toNat ≤ s.cfg.sigWords ∧
       s.allocOk (wsLength s.len.toNat) = false) ∧
    (let s := { idle with len := 2, cfg := { cfg with wsCapacity := 5 } }
     1 ≤ s.len.toNat ∧ s.len.toNat ≤ nMax ∧ s.len.toNat % 2 = 0 ∧ s.wsValid = false ∧
       s.sigBase.toNat + s.len.toNat ≤ s.cfg.sigWords ∧ s.allocOk (wsLength (s.len.toNat / 2)) = false) := by
  decide +kernel

/-- Finite values whose sum and difference overflow, opposite and equal infinities, a finite value. -/
theorem witness_CaddCsubResult :
    (fIsFinite 0x7FEFFFFFFFFFFFFF = true ∧
      (2 ^ 54 - 1) * 2 ^ 2044 ≤ (fUnits 0x7FEFFFFFFFFFFFFF + fUnits 0x7FEFFFFFFFFFFFFF).natAbs ∧
      (2 ^ 54 - 1) * 2 ^ 2044 ≤ (fUnits 0x7FEFFFFFFFFFFFFF - fUnits 0xFFEFFFFFFFFFFFFF).natAbs) ∧
    (fIsInf 0x7FF0000000000000 = true ∧ fIsInf 0xFFF0000000000000 = true ∧
      fSign 0x7FF0000000000000 ≠ fSign 0xFFF0000000000000) ∧
    fSign 0x7FF0000000000000 = fSign 0x7FF0000000000000 ∧ fIsFinite fOne = true := by decide +kernel

theorem witness_CmulResult : fIsInf 0xFFF0000000000000 = true ∧ fIsZero 0x8000000000000000 = true := by decide +kernel

/-- A zero, a NaN and a nonzero value over +0; a finite value over (+0, -0). -/
theorem witness_CdivResult :
    fIsZero 0x8000000000000000 = true ∧ fIsNaN 0x7FF8000000000000 = true ∧
    (fIsZero 0xFFF0000000000000 = false ∧ fIsNaN 0xFFF0000000000000 = false) ∧
    (fIsFinite fOne = true ∧ fIsFinite 0x8000000000000000 = true ∧ fIsZero fZero = true ∧
      fIsZero 0x8000000000000000 = true) := by decide +kernel

theorem witness_ArithmeticRoundsToNearestEven :
    fIsFinite 0x0000000000000001 = true ∧ fIsFinite 0x7FEFFFFFFFFFFFFF = true ∧
    fUnits 0x0000000000000001 + fUnits 0x7FEFFFFFFFFFFFFF ≠ 0 ∧ fIsZero 0x0000000000000001 = false ∧
    9007199254740992 ≤ 2 ^ 53 := by decide +kernel

/-- The special operands of each clause: zero sums of both kinds, a NaN, infinities, a zero. -/
theorem witness_ArithmeticRoundsToNearestEven_special :
    fUnits 0x8000000000000000 + fUnits 0x8000000000000000 = 0 ∧ fUnits fOne + fUnits (fneg fOne) = 0 ∧
    fUnits fOne - fUnits fOne = 0 ∧ fIsFinite 0x8000000000000000 = true ∧ fIsNaN 0x7FF0000000000001 = true ∧
    fIsInf 0xFFF0000000000000 = true ∧ fIsInf 0x7FF0000000000000 = true ∧ fIsZero 0x8000000000000000 = true := by
  decide +kernel

/-- V16b, and 00_scope R10 on special operands, worked by hand. -/
theorem test_special_operands :
    fadd cfg 0x8000000000000000 0x8000000000000000 = 0x8000000000000000 ∧
    fadd cfg 0x7FF0000000000001 fOne = cfg.nanBits ∧ fsub cfg fOne 0x7FF0000000000000 = 0xFFF0000000000000 ∧
    fmul cfg 0x7FF0000000000000 (fneg fOne) = 0xFFF0000000000000 ∧ fdiv cfg fOne 0xFFF0000000000000 = 0x8000000000000000 ∧
    fhalf cfg 0x0000000000000003 = 0x0000000000000002 := by decide +kernel

theorem witness_TranscendentalProperties : fIsFinite 0x7FEFFFFFFFFFFFFF = true := by decide +kernel

theorem witness_CisProperties :
    1 ≤ 2 ^ 31 ∧ fIsFinite cfg.pi64 = true ∧ fSign cfg.pi64 = false ∧ cfg.pi64 = 0x400921FB54442D18 ∧
    fIsFinite (cisAngle cfg .forward 7 4) = true ∧ 7 < 2 * 4 ∧
    fIsFinite (fdiv cfg (fmul cfg cfg.pi64 (freal 7)) (freal 4)) = true := by decide +kernel

/-- Data in the workspace and data in the signal memory; the plan that reads a table it does not generate. -/
theorem witness_Fft2Completes :
    (Fft2Ready fourWs wsPlan .ws ∧ DataReady .ws fourWs.operands fourWs.mem) ∧
    (Fft2Ready twoSig ⟨true, false, true, false⟩ .sig ∧ DataReady .sig twoSig.operands twoSig.mem ∧
      WsReady twoSig.mem twoSig.operands.tbase (twoSig.operands.size / 2)) := by
  refine ⟨⟨fourWs_ready, ?_⟩, ⟨by unfold fft2WsOk; decide +kernel, ⟨1, by decide, by decide +kernel⟩,
    by unfold fft2StrideOk; decide +kernel, by unfold fft2DataOk; decide +kernel, by unfold fft2TableOk; decide +kernel,
    by unfold fft2ApartOk; decide +kernel⟩, ?_, by unfold WsReady; decide +kernel⟩
  · have h : ∀ e, e < fourWs.operands.size →
        dataRead .ws fourWs.operands fourWs.mem e = .ok ([re 1, ⟨fZero, fneg fOne⟩, re 3, re 4].getD e (re 0)) := by
      decide +kernel
    exact fun e he => ⟨_, h e he⟩
  · have h : ∀ e, e < twoSig.operands.size →
        dataRead .sig twoSig.operands twoSig.mem e = .ok ([re 1, re 2].getD e (re 0)) := by decide +kernel
    exact fun e he => ⟨_, h e he⟩

/-- The clause of the stages in turn: BR and BF on two signal elements, with a table of one entry. -/
theorem witness_Fft2Completes_stages :
    twoSig.operands.size = 2 ^ 1 ∧ planNeedsData ⟨true, false, true, false⟩ = true ∧
    (∀ e, e < twoSig.operands.size →
      dataRead .sig twoSig.operands twoSig.mem e = .ok ([re 1, re 2].getD e (re 0))) ∧
    ∀ k, k < twoSig.operands.size / 2 → twiddleRead twoSig.operands twoSig.mem k = .ok (re 9) := by decide +kernel

/-- BR alone on four workspace elements, of which only the two that move hold values. -/
theorem witness_Fft2BitReversal :
    let s := sized (withWs idle 2 [re 1, re 2, re 3, re 4]) 4 1 0 8
    Fft2Ready s ⟨true, false, false, false⟩ .ws ∧ s.size.toNat = 2 ^ 2 ∧
    (∀ e, e < s.operands.size → bitRev 2 e ≠ e → dataRead .ws s.operands s.mem e = .ok (re (e + 1))) ∧ 3 < 2 ^ 2 := by
  refine ⟨⟨by unfold fft2WsOk; decide +kernel, ⟨2, by decide, by decide +kernel⟩, by unfold fft2StrideOk; decide +kernel,
    by unfold fft2DataOk; decide +kernel, by unfold fft2TableOk; decide +kernel, by unfold fft2ApartOk; decide +kernel⟩,
    by decide +kernel, by decide +kernel, by decide⟩

theorem witness_Fft2TwiddleTable : Fft2Ready fourWs ⟨false, true, false, false⟩ .ws ∧ 1 < 2 ^ 2 / 2 :=
  ⟨⟨by unfold fft2WsOk; decide +kernel, ⟨2, by decide, by decide +kernel⟩, by unfold fft2StrideOk; decide +kernel,
    by unfold fft2DataOk; decide +kernel, by unfold fft2TableOk; decide +kernel, by unfold fft2ApartOk; decide +kernel⟩,
    by decide⟩

theorem witness_Fft2Butterfly :
    Fft2Ready fourWs ⟨false, false, true, false⟩ .ws ∧ fourWs.size.toNat = 2 ^ 2 ∧
    (∀ e, e < fourWs.operands.size →
      dataRead .ws fourWs.operands fourWs.mem e = .ok ([re 1, ⟨fZero, fneg fOne⟩, re 3, re 4].getD e (re 0))) ∧
    ∀ k, k < fourWs.operands.size / 2 → twiddleRead fourWs.operands fourWs.mem k = .ok (re (k + 9)) :=
  ⟨⟨by unfold fft2WsOk; decide +kernel, ⟨2, by decide, by decide +kernel⟩, by unfold fft2StrideOk; decide +kernel,
    by unfold fft2DataOk; decide +kernel, by unfold fft2TableOk; decide +kernel, by unfold fft2ApartOk; decide +kernel⟩,
    by decide +kernel, by decide +kernel, by decide +kernel⟩

theorem witness_Fft2Normalize :
    Fft2Ready twoSig ⟨false, false, false, true⟩ .sig ∧
    (∀ e, e < twoSig.operands.size → dataRead .sig twoSig.operands twoSig.mem e = .ok (re (e + 1))) ∧
    fIsFinite fOne = true ∧ 30 < fExp fOne :=
  ⟨⟨by unfold fft2WsOk; decide +kernel, ⟨1, by decide, by decide +kernel⟩, by unfold fft2StrideOk; decide +kernel,
    by unfold fft2DataOk; decide +kernel, by unfold fft2TableOk; decide +kernel, by unfold fft2ApartOk; decide +kernel⟩,
    by decide +kernel, by decide +kernel, by decide +kernel⟩

theorem witness_ChirpResult : BluesteinReady full2 false := full2_ready_ws

/-- The chirp factors that `full2` holds. -/
def chirps (k : Nat) : Cx F64 := if k = 0 then re 1 else ⟨fZero, fneg fOne⟩

theorem witness_ChirpmulResult :
    BluesteinReady full2 true ∧ (∀ k, k < full2.len.toNat → wsRead full2.mem k = .ok (chirps k)) ∧
    ∀ k, k < full2.len.toNat → sigCRead full2.mem full2.sigBase.toNat k = .ok (re (k + 1)) :=
  ⟨full2_ready, by decide +kernel, by decide +kernel⟩

theorem witness_KernelResult :
    BluesteinReady full2 false ∧ ∀ k, k < full2.len.toNat → wsRead full2.mem k = .ok (chirps k) :=
  ⟨full2_ready_ws, by decide +kernel⟩

theorem witness_PmulResult :
    BluesteinReady full2 false ∧
    (∀ k, k < largerSize full2.len.toNat → wsRead full2.mem (full2.len.toNat + k) = .ok (re (k + 3))) ∧
    ∀ k, k < largerSize full2.len.toNat →
      wsRead full2.mem (full2.len.toNat + largerSize full2.len.toNat + k) = .ok (re (k + 7)) :=
  ⟨full2_ready_ws, by decide +kernel, by decide +kernel⟩

theorem witness_RecoverResult :
    BluesteinReady full2 true ∧ (∀ k, k < full2.len.toNat → wsRead full2.mem k = .ok (chirps k)) ∧
    ∀ k, k < full2.len.toNat → wsRead full2.mem (full2.len.toNat + k) = .ok (re (k + 3)) :=
  ⟨full2_ready, by decide +kernel, by decide +kernel⟩

theorem witness_NormnResult :
    BluesteinReady full2 true ∧
    ∀ k, k < full2.len.toNat → sigCRead full2.mem full2.sigBase.toNat k = .ok (re (k + 1)) :=
  ⟨full2_ready, by decide +kernel⟩

theorem witness_CztCompletes :
    BluesteinReady full2 true ∧ SigReady full2.mem full2.sigBase.toNat (2 * full2.len.toNat) :=
  ⟨full2_ready, by unfold SigReady; decide +kernel⟩

theorem witness_CztRunsTheSteps : BluesteinReady full1 true ∧ (∃ t, exec (.czt .inverse) full1 = .next t) :=
  ⟨full1_ready, exists_next (by decide +kernel)⟩

theorem witness_WorkspaceGeometry : 1 ≤ nMax ∧ nMax ≤ nMax := by decide

/-- An allocation that fills the capacity, and a length one element above it. -/
theorem witness_WsallocResult :
    let s := { idle with len := 2, cfg := { cfg with wsCapacity := 12 } }
    1 ≤ s.len.toNat ∧ s.len.toNat ≤ nMax ∧ s.wsValid = false ∧ s.allocOk (wsLength s.len.toNat) = true ∧
    s.cfg.wsCapacity < 13 ∧ s.cfg.allocNondet = false ∧ 12 ≤ s.cfg.wsCapacity := by decide +kernel

/-- The state `full2` with its buffer and no workspace. -/
def ready2 : State := { withSig idle (reals [1, 2]) with len := 2 }

theorem witness_FftCompletes : FftReady ready2 ∧ SigReady ready2.mem ready2.sigBase.toNat (2 * ready2.len.toNat) :=
  ⟨⟨by decide +kernel, by decide +kernel, by decide +kernel, by decide +kernel, by decide +kernel⟩,
    by unfold SigReady; decide +kernel⟩

/-- N = 4 reals. -/
def ready4 : State := { withSig idle [freal 1, freal 2, freal 3, freal 4] with len := 4 }

theorem witness_RmixResult :
    RmixReady ready4 ∧ ∀ k, k < ready4.len.toNat / 2 →
      sigCRead ready4.mem ready4.sigBase.toNat k = .ok ⟨freal (2 * k + 1), freal (2 * k + 2)⟩ :=
  ⟨⟨by decide +kernel, by decide +kernel, by decide +kernel, by decide +kernel⟩, by decide +kernel⟩

theorem witness_RfftCompletes : RfftReady ready4 ∧ SigReady ready4.mem ready4.sigBase.toNat ready4.len.toNat :=
  ⟨⟨⟨by decide +kernel, by decide +kernel, by decide +kernel, by decide +kernel⟩, by decide +kernel, by decide +kernel⟩,
    by unfold SigReady; decide +kernel⟩

/-! Witnesses over the reals. -/

/-- Two complex samples in the signal memory, and four elements and a table in the workspace. -/
noncomputable def realStore : Store ℝ :=
  ⟨[(0, 1), (1, 2), (2, 3), (3, 4)], [(0, 5), (1, 6), (8, (exactCis .forward 0 1).re)],
    [(0, 7), (1, 8), (8, (exactCis .forward 0 1).im)]⟩

theorem realStore_complex (n : Nat) (h : n ≤ 2) :
    HoldsComplex realStore 0 n (fun k => if k = 0 then ⟨1, 2⟩ else ⟨3, 4⟩) := by
  intro k hk
  obtain rfl | rfl : k = 0 ∨ k = 1 := by omega
  · exact ⟨⟨1, 2⟩, rfl, rfl⟩
  · exact ⟨⟨3, 4⟩, rfl, rfl⟩

theorem realStore_real : HoldsReal realStore 0 2 (fun k => if k = 0 then 1 else 2) := by
  intro k hk
  obtain rfl | rfl : k = 0 ∨ k = 1 := by omega
  · rfl
  · rfl

theorem witness_ExactFft2ComputesDft :
    let o : Operands := ⟨0, 2, 1, 0, 8, 0⟩
    o.size = 2 ^ 1 ∧ 1 ≤ o.stride ∧ (o.tbase + o.size / 2 ≤ o.dbase ∨ o.last < o.tbase) ∧
    DataHolds .ws o realStore (fun k => if k = 0 then ⟨5, 7⟩ else ⟨6, 8⟩) ∧
    ∀ k, k < o.size / 2 → twiddleRead o realStore k = .ok (exactCis .forward k (o.size / 2)) := by
  refine ⟨rfl, by decide, by decide, ?_, ?_⟩
  · intro k hk
    obtain rfl | rfl : k = 0 ∨ k = 1 := by simp only at hk; omega
    · exact ⟨⟨5, 7⟩, rfl, rfl⟩
    · exact ⟨⟨6, 8⟩, rfl, rfl⟩
  · intro k hk
    obtain rfl : k = 0 := by simp only at hk; omega
    rfl

theorem witness_ExactCztComputesDft : ∃ x, 1 ≤ 2 ∧ HoldsComplex realStore 0 2 x := ⟨_, by decide, realStore_complex 2 le_rfl⟩

theorem witness_ExactFftRoundTrip : ∃ x, 1 ≤ 2 ∧ HoldsComplex realStore 0 2 x := ⟨_, by decide, realStore_complex 2 le_rfl⟩

theorem witness_ExactRfftForward : ∃ x, 2 % 2 = 0 ∧ 2 ≤ 2 ∧ HoldsReal realStore 0 2 x :=
  ⟨_, by decide, by decide, realStore_real⟩

/-- A buffer that holds the packed spectrum of some reals, and one that holds reals. -/
theorem witness_ExactRfftInverse (x : Nat → ℝ) :
    2 % 2 = 0 ∧ 2 ≤ 2 ∧
    (∃ st : Store ℝ, HoldsComplex st 0 (2 / 2) (packedSpectrum 2 x)) ∧ ∃ y, HoldsReal realStore 0 2 y := by
  refine ⟨rfl, le_rfl, ⟨⟨[(0, (packedSpectrum 2 x 0).re), (1, (packedSpectrum 2 x 0).im)], [], []⟩, ?_⟩, _, realStore_real⟩
  intro k hk
  obtain rfl : k = 0 := by omega
  exact ⟨⟨(packedSpectrum 2 x 0).re, (packedSpectrum 2 x 0).im⟩, rfl, rfl⟩

end Sys2Proof.Tests
end

section
/-!
PROOFS. The workspace geometry: what Laws/Geometry.lean does not yet say of M, and the statement WorkspaceGeometry.
-/

namespace Sys2Proof.Machine

/-- 00_scope R16: no power of two that is at least 2N is below M. -/
theorem largerSize_le_of_two_mul_le {n k : Nat} (hn : 1 ≤ n) (h : 2 * n ≤ 2 ^ k) : largerSize n ≤ 2 ^ k := by
  have hlog : Nat.log2 (2 * n - 1) < k := (Nat.log2_lt (by omega)).2 (by omega)
  exact Nat.pow_le_pow_right (by decide) hlog

/-- 20_memory R70 a: the workspace of a legal length fits 32 bits. -/
theorem wsLength_lt {n : Nat} (h1 : 1 ≤ n) (hn : n ≤ nMax) : wsLength n < 2 ^ 32 := by
  have hM := largerSize_le h1 hn
  unfold nMax at hn
  unfold wsLength
  omega

end Sys2Proof.Machine

open Sys2Proof.Machine

/-- Settles O50: the laws of M (a power of two, at least 2N, below 4N, the least such), the regions as they are laid out, and
the 32-bit bounds for a legal length. -/
theorem workspaceGeometry : Obligations.WorkspaceGeometry := by
  intro n hn
  obtain ⟨k, hk⟩ := largerSize_pow n
  have hregion3 : region4 n = region3 n + largerSize n := by
    unfold region4 region3
    omega
  exact ⟨⟨_, hk⟩, two_mul_le_largerSize n, largerSize_lt hn, fun _ => largerSize_le_of_two_mul_le hn, rfl, rfl,
    (Nat.zero_add n).symm, rfl, hregion3, rfl, fun h => ⟨largerSize_le hn h, wsLength_lt hn h⟩⟩
end

section
/-!
PROOFS. IEEE rounding (00_scope R10): the integer nearest to a quotient, the fields and the magnitude of a packed value, and
that `roundUnits` answers the binary64 nearest to a quotient of units of 2^-1074, ties to even.
-/

namespace Sys2Proof.Machine

section Integer

/-- `roundHalfEven` answers the quotient or its successor, by where the remainder lies against half the divisor. -/
theorem roundHalfEven_cases (n d : Nat) :
    (roundHalfEven n d = n / d + 1 ∧ (d < 2 * (n % d) ∨ 2 * (n % d) = d ∧ n / d % 2 = 1)) ∨
    (roundHalfEven n d = n / d ∧ (2 * (n % d) < d ∨ 2 * (n % d) = d ∧ n / d % 2 = 0)) := by
  unfold roundHalfEven
  by_cases h : d < 2 * (n % d) ∨ 2 * (n % d) = d ∧ n / d % 2 = 1
  · exact .inl ⟨if_pos h, h⟩
  · exact .inr ⟨if_neg h, by omega⟩

/-- The rounded quotient is at least the even `m` from half a unit below `m` on. -/
theorem le_roundHalfEven_iff {n d m : Nat} (hd : 0 < d) (hm : m % 2 = 0) :
    m ≤ roundHalfEven n d ↔ (2 * m) * d ≤ 2 * n + d := by
  have hn : d * (n / d) + n % d = n := Nat.div_add_mod n d
  have hr : n % d < d := Nat.mod_lt n hd
  rcases Nat.lt_trichotomy m (n / d + 1) with hlt | heq | hgt
  · have hle : m * d ≤ n / d * d := Nat.mul_le_mul_right d (by omega)
    have hcases := roundHalfEven_cases n d
    refine iff_of_true (by omega) ?_
    rw [Nat.mul_assoc]
    rw [Nat.mul_comm d] at hn
    omega
  · subst heq
    have hcases := roundHalfEven_cases n d
    have hexp : 2 * (n / d + 1) * d = 2 * (d * (n / d)) + 2 * d := by ring
    omega
  · have hle : (n / d + 2) * d ≤ m * d := Nat.mul_le_mul_right d (by omega)
    have hcases := roundHalfEven_cases n d
    have hexp : (n / d + 2) * d = d * (n / d) + 2 * d := by ring
    refine iff_of_false (by omega) ?_
    rw [Nat.mul_assoc]
    omega

/-- A quotient without remainder is not rounded. -/
theorem roundHalfEven_of_eq_mul {n d m : Nat} (hd : 0 < d) (h : n = m * d) : roundHalfEven n d = m := by
  subst h
  have hcases := roundHalfEven_cases (m * d) d
  rw [Nat.mul_mod_left, Nat.mul_div_cancel m hd] at hcases
  omega

/-- No integer is nearer to `n / d` than the rounded quotient, and of two equally near the rounded one is even. -/
theorem roundHalfEven_nearest {n d : Nat} (hd : 0 < d) (m : Nat) :
    ((roundHalfEven n d * d : ℤ) - n).natAbs ≤ ((m * d : ℤ) - n).natAbs ∧
    (((roundHalfEven n d * d : ℤ) - n).natAbs = ((m * d : ℤ) - n).natAbs → m ≠ roundHalfEven n d →
      roundHalfEven n d % 2 = 0) := by
  have hn : n / d * d + n % d = n := Nat.div_add_mod' n d
  have hr : n % d < d := Nat.mod_lt n hd
  have hbelow : m < n / d → m * d + d ≤ n / d * d := fun h => by
    rw [← Nat.succ_mul]
    exact Nat.mul_le_mul_right d h
  have habove : n / d + 1 < m → n / d * d + d + d ≤ m * d := fun h => by
    rw [← Nat.succ_mul, ← Nat.succ_mul]
    exact Nat.mul_le_mul_right d h
  have hequal : m = n / d → m * d = n / d * d := fun h => by rw [h]
  have hnext : m = n / d + 1 → m * d = n / d * d + d := fun h => by rw [h, Nat.succ_mul]
  rcases roundHalfEven_cases n d with ⟨hq, hside⟩ | ⟨hq, hside⟩ <;> rw [hq, ← Nat.cast_mul, ← Nat.cast_mul]
  · have hqd : (n / d + 1) * d = n / d * d + d := Nat.succ_mul _ _
    omega
  · omega

end Integer

section Fields

@[simp] theorem fSign_fPack (sign : Bool) (m : Nat) : fSign (fPack sign m) = sign := by
  unfold fSign fPack
  rw [BitVec.getLsbD_append]
  simp

theorem toNat_fPack {sign : Bool} {m : Nat} (hm : m < 2 ^ 63) : (fPack sign m).toNat = sign.toNat * 2 ^ 63 + m := by
  simp only [fPack, BitVec.toNat_append, BitVec.toNat_ofBool, BitVec.toNat_ofNat, Nat.mod_eq_of_lt hm]
  rw [← Nat.shiftLeft_add_eq_or_of_lt hm, Nat.shiftLeft_eq]

theorem fExp_eq (a : F64) : fExp a = a.toNat / 2 ^ 52 % 2048 := by
  simp [fExp, BitVec.extractLsb'_toNat, Nat.shiftRight_eq_div_pow]

theorem fFrac_eq (a : F64) : fFrac a = a.toNat % 2 ^ 52 := by
  simp [fFrac, BitVec.extractLsb'_toNat]

theorem fExp_lt (a : F64) : fExp a < 2048 := by
  rw [fExp_eq]
  exact Nat.mod_lt _ (by decide)

theorem fFrac_lt (a : F64) : fFrac a < 2 ^ 52 := by
  rw [fFrac_eq]
  exact Nat.mod_lt _ (by decide)

theorem fExp_fPack {sign : Bool} {m : Nat} (hm : m < 2 ^ 63) : fExp (fPack sign m) = m / 2 ^ 52 := by
  rw [fExp_eq, toNat_fPack hm]
  cases sign <;> simp only [Bool.toNat_false, Bool.toNat_true] <;> omega

theorem fFrac_fPack {sign : Bool} {m : Nat} (hm : m < 2 ^ 63) : fFrac (fPack sign m) = m % 2 ^ 52 := by
  rw [fFrac_eq, toNat_fPack hm]
  cases sign <;> simp only [Bool.toNat_false, Bool.toNat_true] <;> omega

theorem fIsFinite_iff (a : F64) : fIsFinite a = true ↔ fExp a ≠ 2047 := by simp [fIsFinite]

theorem fIsInf_iff (a : F64) : fIsInf a = true ↔ fExp a = 2047 ∧ fFrac a = 0 := by simp [fIsInf]

theorem fIsZero_iff (a : F64) : fIsZero a = true ↔ fExp a = 0 ∧ fFrac a = 0 := by simp [fIsZero]

/-- A value is its sign and the bits below it. -/
theorem fPack_fields (a : F64) : fPack (fSign a) (fExp a * 2 ^ 52 + fFrac a) = a := by
  have hlt := a.isLt
  have hE := fExp_lt a
  have hF := fFrac_lt a
  have hs : (fSign a).toNat = a.toNat / 2 ^ 63 := by
    have h63 : a.toNat / 2 ^ 63 < 2 := by omega
    rw [fSign, BitVec.getLsbD, Nat.testBit_eq_decide_div_mod_eq, Nat.mod_eq_of_lt h63]
    interval_cases a.toNat / 2 ^ 63 <;> rfl
  apply BitVec.eq_of_toNat_eq
  rw [toNat_fPack (by omega), hs, fExp_eq, fFrac_eq]
  omega

/-- The magnitude of the bits that hold the significand `q` on the scale 2^k. The carry of `q` = 2^53 runs into the
exponent. -/
theorem fMag_fPack_scaled (sign : Bool) {k q : Nat} (hq : q ≤ 2 ^ 53) (hk : k = 0 ∨ 2 ^ 52 ≤ q)
    (hfin : k * 2 ^ 52 + q < infMag) : fMag (fPack sign (k * 2 ^ 52 + q)) = q * 2 ^ k := by
  unfold infMag at hfin
  unfold fMag
  rw [fExp_fPack (by omega), fFrac_fPack (by omega)]
  by_cases hsub : q < 2 ^ 52
  · obtain rfl : k = 0 := by omega
    rw [if_pos (by omega)]
    omega
  by_cases hcarry : q = 2 ^ 53
  · subst hcarry
    have hE : (k * 2 ^ 52 + 2 ^ 53) / 2 ^ 52 = k + 2 := by omega
    have hF : (k * 2 ^ 52 + 2 ^ 53) % 2 ^ 52 = 0 := by omega
    rw [hE, hF, if_neg (by omega), Nat.add_sub_assoc (by decide), pow_succ]
    ring
  · have hE : (k * 2 ^ 52 + q) / 2 ^ 52 = k + 1 := by omega
    have hF : 2 ^ 52 + (k * 2 ^ 52 + q) % 2 ^ 52 = q := by omega
    rw [hE, hF, if_neg (by omega), Nat.add_sub_cancel]

/-- A finite magnitude is a multiple of 2^k, or below the significands that the scale 2^k holds. -/
theorem fMag_dvd_or_lt (a : F64) (k : Nat) : (∃ m, fMag a = m * 2 ^ k) ∨ (0 < k ∧ fMag a < 2 ^ 52 * 2 ^ k) := by
  have hF := fFrac_lt a
  rcases Nat.eq_zero_or_pos k with rfl | hk
  · exact .inl ⟨fMag a, by simp⟩
  unfold fMag
  by_cases h0 : fExp a = 0
  · rw [if_pos h0]
    exact .inr ⟨hk, lt_of_lt_of_le hF (Nat.le_mul_of_pos_right _ (by positivity))⟩
  rw [if_neg h0]
  rcases Nat.lt_or_ge (fExp a - 1) k with hlt | hle
  · have hpow : 2 ^ (fExp a - 1) * 2 ≤ 2 ^ k := by
      rw [← pow_succ]
      exact Nat.pow_le_pow_right (by decide) hlt
    have hsig : (2 ^ 52 + fFrac a) * 2 ^ (fExp a - 1) < 2 ^ 53 * 2 ^ (fExp a - 1) :=
      Nat.mul_lt_mul_of_pos_right (by omega) (by positivity)
    exact .inr ⟨hk, by omega⟩
  · refine .inl ⟨(2 ^ 52 + fFrac a) * 2 ^ (fExp a - 1 - k), ?_⟩
    rw [Nat.mul_assoc, ← pow_add, Nat.sub_add_cancel hle]

end Fields

section Rounding

/-- The binary scale, in units of 2^-1074, on which `roundUnits` rounds the quotient `n / d`. -/
def roundScale (n d : Nat) : Nat := Nat.log2 (n / d) - 52

/-- The significand that `roundUnits` makes of the quotient `n / d`. -/
def roundSig (n d : Nat) : Nat := roundHalfEven n (d * 2 ^ roundScale n d)

theorem roundUnits_eq (sign : Bool) (n d : Nat) :
    roundUnits sign n d = fPack sign (min (roundScale n d * 2 ^ 52 + roundSig n d) infMag) := rfl

variable {n d : Nat} (hd : 0 < d)
include hd

theorem roundDivisor_pos : 0 < d * 2 ^ roundScale n d := Nat.mul_pos hd (by positivity)

/-- On its scale the quotient is below 2^53. -/
theorem lt_roundDivisor_mul : n < 2 ^ 53 * (d * 2 ^ roundScale n d) := by
  have hlog : n / d < 2 ^ (53 + roundScale n d) :=
    lt_of_lt_of_le Nat.lt_log2_self (Nat.pow_le_pow_right (by decide) (by unfold roundScale; omega))
  rw [Nat.div_lt_iff_lt_mul hd, pow_add, Nat.mul_assoc, Nat.mul_comm _ d] at hlog
  exact hlog

/-- On a scale above the finest the quotient is at least 2^52. -/
theorem roundDivisor_mul_le (h : roundScale n d ≠ 0) : 2 ^ 52 * (d * 2 ^ roundScale n d) ≤ n := by
  have hne : n / d ≠ 0 := by
    intro h0
    simp [roundScale, h0] at h
  have hlog : 2 ^ (52 + roundScale n d) ≤ n / d := by
    have hle := Nat.log2_self_le hne
    rwa [show 52 + roundScale n d = Nat.log2 (n / d) by unfold roundScale at h ⊢; omega]
  rw [Nat.le_div_iff_mul_le hd, pow_add, Nat.mul_assoc, Nat.mul_comm _ d] at hlog
  exact hlog

theorem roundSig_le : roundSig n d ≤ 2 ^ 53 := by
  have hdiv : n / (d * 2 ^ roundScale n d) < 2 ^ 53 :=
    (Nat.div_lt_iff_lt_mul (roundDivisor_pos hd)).2 (lt_roundDivisor_mul hd)
  have hcases := roundHalfEven_cases n (d * 2 ^ roundScale n d)
  unfold roundSig
  omega

theorem le_roundSig (h : roundScale n d ≠ 0) : 2 ^ 52 ≤ roundSig n d := by
  have hle := roundDivisor_mul_le hd h
  refine (le_roundHalfEven_iff (roundDivisor_pos hd) (by decide)).2 ?_
  rw [Nat.mul_assoc]
  omega

section Overflow

-- The exponent of the overflow bound is a variable, so that no tactic evaluates the power.
variable {t : Nat} (ht : t = 2044)
include ht

/-- The rounded bits reach those of infinity from half a unit in the last place above the largest finite value on. -/
theorem infMag_le_iff : infMag ≤ roundScale n d * 2 ^ 52 + roundSig n d ↔ (2 ^ 54 - 1) * 2 ^ t * d ≤ n := by
  have hq := roundSig_le (n := n) hd
  have hlow := le_roundSig (n := n) hd
  have hscale : (2 ^ 54 - 1) * 2 ^ t * d = (2 ^ 54 - 1) * (d * 2 ^ t) := by
    rw [Nat.mul_assoc, Nat.mul_comm d]
  rw [hscale]
  unfold infMag
  rcases Nat.lt_trichotomy (roundScale n d) 2045 with hlt | heq | hgt
  · have hn := lt_roundDivisor_mul (n := n) hd
    have hpow : d * 2 ^ roundScale n d ≤ d * 2 ^ t :=
      Nat.mul_le_mul_left d (Nat.pow_le_pow_right (by decide) (by omega))
    have hpos : 0 < d * 2 ^ t := Nat.mul_pos hd (by positivity)
    generalize d * 2 ^ t = unit at hpow hpos ⊢
    exact iff_of_false (by omega) (by omega)
  · have hround := le_roundHalfEven_iff (n := n) (m := 2 ^ 53) (roundDivisor_pos (n := n) hd) (by decide)
    change _ ≤ roundSig n d ↔ _ at hround
    have hpow : d * 2 ^ roundScale n d = d * 2 ^ t * 2 := by
      rw [heq, ← Nat.mul_comm 2, Nat.mul_left_comm, ← pow_succ', ht]
    rw [hpow] at hround
    generalize d * 2 ^ t = unit at hround ⊢
    omega
  · have hn := roundDivisor_mul_le (n := n) hd (by omega)
    have hpow : d * 2 ^ t * 2 ^ 2 ≤ d * 2 ^ roundScale n d := by
      rw [Nat.mul_assoc, ← pow_add 2 t 2]
      exact Nat.mul_le_mul_left d (Nat.pow_le_pow_right (by decide) (by omega))
    generalize d * 2 ^ t = unit at hpow ⊢
    exact iff_of_true (by omega) (by omega)

/-- Below the overflow the magnitude of `roundUnits` is the rounded significand on its scale, and the fraction has the
parity of the significand. -/
theorem roundUnits_finite (sign : Bool) (h : n < (2 ^ 54 - 1) * 2 ^ t * d) :
    fIsFinite (roundUnits sign n d) = true ∧ fMag (roundUnits sign n d) = roundSig n d * 2 ^ roundScale n d ∧
    fFrac (roundUnits sign n d) % 2 = roundSig n d % 2 := by
  have hfin : roundScale n d * 2 ^ 52 + roundSig n d < infMag := by
    rw [← not_le] at h ⊢
    exact mt (infMag_le_iff hd ht).1 h
  have hk : roundScale n d = 0 ∨ 2 ^ 52 ≤ roundSig n d := or_iff_not_imp_left.2 (le_roundSig hd)
  have hlt : roundScale n d * 2 ^ 52 + roundSig n d < 2047 * 2 ^ 52 := hfin
  rw [roundUnits_eq, Nat.min_eq_left hfin.le, fIsFinite_iff, fExp_fPack (by omega), fFrac_fPack (by omega)]
  exact ⟨by omega, fMag_fPack_scaled sign (roundSig_le hd) hk hfin, by omega⟩

/-- From the overflow on `roundUnits` is the infinity of its sign. -/
theorem roundUnits_overflow (sign : Bool) (h : (2 ^ 54 - 1) * 2 ^ t * d ≤ n) :
    roundUnits sign n d = fPack sign infMag := by
  rw [roundUnits_eq, Nat.min_eq_right ((infMag_le_iff hd ht).2 h)]

/-- A quotient that is a multiple of its scale is not rounded. -/
theorem fMag_roundUnits_exact (sign : Bool) (hdvd : d * 2 ^ roundScale n d ∣ n)
    (h : n < (2 ^ 54 - 1) * 2 ^ t * d) : fMag (roundUnits sign n d) * d = n := by
  obtain ⟨m, hm⟩ := hdvd
  rw [mul_comm] at hm
  have hsig : roundSig n d = m := roundHalfEven_of_eq_mul (roundDivisor_pos hd) hm
  calc fMag (roundUnits sign n d) * d = m * (d * 2 ^ roundScale n d) := by
        rw [(roundUnits_finite hd ht sign h).2.1, hsig]
        ring
    _ = n := hm.symm

end Overflow

/-- 00_scope R10: `roundUnits` rounds to nearest, ties to even, with infinity on overflow. -/
theorem roundUnits_nearestEven (sign : Bool) : NearestEven sign n d (roundUnits sign n d) := by
  unfold NearestEven
  obtain ⟨t, ht⟩ : ∃ t, t = 2044 := ⟨_, rfl⟩
  rw [← ht]
  refine ⟨by rw [roundUnits_eq, fSign_fPack], ?_⟩
  by_cases hover : (2 ^ 54 - 1) * 2 ^ t * d ≤ n
  · rw [if_pos hover, roundUnits_overflow hd ht sign hover, fIsInf_iff, fExp_fPack (by decide), fFrac_fPack (by decide)]
    decide
  rw [if_neg hover]
  obtain ⟨hfin, hmag, hparity⟩ := roundUnits_finite hd ht sign (not_le.1 hover)
  refine ⟨hfin, fun c _ => ?_⟩
  rw [hmag, hparity]
  have hgrid : ∀ m : Nat, ((m * 2 ^ roundScale n d : Nat) * d : ℤ) = m * (d * 2 ^ roundScale n d : Nat) := fun m => by
    push_cast
    ring
  have hnear := fun m => roundHalfEven_nearest (n := n) (roundDivisor_pos (n := n) hd) m
  rw [hgrid]
  rcases fMag_dvd_or_lt c (roundScale n d) with ⟨m, hm⟩ | ⟨hk, hlt⟩
  · rw [hm, hgrid]
    refine ⟨(hnear m).1, fun heq hne => (hnear m).2 heq ?_⟩
    rintro rfl
    exact hne rfl
  · have hle := roundDivisor_mul_le (n := n) hd hk.ne'
    have hbase : ((roundSig n d * (d * 2 ^ roundScale n d : Nat) : ℤ) - n).natAbs ≤ _ := (hnear (2 ^ 52)).1
    have hc : fMag c * d < 2 ^ 52 * (d * 2 ^ roundScale n d) := by
      calc fMag c * d < 2 ^ 52 * 2 ^ roundScale n d * d := Nat.mul_lt_mul_of_pos_right hlt hd
        _ = 2 ^ 52 * (d * 2 ^ roundScale n d) := by ring
    have hfar : ((roundSig n d * (d * 2 ^ roundScale n d : Nat) : ℤ) - n).natAbs < ((fMag c * d : ℤ) - n).natAbs := by
      rw [← Nat.cast_mul] at hbase ⊢
      rw [← Nat.cast_mul] at hbase ⊢
      omega
    exact ⟨hfar.le, fun heq => absurd heq hfar.ne⟩

end Rounding

section Classes

variable {a b : F64}

theorem fIsNaN_of_finite (h : fIsFinite a = true) : fIsNaN a = false := by
  rw [fIsFinite_iff] at h
  simp [fIsNaN, h]

theorem fIsInf_of_finite (h : fIsFinite a = true) : fIsInf a = false := by
  rw [fIsFinite_iff] at h
  simp [fIsInf, h]

theorem fIsNaN_of_inf (h : fIsInf a = true) : fIsNaN a = false := by
  rw [fIsInf_iff] at h
  simp [fIsNaN, h.2]

theorem fIsZero_of_inf (h : fIsInf a = true) : fIsZero a = false := by
  rw [fIsInf_iff] at h
  simp [fIsZero, h.1]

theorem fIsFinite_of_zero (h : fIsZero a = true) : fIsFinite a = true := by
  rw [fIsZero_iff] at h
  simp [fIsFinite, h.1]

theorem fMag_eq_zero_iff : fMag a = 0 ↔ fIsZero a = true := by
  rw [fIsZero_iff]
  unfold fMag
  by_cases h : fExp a = 0 <;> simp [h]

theorem fPack_zero (sign : Bool) : fPack sign 0 = if sign = true then 0x8000000000000000 else fZero := by
  cases sign <;> decide

theorem fPack_infMag (sign : Bool) : fPack sign infMag = signedInf sign := by
  cases sign <;> decide

theorem eq_signedInf_of_inf (h : fIsInf a = true) : a = signedInf (fSign a) := by
  rw [fIsInf_iff] at h
  rw [← fPack_infMag]
  conv_lhs => rw [← fPack_fields a, h.1, h.2]
  rfl

@[simp] theorem fSign_fneg (a : F64) : fSign (fneg a) = !fSign a := by
  simp [fSign, fneg]

@[simp] theorem fExp_fneg (a : F64) : fExp (fneg a) = fExp a := by
  have hzero : BitVec.extractLsb' 52 11 (0x8000000000000000 : F64) = 0#_ := by decide
  rw [fExp, fneg, BitVec.extractLsb'_xor, hzero, BitVec.xor_zero, fExp]

@[simp] theorem fFrac_fneg (a : F64) : fFrac (fneg a) = fFrac a := by
  have hzero : BitVec.extractLsb' 0 52 (0x8000000000000000 : F64) = 0#_ := by decide
  rw [fFrac, fneg, BitVec.extractLsb'_xor, hzero, BitVec.xor_zero, fFrac]

@[simp] theorem fMag_fneg (a : F64) : fMag (fneg a) = fMag a := by simp [fMag]

@[simp] theorem fUnits_fneg (a : F64) : fUnits (fneg a) = -fUnits a := by
  cases h : fSign a <;> simp [fUnits, h]

@[simp] theorem fIsFinite_fneg (a : F64) : fIsFinite (fneg a) = fIsFinite a := by simp [fIsFinite]

@[simp] theorem fIsInf_fneg (a : F64) : fIsInf (fneg a) = fIsInf a := by simp [fIsInf]

@[simp] theorem fIsNaN_fneg (a : F64) : fIsNaN (fneg a) = fIsNaN a := by simp [fIsNaN]

end Classes

section Operations

variable (p : Params) {a b : F64}

/-- The nearest value is one of the quotient, not of the fraction that names it. -/
theorem nearestEven_mul_right {sign : Bool} {n d c : Nat} {r : F64} (hc : 0 < c) :
    NearestEven sign (n * c) (d * c) r ↔ NearestEven sign n d r := by
  have hdist : ∀ m : Nat, ((m * (d * c : Nat) : ℤ) - (n * c : Nat)).natAbs = ((m * d : ℤ) - n).natAbs * c := fun m => by
    have hfactor : ((m * (d * c : Nat) : ℤ) - (n * c : Nat)) = ((m * d : ℤ) - n) * c := by
      push_cast
      ring
    rw [hfactor, Int.natAbs_mul, Int.natAbs_natCast]
  unfold NearestEven
  simp only [hdist, Nat.mul_le_mul_right_iff hc, Nat.mul_right_cancel_iff hc, ← Nat.mul_assoc]

theorem fadd_of_finite (ha : fIsFinite a = true) (hb : fIsFinite b = true) : fadd p a b =
    if fUnits a + fUnits b = 0 then fPack (fSign a && fSign b) 0
    else roundUnits (decide (fUnits a + fUnits b < 0)) (fUnits a + fUnits b).natAbs 1 := by
  simp [fadd, fIsNaN_of_finite, fIsInf_of_finite, ha, hb]

/-- The sum of finite values (00_scope R10). -/
theorem fadd_nearestEven (ha : fIsFinite a = true) (hb : fIsFinite b = true) (h : fUnits a + fUnits b ≠ 0) :
    NearestEven (decide (fUnits a + fUnits b < 0)) (fUnits a + fUnits b).natAbs 1 (fadd p a b) := by
  rw [fadd_of_finite p ha hb, if_neg h]
  exact roundUnits_nearestEven Nat.one_pos _

/-- An exact zero sum (00_scope R10). -/
theorem fadd_eq_zero (ha : fIsFinite a = true) (hb : fIsFinite b = true) (h : fUnits a + fUnits b = 0) :
    fadd p a b = if fSign a = true ∧ fSign b = true then 0x8000000000000000 else fZero := by
  rw [fadd_of_finite p ha hb, if_pos h, fPack_zero]
  simp only [Bool.and_eq_true]

theorem fsub_nearestEven (ha : fIsFinite a = true) (hb : fIsFinite b = true) (h : fUnits a - fUnits b ≠ 0) :
    NearestEven (decide (fUnits a - fUnits b < 0)) (fUnits a - fUnits b).natAbs 1 (fsub p a b) := by
  have hsum := fadd_nearestEven p ha (b := fneg b) (by simpa using hb)
  rw [fUnits_fneg, ← sub_eq_add_neg] at hsum
  exact hsum h

theorem fsub_eq_zero (ha : fIsFinite a = true) (hb : fIsFinite b = true) (h : fUnits a - fUnits b = 0) :
    fsub p a b = if fSign a = true ∧ fSign b = false then 0x8000000000000000 else fZero := by
  have hsum := fadd_eq_zero p ha (b := fneg b) (by simpa using hb)
  simp only [fUnits_fneg, ← sub_eq_add_neg, fSign_fneg, Bool.not_eq_true'] at hsum
  exact hsum h

theorem unitScale_pos : 0 < unitScale := by
  rw [unitScale]
  positivity

theorem fmul_nearestEven (ha : fIsFinite a = true) (hb : fIsFinite b = true) :
    NearestEven (fSign a != fSign b) (fMag a * fMag b) unitScale (fmul p a b) := by
  have h : fmul p a b = roundUnits (fSign a != fSign b) (fMag a * fMag b) unitScale := by
    simp [fmul, fIsNaN_of_finite, fIsInf_of_finite, ha, hb]
  rw [h]
  exact roundUnits_nearestEven unitScale_pos _

theorem fdiv_nearestEven (ha : fIsFinite a = true) (hb : fIsFinite b = true) (hz : fIsZero b = false) :
    NearestEven (fSign a != fSign b) (fMag a * unitScale) (fMag b) (fdiv p a b) := by
  have h : fdiv p a b = roundUnits (fSign a != fSign b) (fMag a * unitScale) (fMag b) := by
    simp [fdiv, fIsNaN_of_finite, fIsInf_of_finite, ha, hb, hz]
  have hpos : 0 < fMag b := Nat.pos_of_ne_zero fun h0 => by simp [fMag_eq_zero_iff.1 h0] at hz
  rw [h]
  exact roundUnits_nearestEven hpos _

/-- 1/2 is half of the units that make 1. -/
theorem two_mul_fMag_half : 2 * fMag fHalfConst = unitScale := by
  have hE : fExp fHalfConst = 1022 := by decide
  have hF : fFrac fHalfConst = 0 := by decide
  rw [fMag, hE, hF, if_neg (by decide), Nat.add_zero, ← pow_add, ← pow_succ', unitScale]

theorem fMag_half_pos : 0 < fMag fHalfConst := by
  have hpos := unitScale_pos
  rw [← two_mul_fMag_half] at hpos
  omega

/-- A product with 1/2 has the sign of the other factor. -/
theorem sign_mul_half (a : F64) : (fSign a != fSign fHalfConst) = fSign a := by
  have hhalf : fSign fHalfConst = false := by decide
  simp [hhalf]

theorem fhalf_nearestEven (ha : fIsFinite a = true) : NearestEven (fSign a) (fMag a) 2 (fhalf p a) := by
  have hmul := fmul_nearestEven p ha (b := fHalfConst) (by decide)
  rwa [sign_mul_half, ← two_mul_fMag_half, nearestEven_mul_right fMag_half_pos] at hmul

/-- `real(n)` is exact up to 2^53 (00_scope R10). -/
theorem freal_exact {n : Nat} (hn : n ≤ 2 ^ 53) : fIsFinite (freal n) = true ∧ fUnits (freal n) = n * unitScale := by
  obtain ⟨t, ht⟩ : ∃ t, t = 2044 := ⟨_, rfl⟩
  obtain ⟨u, hu⟩ : ∃ u, u = 1074 := ⟨_, rfl⟩
  have hscale : unitScale = 2 ^ u := by rw [hu, unitScale]
  have hbound : n * unitScale < (2 ^ 54 - 1) * 2 ^ t * 1 := by
    have hpow : 2 ^ u ≤ 2 ^ t := Nat.pow_le_pow_right (by decide) (by omega)
    have hpos := Nat.two_pow_pos u
    rw [hscale]
    calc n * 2 ^ u ≤ 2 ^ 53 * 2 ^ u := Nat.mul_le_mul_right _ hn
      _ < (2 ^ 54 - 1) * 2 ^ t * 1 := by omega
  have hdvd : 1 * 2 ^ roundScale (n * unitScale) 1 ∣ n * unitScale := by
    rw [Nat.one_mul, roundScale, Nat.div_one, hscale]
    rcases Nat.eq_or_lt_of_le hn with rfl | hlt
    · rw [← pow_add, Nat.log2_two_pow]
      exact Nat.pow_dvd_pow 2 (by omega)
    · refine Nat.dvd_mul_left_of_dvd (Nat.pow_dvd_pow 2 ?_) n
      have hlt' : n * 2 ^ u < 2 ^ (53 + u) := by
        rw [pow_add]
        exact Nat.mul_lt_mul_of_pos_right hlt (Nat.two_pow_pos u)
      by_cases h0 : n * 2 ^ u = 0
      · simp [h0, Nat.log2_zero]
      · have hlog := (Nat.log2_lt h0).2 hlt'
        omega
  have hmag := fMag_roundUnits_exact Nat.one_pos ht false hdvd hbound
  rw [Nat.mul_one] at hmag
  refine ⟨(roundUnits_finite Nat.one_pos ht false hbound).1, ?_⟩
  have hsign : fSign (freal n) = false := by rw [freal, roundUnits_eq, fSign_fPack]
  rw [fUnits, hsign, if_neg Bool.false_ne_true, freal, hmag, Nat.cast_mul]

/-- A NaN operand gives NAN_RESULT (00_scope R10). -/
theorem arithmetic_nan (h : fIsNaN a = true ∨ fIsNaN b = true) :
    fadd p a b = nanResult p ∧ fsub p a b = nanResult p ∧ fmul p a b = nanResult p ∧ fdiv p a b = nanResult p := by
  simp [fadd, fsub, fmul, fdiv, h]

/-- The sum and the difference of an infinity and a finite value (00_scope R10). -/
theorem fadd_inf_finite (ha : fIsInf a = true) (hb : fIsFinite b = true) : fadd p a b = a ∧ fadd p b a = a := by
  simp [fadd, fIsNaN_of_finite, fIsInf_of_finite, fIsNaN_of_inf, ha, hb]

theorem fsub_inf_finite (ha : fIsInf a = true) (hb : fIsFinite b = true) : fsub p a b = a ∧ fsub p b a = fneg a :=
  ⟨(fadd_inf_finite p ha (by simpa using hb)).1, (fadd_inf_finite p (by simpa using ha) hb).2⟩

theorem fdiv_inf_finite (ha : fIsInf a = true) (hb : fIsFinite b = true) :
    fdiv p a b = signedInf (fSign a != fSign b) ∧
    fdiv p b a = if (fSign b != fSign a) = true then 0x8000000000000000 else fZero := by
  rw [← fPack_infMag, ← fPack_zero]
  simp [fdiv, fIsNaN_of_finite, fIsInf_of_finite, fIsNaN_of_inf, ha, hb]

theorem fmul_inf_zero (ha : fIsInf a = true) (hb : fIsZero b = true) :
    fmul p a b = nanResult p ∧ fmul p b a = nanResult p := by
  simp [fmul, fIsNaN_of_inf ha, ha, hb]

theorem fmul_inf_nonzero (ha : fIsInf a = true) (hb : fIsNaN b = false) (hz : fIsZero b = false) :
    fmul p a b = signedInf (fSign a != fSign b) ∧ fmul p b a = signedInf (fSign a != fSign b) := by
  simp [fmul, fIsNaN_of_inf, fIsZero_of_inf, ha, hb, hz, fPack_infMag, Bool.xor_comm]

/-- Two infinities (00_scope R10). -/
theorem fadd_inf_inf (ha : fIsInf a = true) (hb : fIsInf b = true) :
    fadd p a b = if fSign a = fSign b then a else nanResult p := by
  by_cases h : fSign a = fSign b <;> simp [fadd, fIsNaN_of_inf, ha, hb, h]

theorem fsub_inf_inf (ha : fIsInf a = true) (hb : fIsInf b = true) :
    fsub p a b = if fSign a = fSign b then nanResult p else a := by
  rw [fsub, fadd_inf_inf p ha (by simpa using hb), fSign_fneg]
  cases fSign a <;> cases fSign b <;> rfl

theorem fdiv_inf_inf (ha : fIsInf a = true) (hb : fIsInf b = true) : fdiv p a b = nanResult p := by
  simp [fdiv, fIsNaN_of_inf, ha, hb]

/-- Division of a finite value by a zero (00_scope R10). -/
theorem fdiv_zero (ha : fIsFinite a = true) (hb : fIsZero b = true) :
    fdiv p a b = if fIsZero a = true then nanResult p else signedInf (fSign a != fSign b) := by
  have hbf := fIsFinite_of_zero hb
  simp [fdiv, fIsNaN_of_finite, fIsInf_of_finite, ha, hb, hbf, fPack_infMag]

theorem fhalf_inf (ha : fIsInf a = true) : fhalf p a = a := by
  rw [fhalf, (fmul_inf_nonzero p ha (by decide) (by decide)).1, sign_mul_half, ← eq_signedInf_of_inf ha]

end Operations

end Sys2Proof.Machine

open Sys2Proof.Machine

/-- Settles O34: `roundUnits` answers the nearest value, and each operation on finite values is `roundUnits` of its exact
result; the special operands by the class of each. -/
theorem arithmeticRoundsToNearestEven : Obligations.ArithmeticRoundsToNearestEven := by
  refine ⟨fun p a b ha hb => ⟨fadd_nearestEven p ha hb, fadd_eq_zero p ha hb, fsub_nearestEven p ha hb,
      fsub_eq_zero p ha hb, fmul_nearestEven p ha hb, fdiv_nearestEven p ha hb, fhalf_nearestEven p ha⟩,
    fun p a b => arithmetic_nan p, fun p a b ha hb => ?_, fun p a b ha hb => ?_, fun p a b => fdiv_zero p,
    fun p a => ⟨rfl, fun h => (arithmetic_nan p (.inl h)).2.2.1, fhalf_inf p⟩, fun n => freal_exact⟩
  · obtain ⟨hadd, hadd'⟩ := fadd_inf_finite p ha hb
    obtain ⟨hsub, hsub'⟩ := fsub_inf_finite p ha hb
    obtain ⟨hdiv, hdiv'⟩ := fdiv_inf_finite p ha hb
    exact ⟨hadd, hadd', hsub, hsub', hdiv, hdiv', fmul_inf_zero p ha, fmul_inf_nonzero p ha (fIsNaN_of_finite hb)⟩
  · exact ⟨fadd_inf_inf p ha hb, fsub_inf_inf p ha hb,
      (fmul_inf_nonzero p ha (fIsNaN_of_inf hb) (fIsZero_of_inf hb)).1, fdiv_inf_inf p ha hb⟩
end

section
/-!
PROOFS. Why a command stops (00_scope R17, 60_exceptions R267, R270): the faults of the engine's bodies over binary64 are UNINIT
alone, each command whose checks pass records the one its body answers, and a step keeps the sticky fault list.
-/

namespace Sys2Proof.Machine

section Faults

/-- The only fault the computation `r` can answer is UNINIT (60_exceptions R267). -/
def FaultsOnlyUninit {α : Type} (r : Except ModelFault α) : Prop :=
  ∀ f, r = .error f → ∃ space index, f = .uninit space index

section Control

variable {α β σ : Type}

theorem faultsOnlyUninit_ok (a : α) : FaultsOnlyUninit (.ok a) := by
  intro f h
  cases h

theorem faultsOnlyUninit_uninit (space : Space) (index : Nat) :
    FaultsOnlyUninit (.error (.uninit space index) : Except ModelFault α) := by
  intro f h
  cases h
  exact ⟨space, index, rfl⟩

theorem FaultsOnlyUninit.bind {x : Except ModelFault α} {g : α → Except ModelFault β} (hx : FaultsOnlyUninit x)
    (hg : ∀ a, FaultsOnlyUninit (g a)) : FaultsOnlyUninit (x >>= g) := by
  intro f h
  rcases except_bind_error.1 h with h | ⟨a, -, h⟩
  · exact hx f h
  · exact hg a f h

theorem faultsOnlyUninit_forRange {body : Nat → σ → Except ModelFault σ} (h : ∀ k s, FaultsOnlyUninit (body k s))
    (count start : Nat) (s : σ) : FaultsOnlyUninit (forRange body count start s) := by
  intro f hf
  obtain ⟨k, a, -, -, ha⟩ := forRange_error hf
  exact h k a f ha

theorem faultsOnlyUninit_stage {g : σ → Except ModelFault σ} (on : Bool) (h : ∀ s, FaultsOnlyUninit (g s)) (s : σ) :
    FaultsOnlyUninit (stage on g s) := by
  intro f hf
  exact h s f (stage_error hf).2

end Control

section Reads

variable {F : Type} (st : Store F)

theorem faultsOnlyUninit_sigRead (w : Nat) : FaultsOnlyUninit (sigRead st w) := by
  unfold sigRead
  split
  · exact faultsOnlyUninit_ok _
  · exact faultsOnlyUninit_uninit _ _

theorem faultsOnlyUninit_wsRead (i : Nat) : FaultsOnlyUninit (wsRead st i) := by
  unfold wsRead
  split
  · exact faultsOnlyUninit_ok _
  · exact faultsOnlyUninit_uninit _ _

theorem faultsOnlyUninit_sigCRead (base k : Nat) : FaultsOnlyUninit (sigCRead st base k) :=
  (faultsOnlyUninit_sigRead st _).bind fun _ => (faultsOnlyUninit_sigRead st _).bind fun _ => faultsOnlyUninit_ok _

theorem faultsOnlyUninit_dataRead (dsp : Space) (o : Operands) (e : Nat) : FaultsOnlyUninit (dataRead dsp o st e) := by
  cases dsp
  · exact faultsOnlyUninit_sigCRead st _ _
  · exact faultsOnlyUninit_wsRead st _

/-- A binary64 division by a count has a quotient (00_scope R10). -/
theorem faultsOnlyUninit_cdivr (p : Params) (a : Cx F64) (n : Nat) : FaultsOnlyUninit (cdivr (b64 p).toScalar a n) :=
  faultsOnlyUninit_ok _

end Reads

section Bodies

variable (p : Params) (st : Store F64)

theorem faultsOnlyUninit_fft2Body (dsp : Space) (o : Operands) (dir : Dir) (plan : Plan) :
    FaultsOnlyUninit (fft2Body (b64 p) dsp o dir plan st) := by
  have hdata : ∀ (st : Store F64) e, FaultsOnlyUninit (dataRead dsp o st e) := fun st => faultsOnlyUninit_dataRead st dsp o
  have hbr : ∀ st : Store F64, FaultsOnlyUninit (bitRevStage dsp o st) :=
    faultsOnlyUninit_forRange (fun i st => by
      unfold bitRevSwap
      dsimp only
      split
      · exact (hdata _ _).bind fun _ => (hdata _ _).bind fun _ => faultsOnlyUninit_ok _
      · exact faultsOnlyUninit_ok _) _ _
  have htw : ∀ st, FaultsOnlyUninit (twiddleStage (b64 p) o dir st) :=
    faultsOnlyUninit_forRange (fun _ _ => faultsOnlyUninit_ok _) _ _
  have hbf : ∀ st, FaultsOnlyUninit (butterflyStage (b64 p) dsp o st) :=
    faultsOnlyUninit_forRange (fun _ => faultsOnlyUninit_forRange (fun _ => faultsOnlyUninit_forRange (fun _ _ =>
      (faultsOnlyUninit_wsRead _ _).bind fun _ => (hdata _ _).bind fun _ => (hdata _ _).bind fun _ =>
        faultsOnlyUninit_ok _) _ _) _ _) _ _
  have hnm : ∀ st, FaultsOnlyUninit (normalizeStage (b64 p) dsp o st) :=
    faultsOnlyUninit_forRange (fun _ _ => (hdata _ _).bind fun _ => (faultsOnlyUninit_cdivr p _ _).bind fun _ =>
      faultsOnlyUninit_ok _) _ _
  exact (faultsOnlyUninit_stage _ hbr st).bind fun _ => (faultsOnlyUninit_stage _ htw _).bind fun _ =>
    (faultsOnlyUninit_stage _ hbf _).bind fun _ => faultsOnlyUninit_stage _ hnm _

variable (n base : Nat)

theorem faultsOnlyUninit_chirpBody (dir : Dir) : FaultsOnlyUninit (chirpBody (b64 p) n dir st) :=
  faultsOnlyUninit_forRange (fun _ _ => faultsOnlyUninit_ok _) _ _ _

theorem faultsOnlyUninit_chirpmulBody : FaultsOnlyUninit (chirpmulBody (b64 p) n base st) :=
  (faultsOnlyUninit_forRange (fun _ _ => (faultsOnlyUninit_wsRead _ _).bind fun _ =>
    (faultsOnlyUninit_sigCRead _ _ _).bind fun _ => faultsOnlyUninit_ok _) _ _ _).bind fun _ =>
  faultsOnlyUninit_forRange (fun _ _ => faultsOnlyUninit_ok _) _ _ _

theorem faultsOnlyUninit_kernelBody : FaultsOnlyUninit (kernelBody (b64 p) n st) :=
  (faultsOnlyUninit_wsRead _ _).bind fun _ =>
  (faultsOnlyUninit_forRange (fun _ _ => (faultsOnlyUninit_wsRead _ _).bind fun _ => faultsOnlyUninit_ok _) _ _ _).bind
    fun _ => faultsOnlyUninit_forRange (fun _ _ => faultsOnlyUninit_ok _) _ _ _

theorem faultsOnlyUninit_pmulBody : FaultsOnlyUninit (pmulBody (b64 p) n st) :=
  faultsOnlyUninit_forRange (fun _ _ => (faultsOnlyUninit_wsRead _ _).bind fun _ =>
    (faultsOnlyUninit_wsRead _ _).bind fun _ => faultsOnlyUninit_ok _) _ _ _

theorem faultsOnlyUninit_recoverBody : FaultsOnlyUninit (recoverBody (b64 p) n base st) :=
  faultsOnlyUninit_forRange (fun _ _ => (faultsOnlyUninit_wsRead _ _).bind fun _ =>
    (faultsOnlyUninit_wsRead _ _).bind fun _ => faultsOnlyUninit_ok _) _ _ _

theorem faultsOnlyUninit_normnBody : FaultsOnlyUninit (normnBody (b64 p) n base st) :=
  faultsOnlyUninit_forRange (fun _ _ => (faultsOnlyUninit_sigCRead _ _ _).bind fun _ =>
    (faultsOnlyUninit_cdivr p _ _).bind fun _ => faultsOnlyUninit_ok _) _ _ _

theorem faultsOnlyUninit_cztBody (dir : Dir) : FaultsOnlyUninit (cztBody (b64 p) n dir base st) :=
  (faultsOnlyUninit_chirpBody p _ n dir).bind fun _ => (faultsOnlyUninit_chirpmulBody p _ n base).bind fun _ =>
  (faultsOnlyUninit_kernelBody p _ n).bind fun _ => (faultsOnlyUninit_fft2Body p _ _ _ _ _).bind fun _ =>
  (faultsOnlyUninit_fft2Body p _ _ _ _ _).bind fun _ => (faultsOnlyUninit_pmulBody p _ n).bind fun _ =>
  (faultsOnlyUninit_fft2Body p _ _ _ _ _).bind fun _ => (faultsOnlyUninit_recoverBody p _ n base).bind fun _ =>
  faultsOnlyUninit_stage _ (fun st => faultsOnlyUninit_normnBody p st n base) _

theorem faultsOnlyUninit_fftBody (dir : Dir) : FaultsOnlyUninit (fftBody (b64 p) n dir base st) :=
  (faultsOnlyUninit_cztBody p _ n base dir).bind fun _ => faultsOnlyUninit_ok _

theorem faultsOnlyUninit_rmixBody (dir : Dir) : FaultsOnlyUninit (rmixBody (b64 p) n base dir st) := by
  have hpair : ∀ {g : Cx F64 → Cx F64 → Except ModelFault (Store F64)} (st : Store F64) (i j : Nat),
      (∀ x y, FaultsOnlyUninit (g x y)) →
      FaultsOnlyUninit (sigCRead st base i >>= fun x => sigCRead st base j >>= fun y => g x y) := fun st i j hg =>
    (faultsOnlyUninit_sigCRead st base i).bind fun x => (faultsOnlyUninit_sigCRead st base j).bind fun y => hg x y
  cases dir
  · exact (faultsOnlyUninit_sigCRead st base 0).bind fun _ =>
      faultsOnlyUninit_forRange (fun _ _ => hpair _ _ _ fun _ _ => faultsOnlyUninit_ok _) _ _ _
  · exact (faultsOnlyUninit_sigCRead st base 0).bind fun _ =>
      faultsOnlyUninit_forRange (fun _ _ => hpair _ _ _ fun _ _ => faultsOnlyUninit_ok _) _ _ _

theorem faultsOnlyUninit_rfftBody (dir : Dir) : FaultsOnlyUninit (rfftBody (b64 p) n base dir st) := by
  refine FaultsOnlyUninit.bind ?_ fun _ => faultsOnlyUninit_ok _
  cases dir
  · exact (faultsOnlyUninit_cztBody p _ _ base _).bind fun _ => faultsOnlyUninit_rmixBody p _ n base .forward
  · exact (faultsOnlyUninit_rmixBody p _ n base .inverse).bind fun _ => faultsOnlyUninit_cztBody p _ _ base _

end Bodies

end Faults

section Commands

/-- The result `r` is the end of command `i` in `s` with the record of the fault UNINIT (60_exceptions R270). -/
def IsUninitRecord (i : Instr) (s : State) (r : Result) : Prop :=
  ∃ space index, r = .fault (.recorded (s.faults ++ [⟨.uninit space index, some (encode i)⟩]))

theorem recordsUninit_iff (i : Instr) (s : State) : RecordsUninit i s ↔ IsUninitRecord i s (exec i s) := Iff.rfl

variable {i : Instr} {s : State} {α : Type} {r : Except ModelFault α} {k : α → State}

/-- A body that does not answer ends its command with the record of UNINIT. -/
theorem commit_isUninitRecord (hf : FaultsOnlyUninit r) (hno : ∀ a, r ≠ .ok a) : IsUninitRecord i s (commit i s r k) := by
  rcases commit_cases i s r k with ⟨a, ha, -⟩ | ⟨f, hr, hc⟩
  · exact absurd ha (hno a)
  · obtain ⟨space, index, rfl⟩ := hf f hr
    exact ⟨space, index, hc⟩

theorem commit_next_or_isUninitRecord (hf : FaultsOnlyUninit r) :
    (∃ t, commit i s r k = .next t) ∨ IsUninitRecord i s (commit i s r k) := by
  by_cases hok : ∃ a, r = .ok a
  · obtain ⟨a, rfl⟩ := hok
    exact .inl ⟨_, rfl⟩
  · exact .inr (commit_isUninitRecord hf fun a ha => hok ⟨a, ha⟩)

theorem checked_next_or_isUninitRecord {error : Option Err} {go : Result}
    (h : (∃ t, go = .next t) ∨ IsUninitRecord i s go) :
    (∃ t, checked s error go = .next t) ∨ IsUninitRecord i s (checked s error go) := by
  cases error with
  | none => exact h
  | some e => exact .inl ⟨_, rfl⟩

/-- The record of a driver command is the one of the state it was issued in: an allocation leaves the fault list. -/
theorem isUninitRecord_allocate {n : Nat} {r : Result} (h : IsUninitRecord i (s.drawAlloc.allocate n) r) :
    IsUninitRecord i s r := by
  simpa only [IsUninitRecord, State.allocate_faults, State.drawAlloc_faults] using h

theorem withAllocation_next_or_isUninitRecord {n : Nat} {go : State → Result}
    (h : (∃ t, go (s.drawAlloc.allocate n) = .next t) ∨ IsUninitRecord i s (go (s.drawAlloc.allocate n))) :
    (∃ t, withAllocation s n go = .next t) ∨ IsUninitRecord i s (withAllocation s n go) := by
  rcases withAllocation_cases s n go with ⟨-, hw⟩ | ⟨-, hw⟩
  · rwa [hw]
  · exact .inl ⟨_, hw⟩

/-- A command ends in a next state or with the record of UNINIT (60_exceptions R267, R270). -/
theorem exec_next_or_recordsUninit (i : Instr) (s : State) : (∃ t, exec i s = .next t) ∨ RecordsUninit i s := by
  rw [recordsUninit_iff]
  have memory : ∀ {i : Instr} {error : Option Err} {r : Except ModelFault (Store F64)} {k : Store F64 → State},
      FaultsOnlyUninit r →
      (∃ t, checked s error (commit i s r k) = .next t) ∨ IsUninitRecord i s (checked s error (commit i s r k)) :=
    fun hf => checked_next_or_isUninitRecord (commit_next_or_isUninitRecord hf)
  cases i with
  | fft dir =>
    exact checked_next_or_isUninitRecord (withAllocation_next_or_isUninitRecord
      ((commit_next_or_isUninitRecord (faultsOnlyUninit_fftBody _ _ _ _ dir)).imp_right isUninitRecord_allocate))
  | rfft dir =>
    exact checked_next_or_isUninitRecord (withAllocation_next_or_isUninitRecord
      ((commit_next_or_isUninitRecord (faultsOnlyUninit_rfftBody _ _ _ _ dir)).imp_right isUninitRecord_allocate))
  | wsalloc =>
    exact checked_next_or_isUninitRecord (withAllocation_next_or_isUninitRecord (.inl ⟨_, rfl⟩))
  | fft2 dir plan dsp => exact memory (faultsOnlyUninit_fft2Body _ _ dsp _ dir plan)
  | czt dir => exact memory (faultsOnlyUninit_cztBody _ _ _ _ dir)
  | chirp dir => exact memory (faultsOnlyUninit_chirpBody _ _ _ dir)
  | chirpmul => exact memory (faultsOnlyUninit_chirpmulBody _ _ _ _)
  | kernel => exact memory (faultsOnlyUninit_kernelBody _ _ _)
  | pmul => exact memory (faultsOnlyUninit_pmulBody _ _ _)
  | recover => exact memory (faultsOnlyUninit_recoverBody _ _ _ _)
  | normn => exact memory (faultsOnlyUninit_normnBody _ _ _ _)
  | rmix dir => exact memory (faultsOnlyUninit_rmixBody _ _ _ _ dir)
  | wsfree | cadd | csub | cmul | cdiv | cexp | cconj => exact .inl ⟨_, rfl⟩

/-- A command on the memories whose checks pass and whose body does not answer records UNINIT. -/
theorem recordsUninit_of_memoryCommand {error : Option Err}
    (hexec : exec i s = checked s error (commit i s r k)) (hcheck : error = none) (hf : FaultsOnlyUninit r)
    (hno : ∀ a, r ≠ .ok a) : RecordsUninit i s := by
  rw [recordsUninit_iff, hexec, hcheck, checked_none]
  exact commit_isUninitRecord hf hno

/-- A driver command whose checks pass, whose allocation succeeds and whose body does not answer records UNINIT. -/
theorem recordsUninit_of_driverCommand {error : Option Err} {n : Nat} {body : Store F64 → Except ModelFault (Store F64)}
    {k : State → Store F64 → State}
    (hexec : exec i s = checked s error (withAllocation s n fun u => commit i u (body u.mem) (k u)))
    (hcheck : error = none) (halloc : s.allocOk (wsLength n) = true) (hf : ∀ m, FaultsOnlyUninit (body m))
    (hno : ∀ m, m.sig = s.mem.sig → ∀ a, body m ≠ .ok a) : RecordsUninit i s := by
  rw [recordsUninit_iff, hexec, hcheck, checked_none, withAllocation, if_pos halloc]
  exact isUninitRecord_allocate (commit_isUninitRecord (hf _) (hno _ (by simp [State.allocate])))

end Commands

section Checks

variable {s : State}

/-- 42_bluestein R170: the checks pass. -/
theorem BluesteinReady.check {touchesSig : Bool} (h : BluesteinReady s touchesSig) :
    bluesteinCheck s touchesSig s.operands = none := by
  obtain ⟨hpos, hmax, halloc, hsame, hfits⟩ := h
  simp only [bluesteinCheck, firstError_none, List.forall_mem_cons, State.operands]
  refine ⟨decide_eq_false (by omega), decide_eq_false (by omega), by simp [halloc, hsame], ?_, by simp⟩
  cases touchesSig with
  | false => rfl
  | true => exact decide_eq_false (not_lt.2 (hfits rfl))

/-- 43_driver_workspace R205: the checks pass. -/
theorem FftReady.check (h : FftReady s) : fftCheck s s.operands = none := by
  obtain ⟨hpos, hmax, hfree, hfits, -⟩ := h
  simp only [fftCheck, firstError_none, List.forall_mem_cons, State.operands]
  exact ⟨decide_eq_false (by omega), decide_eq_false (by omega), hfree, decide_eq_false (by omega), by simp⟩

/-- 44_real_transform R232: the checks pass. -/
theorem RmixReady.check (h : RmixReady s) : rmixCheck s s.operands = none := by
  obtain ⟨heven, hpos, hmax, hfits⟩ := h
  simp only [rmixCheck, firstError_none, List.forall_mem_cons, State.operands]
  exact ⟨decide_eq_false (by omega), decide_eq_false (by omega), decide_eq_false (by omega),
    decide_eq_false (by omega), by simp⟩

/-- 44_real_transform R240: the checks pass. -/
theorem RfftReady.check (h : RfftReady s) : rfftCheck s s.operands = none := by
  obtain ⟨⟨heven, hpos, hmax, hfits⟩, hfree, -⟩ := h
  simp only [rfftCheck, firstError_none, List.forall_mem_cons, State.operands]
  exact ⟨decide_eq_false (by omega), decide_eq_false (by omega), decide_eq_false (by omega), hfree,
    decide_eq_false (by omega), by simp⟩

/-- 41_radix2_fft R141: the checks pass. -/
theorem Fft2Ready.check {plan : Plan} {dsp : Space} (h : Fft2Ready s plan dsp) :
    fft2Check s plan dsp s.operands = none := by
  obtain ⟨halloc, ⟨b, hb, hsize⟩, hstride, hdata, htable, hapart⟩ := h
  simp only [fft2Check, firstError_none, List.forall_mem_cons, Bool.and_eq_false_imp, decide_eq_false_iff_not,
    Bool.or_eq_false_iff, Bool.not_eq_false', beq_iff_eq, Bool.or_eq_true, Bool.and_eq_true]
  have hs : s.operands.size = 2 ^ b := hsize
  have hle : 2 ^ b ≤ 2 ^ 30 := Nat.pow_le_pow_right (by decide) hb
  refine ⟨halloc, ⟨hs ▸ isPow2_two_pow b, by omega⟩, hstride, fun h => not_lt.2 ((hdata h.1).1 h.2),
    fun h => not_le.2 ((hdata h.1).2 h.2), fun h => not_lt.2 (htable h), fun ⟨⟨ht, hd, hw⟩, hover⟩ => ?_, by simp⟩
  rcases hapart ht hd hw with h | h
  · exact absurd (of_decide_eq_true hover) (not_lt.2 h)
  · exact not_le.2 h

/-- An FFT2 that touches data has a stride of at least 1 (41_radix2_fft R141). -/
theorem Fft2Ready.one_le_stride {plan : Plan} {dsp : Space} (h : Fft2Ready s plan dsp) (hd : planNeedsData plan = true) :
    1 ≤ s.operands.stride :=
  Nat.one_le_iff_ne_zero.2 (h.stride hd)

/-- An FFT2 that touches data and the table keeps them apart (41_radix2_fft R141). -/
theorem Fft2Ready.operandsApart {plan : Plan} {dsp : Space} (h : Fft2Ready s plan dsp) (hd : planNeedsData plan = true)
    (ht : plan.tw = true ∨ plan.bf = true) : Apart dsp s.operands :=
  apart_of_span fun hw hsize => h.apart (by simpa [planNeedsTable, hsize] using ht) hd hw

end Checks

section Ready

variable {F : Type} {st : Store F}

theorem wsReady_of_reads {lo count : Nat} (h : ∀ k, k < count → ∃ c, wsRead st (lo + k) = .ok c) :
    WsReady st lo count := by
  intro k hk
  obtain ⟨c, hc⟩ := h k hk
  obtain ⟨hre, him⟩ := (wsRead_ok_iff _ _ _).1 hc
  exact ⟨by rw [hre]; rfl, by rw [him]; rfl⟩

theorem sigReady_of_reads {base count : Nat} (h : ∀ k, k < count → ∃ c, sigCRead st base k = .ok c) :
    SigReady st base (2 * count) := by
  intro w hw
  obtain ⟨c, hc⟩ := h (w / 2) (by omega)
  obtain ⟨hre, him⟩ := (sigCRead_ok_iff _ _ _ _).1 hc
  rcases Nat.mod_two_eq_zero_or_one w with h0 | h1
  · rw [show base + w = base + 2 * (w / 2) by omega, hre]
    rfl
  · rw [show base + w = base + 2 * (w / 2) + 1 by omega, him]
    rfl

theorem sigReady_congr {st' : Store F} {lo count : Nat} (h : st'.sig = st.sig) :
    SigReady st' lo count ↔ SigReady st lo count := by
  simp only [SigReady, h]

end Ready

section Uninit

variable {s : State}

theorem chirpmul_recordsUninit (h : BluesteinReady s true)
    (hno : ¬ (WsReady s.mem 0 s.len.toNat ∧ SigReady s.mem s.sigBase.toNat (2 * s.len.toNat))) :
    RecordsUninit .chirpmul s :=
  recordsUninit_of_memoryCommand rfl h.check (faultsOnlyUninit_chirpmulBody _ _ _ _) fun _ hm =>
    hno ⟨wsReady_of_reads fun k hk => (Nat.zero_add k).symm ▸ (chirpmulBody_needs _ hm hk).1,
      sigReady_of_reads fun _ hk => (chirpmulBody_needs _ hm hk).2⟩

theorem kernel_recordsUninit (h : BluesteinReady s false) (hno : ¬ WsReady s.mem 0 s.len.toNat) :
    RecordsUninit .kernel s :=
  recordsUninit_of_memoryCommand rfl h.check (faultsOnlyUninit_kernelBody _ _ _) fun _ hm =>
    hno (wsReady_of_reads fun k hk => (Nat.zero_add k).symm ▸ kernelBody_needs _ hm hk)

theorem pmul_recordsUninit (h : BluesteinReady s false)
    (hno : ¬ WsReady s.mem s.len.toNat (2 * largerSize s.len.toNat)) : RecordsUninit .pmul s := by
  refine recordsUninit_of_memoryCommand rfl h.check (faultsOnlyUninit_pmulBody _ _ _) fun _ hm =>
    hno (wsReady_of_reads fun k hk => ?_)
  by_cases hlt : k < largerSize s.len.toNat
  · exact (pmulBody_needs _ hm hlt).1
  · obtain ⟨j, rfl⟩ := Nat.exists_eq_add_of_le (not_lt.1 hlt)
    rw [← Nat.add_assoc]
    exact (pmulBody_needs _ hm (by simp only [State.operands]; omega)).2

theorem recover_recordsUninit (h : BluesteinReady s true) (hno : ¬ WsReady s.mem 0 (2 * s.len.toNat)) :
    RecordsUninit .recover s := by
  refine recordsUninit_of_memoryCommand rfl h.check (faultsOnlyUninit_recoverBody _ _ _ _) fun _ hm =>
    hno (wsReady_of_reads fun k hk => ?_)
  rw [Nat.zero_add]
  by_cases hlt : k < s.len.toNat
  · exact (recoverBody_needs _ hm hlt).1
  · obtain ⟨j, rfl⟩ := Nat.exists_eq_add_of_le (not_lt.1 hlt)
    exact (recoverBody_needs _ hm (by simp only [State.operands]; omega)).2

theorem normn_recordsUninit (h : BluesteinReady s true) (hno : ¬ SigReady s.mem s.sigBase.toNat (2 * s.len.toNat)) :
    RecordsUninit .normn s :=
  recordsUninit_of_memoryCommand rfl h.check (faultsOnlyUninit_normnBody _ _ _ _) fun _ hm =>
    hno (sigReady_of_reads fun _ hk => normnBody_needs _ hm hk)

theorem czt_recordsUninit (dir : Dir) (h : BluesteinReady s true)
    (hno : ¬ SigReady s.mem s.sigBase.toNat (2 * s.len.toNat)) : RecordsUninit (.czt dir) s :=
  recordsUninit_of_memoryCommand rfl h.check (faultsOnlyUninit_cztBody _ _ _ _ _) fun _ hm =>
    hno (sigReady_of_reads fun _ hk => cztBody_needs _ hm hk)

theorem fft_recordsUninit (dir : Dir) (h : FftReady s) (hno : ¬ SigReady s.mem s.sigBase.toNat (2 * s.len.toNat)) :
    RecordsUninit (.fft dir) s :=
  recordsUninit_of_driverCommand rfl h.check h.memory (faultsOnlyUninit_fftBody _ · _ _ _) fun _ hsig _ hm =>
    hno ((sigReady_congr hsig).1 (sigReady_of_reads fun _ hk => fftBody_needs _ hm hk))

theorem rmix_recordsUninit (dir : Dir) (h : RmixReady s) (hno : ¬ SigReady s.mem s.sigBase.toNat s.len.toNat) :
    RecordsUninit (.rmix dir) s := by
  refine recordsUninit_of_memoryCommand rfl h.check (faultsOnlyUninit_rmixBody _ _ _ _ _) fun _ hm => hno ?_
  rw [← Nat.mul_div_cancel' (Nat.dvd_of_mod_eq_zero h.lenEven)]
  exact sigReady_of_reads fun _ hk => rmixBody_needs _ hm hk

theorem rfft_recordsUninit (dir : Dir) (h : RfftReady s) (hno : ¬ SigReady s.mem s.sigBase.toNat s.len.toNat) :
    RecordsUninit (.rfft dir) s := by
  refine recordsUninit_of_driverCommand rfl h.check h.memory (faultsOnlyUninit_rfftBody _ · _ _ _) fun _ hsig _ hm =>
    hno ((sigReady_congr hsig).1 ?_)
  rw [← Nat.mul_div_cancel' (Nat.dvd_of_mod_eq_zero h.lenEven)]
  exact sigReady_of_reads fun _ hk => rfftBody_needs _ hm hk

variable {plan : Plan} {dsp : Space} {b : Nat}

theorem fft2_recordsUninit_moved (dir : Dir) (h : Fft2Ready s plan dsp) (hb : s.operands.size = 2 ^ b)
    (hbr : plan.br = true)
    (hno : ¬ ∀ e, e < s.operands.size → bitRev b e ≠ e → ∃ c, dataRead dsp s.operands s.mem e = .ok c) :
    RecordsUninit (.fft2 dir plan dsp) s := by
  refine recordsUninit_of_memoryCommand rfl h.check (faultsOnlyUninit_fft2Body _ _ _ _ _ _) fun _ hm =>
    hno fun e he hne => ?_
  simp only [fft2Body, hbr, stage_on, except_bind_ok] at hm
  obtain ⟨_, hmoved, -⟩ := hm
  exact bitRevStage_needs hb (h.one_le_stride (by simp [planNeedsData, hbr])) hmoved he hne

theorem fft2_recordsUninit_data (dir : Dir) (h : Fft2Ready s plan dsp) (hb : s.operands.size = 2 ^ b)
    (hstage : plan.nm = true ∨ plan.bf = true ∧ 2 ≤ s.operands.size) (hno : ¬ DataReady dsp s.operands s.mem) :
    RecordsUninit (.fft2 dir plan dsp) s := by
  have hd : planNeedsData plan = true := by
    rcases hstage with hnm | ⟨hbf, -⟩ <;> simp [planNeedsData, *]
  exact recordsUninit_of_memoryCommand rfl h.check (faultsOnlyUninit_fft2Body _ _ _ _ _ _) fun _ hm =>
    hno fun _ he => fft2Body_needs _ hb (h.one_le_stride hd) (fun htw => h.operandsApart hd (.inl htw)) hstage hm he

theorem fft2_recordsUninit_table (dir : Dir) (h : Fft2Ready s plan dsp) (hb : s.operands.size = 2 ^ b)
    (hbf : plan.bf = true) (htw : plan.tw = false) (hno : ¬ WsReady s.mem s.operands.tbase (s.operands.size / 2)) :
    RecordsUninit (.fft2 dir plan dsp) s := by
  have hd : planNeedsData plan = true := by simp [planNeedsData, hbf]
  exact recordsUninit_of_memoryCommand rfl h.check (faultsOnlyUninit_fft2Body _ _ _ _ _ _) fun _ hm =>
    hno (wsReady_of_reads fun _ hk => fft2Body_needs_table _ hb (h.operandsApart hd (.inr hbf)) hbf htw hm hk)

end Uninit

section FaultList

/-- A command that ends in a next state leaves the sticky fault list (60_exceptions R270). -/
theorem exec_faults {i : Instr} {s t : State} (h : exec i s = .next t) : t.faults = s.faults := by
  cases exec_next h <;> simp

theorem engineStep_faults {s t : State} (h : engineStep s = .next t) : t.faults = s.faults := by
  rcases engineStep_cases s with ⟨-, he⟩ | ⟨_, i, -, -, he⟩ | ⟨_, _, -, -, he⟩ <;> rw [he] at h
  · cases h
    rfl
  · obtain ⟨u, hu, ⟨-, rfl⟩ | ⟨-, rfl⟩⟩ := settleRace_cases h
    · exact exec_faults hu
    · exact (exec_faults hu :)
  · cases h
    rfl

theorem writeReg_faults (s : State) (r : Reg) (v : Word64) : (s.writeReg r v).faults = s.faults := by
  rcases writeReg_cases s r v with ⟨-, -, hw⟩ | ⟨-, hw⟩ <;> rw [hw]
  cases r <;> simp only [State.writeRegIdle, State.issue_faults]
  case status => split <;> rfl
  case wsdatRe => split <;> rfl
  case wsdatIm => split <;> rfl

theorem hostRegWrite_faults {s t : State} {offset width : Nat} {v : Word64} (h : hostRegWrite s offset width v = .next t) :
    t.faults = s.faults := by
  unfold hostRegWrite at h
  split at h
  · cases h
    exact writeReg_faults s _ v
  · cases h

theorem hostRegRead_faults {s t : State} {offset width : Nat} (h : hostRegRead s offset width = .next t) :
    t.faults = s.faults := by
  unfold hostRegRead at h
  split at h
  · split at h
    · cases h
      exact State.observe_faults s _
    · cases h
  · cases h

theorem hostSigWrite_faults {s t : State} {w : Nat} {v : Word64} (h : hostSigWrite s w v = .next t) :
    t.faults = s.faults := by
  unfold hostSigWrite at h
  split at h
  · cases h
  · split at h <;> cases h <;> rfl

theorem hostSigRead_faults {s t : State} {w : Nat} (h : hostSigRead s w = .next t) : t.faults = s.faults := by
  unfold hostSigRead at h
  split at h
  · cases h
  · split at h
    · cases h
      rfl
    · split at h <;> cases h
      rfl

/-- Only a reset changes the sticky fault list of a run that goes on, and it empties the list (70_reset R290). -/
theorem step_faults {s t : State} (h : step s = .next t) :
    t.faults = s.faults ∨ ((∃ rest, s.inputs = .reset :: rest) ∧ t.faults = []) := by
  cases hin : s.inputs with
  | nil =>
    rw [step_nil hin] at h
    exact .inl (engineStep_faults h :)
  | cons ev rest =>
    cases ev with
    | regWrite offset width v =>
      rw [step_regWrite hin] at h
      exact .inl (hostRegWrite_faults h :)
    | regRead offset width =>
      rw [step_regRead hin] at h
      exact .inl (hostRegRead_faults h :)
    | sigWrite w v =>
      rw [step_sigWrite hin] at h
      exact .inl (hostSigWrite_faults h :)
    | sigRead w =>
      rw [step_sigRead hin] at h
      exact .inl (hostSigRead_faults h :)
    | poll =>
      rw [step_poll hin] at h
      split at h
      · exact .inl (engineStep_faults h :)
      · exact .inl (hostRegRead_faults h :)
    | engine =>
      rw [step_engine hin] at h
      exact .inl (engineStep_faults h :)
    | reset =>
      rw [step_reset hin] at h
      cases h
      exact .inr ⟨⟨rest, rfl⟩, rfl⟩

end FaultList

end Sys2Proof.Machine

open Sys2Proof.Machine

/-- Settles O23: the bodies' only fault is UNINIT; a body that answers has read every word its rule names, so one that meets a
word without a value does not answer; and each move of the host and of the engine but the reset leaves the fault list. -/
theorem commandsStopOnlyOnUninit : Obligations.CommandsStopOnlyOnUninit :=
  ⟨exec_next_or_recordsUninit,
    fun _ => ⟨chirpmul_recordsUninit, kernel_recordsUninit, pmul_recordsUninit, recover_recordsUninit,
      normn_recordsUninit, fun dir => ⟨czt_recordsUninit dir, fft_recordsUninit dir, rmix_recordsUninit dir,
        rfft_recordsUninit dir⟩⟩,
    fun dir _ _ _ _ h hb => ⟨fft2_recordsUninit_moved dir h hb, fft2_recordsUninit_data dir h hb,
      fft2_recordsUninit_table dir h hb⟩,
    fun _ _ => step_faults⟩
end

section
/-!
PROOFS. The frame of every command (10_state R47, 60_exceptions R262), read off the forms of its next state (`exec_next`) and off
the writes its body makes (`exec_keeps`, `exec_driver_keeps`).
-/

namespace Sys2Proof.Machine

section CommandFrame

variable {i : Instr} {s t : State}

/-- 10_state R47, R48: a command leaves the operand registers and the host's side. -/
theorem exec_sameOperands (h : exec i s = .next t) : SameOperands s t := by
  cases exec_next h <;> constructor <;> simp

/-- 10_state R42: only the complex ALU commands write CR. -/
theorem exec_cr (h : exec i s = .next t) (hi : i.isAlu = false) : t.cr = s.cr := by
  cases exec_next h with
  | alu c ha => simp [ha] at hi
  | _ => simp

/-- Without an allocation a command uses up no draw, and only WSFREE changes WS_VALID and WS_N (10_state R39). -/
theorem exec_workspace (h : exec i s = .next t) (hi : i.allocates = false) :
    t.draws = s.draws ∧ (i ≠ .wsfree → t.wsValid = s.wsValid ∧ t.wsN = s.wsN) := by
  cases exec_next h with
  | error e => exact ⟨rfl, fun _ => ⟨rfl, rfl⟩⟩
  | alu c => exact ⟨rfl, fun _ => ⟨rfl, rfl⟩⟩
  | memory m => exact ⟨rfl, fun _ => ⟨rfl, rfl⟩⟩
  | free hf => exact ⟨rfl, fun hne => absurd hf hne⟩
  | outOfMemory len ha => simp [ha] at hi
  | allocated ha => simp [ha, Instr.allocates] at hi
  | driver n m ha => simp [ha] at hi

/-- Of the commands that allocate or release, only those that write the signal memory have a buffer (20_memory R62). -/
theorem writesSig_of_signalBuffer {o : Operands} {b : Nat × Nat} (ha : i.allocates = true ∨ i = .wsfree)
    (hb : signalBuffer o i = some b) : i.writesSig = true := by
  cases i with
  | fft dir => rfl
  | rfft dir => rfl
  | wsalloc => cases hb
  | wsfree => cases hb
  | _ => simp [Instr.allocates] at ha

/-- What the workspace writes keep is kept by a command whose writes to its signal buffer, if it makes any, keep it. -/
theorem exec_keeps_signal (h : exec i s = .next t) (P : Store F64 → Prop)
    (hsig : i.writesSig = true → ∀ st w v, (∃ b, signalBuffer s.operands i = some b ∧ b.1 ≤ w ∧ w < b.2) → P st →
      P (sigWrite st w v))
    (hws : ∀ st k c, P st → P (wsWrite st k c)) (hc : ∀ st, P st → P (clearWs st)) (h0 : P s.mem) : P t.mem := by
  by_cases ha : i.allocates = true ∨ i = .wsfree
  · refine exec_driver_keeps h P (fun st w v hb _ hP => ?_) hws hc ha h0
    obtain ⟨b, hbuf, hw⟩ := hb
    exact hsig (writesSig_of_signalBuffer ha hbuf) st w v ⟨b, hbuf, hw⟩ hP
  · obtain ⟨hna, hnf⟩ := not_or.mp ha
    exact exec_keeps h P (fun hw st w v hb _ hP => hsig hw st w v hb hP) (fun _ st k c _ hP => hws st k c hP)
      (Bool.eq_false_iff.mpr hna) hnf h0

/-- A command that does not write the signal memory leaves it. -/
theorem exec_sig (h : exec i s = .next t) (hi : i.writesSig = false) : t.mem.sig = s.mem.sig := by
  refine exec_keeps_signal h (fun st => st.sig = s.mem.sig) (fun hw => ?_) (fun _ _ _ hP => hP) (fun _ hP => hP) rfl
  simp [hi] at hw

/-- 20_memory R61, R62: a command leaves every signal word outside its buffer. -/
theorem exec_sigKept (h : exec i s = .next t) :
    SigKept (fun w => ∃ b, signalBuffer s.operands i = some b ∧ b.1 ≤ w ∧ w < b.2) s.mem t.mem := by
  intro w hw
  refine exec_keeps_signal h (fun st => cellGet st.sig w = cellGet s.mem.sig w) (fun _ st x v hx hP => ?_)
    (fun _ _ _ hP => hP) (fun _ hP => hP) rfl
  have hne : w ≠ x := by
    rintro rfl
    exact hw hx
  rw [sigWrite_sig, cellGet_cellSet_ne _ _ hne, hP]

/-- A command that does not write the workspace leaves it; it neither allocates nor releases. -/
theorem exec_wsSame (h : exec i s = .next t) (hi : i.writesWs = false) : WsSame s.mem t.mem := by
  have hclass : i.allocates = false ∧ i ≠ .wsfree := by
    cases i with
    | fft dir => cases hi
    | rfft dir => cases hi
    | wsalloc => cases hi
    | wsfree => cases hi
    | _ => exact ⟨rfl, by simp⟩
  refine exec_keeps h (WsSame s.mem) (fun _ _ _ _ _ _ hP => hP) (fun hw => ?_) hclass.1 hclass.2 ⟨rfl, rfl⟩
  simp [hi] at hw

end CommandFrame

end Sys2Proof.Machine

open Sys2Proof.Machine

/-- Settles O21: each part is the frame lemma of its state component. -/
theorem commandFrame : Obligations.CommandFrame := by
  intro i s t h
  exact ⟨exec_sameOperands h, exec_cr h, exec_sig h, exec_wsSame h, exec_sigKept h,
    fun ha hf => (exec_workspace h ha).2 hf, fun ha => (exec_workspace h ha).1⟩
end

section
/-!
PROOFS. The register file as a step sees it (10_state R20 to R44, R48): which register an offset reaches, and what one step
answers to a read and to a write of it.
-/

namespace Sys2Proof.Machine

section Map

variable {offset width : Nat} {r : Reg}

/-- 10_state R20: an access of another width or at an offset not a multiple of 8 reaches no register. -/
theorem registerAt_eq_none (h : width ≠ 64 ∨ offset % 8 ≠ 0) : registerAt offset width = none :=
  if_neg fun ⟨hw, ho, _⟩ => h.elim (· hw) (· ho)

theorem width_of_registerAt (h : registerAt offset width = some r) : width = 64 := by
  by_contra hw
  simp [registerAt_eq_none (.inl hw)] at h

/-- What holds of the 32 entries of the register map and their offsets holds of every register access. -/
theorem registerAt_induction {P : Nat → Reg → Prop} (h : registerAt offset width = some r)
    (hP : ∀ k < 32, P (8 * k) (registerMap.getD k .reserved)) : P offset r := by
  unfold registerAt at h
  split at h
  · next ha =>
    obtain ⟨-, hmod, hlt⟩ := ha
    have hentry := hP (offset / 8) (by omega)
    rwa [Nat.mul_div_cancel' (Nat.dvd_of_mod_eq_zero hmod), Option.some.inj h] at hentry
  · cases h

theorem eq_cmd_iff (h : registerAt offset width = some r) : r = .cmd ↔ offset = 0x08 :=
  registerAt_induction (P := fun o q => q = .cmd ↔ o = 0x08) h (by decide)

theorem eq_status_iff (h : registerAt offset width = some r) : r = .status ↔ offset = 0x10 :=
  registerAt_induction (P := fun o q => q = .status ↔ o = 0x10) h (by decide)

/-- The offsets of 10_state R48 are those of the registers whose writes are dropped while BUSY = 1. -/
theorem droppedWhileBusy_iff (h : registerAt offset width = some r) : r.droppedWhileBusy = true ↔ offset ∈ busyOffsets :=
  registerAt_induction (P := fun o q => q.droppedWhileBusy = true ↔ o ∈ busyOffsets) h (by decide)

theorem exists_register_of_busyOffset (h : offset ∈ busyOffsets) : ∃ r, registerAt offset 64 = some r :=
  Option.isSome_iff_exists.mp ((by decide : ∀ o ∈ busyOffsets, (registerAt o 64).isSome = true) offset h)

end Map

section Access

variable {s : State} {offset : Nat} {r : Reg} {rest : List HostEvent} {v : Word64}

/-- A read of STATUS while BUSY = 0 changes the handshake, and no read changes anything else (20_memory R74). -/
theorem State.observe_eq (s : State) (r : Reg) : s.observe r = { s with unseen := (s.observe r).unseen } := by
  unfold State.observe
  split <;> rfl

theorem State.observe_eq_self (h : r ≠ .status ∨ s.busy = true) : s.observe r = s := by
  refine if_neg fun ho => ?_
  simp only [Bool.and_eq_true, beq_iff_eq, Bool.not_eq_true'] at ho
  obtain ⟨hr, hb⟩ := ho
  simp [hr, hb] at h

theorem State.writeReg_of_idle (r : Reg) (v : Word64) (hb : s.busy = false) : s.writeReg r v = s.writeRegIdle r v := by
  simp [State.writeReg, hb]

theorem State.writeReg_of_busy (v : Word64) (hb : s.busy = true) (hd : r.droppedWhileBusy = true) :
    s.writeReg r v = { s with overrun := true } := by
  simp [State.writeReg, hb, hd]

/-- A write of STATUS acts by its bit 2 alone (10_state R24). -/
theorem State.writeReg_status (s : State) (v : Word64) :
    s.writeReg .status v = { s with overrun := s.overrun && !v.getLsbD 2 } := by
  have hidle : s.writeReg .status v = s.writeRegIdle .status v := by simp [State.writeReg, Reg.droppedWhileBusy]
  rw [hidle, State.writeRegIdle]
  cases v.getLsbD 2 <;> simp

/-- The registers that a busy FFTC does not protect are STATUS and those that ignore every write (10_state R48). -/
theorem State.writeReg_eq_self (s : State) (v : Word64) (hd : r.droppedWhileBusy = false) (hr : r ≠ .status) :
    s.writeReg r v = s := by
  rcases writeReg_cases s r v with ⟨-, ht, -⟩ | ⟨-, hw⟩
  · rw [hd] at ht
    cases ht
  · rw [hw]
    cases r with
    | id | larger | wslen | r1base | r2base | r3base | r4base | wsstat => rfl
    | crRe | crIm | wscap | sigwords | reserved => rfl
    | status => exact absurd rfl hr
    | _ => cases hd

theorem step_writesRegister (hin : s.inputs = .regWrite offset 64 v :: rest) (hr : registerAt offset 64 = some r) :
    step s = .next (State.writeReg { s with inputs := rest } r v) := by
  rw [step_regWrite hin, hostRegWrite_at v hr]

theorem step_readsRegister (hin : s.inputs = .regRead offset 64 :: rest) (hr : registerAt offset 64 = some r)
    (hv : s.readReg r = .ok v) : step s = .next { State.observe { s with inputs := rest } r with rdData := v } := by
  rw [step_regRead hin, hostRegRead_at hr ((readReg_inputs s rest r).trans hv)]

/-- A read that is not a read of STATUS while BUSY = 0 changes nothing but the value read. -/
theorem step_readsRegister_quiet (hin : s.inputs = .regRead offset 64 :: rest) (hr : registerAt offset 64 = some r)
    (hq : r ≠ .status ∨ s.busy = true) (hv : s.readReg r = .ok v) :
    step s = .next { s with inputs := rest, rdData := v } := by
  have ho : State.observe { s with inputs := rest } r = { s with inputs := rest } := State.observe_eq_self hq
  rw [step_readsRegister hin hr hv, ho]

/-- A read of a register that holds no value records the fault (60_exceptions R270). -/
theorem step_readFaults {f : ModelFault} (hin : s.inputs = .regRead offset 64 :: rest)
    (hr : registerAt offset 64 = some r) (hv : s.readReg r = .error f) :
    step s = .fault (.recorded (s.faults ++ [⟨f, none⟩])) := by
  rw [step_regRead hin]
  simp [hostRegRead, hr, readReg_inputs, hv, recordFault]

/-- 10_state R48: a write while BUSY = 1 that its register drops. -/
theorem step_dropsWrite (hb : s.busy = true) (ho : offset ∈ busyOffsets) (hin : s.inputs = .regWrite offset 64 v :: rest) :
    step s = .next { s with inputs := rest, overrun := true } := by
  obtain ⟨r, hr⟩ := exists_register_of_busyOffset ho
  rw [step_writesRegister hin hr]
  exact congrArg _ (State.writeReg_of_busy v hb ((droppedWhileBusy_iff hr).mpr ho))

theorem step_writesRegister_idle (hb : s.busy = false) (hin : s.inputs = .regWrite offset 64 v :: rest)
    (hr : registerAt offset 64 = some r) : step s = .next (State.writeRegIdle { s with inputs := rest } r v) := by
  rw [step_writesRegister hin hr]
  exact congrArg _ (State.writeReg_of_idle r v hb)

theorem hostWrites_of_writeRegIdle {effect : State → Word64 → State} (hr : registerAt offset 64 = some r)
    (h : ∀ s v rest, State.writeRegIdle { s with inputs := rest } r v = { effect s v with inputs := rest }) :
    HostWrites offset effect := by
  intro s v rest hb hin
  rw [step_writesRegister_idle hb hin hr, h]

theorem hostReads_of_readReg {value : State → Word64} (hr : registerAt offset 64 = some r) (hne : r ≠ .status)
    (h : ∀ s : State, s.readReg r = .ok (value s)) : HostReads offset value :=
  fun s _ hin => step_readsRegister_quiet hin hr (.inl hne) (h s)

theorem hostWrites_and_reads {effect : State → Word64 → State} {value : State → Word64}
    (hr : registerAt offset 64 = some r) (hne : r ≠ .status)
    (hw : ∀ s v rest, State.writeRegIdle { s with inputs := rest } r v = { effect s v with inputs := rest })
    (hv : ∀ s : State, s.readReg r = .ok (value s)) : HostWrites offset effect ∧ HostReads offset value :=
  ⟨hostWrites_of_writeRegIdle hr hw, hostReads_of_readReg hr hne hv⟩

theorem hostIgnores_of_register (hr : registerAt offset 64 = some r) (hd : r.droppedWhileBusy = false) (hne : r ≠ .status) :
    HostIgnores offset := by
  intro s v rest hin
  rw [step_writesRegister hin hr, State.writeReg_eq_self _ v hd hne]

end Access

section Values

/-- A geometry register, which reads 0 while no workspace is allocated (10_state R36 to R38). -/
theorem ofNat_geometry (s : State) (f : Nat → Nat) :
    BitVec.ofNat 64 (s.geometry f) = if s.wsValid then BitVec.ofNat 64 (f s.wsN.toNat) else 0 := by
  unfold State.geometry
  split <;> rfl

/-- WSSTAT (10_state R39). -/
theorem wsStat_eq (s : State) : s.wsStat = if s.wsValid then s.wsN ++ 1#32 else 0 := by
  unfold State.wsStat
  cases s.wsValid with
  | false =>
    simp only [Bool.false_eq_true, if_false]
    decide
  | true => exact BitVec.append_assoc

end Values

end Sys2Proof.Machine

open Sys2Proof.Machine

/-- Settles O10: the offsets of the list reach the registers that drop a write, and a read while BUSY = 1 ends no handshake. -/
theorem writesWhileBusyDropped : Obligations.WritesWhileBusyDropped :=
  ⟨fun _ _ _ _ => step_dropsWrite, fun _ _ _ _ _ hb hr hv hin => step_readsRegister_quiet hin hr (.inr hb) hv⟩

/-- Settles O12: the value read is `statusWord`, and a write acts by bit 2 alone. -/
theorem statusFields : Obligations.StatusFields := by
  refine ⟨fun s rest hin => ?_, fun s v rest hin => ?_, by decide⟩
  · refine ⟨(State.observe { s with inputs := rest } .status).unseen, s.statusWord, ?_, statusWord_fields s⟩
    rw [step_readsRegister (r := .status) hin rfl rfl, State.observe_eq]
  · rw [step_writesRegister (r := .status) hin rfl, State.writeReg_status]

/-- Settles O13: each register's arms of `writeRegIdle` and `readReg`. -/
theorem readWriteRegisters : Obligations.ReadWriteRegisters := by
  exact ⟨hostWrites_and_reads (r := .len) rfl (by decide) (fun _ _ _ => rfl) fun _ => rfl,
    hostWrites_and_reads (r := .size) rfl (by decide) (fun _ _ _ => rfl) fun _ => rfl,
    hostWrites_and_reads (r := .stride) rfl (by decide) (fun _ _ _ => rfl) fun _ => rfl,
    hostWrites_and_reads (r := .dbase) rfl (by decide) (fun _ _ _ => rfl) fun _ => rfl,
    hostWrites_and_reads (r := .tbase) rfl (by decide) (fun _ _ _ => rfl) fun _ => rfl,
    hostWrites_and_reads (r := .sigBase) rfl (by decide) (fun _ _ _ => rfl) fun _ => rfl,
    hostWrites_and_reads (r := .wsidx) rfl (by decide) (fun _ _ _ => rfl) fun _ => rfl,
    hostWrites_and_reads (r := .caRe) rfl (by decide) (fun _ _ _ => rfl) fun _ => rfl,
    hostWrites_and_reads (r := .caIm) rfl (by decide) (fun _ _ _ => rfl) fun _ => rfl,
    hostWrites_and_reads (r := .cbRe) rfl (by decide) (fun _ _ _ => rfl) fun _ => rfl,
    hostWrites_and_reads (r := .cbIm) rfl (by decide) (fun _ _ _ => rfl) fun _ => rfl, rfl, rfl⟩

/-- Settles O14: each register's arm of `readReg`; the other offsets of the list are those of registers that ignore every write;
and an access the map does not have is refused. -/
theorem readOnlyRegisters : Obligations.ReadOnlyRegisters := by
  refine ⟨hostReads_of_readReg (r := .id) rfl (by decide) fun _ => rfl,
    hostReads_of_readReg (r := .larger) rfl (by decide) fun s => congrArg Except.ok (ofNat_geometry s largerSize),
    hostReads_of_readReg (r := .wslen) rfl (by decide) fun s => congrArg Except.ok (ofNat_geometry s wsLength),
    hostReads_of_readReg (r := .r1base) rfl (by decide) fun s => ?_,
    hostReads_of_readReg (r := .r2base) rfl (by decide) fun s => ?_,
    hostReads_of_readReg (r := .r3base) rfl (by decide) fun s => congrArg Except.ok (ofNat_geometry s region3),
    hostReads_of_readReg (r := .r4base) rfl (by decide) fun s => congrArg Except.ok (ofNat_geometry s region4),
    hostReads_of_readReg (r := .wsstat) rfl (by decide) fun s => congrArg Except.ok (wsStat_eq s),
    hostReads_of_readReg (r := .crRe) rfl (by decide) fun _ => rfl,
    hostReads_of_readReg (r := .crIm) rfl (by decide) fun _ => rfl,
    hostReads_of_readReg (r := .wscap) rfl (by decide) fun _ => rfl,
    hostReads_of_readReg (r := .sigwords) rfl (by decide) fun _ => rfl, fun offset ho => ?_, fun offset ho => ?_,
    fun s offset width v rest ha hin => ?_⟩
  · simp [State.readReg, ofNat_geometry, region1]
  · simp [State.readReg, ofNat_geometry, region2, BitVec.ofNat_toNat]
  · have hr : registerAt offset 64 = some .reserved := by
      revert offset
      decide
    exact hostReads_of_readReg hr (by decide) fun _ => rfl
  · have hany : (registerAt offset 64).any (fun r => !r.droppedWhileBusy && r != .status) = true := by
      revert offset
      decide
    obtain ⟨r, hr, hq⟩ := (Option.any_eq_true _ _).mp hany
    simp only [Bool.and_eq_true, Bool.not_eq_true', bne_iff_ne] at hq
    exact hostIgnores_of_register hr hq.1 hq.2
  · have hnone := registerAt_eq_none ha
    rcases hin with hin | hin
    · rw [step_regWrite hin, hostRegWrite, hnone]
    · rw [step_regRead hin, hostRegRead, hnone]
end

section
/-!
PROOFS. The workspace window (10_state R43): a read and a write of either of its two registers, said once over the component that
the register shows.
-/

namespace Sys2Proof.Machine

section Window

variable {s : State} {offset : Nat} {r : Reg} {rest : List HostEvent} {v : Word64} {cells : Cells F64}

theorem State.windowOpen_iff : s.windowOpen = true ↔ s.wsValid = true ∧ s.wsIdx.toNat < s.wsLen := by
  simp [State.windowOpen]

theorem State.windowRead_some (ho : s.windowOpen = true) (hv : cellGet cells s.wsIdx.toNat = some v) :
    s.windowRead cells = .ok v := by
  simp [State.windowRead, ho, hv]

theorem State.windowRead_none (ho : s.windowOpen = true) (hv : cellGet cells s.wsIdx.toNat = none) :
    s.windowRead cells = .error (.uninit .ws s.wsIdx.toNat) := by
  simp [State.windowRead, ho, hv]

theorem State.windowRead_closed (ho : ¬ s.windowOpen = true) : s.windowRead cells = .ok 0 := by
  simp [State.windowRead, ho]

/-- A read of the window register that shows the component `cells`. -/
theorem step_readsWindow (hin : s.inputs = .regRead offset 64 :: rest) (hr : registerAt offset 64 = some r)
    (hne : r ≠ .status) (hw : s.readReg r = s.windowRead cells) :
    (∀ v, s.wsValid = true ∧ s.wsIdx.toNat < s.wsLen → cellGet cells s.wsIdx.toNat = some v →
      step s = .next { s with inputs := rest, rdData := v }) ∧
    (s.wsValid = true ∧ s.wsIdx.toNat < s.wsLen → cellGet cells s.wsIdx.toNat = none →
      step s = .fault (.recorded (s.faults ++ [⟨.uninit .ws s.wsIdx.toNat, none⟩]))) ∧
    (¬ (s.wsValid = true ∧ s.wsIdx.toNat < s.wsLen) → step s = .next { s with inputs := rest, rdData := 0 }) := by
  rw [← State.windowOpen_iff]
  exact ⟨fun _ ho hv => step_readsRegister_quiet hin hr (.inl hne) (hw.trans (State.windowRead_some ho hv)),
    fun ho hv => step_readFaults hin hr (hw.trans (State.windowRead_none ho hv)),
    fun ho => step_readsRegister_quiet hin hr (.inl hne) (hw.trans (State.windowRead_closed ho))⟩

/-- A write of the window register that shows the component `cells` of the memories, where `put` replaces that component. -/
theorem step_writesWindow {put : Cells F64 → Store F64} (hb : s.busy = false)
    (hin : s.inputs = .regWrite offset 64 v :: rest) (hr : registerAt offset 64 = some r)
    (hw : State.writeRegIdle { s with inputs := rest } r v = if s.windowOpen then
      { s with inputs := rest, mem := put (cellSet cells s.wsIdx.toNat v) } else { s with inputs := rest }) :
    (s.wsValid = true ∧ s.wsIdx.toNat < s.wsLen → ∃ c, step s = .next { s with inputs := rest, mem := put c } ∧
      cellGet c s.wsIdx.toNat = some v ∧ ∀ i, i ≠ s.wsIdx.toNat → cellGet c i = cellGet cells i) ∧
    (¬ (s.wsValid = true ∧ s.wsIdx.toNat < s.wsLen) → step s = .next { s with inputs := rest }) := by
  rw [← State.windowOpen_iff, step_writesRegister_idle hb hin hr, hw]
  refine ⟨fun ho => ⟨cellSet cells s.wsIdx.toNat v, by rw [if_pos ho], cellGet_cellSet_same _ _ _, fun i hi => ?_⟩,
    fun ho => by rw [if_neg ho]⟩
  exact cellGet_cellSet_ne _ _ hi

end Window

end Sys2Proof.Machine

open Sys2Proof.Machine

/-- Settles O15: the two registers of the window differ only in the component they show. -/
theorem windowAccess : Obligations.WindowAccess := by
  intro s rest index isOpen
  exact ⟨fun hin => step_readsWindow (r := .wsdatRe) hin rfl (by decide) rfl,
    fun hin => step_readsWindow (r := .wsdatIm) hin rfl (by decide) rfl,
    fun v hb hin => step_writesWindow (r := .wsdatRe) (put := fun c => { s.mem with wsRe := c }) hb hin rfl rfl,
    fun v hb hin => step_writesWindow (r := .wsdatIm) (put := fun c => { s.mem with wsIm := c }) hb hin rfl rfl⟩
end

section
/-!
PROOFS. The issue of a command (10_state R23) and the signal buffer on which its handshake begins (20_memory R62, R74 c).
-/

namespace Sys2Proof.Machine

section Issue

variable {s : State} {i : Instr} {word : Word32} {o : Operands} {w : Nat}

/-- 20_memory R74 c: the issue adds the words of the command's buffer to those of the handshakes that have begun. -/
theorem inUnseen_issue : (s.issue word).inUnseen w = true ↔
    s.inUnseen w = true ∨ ∃ b, s.bufferOf word = some b ∧ b.1 ≤ w ∧ w < b.2 := by
  simp only [State.inUnseen, State.issue_unseen, List.any_append, Bool.or_eq_true]
  rw [or_comm]
  cases s.bufferOf word <;> simp

theorem bufferOf_of_decode (h : decode word = .ok i) : s.bufferOf word = signalBuffer s.operands i := by
  simp [State.bufferOf, h]

theorem signalBuffer_fft2_sig (dir : Dir) (plan : Plan) : signalBuffer o (.fft2 dir plan .sig) =
    if planNeedsData plan = true ∧ o.size ≠ 0 then some (o.sigBase, o.sigBase + 2 * o.last + 2) else none := by
  simp [signalBuffer, planNeedsData]

/-- The words of a data operand lie between the base and the last element (41_radix2_fft R143). -/
theorem Operands.IsDataWord.mem_buffer (h : o.IsDataWord w) :
    o.size ≠ 0 ∧ o.sigBase ≤ w ∧ w < o.sigBase + 2 * o.last + 2 := by
  obtain ⟨e, he, hw⟩ := h
  have hlast : o.dataIndex e ≤ o.last := Nat.add_le_add_left (Nat.mul_le_mul_right _ (by omega)) _
  omega

theorem operands_size_ne_zero : s.operands.size ≠ 0 ↔ s.size ≠ 0 := (BitVec.toNat_ne (y := 0)).symm

end Issue

end Sys2Proof.Machine

open Sys2Proof.Machine

/-- Settles O8: an idle write of CMD is `State.issue`, and the buffer it uses is `signalBuffer` of the decoded command. -/
theorem cmdWriteIssues : Obligations.CmdWriteIssues := by
  refine ⟨fun s v rest hb hin => ⟨State.issue { s with inputs := rest } (v.setWidth 32), ?_, rfl, fun w => ?_⟩,
    fun s v i hd => ⟨?_, fun dir plan w hi hp hw => ?_⟩,
    hostReads_of_readReg (r := .cmd) rfl (by decide) fun _ => rfl, fun s v rest hb => step_dropsWrite hb (by decide)⟩
  · exact step_writesRegister_idle (r := .cmd) hb hin rfl
  · exact inUnseen_issue
  · rw [bufferOf_of_decode hd]
    cases i with
    | fft2 dir plan dsp =>
      cases dsp with
      | sig =>
        simp only [signalBuffer_fft2_sig, operands_size_ne_zero]
        rfl
      | ws => rfl
    | _ => rfl
  · obtain ⟨hsize, hbase, hend⟩ := hw.mem_buffer
    subst hi
    exact ⟨_, by rw [bufferOf_of_decode hd, signalBuffer_fft2_sig, if_pos ⟨hp, hsize⟩], hbase, hend⟩
end

section
/-!
PROOFS. What a step can do, said once: the forms of its next state by the agent that moves, and from them the two bits of STATUS
that the host's writes and the engine share, BUSY (10_state R25) and OVERRUN (10_state R27).
-/

namespace Sys2Proof.Machine

/-- The forms of the next state `t` of a step. -/
inductive StepNext (s : State) : State → Prop
  /-- The engine's turn; only a pause is used up. -/
  | engine {t : State} (pending : List HostEvent) : s.EngineTurn → engineStep { s with inputs := pending } = .next t →
      StepNext s t
  /-- A register write. -/
  | regWrite {offset : Nat} {v : Word64} {rest : List HostEvent} {r : Reg} :
      s.inputs = .regWrite offset 64 v :: rest → registerAt offset 64 = some r →
      StepNext s (State.writeReg { s with inputs := rest } r v)
  /-- A register read, also the one that ends a poll. -/
  | regRead {ev : HostEvent} {rest : List HostEvent} (r : Reg) (v : Word64) :
      s.inputs = ev :: rest → s.readReg r = .ok v →
      StepNext s { State.observe { s with inputs := rest } r with rdData := v }
  /-- A write of a signal word outside the buffers in use. -/
  | sigWrite {w : Nat} {v : Word64} {rest : List HostEvent} : s.inputs = .sigWrite w v :: rest → w < s.cfg.sigWords →
      s.inUnseen w = false → StepNext s { s with inputs := rest, mem := sigWrite s.mem w v }
  /-- A write of a signal word that is a race. -/
  | race {w : Nat} {v : Word64} {rest : List HostEvent} : s.inputs = .sigWrite w v :: rest → w < s.cfg.sigWords →
      s.inUnseen w = true → StepNext s (State.race { s with inputs := rest } w v)
  /-- A read of a signal word. -/
  | sigRead {w : Nat} {rest : List HostEvent} (v : Word64) (draws : Nat) : s.inputs = .sigRead w :: rest →
      StepNext s { s with inputs := rest, rdData := v, draws := draws }
  /-- The platform's reset. -/
  | reset {rest : List HostEvent} : s.inputs = .reset :: rest → StepNext s (State.applyReset { s with inputs := rest })

section StepNext

variable {s t : State}

theorem hostRegRead_next {offset width : Nat} (h : hostRegRead s offset width = .next t) :
    ∃ r v, s.readReg r = .ok v ∧ t = { s.observe r with rdData := v } := by
  unfold hostRegRead at h
  split at h
  · next r _ =>
    split at h
    · next v hv => exact ⟨r, v, hv, (Host.Outcome.next.inj h).symm⟩
    · cases h
  · cases h

theorem hostSigRead_next {w : Nat} (h : hostSigRead s w = .next t) :
    ∃ v draws, t = { s with rdData := v, draws := draws } := by
  unfold hostSigRead at h
  split at h
  · cases h
  · split at h
    · exact ⟨_, _, (Host.Outcome.next.inj h).symm⟩
    · split at h
      · exact ⟨_, s.draws, (Host.Outcome.next.inj h).symm⟩
      · cases h

/-- What a step can answer as its next state. -/
theorem step_next (h : step s = .next t) : StepNext s t := by
  cases hin : s.inputs with
  | nil =>
    rw [step_nil hin] at h
    exact .engine s.inputs (.inl hin) h
  | cons ev rest =>
    cases ev with
    | regWrite offset width v =>
      rw [step_regWrite hin] at h
      cases hr : registerAt offset width with
      | none =>
        simp [hostRegWrite, hr] at h
      | some r =>
        obtain rfl := width_of_registerAt hr
        rw [hostRegWrite_at v hr] at h
        cases h
        exact .regWrite hin hr
    | regRead offset width =>
      rw [step_regRead hin] at h
      obtain ⟨r, v, hv, rfl⟩ := hostRegRead_next h
      exact .regRead r v hin ((readReg_inputs s rest r).symm.trans hv)
    | sigWrite w v =>
      rw [step_sigWrite hin, hostSigWrite] at h
      split at h
      · cases h
      · next hw =>
        split at h
        · next hu =>
          cases h
          exact .race hin (Nat.lt_of_not_le hw) hu
        · next hu =>
          cases h
          exact .sigWrite hin (Nat.lt_of_not_le hw) (Bool.eq_false_iff.mpr hu)
    | sigRead w =>
      rw [step_sigRead hin] at h
      obtain ⟨v, draws, rfl⟩ := hostSigRead_next h
      exact .sigRead v draws hin
    | poll =>
      rw [step_poll hin] at h
      split at h
      · exact .engine s.inputs (.inr ⟨rest, .inl hin⟩) h
      · obtain ⟨r, v, hv, rfl⟩ := hostRegRead_next h
        exact .regRead r v hin ((readReg_inputs s rest r).symm.trans hv)
    | engine =>
      rw [step_engine hin] at h
      exact .engine rest (.inr ⟨rest, .inr hin⟩) h
    | reset =>
      rw [step_reset hin] at h
      cases h
      exact .reset hin

end StepNext

section Status

variable {s t : State}

/-- 60_exceptions R262: however a command ends, BUSY goes to 0, DONE to 1, and OVERRUN stays. -/
theorem exec_ends {i : Instr} (h : exec i s = .next t) : t.running = none ∧ t.done = true ∧ t.overrun = s.overrun := by
  cases exec_next h <;> simp

/-- The engine is idle, or ends the command that runs. -/
theorem engineStep_next (h : engineStep s = .next t) :
    (s.running = none ∧ t = s) ∨ (s.busy = true ∧ t.running = none ∧ t.done = true ∧ t.overrun = s.overrun) := by
  rcases engineStep_cases s with ⟨hr, he⟩ | ⟨word, i, hr, -, he⟩ | ⟨word, e, hr, -, he⟩ <;> rw [he] at h
  · exact .inl ⟨hr, (Host.Outcome.next.inj h).symm⟩
  · refine .inr ⟨by simp [State.busy, hr], ?_⟩
    obtain ⟨u, hu, ⟨-, rfl⟩ | ⟨-, rfl⟩⟩ := settleRace_cases h
    · exact exec_ends hu
    · exact (exec_ends hu :)
  · cases h
    exact .inr ⟨by simp [State.busy, hr], rfl, rfl, rfl⟩

/-- With a command running, the engine's turn is its step (30_encoding R105). -/
theorem step_engineTurn (hb : s.busy = true) (ht : s.EngineTurn) :
    ∃ pending, step s = engineStep { s with inputs := pending } := by
  rcases ht with hin | ⟨rest, hin | hin⟩
  · exact ⟨s.inputs, step_nil hin⟩
  · exact ⟨s.inputs, by rw [step_poll hin, if_pos hb]⟩
  · exact ⟨rest, step_engine hin⟩

/-- Only a write of CMD starts a command (10_state R25). -/
theorem writeRegIdle_running {r : Reg} (s : State) (v : Word64) (hr : r ≠ .cmd) :
    (s.writeRegIdle r v).running = s.running := by
  cases r <;> simp only [State.writeRegIdle, ne_eq, not_true_eq_false] at hr ⊢
  case status => split <;> rfl
  case wsdatRe => split <;> rfl
  case wsdatIm => split <;> rfl

/-- Of the writes that have their effect, only one of STATUS acts on OVERRUN (10_state R27). -/
theorem writeRegIdle_overrun {r : Reg} (s : State) (v : Word64) (hr : r ≠ .status) :
    (s.writeRegIdle r v).overrun = s.overrun := by
  cases r <;> simp only [State.writeRegIdle, State.issue_overrun, ne_eq, not_true_eq_false] at hr ⊢
  case wsdatRe => split <;> rfl
  case wsdatIm => split <;> rfl

/-- 10_state R25: a register write leaves the running command, or is the issue of one. -/
theorem writeReg_running {offset : Nat} {r : Reg} (s : State) (v : Word64) (hr : registerAt offset 64 = some r) :
    (s.writeReg r v).running = s.running ∨
    (s.busy = false ∧ offset = 0x08 ∧ s.writeReg r v = s.issue (v.extractLsb' 0 32)) := by
  rcases writeReg_cases s r v with ⟨-, -, hw⟩ | ⟨hidle, hw⟩ <;> rw [hw]
  · exact .inl rfl
  · by_cases hc : r = .cmd
    · subst hc
      exact .inr ⟨hidle.resolve_right (by decide), (eq_cmd_iff hr).mp rfl, rfl⟩
    · exact .inl (writeRegIdle_running s v hc)

end Status

end Sys2Proof.Machine

open Sys2Proof.Machine

/-- Settles O9: an idle write of CMD is `State.issue`, the engine's turn ends the command, and of the forms of a step only these
two and the reset change `running`. -/
theorem busyChangesOnlyAtIssueAndCompletion : Obligations.BusyChangesOnlyAtIssueAndCompletion := by
  refine ⟨fun s v rest hb hin => ⟨_, step_writesRegister_idle (r := .cmd) hb hin rfl, rfl, rfl, rfl, rfl⟩,
    fun s t hb hturn h => ?_, fun s t h => ?_⟩
  · obtain ⟨pending, hstep⟩ := step_engineTurn hb hturn
    rcases engineStep_next (hstep.symm.trans h) with ⟨hidle, -⟩ | ⟨-, hrun, hdone, -⟩
    · exact absurd hb (by simp [State.busy, show s.running = none from hidle])
    · exact ⟨hrun, hdone⟩
  · cases step_next h with
    | engine pending hturn he =>
      rcases engineStep_next he with ⟨-, rfl⟩ | ⟨hb, hrun, hdone, -⟩
      · exact .inl rfl
      · exact .inr (.inr (.inl ⟨hb, hturn, hrun, hdone⟩))
    | regWrite hin hr =>
      rcases writeReg_running _ _ hr with hrun | ⟨hb, ho, hw⟩
      · exact .inl hrun
      · subst ho
        rw [hw]
        exact .inr (.inl ⟨hb, ⟨_, _, hin, rfl⟩, rfl, rfl, rfl⟩)
    | regRead r v hin => exact .inl (State.observe_running _ r)
    | sigWrite hin => exact .inl rfl
    | race hin => exact .inl rfl
    | sigRead v draws hin => exact .inl rfl
    | reset hin => exact .inr (.inr (.inr ⟨_, hin, rfl⟩))

/-- Settles O11: the write of STATUS, the reset and the dropped write each run; every other form of a step keeps OVERRUN. -/
theorem overrunIsSticky : Obligations.OverrunIsSticky := by
  intro s t h cleared set
  refine ⟨?_, ?_, fun hclear hset => ?_⟩
  · rintro (⟨v, rest, hin, hbit⟩ | ⟨rest, hin⟩)
    · rw [step_writesRegister (r := .status) hin rfl, State.writeReg_status] at h
      cases h
      simp [hbit]
    · rw [step_reset hin] at h
      cases h
      rfl
  · rintro ⟨hb, offset, v, rest, hin, ho⟩
    rw [step_dropsWrite hb ho hin] at h
    cases h
    rfl
  · cases step_next h with
    | engine pending hturn he =>
      rcases engineStep_next he with ⟨-, rfl⟩ | ⟨-, -, -, ho⟩
      · rfl
      · exact ho
    | @regWrite offset v rest r hin hr =>
      rcases writeReg_cases { s with inputs := rest } r v with ⟨hb, hd, -⟩ | ⟨-, hw⟩
      · exact absurd ⟨hb, offset, v, rest, hin, (droppedWhileBusy_iff hr).mp hd⟩ hset
      · by_cases hs : r = .status
        · subst hs
          obtain rfl := (eq_status_iff hr).mp rfl
          have hbit : v.getLsbD 2 = false := Bool.eq_false_iff.mpr fun hv => hclear (.inl ⟨v, rest, hin, hv⟩)
          rw [State.writeReg_status, hbit]
          exact Bool.and_true _
        · rw [hw, writeRegIdle_overrun _ v hs]
    | regRead r v hin => exact State.observe_overrun _ r
    | sigWrite hin => rfl
    | race hin => rfl
    | sigRead v draws hin => rfl
    | reset hin => exact absurd (.inr ⟨_, hin⟩) hclear
end

section
/-!
PROOFS. The invariant: one lemma per state operation that says the operation keeps it, and from these that every command and
every form of a step does (20_memory R61, R63, 10_state R25, R29, R39, 60_exceptions R260).
-/

namespace Sys2Proof.Machine

section Operations

variable {s : State}

/-- New memories keep the invariant if they are canonical and lie in the address spaces (20_memory R61, R63). -/
theorem Inv.withMem {m : Store F64} (h : Inv s) (hwf : m.wf = true) (hin : m.within s.cfg.sigWords s.wsLen = true) :
    Inv { s with mem := m } :=
  { h with memWf := hwf, memWithin := hin }

/-- A new signal memory, with the model's own fields of a race. -/
theorem Inv.withSig {c : Cells F64} (h : Inv s) (hwf : cellsWf c = true) (hin : cellsBelow s.cfg.sigWords c = true)
    (draws : Nat) (raced : Bool) : Inv { s with mem := { s.mem with sig := c }, draws := draws, raced := raced } :=
  { h with
    memWf := (Store.wf_iff _).2 ⟨hwf, ((Store.wf_iff _).1 h.memWf).2⟩
    memWithin := (Store.within_iff _ _ _).2 ⟨hin, ((Store.within_iff _ _ _).1 h.memWithin).2⟩ }

theorem Inv.cellsWf_sig (h : Inv s) : cellsWf s.mem.sig = true := ((Store.wf_iff _).1 h.memWf).1

theorem Inv.cellsBelow_sig (h : Inv s) : cellsBelow s.cfg.sigWords s.mem.sig = true :=
  ((Store.within_iff _ _ _).1 h.memWithin).1

/-- The issue of a command clears DONE, ERR and ERR_INFO (10_state R25). -/
theorem Inv.issue (h : Inv s) (word : Word32) : Inv (s.issue word) :=
  { h with
    errAssigned := by simp
    errInfoNone := fun _ => rfl
    busyStatus := fun _ => ⟨rfl, rfl, rfl⟩ }

/-- A command that completes leaves ERR = NONE (60_exceptions R262). -/
theorem Inv.complete (h : Inv s) : Inv s.complete :=
  { h with
    errAssigned := by simp
    errInfoNone := fun _ => rfl
    busyStatus := by simp }

/-- A command that raises leaves an assigned code, which is not NONE (60_exceptions R260). -/
theorem Inv.raise (h : Inv s) (e : Err) : Inv (s.raise e) :=
  { h with
    errAssigned := ErrCode.code_le e.code
    errInfoNone := fun hnone => absurd hnone (ErrCode.code_ne_zero e.code)
    busyStatus := by simp }

theorem Inv.drawAlloc (h : Inv s) : Inv s.drawAlloc := by
  rw [State.drawAlloc_eq]
  exact { h with }

/-- 43_driver_workspace R200: a workspace that fits the capacity, allocated for a legal length. -/
theorem Inv.allocate {n : Nat} (h : Inv s) (hpos : 1 ≤ n) (hmax : n ≤ nMax) (hcap : wsLength n ≤ s.cfg.wsCapacity) :
    Inv (s.allocate n) := by
  have hn : (BitVec.ofNat 32 n).toNat = n :=
    (BitVec.toNat_ofNat n 32).trans (Nat.mod_eq_of_lt (lt_of_le_of_lt hmax (by decide)))
  have hlen : (s.allocate n).wsLen = wsLength n := congrArg wsLength hn
  exact { h with
    memWf := wf_clearWs h.memWf
    memWithin := within_clearWs h.memWithin _
    wsLegal := fun _ => by
      rw [hlen, State.allocate_wsN, hn]
      exact ⟨hpos, hmax, hcap⟩
    wsNone := nofun }

/-- 43_driver_workspace R203: the release of the workspace, whatever the workspace holds. -/
theorem Inv.release {m : Store F64} (h : Inv s) (hwf : cellsWf m.sig = true)
    (hin : cellsBelow s.cfg.sigWords m.sig = true) : Inv ({ s with mem := m }.release) :=
  { h with
    memWf := (Store.wf_iff _).2 ⟨hwf, rfl, rfl⟩
    memWithin := (Store.within_iff _ _ _).2 ⟨hin, rfl, rfl⟩
    wsLegal := nofun
    wsNone := fun _ => rfl }

/-- 93_implementation_defined I7: the free values that a race leaves. -/
theorem Inv.freeSig (h : Inv s) (range : Nat × Nat) (raced : Bool) : Inv { s.freeSig range with raced := raced } :=
  h.withSig (cellsWf_freeHeld h.cellsWf_sig) (cellsBelow_freeHeld h.cellsBelow_sig) _ raced

/-- 20_memory R61: a write of a signal word that exists. -/
theorem Inv.sigWrite {w : Nat} (h : Inv s) (v : Word64) (hw : w < s.cfg.sigWords) :
    Inv { s with mem := sigWrite s.mem w v } :=
  h.withMem (wf_sigWrite w v h.memWf) (within_sigWrite v h.memWithin hw)

theorem Inv.race {w : Nat} (h : Inv s) (v : Word64) (hw : w < s.cfg.sigWords) : Inv (s.race w v) :=
  (h.sigWrite v hw).freeSig _ _

theorem Inv.observe (h : Inv s) (r : Reg) : Inv (s.observe r) := by
  rw [State.observe_eq]
  exact { h with }

theorem inv_reset : Inv State.reset where
  memWf := rfl
  memWithin := rfl
  wsLegal := nofun
  wsNone _ := rfl
  errAssigned := by decide
  errInfoNone _ := rfl
  busyStatus := nofun

/-- 70_reset R290, R291: the reset fills only signal words that exist. -/
theorem Inv.applyReset (h : Inv s) : Inv s.applyReset :=
  { inv_reset with
    memWf := (Store.wf_iff _).2 ⟨cellsWf_freeFill h.cellsWf_sig, rfl, rfl⟩
    memWithin := (Store.within_iff _ _ _).2 ⟨cellsBelow_freeFill h.cellsBelow_sig (lostWords_le s), rfl, rfl⟩
    wsLegal := nofun }

/-- 10_state R43: a write of a component through the open window falls inside the workspace. -/
theorem Inv.writeWindow (h : Inv s) (hopen : s.windowOpen = true) (v : Word64) :
    Inv { s with mem := { s.mem with wsRe := cellSet s.mem.wsRe s.wsIdx.toNat v } } ∧
    Inv { s with mem := { s.mem with wsIm := cellSet s.mem.wsIm s.wsIdx.toNat v } } := by
  have hidx := (State.windowOpen_iff.1 hopen).2
  obtain ⟨hsig, hre, him⟩ := (Store.wf_iff _).1 h.memWf
  obtain ⟨hsig', hre', him'⟩ := (Store.within_iff _ _ _).1 h.memWithin
  exact ⟨h.withMem ((Store.wf_iff _).2 ⟨hsig, cellsWf_cellSet _ v hre, him⟩)
      ((Store.within_iff _ _ _).2 ⟨hsig', cellsBelow_cellSet v hre' hidx, him'⟩),
    h.withMem ((Store.wf_iff _).2 ⟨hsig, hre, cellsWf_cellSet _ v him⟩)
      ((Store.within_iff _ _ _).2 ⟨hsig', hre', cellsBelow_cellSet v him' hidx⟩)⟩

theorem Inv.writeRegIdle (h : Inv s) (r : Reg) (v : Word64) : Inv (s.writeRegIdle r v) := by
  cases r with
  | cmd => exact h.issue _
  | status =>
    simp only [State.writeRegIdle]
    split
    · exact { h with }
    · exact h
  | wsdatRe =>
    simp only [State.writeRegIdle]
    split
    · next hopen => exact (h.writeWindow hopen v).1
    · exact h
  | wsdatIm =>
    simp only [State.writeRegIdle]
    split
    · next hopen => exact (h.writeWindow hopen v).2
    · exact h
  | _ => exact { h with }

theorem Inv.writeReg (h : Inv s) (r : Reg) (v : Word64) : Inv (s.writeReg r v) := by
  rcases writeReg_cases s r v with ⟨-, -, hw⟩ | ⟨-, hw⟩ <;> rw [hw]
  · exact { h with }
  · exact h.writeRegIdle r v

end Operations

section Moves

variable {i : Instr} {s t : State}

/-- A command that neither allocates nor releases keeps the memories canonical and in their address spaces. -/
theorem Inv.exec_memory (hs : Inv s) (h : exec i s = .next t) (ha : i.allocates = false) (hf : i ≠ .wsfree) :
    t.mem.wf = true ∧ t.mem.within s.cfg.sigWords s.wsLen = true :=
  exec_keeps h (fun m => m.wf = true ∧ m.within s.cfg.sigWords s.wsLen = true)
    (fun _ _ w v _ hw hP => ⟨wf_sigWrite w v hP.1, within_sigWrite v hP.2 hw⟩)
    (fun _ _ k c hk hP => ⟨wf_wsWrite k c hP.1, within_wsWrite c hP.2 hk⟩) ha hf ⟨hs.memWf, hs.memWithin⟩

/-- A command that allocates keeps the signal memory canonical and in its address space. -/
theorem Inv.exec_signal (hs : Inv s) (h : exec i s = .next t) (ha : i.allocates = true) :
    cellsWf t.mem.sig = true ∧ cellsBelow s.cfg.sigWords t.mem.sig = true :=
  exec_driver_keeps h (fun m => cellsWf m.sig = true ∧ cellsBelow s.cfg.sigWords m.sig = true)
    (fun _ w v _ hw hP => ⟨cellsWf_cellSet w v hP.1, cellsBelow_cellSet v hP.2 hw⟩) (fun _ _ _ hP => hP) (fun _ hP => hP)
    (.inl ha) ⟨hs.cellsWf_sig, hs.cellsBelow_sig⟩

theorem Inv.exec (hs : Inv s) (h : exec i s = .next t) : Inv t := by
  cases exec_next h with
  | error e => exact hs.raise e
  | outOfMemory len => exact hs.drawAlloc.raise _
  | alu c => exact Inv.complete { hs with }
  | memory m halu ha hf =>
    obtain ⟨hwf, hin⟩ := hs.exec_memory h ha hf
    exact (hs.withMem hwf hin).complete
  | free => exact (hs.release hs.cellsWf_sig hs.cellsBelow_sig).complete
  | allocated hi hfree hpos hmax halloc =>
    refine (hs.drawAlloc.allocate hpos hmax ?_).complete
    rw [State.drawAlloc_cfg]
    exact allocOk_le halloc
  | driver n m ha =>
    obtain ⟨hwf, hin⟩ := hs.exec_signal h ha
    rw [← State.drawAlloc_cfg] at hin
    exact (hs.drawAlloc.release hwf hin).complete

theorem Inv.engineStep (hs : Inv s) (h : engineStep s = .next t) : Inv t := by
  rcases engineStep_cases s with ⟨-, he⟩ | ⟨word, i, -, -, he⟩ | ⟨word, e, -, -, he⟩ <;> rw [he] at h
  · cases h
    exact hs
  · obtain ⟨u, hu, ⟨-, rfl⟩ | ⟨-, rfl⟩⟩ := settleRace_cases h
    · exact hs.exec hu
    · exact (hs.exec hu).freeSig _ _
  · cases h
    exact hs.raise _

/-- The pending moves are no part of the invariant. -/
theorem Inv.withInputs (hs : Inv s) (rest : List HostEvent) : Inv { s with inputs := rest } :=
  { hs with }

theorem Inv.step (hs : Inv s) (h : step s = .next t) : Inv t := by
  cases step_next h with
  | engine pending hturn he => exact (hs.withInputs pending).engineStep he
  | @regWrite offset v rest r hin hr => exact (hs.withInputs rest).writeReg r v
  | @regRead ev rest r v hin hv => exact { (hs.withInputs rest).observe r with }
  | @sigWrite w v rest hin hw => exact (hs.withInputs rest).sigWrite v hw
  | @race w v rest hin hw => exact (hs.withInputs rest).race v hw
  | sigRead v draws hin => exact { hs with }
  | @reset rest hin => exact (hs.withInputs rest).applyReset

end Moves

end Sys2Proof.Machine

open Sys2Proof.Machine

/-- Settles O20: each form of a step is a state operation that keeps the invariant. -/
theorem stepKeepsInv : Obligations.StepKeepsInv :=
  fun _ _ hs h => hs.step h

/-- Settles O19: the memories are empty, there is no workspace, and STATUS is 0. -/
theorem invHoldsAtReset : Obligations.InvHoldsAtReset :=
  inv_reset
end

section
/-!
PROOFS. The engine's turn (30_encoding R100, R105) and the host's accesses to the signal memory (20_memory R61, R74,
R75), each read off the lemma of the move it makes.
-/

namespace Sys2Proof.Machine

section EngineTurn

variable {s u : State} {rest : List HostEvent} {v : Word32} {i : Instr}

/-- 93_implementation_defined I7: the race of a host write with a command, settled when the command ends. -/
theorem stepExecutes_of_engineStep (hr : u.running = some v) (hd : decode v = .ok i) (h : step s = engineStep u) :
    StepExecutes s i u := by
  rw [engineStep_ok hr hd] at h
  refine ⟨fun hn => h.trans (settleRace_of_not_raced hn _), fun hraced => ⟨fun t ht => ?_, fun f hf => ?_⟩⟩
  · rw [h, ht]
    exact settleRace_next hraced t
  · rw [h, hf]
    simp [settleRace, hraced]

theorem busy_of_running (hr : s.running = some v) : s.busy = true := by
  simp [State.busy, hr]

theorem busy_eq_false (hr : s.running = none) : s.busy = false := by
  simp [State.busy, hr]

/-- An idle engine changes nothing (60_exceptions R280). -/
theorem engineStep_idle (hr : s.running = none) : engineStep s = .next s := by
  simp [engineStep, hr]

/-- A word placed for the next step is the CMD write followed by the engine's turn (30_encoding R105). -/
theorem step_withFetchWord (s : State) (v : Word32) : step (s.withFetchWord 32 v.toNat) = engineStep (s.issue v) := by
  have hv : BitVec.ofNat 32 (v.toNat % 2 ^ 32) = v := by rw [Nat.mod_eq_of_lt v.isLt, BitVec.ofNat_toNat, BitVec.setWidth_eq]
  rw [State.withFetchWord, hv, step_engine (State.latch_inputs s v)]
  rfl

/-- 20_memory R74: the read of STATUS that shows BUSY = 0 ends every handshake. -/
theorem hostRegRead_status_idle (hb : s.busy = false) :
    hostRegRead s 0x10 64 = .next { s with rdData := s.statusWord, unseen := [] } := by
  rw [hostRegRead_at (r := .status) rfl rfl]
  simp [State.observe, hb]

/-- With nothing running, a read of STATUS and a poll make the same move (30_encoding R105). -/
theorem step_readsStatus_idle (hb : s.busy = false)
    (hin : s.inputs = .regRead 0x10 64 :: rest ∨ s.inputs = .poll :: rest) :
    step s = .next { s with inputs := rest, rdData := s.statusWord, unseen := [] } := by
  have hread : step s = hostRegRead { s with inputs := rest } 0x10 64 := by
    rcases hin with hin | hin
    · exact step_regRead hin
    · simp [step_poll hin, hb]
  exact hread.trans (hostRegRead_status_idle hb)

end EngineTurn

section SignalAccess

variable {s : State} {w : Nat}

/-- A write of a signal word in use is a race (20_memory R74). -/
theorem hostSigWrite_race (v : Word64) (hw : w < s.cfg.sigWords) (hu : s.inUnseen w = true) :
    hostSigWrite s w v = .next (s.race w v) := by
  simp [hostSigWrite, hw, hu]

theorem hostSigWrite_plain (v : Word64) (hw : w < s.cfg.sigWords) (hu : s.inUnseen w = false) :
    hostSigWrite s w v = .next { s with mem := sigWrite s.mem w v } := by
  simp [hostSigWrite, hw, hu]

/-- A read of a signal word in use is any value (70_reset R305). -/
theorem hostSigRead_inUse (hw : w < s.cfg.sigWords) (hu : s.inUnseen w = true) :
    hostSigRead s w = .next { s with rdData := Config.freeWord s.draws, draws := s.draws + 1 } := by
  simp [hostSigRead, hw, hu]

theorem hostSigRead_value {v : Word64} (hw : w < s.cfg.sigWords) (hu : s.inUnseen w = false)
    (hv : cellGet s.mem.sig w = some v) : hostSigRead s w = .next { s with rdData := v } := by
  simp [hostSigRead, hw, hu, sigRead, hv]

/-- 60_exceptions R270: a read of a word that holds no value. -/
theorem hostSigRead_uninit (hw : w < s.cfg.sigWords) (hu : s.inUnseen w = false) (hv : cellGet s.mem.sig w = none) :
    hostSigRead s w = .fault (.recorded (s.faults ++ [⟨.uninit .sig w, none⟩])) := by
  simp [hostSigRead, hw, hu, sigRead, hv, recordFault]

/-- A word at or above SIG_WORDS does not exist (20_memory R61, R71). -/
theorem hostSigWrite_outOfRange (v : Word64) (hw : s.cfg.sigWords ≤ w) : hostSigWrite s w v = .fault (.sigRange w) :=
  if_pos hw

theorem hostSigRead_outOfRange (hw : s.cfg.sigWords ≤ w) : hostSigRead s w = .fault (.sigRange w) :=
  if_pos hw

/-- A race with the running command is marked (20_memory R74). -/
theorem race_raced_iff (v : Word64) : (s.race w v).raced = true ↔ s.raced = true ∨ s.IsRunningWord w := by
  rw [State.race_raced, Bool.or_eq_true, inRunning_iff]

end SignalAccess

end Sys2Proof.Machine

open Sys2Proof.Machine

/-- Settles O7: the engine's turn is `engineStep`, and while the engine is idle a poll is a read of STATUS. -/
theorem stepRunsDecodedInstruction : Obligations.StepRunsDecodedInstruction := by
  refine ⟨fun s v i hr hd => ⟨fun hin => ?_, fun rest hin => ?_, fun rest hin => ?_⟩, fun s v i hd => ?_,
    fun s hr => ⟨fun hin => ?_, fun rest hin => ?_, fun rest hin => ?_⟩⟩
  · exact stepExecutes_of_engineStep hr hd (step_nil hin)
  · exact stepExecutes_of_engineStep hr hd (by rw [step_poll hin, if_pos (busy_of_running hr)])
  · exact stepExecutes_of_engineStep hr hd (step_engine hin)
  · rw [step_withFetchWord, engineStep_ok (State.issue_running s v) hd, settleRace_of_not_raced (State.issue_raced s v)]
  · rw [step_nil hin, engineStep_idle hr]
  · exact step_readsStatus_idle (busy_eq_false hr) (.inr hin)
  · rw [step_engine hin]
    exact engineStep_idle hr

/-- Settles O18: a race touches the words of `raceRange`, every other write is `cellSet`, and the read of STATUS empties the
list of the words in use. -/
theorem signalMemoryAccess : Obligations.SignalMemoryAccess := by
  refine ⟨fun s w v rest hin => ?_, fun s w rest hin => ?_, fun s t rest hin hb h w => ?_⟩
  · rw [step_sigWrite hin]
    exact ⟨fun hw => hostSigWrite_outOfRange v hw,
      fun hw hu => ⟨_, _, _, hostSigWrite_race v hw hu, race_raced_iff v, race_sig _ w v⟩,
      fun hw hu => ⟨_, hostSigWrite_plain v hw hu, cellGet_cellSet_same _ w v, fun _ => cellGet_cellSet_ne _ v⟩⟩
  · rw [step_sigRead hin]
    exact ⟨fun hw => hostSigRead_outOfRange hw, fun hw hu => ⟨_, hostSigRead_inUse hw hu⟩,
      fun hw hu => ⟨fun _ hv => hostSigRead_value hw hu hv, fun hv => hostSigRead_uninit hw hu hv⟩⟩
  · rw [step_readsStatus_idle hb hin] at h
    cases h
    rfl
end

section
/-!
PROOFS. An allocated workspace through a step (20_memory R70 b, 43_driver_workspace R202): WSFREE alone, of all commands,
releases it, and of the moves of the host none but the reset.
-/

namespace Sys2Proof

section DecodeFormats

variable {v : Word32} {i : Instr}

/-- A word of format S (30_encoding R92). -/
@[simp] theorem decodeS_eq_ok {j : Instr} : decodeS v j = .ok i ↔ v.extractLsb' 8 24 = 0 ∧ j = i := by
  unfold decodeS
  split <;> simp only [*, true_and, false_and, Except.ok.injEq, reduceCtorEq]

/-- A word of format D (30_encoding R92). -/
@[simp] theorem decodeD_eq_ok {j : Dir → Instr} :
    decodeD v j = .ok i ↔ v.extractLsb' 9 23 = 0 ∧ j (dirOfBit (v.getLsbD 8)) = i := by
  unfold decodeD
  split <;> simp only [*, true_and, false_and, Except.ok.injEq, reduceCtorEq]

/-- Format P encodes no command but FFT2 (30_encoding R92). -/
theorem exists_fft2_of_decodeP (h : decodeP v = .ok i) : ∃ dir plan dsp, i = .fft2 dir plan dsp := by
  simp only [decodeP] at h
  split_ifs at h <;> exact ⟨_, _, _, (Except.ok.inj h).symm⟩

/-- A word is given by its opcode byte and the bits above it (30_encoding R91). -/
theorem eq_append_opcode (v : Word32) : v = v.extractLsb' 8 24 ++ v.extractLsb' 0 8 :=
  ((BitVec.extractLsb'_append_extractLsb'_eq_extractLsb' (start₁ := 0) (len₁ := 8) (len₂ := 24) (start₂ := 8) rfl).trans
    BitVec.extractLsb'_eq_self).symm

/-- The one word of WSFREE (30_encoding R98, R102). -/
theorem eq_encode_wsfree (h : decode v = .ok .wsfree) : v = encode .wsfree := by
  have hbits : v.extractLsb' 0 8 = 0x11#8 ∧ v.extractLsb' 8 24 = 0 := by
    unfold decode at h
    split at h
    case h_4 hop => exact ⟨hop, (decodeS_eq_ok.1 h).1⟩
    case h_5 =>
      obtain ⟨_, _, _, hi⟩ := exists_fft2_of_decodeP h
      cases hi
    all_goals simp at h
  rw [eq_append_opcode v, hbits.1, hbits.2]
  rfl

end DecodeFormats

end Sys2Proof

namespace Sys2Proof.Machine

variable {s t : State}

/-- Of the commands, WSFREE alone releases an allocated workspace; the others that act on WS_VALID need it clear
(43_driver_workspace R202). -/
theorem exec_keeps_workspace {i : Instr} (h : exec i s = .next t) (hv : s.wsValid = true) (hi : i ≠ .wsfree) :
    t.wsValid = true ∧ t.wsN = s.wsN := by
  cases exec_next h with
  | free hf => exact absurd hf hi
  | allocated _ hfree => simp [hv] at hfree
  | driver n m _ _ hfree => simp [hv] at hfree
  | outOfMemory len _ hfree => simp [hv] at hfree
  | error e => exact ⟨hv, rfl⟩
  | alu c => exact ⟨hv, rfl⟩
  | memory m => exact ⟨hv, rfl⟩

theorem engineStep_workspace (h : engineStep s = .next t) (hv : s.wsValid = true) :
    (t.wsValid = true ∧ t.wsN = s.wsN) ∨
    (s.running = some (encode .wsfree) ∧ t.running = none ∧ t.wsValid = false) := by
  rcases engineStep_cases s with ⟨-, he⟩ | ⟨word, i, hr, hd, he⟩ | ⟨word, e, -, -, he⟩ <;> rw [he] at h
  · cases h
    exact .inl ⟨hv, rfl⟩
  · obtain ⟨u, hu, hsettled⟩ := settleRace_cases h
    have hsame : t.wsValid = u.wsValid ∧ t.wsN = u.wsN ∧ t.running = u.running := by
      rcases hsettled with ⟨-, rfl⟩ | ⟨-, rfl⟩ <;> exact ⟨rfl, rfl, rfl⟩
    obtain ⟨hvalid, hn, hrun⟩ := hsame
    rw [hvalid, hn, hrun]
    by_cases hi : i = .wsfree
    · subst hi
      cases hu
      exact .inr ⟨hr.trans (congrArg some (eq_encode_wsfree hd)), rfl, rfl⟩
    · exact .inl (exec_keeps_workspace hu hv hi)
  · cases h
    exact .inl ⟨hv, rfl⟩

/-- 10_state R39: no register write acts on WS_VALID and WS_N. -/
theorem writeReg_workspace (s : State) (r : Reg) (v : Word64) :
    (s.writeReg r v).wsValid = s.wsValid ∧ (s.writeReg r v).wsN = s.wsN := by
  rcases writeReg_cases s r v with ⟨-, -, hw⟩ | ⟨-, hw⟩ <;> rw [hw]
  · exact ⟨rfl, rfl⟩
  · cases r <;> simp only [State.writeRegIdle, State.issue_wsValid, State.issue_wsN, and_self]
    case status => split <;> exact ⟨rfl, rfl⟩
    case wsdatRe => split <;> exact ⟨rfl, rfl⟩
    case wsdatIm => split <;> exact ⟨rfl, rfl⟩

end Sys2Proof.Machine

open Sys2Proof.Machine

/-- Settles O24: the engine's turn releases a workspace only by WSFREE, and the host's moves but the reset leave WS_VALID and
WS_N. -/
theorem workspaceFixedUntilFreed : Obligations.WorkspaceFixedUntilFreed := by
  intro s t hv h
  cases step_next h with
  | engine pending hturn he =>
    rcases engineStep_workspace he hv with hkept | ⟨hr, hdone, hfree⟩
    · exact .inl hkept
    · exact .inr (.inl ⟨hr, hturn, hdone, hfree⟩)
  | @regWrite offset v rest r hin hr =>
    obtain ⟨hvalid, hn⟩ := writeReg_workspace { s with inputs := rest } r v
    exact .inl ⟨hvalid.trans hv, hn⟩
  | regRead r v hin => exact .inl ⟨(State.observe_wsValid _ r).trans hv, State.observe_wsN _ r⟩
  | sigWrite hin => exact .inl ⟨hv, rfl⟩
  | race hin => exact .inl ⟨hv, rfl⟩
  | sigRead v draws hin => exact .inl ⟨hv, rfl⟩
  | reset hin => exact .inr (.inr ⟨_, hin⟩)
end

section
/-!
PROOFS. The command words (30_encoding R91 to R102): the fields of a word, the formats as conditions on the fields, and
the decoder as the inverse of the encoder.
-/

namespace Sys2Proof

/-- The opcodes of format S (30_encoding R98). -/
def simpleOpcodes : List (BitVec 8) :=
  [0x10#8, 0x11#8, 0x32#8, 0x33#8, 0x34#8, 0x35#8, 0x36#8, 0x50#8, 0x51#8, 0x52#8, 0x53#8, 0x54#8, 0x55#8]

/-- The opcodes of format D (30_encoding R98). -/
def directedOpcodes : List (BitVec 8) := [0x01#8, 0x02#8, 0x30#8, 0x31#8, 0x40#8]

section Fields

variable {w w' : Nat}

/-- A word is the concatenation of two others exactly when its high and its low field are they. -/
theorem eq_append_iff {z : BitVec (w + w')} {x : BitVec w} {y : BitVec w'} :
    z = x ++ y ↔ z.extractLsb' w' w = x ∧ z.extractLsb' 0 w' = y := by
  constructor
  · rintro rfl
    exact ⟨BitVec.extractLsb'_append_eq_left, BitVec.extractLsb'_append_eq_right⟩
  · rintro ⟨rfl, rfl⟩
    exact BitVec.extractLsb'_append_extractLsb'.symm

/-- A field that is a concatenation, as its two parts. -/
theorem extractLsb'_eq_append_iff {n i : Nat} {z : BitVec n} {x : BitVec w} {y : BitVec w'} :
    z.extractLsb' i (w + w') = x ++ y ↔ z.extractLsb' (i + w') w = x ∧ z.extractLsb' i w' = y := by
  rw [← BitVec.extractLsb'_append_extractLsb'_eq_extractLsb' rfl, eq_append_iff, BitVec.extractLsb'_append_eq_left,
    BitVec.extractLsb'_append_eq_right]

/-- A field of one bit. -/
theorem extractLsb'_one (z : BitVec w) (i : Nat) : z.extractLsb' i 1 = BitVec.ofBool (z.getLsbD i) := by
  ext j hj
  obtain rfl : j = 0 := by omega
  simp

/-- The bit DIR of a word gives a direction exactly when it is the bit of the direction (00_scope R15). -/
theorem ofBool_eq_dirBit {b : Bool} {dir : Dir} : BitVec.ofBool b = dir.bit ↔ dirOfBit b = dir := by
  cases b <;> cases dir <;> decide

theorem dirOfBit_eq_forward {b : Bool} : dirOfBit b = .forward ↔ b = false := by
  cases b <;> decide

/-- 30_encoding R96: only a forward plan with NM is illegal. -/
theorem Plan.legal_iff {plan : Plan} {dir : Dir} : plan.legal dir = true ↔ ¬ (plan.nm = true ∧ dir = .forward) := by
  unfold Plan.legal
  cases plan.nm <;> cases dir <;> decide

end Fields

section Formats

variable {v : Word32}

/-- Bits [31:8] of format D (30_encoding R92). -/
theorem upper_directed_iff {dir : Dir} :
    v.extractLsb' 8 24 = 0#23 ++ dir.bit ↔ v.extractLsb' 9 23 = 0 ∧ dirOfBit (v.getLsbD 8) = dir := by
  rw [extractLsb'_eq_append_iff (w := 23) (w' := 1), extractLsb'_one, ofBool_eq_dirBit]
  rfl

/-- The field DSP of a word, of the two values that name a space (30_encoding R94). -/
theorem extractLsb'_eq_spaceBits {dsp : Space} :
    v.extractLsb' 14 2 = dsp.bits ↔ v.getLsbD 15 = false ∧ (if v.getLsbD 14 then Space.ws else .sig) = dsp := by
  have h : dsp.bits = 0#1 ++ BitVec.ofBool (dsp == .ws) := by cases dsp <;> rfl
  rw [h, extractLsb'_eq_append_iff (w := 1) (w' := 1), extractLsb'_one, extractLsb'_one]
  cases v.getLsbD 15 <;> cases v.getLsbD 14 <;> cases dsp <;> decide

theorem planOf_eq_iff {plan : Plan} : planOf v = plan ↔
    v.getLsbD 9 = plan.br ∧ v.getLsbD 10 = plan.tw ∧ v.getLsbD 11 = plan.bf ∧ v.getLsbD 12 = plan.nm := by
  cases plan
  simp [planOf]

/-- Bits [31:8] of format P (30_encoding R92). -/
theorem upper_planned_iff {dir : Dir} {plan : Plan} {dsp : Space} :
    v.extractLsb' 8 24 = (Instr.fft2 dir plan dsp).upper ↔
      v.extractLsb' 16 16 = 0 ∧ v.getLsbD 13 = false ∧ v.getLsbD 15 = false ∧
      dirOfBit (v.getLsbD 8) = dir ∧ planOf v = plan ∧ (if v.getLsbD 14 then Space.ws else .sig) = dsp := by
  unfold Instr.upper
  rw [extractLsb'_eq_append_iff (w := 23) (w' := 1), extractLsb'_eq_append_iff (w := 22) (w' := 1),
    extractLsb'_eq_append_iff (w := 21) (w' := 1), extractLsb'_eq_append_iff (w := 20) (w' := 1),
    extractLsb'_eq_append_iff (w := 19) (w' := 1), extractLsb'_eq_append_iff (w := 18) (w' := 1),
    extractLsb'_eq_append_iff (w := 16) (w' := 2)]
  have hza : ∀ b, BitVec.ofBool b = 0#1 ↔ b = false := by decide
  simp only [extractLsb'_one, extractLsb'_eq_spaceBits, ofBool_eq_dirBit, planOf_eq_iff, hza, BitVec.ofBool_eq_iff_eq,
    Nat.reduceAdd, BitVec.ofNat_eq_ofNat]
  tauto

/-- A word of format P (30_encoding R92, R96). -/
theorem decodeP_eq_ok {i : Instr} : decodeP v = .ok i ↔
    v.extractLsb' 16 16 = 0 ∧ v.getLsbD 13 = false ∧ v.getLsbD 15 = false ∧
      (planOf v).legal (dirOfBit (v.getLsbD 8)) = true ∧
      Instr.fft2 (dirOfBit (v.getLsbD 8)) (planOf v) (if v.getLsbD 14 then .ws else .sig) = i := by
  simp only [decodeP]
  generalize (if v.getLsbD 14 = true then Space.ws else Space.sig) = dsp
  split_ifs with h16 h13 h15 hlegal
  · simp only [h16, false_and]
  · simp only [h13, reduceCtorEq, false_and, and_false]
  · simp only [h15, reduceCtorEq, false_and, and_false]
  · exact ⟨fun h => ⟨not_not.1 h16, eq_false_of_ne_true h13, eq_false_of_ne_true h15, hlegal, Except.ok.inj h⟩,
      fun ⟨_, _, _, _, h⟩ => congrArg _ h⟩
  · simp only [hlegal, reduceCtorEq, false_and, and_false]

end Formats

section RoundTrip

variable {v : Word32} {i : Instr}

/-- The word of a command, by its two fields (30_encoding R91). -/
theorem encode_eq_iff : encode i = v ↔ v.extractLsb' 8 24 = i.upper ∧ v.extractLsb' 0 8 = i.opcode :=
  eq_comm.trans (eq_append_iff (w := 24) (w' := 8))

/-- Under the opcode of a command the decoder gives that command exactly where the bits above are its own (30_encoding
R92, R98). -/
theorem decode_eq_ok_of_opcode (h : v.extractLsb' 0 8 = i.opcode) :
    decode v = .ok i ↔ i.wf = true ∧ v.extractLsb' 8 24 = i.upper := by
  unfold decode
  rw [h]
  cases i with
  | fft2 dir plan dsp =>
    refine decodeP_eq_ok.trans ?_
    rw [upper_planned_iff]
    constructor
    · rintro ⟨hz, hza, hdsp, hlegal, hi⟩
      cases hi
      exact ⟨hlegal, hz, hza, hdsp, rfl, rfl, rfl⟩
    · rintro ⟨hlegal, hz, hza, hdsp, rfl, rfl, rfl⟩
      exact ⟨hz, hza, hdsp, hlegal, rfl⟩
  | fft dir | rfft dir | czt dir | chirp dir | rmix dir =>
    refine decodeD_eq_ok.trans ?_
    simp only [Instr.wf, Instr.upper, upper_directed_iff, Instr.fft.injEq, Instr.rfft.injEq, Instr.czt.injEq,
      Instr.chirp.injEq, Instr.rmix.injEq, true_and]
  | _ =>
    refine decodeS_eq_ok.trans ?_
    simp only [Instr.wf, Instr.upper, and_true, true_and]

/-- The decoder reads a word in the format of its opcode, if the opcode is assigned (30_encoding R98, R100). -/
theorem decode_cases (v : Word32) :
    (v.extractLsb' 0 8 ∈ simpleOpcodes ∧ ∃ i, decode v = decodeS v i ∧ v.extractLsb' 0 8 = i.opcode) ∨
    (v.extractLsb' 0 8 ∈ directedOpcodes ∧ ∃ i, decode v = decodeD v i ∧ ∀ dir, v.extractLsb' 0 8 = (i dir).opcode) ∨
    (v.extractLsb' 0 8 = 0x20#8 ∧ decode v = decodeP v) ∨
    (v.extractLsb' 0 8 ∉ simpleOpcodes ∧ v.extractLsb' 0 8 ∉ directedOpcodes ∧ v.extractLsb' 0 8 ≠ 0x20#8 ∧
      decode v = .error .unassignedOpcode) := by
  unfold decode
  split
  case h_5 hop => exact .inr (.inr (.inl ⟨hop, rfl⟩))
  case h_20 =>
    refine .inr (.inr (.inr ⟨?_, ?_, by assumption, rfl⟩))
    · simp only [simpleOpcodes, List.mem_cons]
      tauto
    · simp only [directedOpcodes, List.mem_cons]
      tauto
  case h_1 hop | h_2 hop | h_6 hop | h_7 hop | h_13 hop =>
    exact .inr (.inl ⟨by rw [hop]; decide, _, rfl, fun _ => hop⟩)
  all_goals
    rename_i hop
    exact .inl ⟨by rw [hop]; decide, _, rfl, hop⟩

/-- The decoder gives a command of the word's opcode (30_encoding R98). -/
theorem opcode_of_decode (h : decode v = .ok i) : v.extractLsb' 0 8 = i.opcode := by
  rcases decode_cases v with ⟨-, j, hd, hop⟩ | ⟨-, j, hd, hop⟩ | ⟨hop, hd⟩ | ⟨-, -, -, hd⟩ <;> rw [hd] at h
  · obtain ⟨-, rfl⟩ := decodeS_eq_ok.1 h
    exact hop
  · obtain ⟨-, rfl⟩ := decodeD_eq_ok.1 h
    exact hop _
  · obtain ⟨_, _, _, rfl⟩ := exists_fft2_of_decodeP h
    exact hop
  · cases h

/-- The decoder is the inverse of the encoder on the well-formed commands (30_encoding R100, R102). -/
theorem decode_eq_ok_iff : decode v = .ok i ↔ i.wf = true ∧ encode i = v := by
  rw [encode_eq_iff]
  constructor
  · intro h
    have hop := opcode_of_decode h
    obtain ⟨hwf, hupper⟩ := (decode_eq_ok_of_opcode hop).1 h
    exact ⟨hwf, hupper, hop⟩
  · rintro ⟨hwf, hupper, hop⟩
    exact (decode_eq_ok_of_opcode hop).2 ⟨hwf, hupper⟩

theorem decode_of_encode (hwf : i.wf = true) (h : encode i = v) : decode v = .ok i :=
  decode_eq_ok_iff.2 ⟨hwf, h⟩

end RoundTrip

end Sys2Proof

open Sys2Proof

/-- Settles O1: the word of a command has its opcode and its upper bits, which determine what the decoder reads. -/
theorem decodeEncodeRoundTrip : Obligations.DecodeEncodeRoundTrip :=
  fun _ hwf => decode_of_encode hwf rfl

/-- Settles O2: the decoder reads every bit of a word of each format. -/
theorem encodeDecodeRoundTrip : Obligations.EncodeDecodeRoundTrip :=
  fun _ _ h => decode_eq_ok_iff.1 h

/-- Settles O5: each word is the encoding of its command. -/
theorem specWordsDecode : Obligations.SpecWordsDecode :=
  ⟨decode_of_encode rfl rfl, decode_of_encode rfl rfl, decode_of_encode rfl rfl, decode_of_encode rfl rfl,
    decode_of_encode rfl rfl, decode_of_encode rfl rfl, decode_of_encode rfl rfl⟩
end

section
/-!
PROOFS. The legal words (30_encoding R97, R99): which words each of the three formats accepts, as the decoder, the
match-and-mask table and the list of illegal words each say it.
-/

namespace Sys2Proof

/-- The word matches a format pattern of 30_encoding R92. -/
def MatchesFormat (v : Word32) : Prop :=
  (v.extractLsb' 0 8 ∈ simpleOpcodes ∧ v.extractLsb' 8 24 = 0) ∨
  (v.extractLsb' 0 8 ∈ directedOpcodes ∧ v.extractLsb' 9 23 = 0) ∨
  (v.extractLsb' 0 8 = 0x20#8 ∧ v.extractLsb' 16 16 = 0 ∧ v.getLsbD 13 = false ∧ v.getLsbD 15 = false)

/-- The word fails 30_encoding R96. -/
def NormForward (v : Word32) : Prop :=
  v.extractLsb' 0 8 = 0x20#8 ∧ v.getLsbD 12 = true ∧ v.getLsbD 8 = false

section Decoder

variable {v : Word32}

/-- No opcode belongs to two formats (30_encoding R98). -/
theorem not_mem_of_simple : ∀ op ∈ simpleOpcodes, op ∉ directedOpcodes ∧ op ≠ 0x20#8 := by decide

theorem not_mem_of_directed : ∀ op ∈ directedOpcodes, op ∉ simpleOpcodes ∧ op ≠ 0x20#8 := by decide

/-- The words of format P that the decoder accepts (30_encoding R92, R96). -/
theorem exists_decodeP_iff : (∃ i, decodeP v = .ok i) ↔ v.extractLsb' 16 16 = 0 ∧ v.getLsbD 13 = false ∧
    v.getLsbD 15 = false ∧ ¬ (v.getLsbD 12 = true ∧ v.getLsbD 8 = false) := by
  simp only [decodeP_eq_ok, Plan.legal_iff, planOf, dirOfBit_eq_forward, exists_and_left, exists_eq', and_true]

/-- The decoder accepts the words that match a format and do not fail R96 (30_encoding R92, R96). -/
theorem exists_decode_iff : (∃ i, decode v = .ok i) ↔ MatchesFormat v ∧ ¬ NormForward v := by
  unfold MatchesFormat NormForward
  rcases decode_cases v with ⟨hop, j, hd, -⟩ | ⟨hop, j, hd, -⟩ | ⟨hop, hd⟩ | ⟨hs, hD, hp, hd⟩
  · obtain ⟨hD, hp⟩ := not_mem_of_simple _ hop
    simp [hd, hop, hD, hp]
  · obtain ⟨hs, hp⟩ := not_mem_of_directed _ hop
    simp [hd, hop, hs, hp]
  · have hs : 0x20#8 ∉ simpleOpcodes := by decide
    have hD : 0x20#8 ∉ directedOpcodes := by decide
    simp only [hd, exists_decodeP_iff, hop, hs, hD, false_and, false_or, true_and, and_assoc]
  · simp [hd, hs, hD, hp]

/-- The words the decoder rejects (30_encoding R97). -/
theorem exists_decode_error_iff : (∃ e, decode v = .error e) ↔ ¬ (MatchesFormat v ∧ ¬ NormForward v) := by
  rw [← exists_decode_iff]
  cases decode v <;> simp

end Decoder

section MaskTable

variable {v : Word32}

/-- The rows of the table, by format (30_encoding R98, R99). -/
theorem mem_maskTable_iff {r : MaskRow} : r ∈ maskTable ↔
    (∃ op ∈ simpleOpcodes, r = .s (op.setWidth 32)) ∨ (∃ op ∈ directedOpcodes, r = .d (op.setWidth 32)) ∨
    r = ⟨0xFFFFA0FF, 0x20⟩ := by
  constructor
  · revert r
    decide
  · rintro (⟨op, hop, rfl⟩ | ⟨op, hop, rfl⟩ | rfl)
    · revert op
      decide
    · revert op
      decide
    · decide

/-- A mask on a field that is a concatenation, as masks on its two parts. -/
theorem extractLsb'_and_append {n i w w' : Nat} {z : BitVec n} {m p : BitVec w} {m' p' : BitVec w'} :
    z.extractLsb' i (w + w') &&& (m ++ m') = p ++ p' ↔
      z.extractLsb' (i + w') w &&& m = p ∧ z.extractLsb' i w' &&& m' = p' := by
  rw [← BitVec.extractLsb'_append_extractLsb'_eq_extractLsb' rfl, BitVec.and_append, eq_append_iff,
    BitVec.extractLsb'_append_eq_left, BitVec.extractLsb'_append_eq_right]

theorem setWidth_eq_zero_append (op : BitVec 8) : op.setWidth 32 = 0#24 ++ op :=
  BitVec.setWidth_eq_append (by decide : 8 ≤ 32)

/-- The mask of format S (30_encoding R99). -/
theorem and_mask_s {op : BitVec 8} : v &&& 0xFFFFFFFF#32 = op.setWidth 32 ↔
    v.extractLsb' 0 8 = op ∧ v.extractLsb' 8 24 = 0 := by
  have hm : 0xFFFFFFFF#32 = BitVec.allOnes 32 := rfl
  rw [setWidth_eq_zero_append, hm, BitVec.and_allOnes, eq_append_iff (w := 24) (w' := 8), and_comm]
  rfl

/-- The mask of format D leaves out bit 8 (30_encoding R99). -/
theorem and_mask_d {op : BitVec 8} : v &&& 0xFFFFFEFF#32 = op.setWidth 32 ↔
    v.extractLsb' 0 8 = op ∧ v.extractLsb' 9 23 = 0 := by
  have hm : 0xFFFFFEFF#32 = (BitVec.allOnes 23 ++ 0#1) ++ BitVec.allOnes 8 := rfl
  have hp : 0#24 = 0#23 ++ 0#1 := rfl
  rw [← BitVec.extractLsb'_eq_self (x := v), setWidth_eq_zero_append, hm, hp, extractLsb'_and_append (w := 24) (w' := 8),
    extractLsb'_and_append (w := 23) (w' := 1)]
  rw [BitVec.and_allOnes, BitVec.and_allOnes, BitVec.and_zero, BitVec.extractLsb'_eq_self]
  exact ⟨fun ⟨⟨hz, _⟩, hop⟩ => ⟨hop, hz⟩, fun ⟨hop, hz⟩ => ⟨⟨hz, rfl⟩, hop⟩⟩

/-- The mask of format P leaves out the plan bits, DIR and the low bit of DSP (30_encoding R99). -/
theorem and_mask_p {op : BitVec 8} : v &&& 0xFFFFA0FF#32 = op.setWidth 32 ↔
    v.extractLsb' 0 8 = op ∧ v.extractLsb' 16 16 = 0 ∧ v.getLsbD 13 = false ∧ v.getLsbD 15 = false := by
  have hm : 0xFFFFA0FF#32 =
    BitVec.allOnes 16 ++ BitVec.allOnes 1 ++ 0#1 ++ BitVec.allOnes 1 ++ 0#5 ++ BitVec.allOnes 8 := rfl
  have hp : 0#24 = 0#16 ++ 0#1 ++ 0#1 ++ 0#1 ++ 0#5 := rfl
  have hz : ∀ b, BitVec.ofBool b = 0#1 ↔ b = false := by decide
  rw [← BitVec.extractLsb'_eq_self (x := v), setWidth_eq_zero_append, hm, hp, extractLsb'_and_append (w := 24) (w' := 8),
    extractLsb'_and_append (w := 19) (w' := 5), extractLsb'_and_append (w := 18) (w' := 1),
    extractLsb'_and_append (w := 17) (w' := 1), extractLsb'_and_append (w := 16) (w' := 1)]
  simp only [BitVec.and_allOnes, BitVec.and_zero, and_true, BitVec.extractLsb'_eq_self, extractLsb'_one, hz,
    Nat.reduceAdd, BitVec.ofNat_eq_ofNat]
  tauto

/-- The table has a row for the words that match a format (30_encoding R92, R99). -/
theorem exists_row_iff : (∃ r ∈ maskTable, v &&& r.mask = r.pattern) ↔ MatchesFormat v := by
  constructor
  · rintro ⟨r, hr, h⟩
    rcases mem_maskTable_iff.1 hr with ⟨op, hop, rfl⟩ | ⟨op, hop, rfl⟩ | rfl
    · obtain ⟨rfl, hz⟩ := and_mask_s.1 h
      exact .inl ⟨hop, hz⟩
    · obtain ⟨rfl, hz⟩ := and_mask_d.1 h
      exact .inr (.inl ⟨hop, hz⟩)
    · exact .inr (.inr (and_mask_p.1 h))
  · rintro (⟨hop, hz⟩ | ⟨hop, hz⟩ | h)
    · exact ⟨_, mem_maskTable_iff.2 (.inl ⟨_, hop, rfl⟩), and_mask_s.2 ⟨rfl, hz⟩⟩
    · exact ⟨_, mem_maskTable_iff.2 (.inr (.inl ⟨_, hop, rfl⟩)), and_mask_d.2 ⟨rfl, hz⟩⟩
    · exact ⟨_, mem_maskTable_iff.2 (.inr (.inr rfl)), and_mask_p.2 h⟩

/-- Every row fixes the opcode of its words (30_encoding R99). -/
theorem opcode_of_row : ∀ r ∈ maskTable, v &&& r.mask = r.pattern → v.extractLsb' 0 8 = r.pattern.extractLsb' 0 8 := by
  have hmask : ∀ r ∈ maskTable, r.mask.extractLsb' 0 8 = BitVec.allOnes 8 := by decide
  intro r hr h
  rw [← h, BitVec.extractLsb'_and, hmask r hr, BitVec.and_allOnes]

/-- No opcode has two rows (30_encoding R98, R99). -/
theorem row_eq_of_opcode : ∀ r₁ ∈ maskTable, ∀ r₂ ∈ maskTable,
    r₁.pattern.extractLsb' 0 8 = r₂.pattern.extractLsb' 0 8 → r₁ = r₂ := by
  decide

theorem pattern_eq_opcode : ∀ r ∈ maskTable, r.pattern = (r.pattern.extractLsb' 0 8).setWidth 32 := by
  decide

end MaskTable

end Sys2Proof

open Sys2Proof Sys2Proof.Machine

/-- Settles O3: a row selects the words of its format, and fixes their opcode. -/
theorem decodeAgreesWithMaskMatch : Obligations.DecodeAgreesWithMaskMatch := by
  refine ⟨fun v => ?_, by decide, fun v i hd => ?_, fun v r₁ h₁ r₂ h₂ hs₁ hs₂ => ?_⟩
  · rw [exists_row_iff]
    exact exists_decode_iff
  · obtain ⟨r, hr, hsel⟩ := exists_row_iff.2 (exists_decode_iff.1 ⟨i, hd⟩).1
    exact ⟨r, hr, hsel, by rw [pattern_eq_opcode r hr, ← opcode_of_row r hr hsel, opcode_of_decode hd]⟩
  · exact row_eq_of_opcode r₁ h₁ r₂ h₂ ((opcode_of_row r₁ h₁ hs₁).symm.trans (opcode_of_row r₂ h₂ hs₂))

/-- Settles O4: the decoder rejects the words of no format and those that fail R96, and the engine's turn on such a word
is `State.raise`. -/
theorem illegalWordRaises : Obligations.IllegalWordRaises := by
  refine ⟨fun v => ?_, fun s v e hr hd => ⟨?_, fun rest hin => ?_⟩⟩
  · rw [exists_decode_error_iff]
    show ¬ (MatchesFormat v ∧ ¬ NormForward v) ↔
      (¬ v.extractLsb' 0 8 ∈ simpleOpcodes ∧ ¬ v.extractLsb' 0 8 ∈ directedOpcodes ∧ ¬ v.extractLsb' 0 8 = 0x20#8) ∨
      (v.extractLsb' 0 8 ∈ simpleOpcodes ∧ _) ∨ (v.extractLsb' 0 8 ∈ directedOpcodes ∧ _) ∨
      (v.extractLsb' 0 8 = 0x20#8 ∧ _)
    have hsimple := not_mem_of_simple (v.extractLsb' 0 8)
    have hdirected := not_mem_of_directed (v.extractLsb' 0 8)
    simp only [MatchesFormat, NormForward, ← Bool.not_eq_true]
    tauto
  · rintro (hin | ⟨rest, hin⟩)
    · rw [step_nil hin, engineStep_error hr hd]
      rfl
    · rw [step_poll hin, if_pos (busy_of_running hr), engineStep_error hr hd]
      rfl
  · rw [step_engine hin, engineStep_error (s := { s with inputs := rest }) hr hd]
    rfl
end

section
/-!
PROOFS. The assembler (30_encoding R104 to R106): its statements and the commands they assemble to.
-/

namespace Sys2Proof.Machine

section Assembler

variable {a : AsmLine} {i : Instr}

theorem planOfStages_eq (stages : List Stage) : planOfStages stages =
    ⟨decide (.br ∈ stages), decide (.tw ∈ stages), decide (.bf ∈ stages), decide (.nm ∈ stages)⟩ := by
  simp [planOfStages]

/-- The stages of a plan, in execution order, are each listed once (30_encoding R104). -/
theorem nodup_stagesOfPlan (plan : Plan) : (stagesOfPlan plan).Nodup := by
  obtain ⟨br, tw, bf, nm⟩ := plan
  revert br tw bf nm
  decide

theorem planOfStages_stagesOfPlan (plan : Plan) : planOfStages (stagesOfPlan plan) = plan := by
  obtain ⟨br, tw, bf, nm⟩ := plan
  revert br tw bf nm
  decide

/-- A statement of format P with its operands (30_encoding R104). -/
theorem assemble_fft2 (dir : Dir) (space : Space) (stages : List Stage) :
    assemble ⟨"fft2", some dir, some (space, stages)⟩ =
      if ¬ stages.Nodup then .error .repeatedStage
      else if (planOfStages stages).legal dir then .ok (.fft2 dir (planOfStages stages) space)
      else .error .normForward := by
  simp [assemble, assembleP]

/-- Every command has a statement (30_encoding R104). -/
theorem assemble_disassemble (hwf : i.wf = true) : assemble (disassemble i) = .ok i := by
  cases i with
  | fft2 dir plan dsp =>
    unfold disassemble
    have hlegal : plan.legal dir = true := hwf
    rw [assemble_fft2, if_neg (not_not.2 (nodup_stagesOfPlan plan)), planOfStages_stagesOfPlan, if_pos hlegal]
  | _ => rfl

theorem assemble_statement (hwf : i.wf = true) (ha : disassemble i = a) : assemble a = .ok i :=
  ha ▸ assemble_disassemble hwf

/-- A mnemonic is assembled in the format of its command, if it is one (30_encoding R104). -/
theorem assemble_cases (a : AsmLine) :
    (∃ i, assemble a = assembleS a i ∧ i.wf = true ∧ (disassemble i).mnemonic = a.mnemonic) ∨
    (∃ i, assemble a = assembleD a i ∧ ∀ dir, (i dir).wf = true ∧ (disassemble (i dir)).mnemonic = a.mnemonic) ∨
    (assemble a = assembleP a ∧ ∃ i, (disassemble i).mnemonic = a.mnemonic) ∨
    assemble a = .error .unknownMnemonic := by
  unfold assemble
  split
  case h_5 hm => exact .inr (.inr (.inl ⟨rfl, .fft2 .forward ⟨false, false, false, false⟩ .sig, hm.symm⟩))
  case h_20 => exact .inr (.inr (.inr rfl))
  case h_1 hm | h_2 hm | h_6 hm | h_7 hm | h_13 hm => exact .inr (.inl ⟨_, rfl, fun _ => ⟨rfl, hm.symm⟩⟩)
  all_goals
    rename_i hm
    exact .inl ⟨_, rfl, rfl, hm.symm⟩

theorem eq_of_assembleS {j : Instr} (h : assembleS a j = .ok i) : j = i := by
  unfold assembleS at h
  split_ifs at h
  exact Except.ok.inj h

theorem eq_of_assembleD {j : Dir → Instr} (h : assembleD a j = .ok i) : ∃ dir, j dir = i := by
  unfold assembleD at h
  split at h
  · cases h
  · split_ifs at h
    exact ⟨_, Except.ok.inj h⟩

/-- The assembler refuses what has no encoding (30_encoding R96, R104). -/
theorem wf_of_assembleP (h : assembleP a = .ok i) : i.wf = true := by
  unfold assembleP at h
  split at h
  · cases h
  · cases h
  · split_ifs at h with hnodup hlegal
    cases h
    exact hlegal

theorem wf_of_assemble (h : assemble a = .ok i) : i.wf = true := by
  rcases assemble_cases a with ⟨j, ha, hwf, -⟩ | ⟨j, ha, hj⟩ | ⟨ha, -⟩ | ha <;> rw [ha] at h
  · exact eq_of_assembleS h ▸ hwf
  · obtain ⟨dir, rfl⟩ := eq_of_assembleD h
    exact (hj dir).1
  · exact wf_of_assembleP h
  · cases h

theorem assemble_unknownMnemonic (h : ∀ i : Instr, (disassemble i).mnemonic ≠ a.mnemonic) :
    assemble a = .error .unknownMnemonic := by
  rcases assemble_cases a with ⟨j, -, -, hm⟩ | ⟨j, -, hj⟩ | ⟨-, j, hm⟩ | ha
  · exact absurd hm (h j)
  · exact absurd (hj .forward).2 (h _)
  · exact absurd hm (h j)
  · exact ha

end Assembler

end Sys2Proof.Machine

open Sys2Proof Sys2Proof.Machine

/-- Settles O6: the assembler reads back the statement of a command in the format of its mnemonic, a statement is a write
of CMD, and each expansion issues the command of its statement. -/
theorem assemblerRoundTrip : Obligations.AssemblerRoundTrip := by
  refine ⟨fun i => assemble_disassemble, fun a i => wf_of_assemble, fun dir space stages => ?_,
    fun mnemonic dir operands hm => ?_, fun a => assemble_unknownMnemonic, fun i s rest hwf hb hin => ?_, fun p => ?_⟩
  · rw [assemble_fft2, planOfStages_eq]
    simp only [Plan.legal_iff, decide_eq_true_eq, ite_not]
  · fin_cases hm <;> rfl
  · refine ⟨_, encode i, step_writesRegister_idle (r := .cmd) hb hin rfl, rfl, ?_, decode_of_encode hwf rfl⟩
    rw [State.writeRegIdle, State.issue_running, BitVec.setWidth_setWidth_of_le _ (by decide), BitVec.setWidth_eq]
  · cases p with
    | forwardFft => exact ⟨.fft .forward, assemble_statement rfl rfl, rfl⟩
    | inverseFft => exact ⟨.fft .inverse, assemble_statement rfl rfl, rfl⟩
    | forwardRealFft => exact ⟨.rfft .forward, assemble_statement rfl rfl, rfl⟩
    | inverseRealFft => exact ⟨.rfft .inverse, assemble_statement rfl rfl, rfl⟩
    | bitrev space => exact ⟨.fft2 .forward ⟨true, false, false, false⟩ space, assemble_statement rfl rfl, rfl⟩
    | twgen dir => exact ⟨.fft2 dir ⟨false, true, false, false⟩ .sig, assemble_statement rfl rfl, rfl⟩
    | bfly dir space => exact ⟨.fft2 dir ⟨false, false, true, false⟩ space, assemble_statement rfl rfl, rfl⟩
    | norm space => exact ⟨.fft2 .inverse ⟨false, false, false, true⟩ space, assemble_statement rfl rfl, rfl⟩
    | fft2 dir space =>
      cases dir with
      | forward => exact ⟨.fft2 .forward ⟨true, true, true, false⟩ space, assemble_statement rfl rfl, rfl⟩
      | inverse => exact ⟨.fft2 .inverse ⟨true, true, true, true⟩ space, assemble_statement rfl rfl, rfl⟩
end

section
/-!
PROOFS. CZT as a sequence of commands (30_encoding R103, 42_bluestein R177): each part of its microcode is the body of a
command whose checks pass in the state that the part before it leaves.
-/

namespace Sys2Proof.Machine

section Checks

variable {s : State} {touchesSig : Bool}

/-- Where the checks pass with the signal buffer they pass without it (42_bluestein R170). -/
theorem BluesteinReady.withoutSig (h : BluesteinReady s touchesSig) : BluesteinReady s false :=
  ⟨h.lenPos, h.lenMax, h.allocated, h.sameLength, nofun⟩

/-- The workspace is the one for N = LEN (20_memory R68). -/
theorem BluesteinReady.wsLen_eq (h : BluesteinReady s touchesSig) : s.wsLen = wsLength s.len.toNat := by
  simp only [State.wsLen, State.geometry, h.allocated, h.sameLength, if_true]

end Checks

section Inner

variable {s : State} {m : Store F64} {n dbase : Nat}

/-- The operand registers as the host sets them for an inner transform of CZT hold the microcode's copies: these fit the
registers (20_memory R70 a, 42_bluestein R177). -/
theorem operands_withInner (h1 : 1 ≤ n) (hmax : n ≤ nMax) (hr : dbase + largerSize n ≤ region4 n) :
    (s.withFft2 (largerSize n) 1 dbase (region4 n)).operands =
      { innerOperands n dbase with len := s.len.toNat, sigBase := s.sigBase.toNat } := by
  have hfit := wsLength_lt h1 hmax
  have hend := region4_end n
  simp only [State.withFft2, State.operands, innerOperands, BitVec.toNat_ofNat, Operands.mk.injEq, true_and, and_true]
  exact ⟨Nat.mod_eq_of_lt (by omega), Nat.mod_eq_of_lt (by omega), Nat.mod_eq_of_lt (by omega)⟩

/-- The checks of an inner transform pass (42_bluestein R177). -/
theorem fft2Ready_withInner (h1 : 1 ≤ n) (hmax : n ≤ nMax) (hr : dbase + largerSize n ≤ region4 n)
    (halloc : s.wsValid = true) (hlen : s.wsLen = wsLength n) (plan : Plan) :
    Fft2Ready (s.withFft2 (largerSize n) 1 dbase (region4 n)) plan .ws := by
  obtain ⟨k, hk⟩ := largerSize_pow n
  have hpow : 2 ^ (k + 1) ≤ 2 ^ 30 := hk ▸ largerSize_le h1 hmax
  have hpos := two_le_largerSize n
  have hend := region4_end n
  have ho := operands_withInner (s := s) h1 hmax hr
  have hsize := congrArg Operands.size ho
  have hstride := congrArg Operands.stride ho
  have htbase := congrArg Operands.tbase ho
  have hlast : (s.withFft2 (largerSize n) 1 dbase (region4 n)).operands.last = dbase + (largerSize n - 1) := by
    rw [ho, Operands.last, innerOperands, Nat.mul_one]
  simp only [State.operands, innerOperands] at hsize hstride htbase
  exact {
    allocated := fun _ => halloc
    size := ⟨k + 1, (Nat.pow_le_pow_iff_right (by decide)).1 hpow, hsize.trans hk⟩
    stride := fun _ => hstride ▸ Nat.one_ne_zero
    data := fun _ => ⟨nofun, fun _ => by
      rw [hlast]
      exact lt_of_lt_of_eq (by omega) hlen.symm⟩
    table := fun _ => by
      rw [htbase, hsize]
      exact (hend.trans hlen.symm).le
    apart := fun _ _ _ => .inr (by
      rw [hlast, htbase]
      omega) }

end Inner

/-- The state `u` holds the memories `m` between two parts of the CZT microcode that began in `s`: the checks of the step
commands pass there, and the registers that the microcode reads are as they were (42_bluestein R177). -/
structure CztAt (s : State) (m : Store F64) (u : State) : Prop where
  ready : BluesteinReady u true
  cfg : u.cfg = s.cfg
  len : u.len = s.len
  sigBase : u.sigBase = s.sigBase
  mem : u.mem = m

section Steps

variable {s u : State} {m m' : Store F64}

theorem cztAt_start (h : BluesteinReady s true) : CztAt s s.mem s :=
  ⟨h, rfl, rfl, rfl, rfl⟩

/-- A command that ends in the memories `m'` leaves the registers that the microcode reads (60_exceptions R262). -/
theorem CztAt.completed (h : CztAt s m u) (m' : Store F64) : CztAt s m' { u with mem := m' }.complete := by
  obtain ⟨⟨hpos, hmax, halloc, hsame, hfits⟩, hcfg, hlen, hbase, -⟩ := h
  exact ⟨⟨hpos, hmax, halloc, hsame, hfits⟩, hcfg, hlen, hbase, rfl⟩

/-- The microcode reads no operand register of FFT2: it has copies of its own (10_state R47). -/
theorem CztAt.withFft2 (h : CztAt s m u) (size stride dbase tbase : Nat) :
    CztAt s m (u.withFft2 size stride dbase tbase) := by
  obtain ⟨⟨hpos, hmax, halloc, hsame, hfits⟩, hcfg, hlen, hbase, hmem⟩ := h
  exact ⟨⟨hpos, hmax, halloc, hsame, hfits⟩, hcfg, hlen, hbase, hmem⟩

/-- A command whose checks pass and whose body answers takes the microcode one part on (60_exceptions R262). -/
theorem CztAt.next {i : Instr} {error : Option Err} {r : Except ModelFault (Store F64)} (h : CztAt s m u)
    (hc : error = none) (hr : r = .ok m') :
    ∃ v, checked u error (commit i u r fun m => { u with mem := m }) = .next v ∧ CztAt s m' v := by
  subst hc hr
  exact ⟨_, rfl, h.completed m'⟩

/-- A step command runs its part of the microcode (42_bluestein R170, R177). -/
theorem CztAt.run {i : Instr} {touchesSig : Bool}
    {body : Num F64 → Nat → Nat → Store F64 → Except ModelFault (Store F64)}
    (hexec : ∀ u, exec i u = checked u (bluesteinCheck u touchesSig u.operands)
      (commit i u (body (b64 u.cfg) u.operands.len u.operands.sigBase u.mem) fun m => { u with mem := m }))
    (h : CztAt s m u) (hm : body (b64 s.cfg) s.operands.len s.operands.sigBase m = .ok m') :
    ∃ v, exec i u = .next v ∧ CztAt s m' v := by
  have hcheck : bluesteinCheck u touchesSig u.operands = none := by
    cases touchesSig with
    | false => exact h.ready.withoutSig.check
    | true => exact h.ready.check
  rw [hexec]
  refine h.next hcheck ?_
  rw [h.cfg, h.mem, State.operands, h.len, h.sigBase]
  exact hm

/-- The host's FFT2 runs an inner transform of the microcode (42_bluestein R177). -/
theorem CztAt.runInner {n dbase : Nat} {dir : Dir} {plan : Plan} (h : CztAt s m u) (hn : s.len.toNat = n)
    (hr : dbase + largerSize n ≤ region4 n)
    (hm : fft2Body (b64 s.cfg) .ws (innerOperands n dbase) dir plan m = .ok m') :
    ∃ v, exec (.fft2 dir plan .ws) (u.withFft2 (largerSize n) 1 dbase (region4 n)) = .next v ∧ CztAt s m' v := by
  obtain rfl : u.len.toNat = n := by rw [h.len, hn]
  have hready := h.ready
  refine (h.withFft2 _ _ _ _).next (fft2Ready_withInner hready.lenPos hready.lenMax hr hready.allocated hready.wsLen_eq
    plan).check ?_
  rw [operands_withInner hready.lenPos hready.lenMax hr, (h.withFft2 _ _ _ _).cfg, (h.withFft2 _ _ _ _).mem]
  exact hm

end Steps

end Sys2Proof.Machine

open Sys2Proof Sys2Proof.Machine

/-- Settles O49: each part of the microcode of CZT is the body of a command. -/
theorem cztRunsTheSteps : Obligations.CztRunsTheSteps := by
  intro dir s t n size h hexec
  rcases memoryCommand_next hexec with ⟨e, hc, -⟩ | ⟨-, m, hm, rfl⟩
  · rw [h.check] at hc
    cases hc
  simp only [cztBody, except_bind_ok] at hm
  obtain ⟨m₁, h₁, m₂, h₂, m₃, h₃, m₄, h₄, m₅, h₅, m₆, h₆, m₇, h₇, m₈, h₈, h₉⟩ := hm
  have hle₂ : region2 n + largerSize n ≤ region4 n := by
    unfold region2 region4
    omega
  have hle₃ : region3 n + largerSize n ≤ region4 n := by
    unfold region3 region4
    omega
  have a₀ := cztAt_start h
  obtain ⟨s₁, e₁, a₁⟩ := a₀.run (i := .chirp dir) (body := fun num n _ => chirpBody num n dir) (fun _ => rfl) h₁
  obtain ⟨s₂, e₂, a₂⟩ := a₁.run (i := .chirpmul) (body := chirpmulBody) (fun _ => rfl) h₂
  obtain ⟨s₃, e₃, a₃⟩ := a₂.run (i := .kernel) (body := fun num n _ => kernelBody num n) (fun _ => rfl) h₃
  obtain ⟨s₄, e₄, a₄⟩ := a₃.runInner rfl hle₂ h₄
  obtain ⟨s₅, e₅, a₅⟩ := a₄.runInner rfl hle₃ h₅
  obtain ⟨s₆, e₆, a₆⟩ := a₅.run (i := .pmul) (body := fun num n _ => pmulBody num n) (fun _ => rfl) h₆
  obtain ⟨s₇, e₇, a₇⟩ := a₆.runInner rfl hle₂ h₇
  obtain ⟨s₈, e₈, a₈⟩ := a₇.run (i := .recover) (body := recoverBody) (fun _ => rfl) h₈
  refine ⟨s₁, s₂, s₃, s₄, s₅, s₆, s₇, s₈, e₁, e₂, e₃, e₄, e₅, e₆, e₇, e₈, ?_, ?_⟩
  · rintro rfl
    exact (Except.ok.inj h₉).symm.trans a₈.mem.symm
  · rintro rfl
    obtain ⟨s₉, e₉, a₉⟩ := a₈.run (i := .normn) (body := normnBody) (fun _ => rfl) h₉
    exact ⟨s₉, e₉, a₉.mem.symm⟩
end

section
/-!
PROOFS. Exact binary64 arithmetic (00_scope R10): a finite value is its own rounding, so that a product with 1 changes nothing;
the signs of a rounding; sums, differences, products and quotients of the naturals that `real` holds exactly; and which
operands keep a result finite, NaN or zero.
-/

namespace Sys2Proof.Machine

section Values

variable {a : F64}

/-- A significand has at most 53 bits. -/
theorem fMag_le (a : F64) : fMag a ≤ (2 ^ 53 - 1) * 2 ^ (fExp a - 1) := by
  have hF := fFrac_lt a
  unfold fMag
  split
  case isTrue h => simpa [h] using by omega
  case isFalse h => exact Nat.mul_le_mul_right _ (by omega)

/-- A value is below the power of two that its exponent bounds. -/
theorem fMag_lt_two_pow (a : F64) : fMag a < 2 ^ (52 + fExp a) := by
  have hF := fFrac_lt a
  by_cases h : fExp a = 0
  · rwa [fMag, if_pos h, h]
  · calc fMag a ≤ (2 ^ 53 - 1) * 2 ^ (fExp a - 1) := fMag_le a
      _ < 2 ^ 53 * 2 ^ (fExp a - 1) := Nat.mul_lt_mul_of_pos_right (by decide) (Nat.two_pow_pos _)
      _ = 2 ^ (52 + fExp a) := by rw [← pow_add, show 53 + (fExp a - 1) = 52 + fExp a by omega]

/-- A finite value is below the overflow threshold; its exponent is a variable, so that no tactic evaluates the power. -/
theorem fMag_lt_overflow {t : Nat} (ht : t = 2044) (h : fIsFinite a = true) : fMag a < (2 ^ 54 - 1) * 2 ^ t := by
  have hE := fExp_lt a
  rw [fIsFinite_iff] at h
  have hpos := Nat.two_pow_pos t
  have hpow : 2 ^ (fExp a - 1) ≤ 2 ^ (t + 1) := Nat.pow_le_pow_right (by decide) (by omega)
  calc fMag a ≤ (2 ^ 53 - 1) * 2 ^ (fExp a - 1) := fMag_le a
    _ ≤ (2 ^ 53 - 1) * 2 ^ (t + 1) := Nat.mul_le_mul_left _ hpow
    _ < (2 ^ 54 - 1) * 2 ^ t := by omega

/-- The scale on which the magnitude of a value is rounded is the one its exponent names. -/
theorem roundScale_fMag (a : F64) : roundScale (fMag a) 1 = fExp a - 1 := by
  have hF := fFrac_lt a
  rw [roundScale, Nat.div_one]
  by_cases hE : fExp a = 0
  · rw [fMag, if_pos hE, hE]
    by_cases h0 : fFrac a = 0
    · rw [h0, Nat.log2_zero]
    · have hlog := (Nat.log2_lt h0).2 hF
      omega
  · have hlow : 2 ^ (52 + (fExp a - 1)) ≤ fMag a := by
      rw [fMag, if_neg hE, pow_add]
      exact Nat.mul_le_mul_right _ (by omega)
    have hne : fMag a ≠ 0 := ((Nat.two_pow_pos _).trans_le hlow).ne'
    have hlog := (Nat.log2_lt hne).2 (fMag_lt_two_pow a)
    have hlog' := (Nat.le_log2 hne).2 hlow
    omega

/-- A finite value is its own rounding. -/
theorem roundUnits_fMag (h : fIsFinite a = true) : roundUnits (fSign a) (fMag a) 1 = a := by
  have hF := fFrac_lt a
  have hE := fExp_lt a
  rw [fIsFinite_iff] at h
  have hbits : (fExp a - 1) * 2 ^ 52 + roundSig (fMag a) 1 = fExp a * 2 ^ 52 + fFrac a := by
    rw [roundSig, roundScale_fMag]
    by_cases h0 : fExp a = 0
    · rw [roundHalfEven_of_eq_mul (m := fFrac a) (by positivity) (by simp [fMag, h0]), h0]
    · rw [roundHalfEven_of_eq_mul (m := 2 ^ 52 + fFrac a) (by positivity) (by simp [fMag, h0])]
      omega
  rw [roundUnits_eq, roundScale_fMag, hbits, Nat.min_eq_left (by unfold infMag; omega), fPack_fields]

end Values

section Rounding

/-- A rounding depends on the quotient, not on the fraction that names it. -/
theorem roundUnits_mul_right (sign : Bool) (n d : Nat) {c : Nat} (hc : 0 < c) :
    roundUnits sign (n * c) (d * c) = roundUnits sign n d := by
  have hround : ∀ k, roundHalfEven (n * c) (k * c) = roundHalfEven n k := fun k => by
    have hlt : k * c < 2 * (n % k * c) ↔ k < 2 * (n % k) := by rw [← Nat.mul_assoc, Nat.mul_lt_mul_right hc]
    have heq : 2 * (n % k * c) = k * c ↔ 2 * (n % k) = k := by rw [← Nat.mul_assoc, Nat.mul_left_inj hc.ne']
    simp only [roundHalfEven, Nat.mul_div_mul_right _ _ hc, Nat.mul_mod_mul_right, hlt, heq]
  rw [roundUnits, roundUnits, Nat.mul_div_mul_right _ _ hc, Nat.mul_right_comm, hround]

@[simp] theorem roundUnits_zero (sign : Bool) (d : Nat) : roundUnits sign 0 d = fPack sign 0 := by
  simp [roundUnits, roundHalfEven, Nat.log2_zero]

theorem fneg_fPack (sign : Bool) {m : Nat} (hm : m < 2 ^ 63) : fneg (fPack sign m) = fPack (!sign) m := by
  rw [← fPack_fields (fneg (fPack sign m)), fSign_fneg, fExp_fneg, fFrac_fneg, fSign_fPack, fExp_fPack hm, fFrac_fPack hm,
    Nat.div_add_mod']

/-- The sign of a value plays no part in its rounding. -/
@[simp] theorem fneg_roundUnits (sign : Bool) (n d : Nat) : fneg (roundUnits sign n d) = roundUnits (!sign) n d :=
  fneg_fPack sign (lt_of_le_of_lt (Nat.min_le_right _ _) (by decide))

@[simp] theorem fneg_fneg (a : F64) : fneg (fneg a) = a := by
  rw [fneg, fneg, BitVec.xor_assoc, BitVec.xor_self, BitVec.xor_zero]

@[simp] theorem fIsZero_fneg (a : F64) : fIsZero (fneg a) = fIsZero a := by simp [fIsZero]

/-- A value is finite, an infinity or a NaN. -/
theorem fIsFinite_of_not_inf_nan {a : F64} (hinf : fIsInf a = false) (hnan : fIsNaN a = false) : fIsFinite a = true := by
  rw [fIsFinite_iff]
  intro hE
  by_cases hF : fFrac a = 0
  · simp [fIsInf, hE, hF] at hinf
  · simp [fIsNaN, hE, hF] at hnan

theorem fIsZero_fPack_zero (sign : Bool) : fIsZero (fPack sign 0) = true := by cases sign <;> decide

theorem fIsInf_signedInf (sign : Bool) : fIsInf (signedInf sign) = true := by cases sign <;> decide

theorem fSign_signedInf (sign : Bool) : fSign (signedInf sign) = sign := by cases sign <;> decide

theorem two_pow_le_unitScale {k : Nat} (hk : k ≤ 1074) : 2 ^ k ≤ unitScale := by
  obtain ⟨u, hu⟩ : ∃ u, u = 1074 := ⟨_, rfl⟩
  rw [unitScale, ← hu]
  exact Nat.pow_le_pow_right (by decide) (by omega)

theorem fIsZero_of_fMag_pos {a : F64} (h : 0 < fMag a) : fIsZero a = false := by
  rw [← Bool.not_eq_true, ← fMag_eq_zero_iff]
  exact h.ne'

theorem fMag_one : fMag fOne = unitScale := by
  have hE : fExp fOne = 1023 := by decide
  have hF : fFrac fOne = 0 := by decide
  rw [fMag, hE, hF, if_neg (by decide), Nat.add_zero, ← pow_add, unitScale]

/-- From the overflow threshold on the nearest value is the infinity of the sign. -/
theorem NearestEven.inf {sign : Bool} {n t : Nat} {r : F64} (ht : t = 2044) (h : NearestEven sign n 1 r)
    (hn : (2 ^ 54 - 1) * 2 ^ t ≤ n) : fIsInf r = true ∧ fSign r = sign := by
  unfold NearestEven at h
  rw [← ht, Nat.mul_one, if_pos hn] at h
  exact h.symm

end Rounding

section Operations

variable (p : Params) {a b : F64}

theorem fIsNaN_nanResult : fIsNaN (nanResult p) = true := by
  unfold nanResult
  split
  case isTrue h => exact h
  case isFalse => decide

/-- The sum is commutative bit for bit: two infinities that are added to one have one sign, and so are one value. -/
theorem fadd_comm (a b : F64) : fadd p a b = fadd p b a := by
  have hinf : fIsInf a = true → fIsInf b = true → fadd p a b = fadd p b a := fun ha hb => by
    rw [fadd_inf_inf p ha hb, fadd_inf_inf p hb ha]
    by_cases hs : fSign a = fSign b
    · rw [if_pos hs, if_pos hs.symm, eq_signedInf_of_inf ha, eq_signedInf_of_inf hb, hs]
    · rw [if_neg hs, if_neg (Ne.symm hs)]
  cases ha : fIsInf a <;> cases hb : fIsInf b
  case true.true => exact hinf ha hb
  all_goals simp [fadd, ha, hb, Int.add_comm, Bool.or_comm, Bool.and_comm]

/-- The product is commutative bit for bit. -/
theorem fmul_comm (a b : F64) : fmul p a b = fmul p b a := by
  have hsign : (fSign a != fSign b) = (fSign b != fSign a) := bne_comm
  simp only [fmul, hsign, Bool.or_comm, Nat.mul_comm]

theorem fadd_fneg (a b : F64) : fadd p a (fneg b) = fsub p a b := rfl

theorem fadd_fneg_left (a b : F64) : fadd p (fneg a) b = fsub p b a := fadd_comm p (fneg a) b

theorem fsub_fneg (a b : F64) : fsub p a (fneg b) = fadd p a b := by rw [fsub, fneg_fneg]

/-- From the overflow threshold on the sum of finite values is the infinity of the sign of the exact sum. -/
theorem fadd_overflow {t : Nat} (ht : t = 2044) (ha : fIsFinite a = true) (hb : fIsFinite b = true)
    (h : (2 ^ 54 - 1) * 2 ^ t ≤ (fUnits a + fUnits b).natAbs) :
    fIsInf (fadd p a b) = true ∧ fSign (fadd p a b) = decide (fUnits a + fUnits b < 0) := by
  have hpos := Nat.two_pow_pos t
  exact (fadd_nearestEven p ha hb (by omega)).inf ht h

theorem fsub_overflow {t : Nat} (ht : t = 2044) (ha : fIsFinite a = true) (hb : fIsFinite b = true)
    (h : (2 ^ 54 - 1) * 2 ^ t ≤ (fUnits a - fUnits b).natAbs) :
    fIsInf (fsub p a b) = true ∧ fSign (fsub p a b) = decide (fUnits a - fUnits b < 0) := by
  have hpos := Nat.two_pow_pos t
  exact (fsub_nearestEven p ha hb (by omega)).inf ht h

theorem fmul_of_finite (ha : fIsFinite a = true) (hb : fIsFinite b = true) :
    fmul p a b = roundUnits (fSign a != fSign b) (fMag a * fMag b) unitScale := by
  simp [fmul, fIsNaN_of_finite, fIsInf_of_finite, ha, hb]

theorem fdiv_of_finite (ha : fIsFinite a = true) (hb : fIsFinite b = true) (hz : fIsZero b = false) :
    fdiv p a b = roundUnits (fSign a != fSign b) (fMag a * unitScale) (fMag b) := by
  simp [fdiv, fIsNaN_of_finite, fIsInf_of_finite, ha, hb, hz]

/-- The product takes the sign of a finite factor. -/
theorem fmul_fneg_left (ha : fIsFinite a = true) (hb : fIsFinite b = true) : fmul p (fneg a) b = fneg (fmul p a b) := by
  rw [fmul_of_finite p (by simpa using ha) hb, fmul_of_finite p ha hb, fneg_roundUnits, fSign_fneg, fMag_fneg, Bool.not_bne]

/-- A product with 1 is exact. -/
theorem fmul_one_left (ha : fIsFinite a = true) : fmul p fOne a = a := by
  have hsign : (fSign fOne != fSign a) = fSign a := Bool.false_bne _
  have hscale := roundUnits_mul_right (fSign a) (fMag a) 1 unitScale_pos
  rw [Nat.one_mul] at hscale
  rw [fmul_of_finite p (by decide) ha, hsign, fMag_one, Nat.mul_comm, hscale, roundUnits_fMag ha]

theorem fmul_zero_right (ha : fIsFinite a = true) (hb : fIsZero b = true) :
    fmul p a b = fPack (fSign a != fSign b) 0 := by
  rw [fmul_of_finite p ha (fIsFinite_of_zero hb), fMag_eq_zero_iff.2 hb, Nat.mul_zero, roundUnits_zero]

theorem fIsZero_fmul (ha : fIsFinite a = true) (hb : fIsZero b = true) : fIsZero (fmul p a b) = true := by
  rw [fmul_zero_right p ha hb, fIsZero_fPack_zero]

theorem fUnits_of_zero (h : fIsZero a = true) : fUnits a = 0 := by simp [fUnits, fMag_eq_zero_iff.2 h]

theorem fIsZero_fadd (ha : fIsZero a = true) (hb : fIsZero b = true) : fIsZero (fadd p a b) = true := by
  rw [fadd_of_finite p (fIsFinite_of_zero ha) (fIsFinite_of_zero hb), fUnits_of_zero ha, fUnits_of_zero hb, if_pos (by decide),
    fIsZero_fPack_zero]

theorem fIsZero_fsub (ha : fIsZero a = true) (hb : fIsZero b = true) : fIsZero (fsub p a b) = true :=
  fIsZero_fadd p ha (by simpa using hb)

/-- The square of a zero is +0. -/
theorem fmul_zero_self (ha : fIsZero a = true) : fmul p a a = fZero := by
  rw [fmul_zero_right p (fIsFinite_of_zero ha) ha, bne_self_eq_false]
  decide

/-- A finite value divided by one of magnitude 1 or more stays finite. -/
theorem fIsFinite_fdiv (ha : fIsFinite a = true) (hb : fIsFinite b = true) (h : unitScale ≤ fMag b) :
    fIsFinite (fdiv p a b) = true := by
  obtain ⟨t, ht⟩ : ∃ t, t = 2044 := ⟨_, rfl⟩
  have hpos : 0 < fMag b := unitScale_pos.trans_le h
  rw [fdiv_of_finite p ha hb (fIsZero_of_fMag_pos hpos)]
  refine (roundUnits_finite hpos ht _ ?_).1
  calc fMag a * unitScale ≤ fMag a * fMag b := Nat.mul_le_mul_left _ h
    _ < (2 ^ 54 - 1) * 2 ^ t * fMag b := Nat.mul_lt_mul_of_pos_right (fMag_lt_overflow ht ha) hpos

end Operations

section Naturals

variable (p : Params) {m n : Nat}

@[simp] theorem fSign_freal (n : Nat) : fSign (freal n) = false := by rw [freal, roundUnits_eq, fSign_fPack]

theorem fIsFinite_freal (hn : n ≤ 2 ^ 53) : fIsFinite (freal n) = true := (freal_exact hn).1

theorem fUnits_freal (hn : n ≤ 2 ^ 53) : fUnits (freal n) = n * unitScale := (freal_exact hn).2

theorem fMag_freal (hn : n ≤ 2 ^ 53) : fMag (freal n) = n * unitScale := by
  have h := fUnits_freal hn
  rw [fUnits, fSign_freal, if_neg Bool.false_ne_true] at h
  exact_mod_cast h

theorem freal_zero : freal 0 = fZero := by
  rw [freal, Nat.zero_mul, roundUnits_zero]
  decide

/-- Finite values whose exact sum is a natural, and of which one is not negative, have its rounding as their sum. -/
theorem fadd_eq_freal {a b : F64} (ha : fIsFinite a = true) (hb : fIsFinite b = true) (hs : (fSign a && fSign b) = false)
    (h : fUnits a + fUnits b = (n * unitScale : Nat)) : fadd p a b = freal n := by
  rw [fadd_of_finite p ha hb, h, hs]
  split
  case isTrue h0 => rw [freal, Int.natCast_eq_zero.1 h0, roundUnits_zero]
  case isFalse => rw [freal, Int.natAbs_natCast, decide_eq_false (by omega)]

theorem fadd_eq_fneg_freal {a b : F64} (ha : fIsFinite a = true) (hb : fIsFinite b = true) (hn : 0 < n)
    (h : fUnits a + fUnits b = -(n * unitScale : Nat)) : fadd p a b = fneg (freal n) := by
  have hpos : 0 < n * unitScale := Nat.mul_pos hn unitScale_pos
  rw [fadd_of_finite p ha hb, h, if_neg (by omega), decide_eq_true (by omega), Int.natAbs_neg, Int.natAbs_natCast, freal,
    fneg_roundUnits, Bool.not_false]

/-- The sum of two naturals is rounded as their exact sum. -/
theorem fadd_freal (hm : m ≤ 2 ^ 53) (hn : n ≤ 2 ^ 53) : fadd p (freal m) (freal n) = freal (m + n) := by
  refine fadd_eq_freal p (fIsFinite_freal hm) (fIsFinite_freal hn) (by simp) ?_
  rw [fUnits_freal hm, fUnits_freal hn]
  push_cast
  ring

/-- The difference of two naturals, by the sign of the exact one. -/
theorem fsub_freal_of_le (hn : n ≤ m) (hm : m ≤ 2 ^ 53) : fsub p (freal m) (freal n) = freal (m - n) := by
  have hn' : n ≤ 2 ^ 53 := hn.trans hm
  refine fadd_eq_freal p (fIsFinite_freal hm) (by simpa using fIsFinite_freal hn') (by simp) ?_
  rw [fUnits_fneg, fUnits_freal hm, fUnits_freal hn', Nat.cast_mul, Nat.cast_sub hn]
  ring

theorem fsub_freal_of_lt (hm : m < n) (hn : n ≤ 2 ^ 53) : fsub p (freal m) (freal n) = fneg (freal (n - m)) := by
  have hm' : m ≤ 2 ^ 53 := hm.le.trans hn
  refine fadd_eq_fneg_freal p (fIsFinite_freal hm') (by simpa using fIsFinite_freal hn) (Nat.sub_pos_of_lt hm) ?_
  rw [fUnits_fneg, fUnits_freal hm', fUnits_freal hn, Nat.cast_mul, Nat.cast_sub hm.le]
  ring

/-- The product of two naturals is rounded as their exact product. -/
theorem fmul_freal (hm : m ≤ 2 ^ 53) (hn : n ≤ 2 ^ 53) : fmul p (freal m) (freal n) = freal (m * n) := by
  have hscale := roundUnits_mul_right false (m * n * unitScale) 1 unitScale_pos
  have hprod : m * unitScale * (n * unitScale) = m * n * unitScale * unitScale := by ring
  rw [Nat.one_mul] at hscale
  rw [fmul_of_finite p (fIsFinite_freal hm) (fIsFinite_freal hn), fSign_freal, fSign_freal, fMag_freal hm, fMag_freal hn,
    hprod, bne_self_eq_false, hscale, freal]

theorem fmul_fneg_freal (hm : m ≤ 2 ^ 53) (hn : n ≤ 2 ^ 53) :
    fmul p (fneg (freal m)) (freal n) = fneg (freal (m * n)) := by
  rw [fmul_fneg_left p (fIsFinite_freal hm) (fIsFinite_freal hn), fmul_freal p hm hn]

/-- The product of a value far below the overflow threshold and a 32-bit natural stays finite. -/
theorem fIsFinite_fmul_freal {a : F64} (ha : fIsFinite a = true) (hE : fExp a ≤ 1024) (hn : n ≤ 2 ^ 32) :
    fIsFinite (fmul p a (freal n)) = true := by
  obtain ⟨t, ht⟩ : ∃ t, t = 2044 := ⟨_, rfl⟩
  have hn' : n ≤ 2 ^ 53 := hn.trans (by decide)
  have hpos := Nat.two_pow_pos t
  have hlt : fMag a * n < (2 ^ 54 - 1) * 2 ^ t := by
    calc fMag a * n ≤ 2 ^ (52 + fExp a) * 2 ^ 32 := Nat.mul_le_mul (fMag_lt_two_pow a).le hn
      _ = 2 ^ (52 + fExp a + 32) := (pow_add ..).symm
      _ ≤ 2 ^ t := Nat.pow_le_pow_right (by decide) (by omega)
      _ < (2 ^ 54 - 1) * 2 ^ t := by omega
  rw [fmul_of_finite p ha (fIsFinite_freal hn'), fMag_freal hn', ← Nat.mul_assoc]
  exact (roundUnits_finite unitScale_pos ht _ (Nat.mul_lt_mul_of_pos_right hlt unitScale_pos)).1

/-- The quotient of a natural and a divisor of it is exact. -/
theorem fdiv_freal (hm : m ≤ 2 ^ 53) (h0 : m ≠ 0) (hdvd : n ∣ m) : fdiv p (freal m) (freal n) = freal (m / n) := by
  have hn : n ≤ 2 ^ 53 := (Nat.le_of_dvd (by omega) hdvd).trans hm
  have hpos : 0 < n * unitScale := Nat.mul_pos (Nat.pos_of_dvd_of_pos hdvd (by omega)) unitScale_pos
  have hz : fIsZero (freal n) = false := fIsZero_of_fMag_pos (by rwa [fMag_freal hn])
  have hquot : m * unitScale * unitScale = m / n * unitScale * (n * unitScale) := by
    conv_lhs => rw [← Nat.div_mul_cancel hdvd]
    ring
  have hscale := roundUnits_mul_right false (m / n * unitScale) 1 hpos
  rw [Nat.one_mul] at hscale
  rw [fdiv_of_finite p (fIsFinite_freal hm) (fIsFinite_freal hn) hz, fSign_freal, fSign_freal, fMag_freal hm, fMag_freal hn,
    hquot, bne_self_eq_false, hscale, freal]

end Naturals

end Sys2Proof.Machine
end

section
/-!
PROOFS. The transcendental parameters and the generator (40_complex_alu R124, R127 to R130): P-BOUND as a bound on magnitudes,
the value of the generator at a finite angle, the angles that are finite, and the generator over the real numbers.
-/

namespace Sys2Proof.Machine

section Bound

variable {a x : F64}

/-- Bits of at most those of 1 are a finite value of magnitude at most 1. -/
theorem fInUnit_bound (h : fInUnit a = true) : fIsFinite a = true ∧ fMag a ≤ unitScale := by
  have hF := fFrac_lt a
  have hbits : fExp a * 2 ^ 52 + fFrac a ≤ 1023 * 2 ^ 52 := by
    have hle := of_decide_eq_true h
    rw [fExp_eq, fFrac_eq]
    omega
  refine ⟨(fIsFinite_iff a).2 (by omega), ?_⟩
  rcases Nat.lt_or_ge (fExp a) 1023 with hlt | hge
  · exact (fMag_lt_two_pow a).le.trans (two_pow_le_unitScale (by omega))
  · have hE : fExp fOne = 1023 := by decide
    have hF : fFrac fOne = 0 := by decide
    rw [← fMag_one, fMag, fMag, hE, hF, show fExp a = 1023 by omega, show fFrac a = 0 by omega]

theorem fInUnit_fBound (a : F64) : fInUnit (fBound a) = true := by
  unfold fBound
  split
  case isTrue h => exact h
  case isFalse => decide

theorem fInUnit_of_zero (h : fIsZero a = true) : fInUnit a = true := by
  obtain ⟨hE, hF⟩ := (fIsZero_iff a).1 h
  rw [fExp_eq] at hE
  rw [fFrac_eq] at hF
  exact decide_eq_true (by omega)

/-- P-BOUND of COS (40_complex_alu R127). -/
theorem fcos_bound (h : fIsFinite x = true) : fIsFinite (fcos x) = true ∧ fMag (fcos x) ≤ unitScale := by
  refine fInUnit_bound ?_
  unfold fcos
  split
  case isTrue => decide
  case isFalse => exact fInUnit_fBound _

/-- P-BOUND of SIN (40_complex_alu R127). -/
theorem fsin_bound (h : fIsFinite x = true) : fIsFinite (fsin x) = true ∧ fMag (fsin x) ≤ unitScale := by
  refine fInUnit_bound ?_
  unfold fsin
  split
  case isTrue hz => exact fInUnit_of_zero hz
  case isFalse => exact fInUnit_fBound _

theorem fcos_zero (h : fIsZero x = true) : fcos x = fOne := if_pos h

theorem fsin_zero (h : fIsZero x = true) : fsin x = x := if_pos h

theorem fexp_zero (h : fIsZero x = true) : fexp x = fOne := if_pos h

end Bound

section Generator

variable (p : Params) {x : F64} {n d : Nat}

theorem cexp_b64 (z : Cx F64) :
    cexp (b64Scalar p) z = ⟨fmul p (fexp z.re) (fcos z.im), fmul p (fexp z.re) (fsin z.im)⟩ := rfl

/-- CEXP of (+0, x) for a finite x is (COS(x), SIN(x)), as EXP(+0) = 1 (40_complex_alu R129). -/
theorem cexp_finite_angle (h : fIsFinite x = true) : cexp (b64Scalar p) ⟨fZero, x⟩ = ⟨fcos x, fsin x⟩ := by
  have hexp : fexp fZero = fOne := fexp_zero (by decide)
  rw [cexp_b64, hexp, fmul_one_left p (fcos_bound h).1, fmul_one_left p (fsin_bound h).1]

theorem cisAngle_inverse (hn : n < 2 * d) : cisAngle p .inverse n d = fdiv p (fmul p p.pi64 (freal n)) (freal d) := by
  simp only [cisAngle, Nat.mod_eq_of_lt hn]

theorem cisAngle_forward (n d : Nat) : cisAngle p .forward n d = fneg (cisAngle p .inverse n d) := rfl

theorem cisAngle_period (dir : Dir) (n d : Nat) : cisAngle p dir (n + 2 * d) d = cisAngle p dir n d := by
  simp only [cisAngle, Nat.add_mod_right]

/-- A natural from 1 on, as a divisor. -/
theorem unitScale_le_fMag_freal (h1 : 1 ≤ d) (hd : d ≤ 2 ^ 53) : unitScale ≤ fMag (freal d) := by
  rw [fMag_freal hd]
  exact Nat.le_mul_of_pos_left _ h1

/-- At numerator 0 the inverse angle is +0, as PI64 is not negative (40_complex_alu R130). -/
theorem cisAngle_zero (h1 : 1 ≤ d) (hd : d ≤ 2 ^ 53) (hpi : fIsFinite p.pi64 = true) (hs : fSign p.pi64 = false) :
    cisAngle p .inverse 0 d = fZero := by
  have hprod : fmul p p.pi64 (freal 0) = fZero := by
    rw [freal_zero, fmul_zero_right p hpi (by decide), hs]
    decide
  have hzero : fMag fZero = 0 := fMag_eq_zero_iff.2 (by decide)
  have hdiv : fIsZero (freal d) = false :=
    fIsZero_of_fMag_pos (unitScale_pos.trans_le (unitScale_le_fMag_freal h1 hd))
  rw [cisAngle_inverse p (by omega), hprod, fdiv_of_finite p (by decide) (fIsFinite_freal hd) hdiv, fSign_freal, hzero,
    Nat.zero_mul, roundUnits_zero]
  decide

/-- Every angle is finite for the binary64 nearest to pi: it is below 4, and the reduced numerator below 2^32. -/
theorem fIsFinite_cisAngle (dir : Dir) (n : Nat) (h1 : 1 ≤ d) (hd : d ≤ 2 ^ 31) (hpi : p.pi64 = 0x400921FB54442D18) :
    fIsFinite (cisAngle p dir n d) = true := by
  have hreduced : n % (2 * d) < 2 * d := Nat.mod_lt _ (by omega)
  have hfinite : fIsFinite p.pi64 = true := by
    rw [hpi]
    decide
  have hexp : fExp p.pi64 = 1024 := by
    rw [hpi]
    decide
  have hprod : fIsFinite (fmul p p.pi64 (freal (n % (2 * d)))) = true :=
    fIsFinite_fmul_freal p hfinite (by omega) (by omega)
  have hangle : fIsFinite (cisAngle p .inverse n d) = true :=
    fIsFinite_fdiv p hprod (fIsFinite_freal (by omega)) (unitScale_le_fMag_freal h1 (by omega))
  cases dir with
  | inverse => exact hangle
  | forward => rwa [cisAngle_forward, fIsFinite_fneg]

end Generator

section Exact

/-- CEXP over the reals is the complex exponential (40_complex_alu R124). -/
theorem toComplex_cexp (z : Cx ℝ) : toComplex (cexp exactScalar z) = Complex.exp (toComplex z) :=
  Complex.ext (Complex.exp_re (toComplex z)).symm (Complex.exp_im (toComplex z)).symm

theorem exactCis_eq_cexp (dir : Dir) (n d : Nat) :
    exactCis dir n d = cexp exactScalar ⟨0, Dir.sign dir * Real.pi * n / d⟩ := by
  simp [exactCis, cexp, exactScalar]

theorem toComplex_exactCis (dir : Dir) (n d : Nat) :
    toComplex (exactCis dir n d) = Complex.exp (Dir.sign dir * Complex.I * Real.pi * n / d) := by
  have hangle : toComplex ⟨0, Dir.sign dir * Real.pi * n / d⟩ = Dir.sign dir * Complex.I * Real.pi * n / d := by
    rw [toComplex, Complex.mk_eq_add_mul_I]
    push_cast
    ring
  rw [exactCis_eq_cexp, toComplex_cexp, hangle]

/-- The generator of the other direction is the conjugate (40_complex_alu R130). -/
theorem exactCis_inverse (n d : Nat) : exactCis .inverse n d = cconj exactScalar (exactCis .forward n d) := by
  simp [exactCis, cconj, exactScalar, Dir.sign, neg_div]

theorem exactCis_norm (dir : Dir) (n d : Nat) : (exactCis dir n d).re ^ 2 + (exactCis dir n d).im ^ 2 = 1 :=
  Real.cos_sq_add_sin_sq _

end Exact

end Sys2Proof.Machine

open Sys2Proof.Machine

/-- Settles O35: each parameter at a zero is its first case, and P-BOUND is the bound on the bits. -/
theorem transcendentalProperties : Obligations.TranscendentalProperties := by
  have hneg : fIsZero 0x8000000000000000 = true := by decide
  exact ⟨⟨fexp_zero (by decide), fexp_zero hneg⟩, ⟨fcos_zero (by decide), fcos_zero hneg⟩,
    ⟨fsin_zero (by decide), fsin_zero hneg⟩, fun x hx => and_assoc.1 ⟨fcos_bound hx, fsin_bound hx⟩⟩

/-- Settles O36: the angle's period and its values, CEXP at a finite angle, and the generator over the reals. -/
theorem cisProperties : Obligations.CisProperties := by
  refine ⟨fun p dir n d => ?_, fun p n d hn => ?_, fun p d h1 hd hpi hs => ?_, fun p dir n d h => ?_,
    fun p dir n d => fIsFinite_cisAngle p dir n,
    fun dir n d _ => ⟨exactCis_norm dir n d, exactCis_inverse n d, toComplex_exactCis dir n d⟩⟩
  · rw [cis64, cis64, cisAngle_period]
  · rw [cis64, cis64, cisAngle_forward, cisAngle_inverse p hn]
    exact ⟨rfl, rfl, fun h => ⟨cexp_finite_angle p h, cexp_finite_angle p (by simpa using h)⟩⟩
  · rw [cis64, cis64, cisAngle_forward, cisAngle_zero p h1 (by omega) hpi hs, cexp_finite_angle p (by decide),
      cexp_finite_angle p (by decide), fcos_zero (by decide), fcos_zero (by decide), fsin_zero (by decide),
      fsin_zero (by decide)]
    decide
  · rw [cis64, cexp_finite_angle p h]
    exact and_assoc.1 ⟨fcos_bound h, fsin_bound h⟩
end

section
/-!
PROOFS. The commands of the complex ALU (40_complex_alu R120 to R125): the result each writes to CR, and the corner cases of
the sum, the product and the quotient.
-/

namespace Sys2Proof.Machine

section Alu

variable (p : Params) {x : F64}

theorem cadd_b64 (a b : Cx F64) : cadd (b64Scalar p) a b = ⟨fadd p a.re b.re, fadd p a.im b.im⟩ := rfl

theorem csub_b64 (a b : Cx F64) : csub (b64Scalar p) a b = ⟨fsub p a.re b.re, fsub p a.im b.im⟩ := rfl

theorem cmul_b64 (a b : Cx F64) : cmul (b64Scalar p) a b =
    ⟨fsub p (fmul p a.re b.re) (fmul p a.im b.im), fadd p (fmul p a.re b.im) (fmul p a.im b.re)⟩ := rfl

theorem cdiv_b64 (a b : Cx F64) :
    cdiv (b64Scalar p) a b =
      .ok ⟨fdiv p (fadd p (fmul p a.re b.re) (fmul p a.im b.im)) (fadd p (fmul p b.re b.re) (fmul p b.im b.im)),
        fdiv p (fsub p (fmul p a.im b.re) (fmul p a.re b.im)) (fadd p (fmul p b.re b.re) (fmul p b.im b.im))⟩ := rfl

/-- Commutative terms make a commutative complex sum (40_complex_alu R120). -/
theorem cadd_comm (a b : Cx F64) : cadd (b64Scalar p) a b = cadd (b64Scalar p) b a := by
  rw [cadd_b64, cadd_b64, fadd_comm p a.re, fadd_comm p a.im]

theorem cmul_comm (a b : Cx F64) : cmul (b64Scalar p) a b = cmul (b64Scalar p) b a := by
  rw [cmul_b64, cmul_b64, fmul_comm p a.re, fmul_comm p a.im, fmul_comm p a.re, fmul_comm p a.im,
    fadd_comm p (fmul p b.im a.re)]

/-- A zero or a NaN over +0 (40_complex_alu R123). -/
theorem fdiv_fZero_nan (h : fIsZero x = true ∨ fIsNaN x = true) : fdiv p x fZero = nanResult p := by
  rcases h with hz | hnan
  · rw [fdiv_zero p (fIsFinite_of_zero hz) (by decide), if_pos hz]
  · obtain ⟨-, -, -, hdiv⟩ := arithmetic_nan p (b := fZero) (.inl hnan)
    exact hdiv

/-- Every other value over +0. -/
theorem fdiv_fZero_inf (hz : fIsZero x = false) (hnan : fIsNaN x = false) : fdiv p x fZero = signedInf (fSign x) := by
  have hsign : (fSign x != fSign fZero) = fSign x := Bool.bne_false _
  cases hinf : fIsInf x with
  | true => rw [(fdiv_inf_finite p hinf (by decide)).1, hsign]
  | false =>
    rw [fdiv_zero p (fIsFinite_of_not_inf_nan hinf hnan) (by decide), hz, if_neg Bool.false_ne_true, hsign]

/-- A finite value over a zero: both numerators are zeros, and the divisor is +0 (40_complex_alu R123). -/
theorem cdiv_zero {a b : Cx F64} (hre : fIsFinite a.re = true) (him : fIsFinite a.im = true) (hbre : fIsZero b.re = true)
    (hbim : fIsZero b.im = true) : cdiv (b64Scalar p) a b = .ok ⟨nanResult p, nanResult p⟩ := by
  have hd : fadd p (fmul p b.re b.re) (fmul p b.im b.im) = fZero := by
    rw [fmul_zero_self p hbre, fmul_zero_self p hbim, fadd_eq_zero p (by decide) (by decide) (by decide)]
    decide
  have hnum := fIsZero_fadd p (fIsZero_fmul p hre hbre) (fIsZero_fmul p him hbim)
  have hnum' := fIsZero_fsub p (fIsZero_fmul p him hbre) (fIsZero_fmul p hre hbim)
  rw [cdiv_b64, hd, fdiv_fZero_nan p (.inl hnum), fdiv_fZero_nan p (.inl hnum')]

end Alu

end Sys2Proof.Machine

open Sys2Proof.Machine

/-- Settles O29: CR by the definition of the commands, the overflow by rounding to nearest, the other corner cases by the
classes of the operands. -/
theorem caddCsubResult : Obligations.CaddCsubResult := by
  refine ⟨fun _ => rfl, fun _ => rfl, fun p => ⟨cadd_comm p, fun a b => fadd_overflow p rfl, fun a b => fsub_overflow p rfl,
    fun a b ha hb hs => ?_, fun a b ha hb hs => ?_, fIsNaN_nanResult p, ?_, fun a ha => ?_, ?_, ?_⟩⟩
  · rw [fadd_inf_inf p ha hb, if_neg hs]
  · rw [fsub_inf_inf p ha hb, if_pos hs]
  · rw [fadd_eq_zero p (by decide) (by decide) (by decide)]
    decide
  · rw [fsub_eq_zero p ha ha (sub_self _), if_neg (by simp)]
  · simp [cadd_b64, fadd_fneg, fadd_freal, fsub_freal_of_le]
  · simp [csub_b64, fsub_fneg, fadd_freal, fsub_freal_of_lt]

/-- Settles O30: the product of the components is commutative, and so is the sum of products. -/
theorem cmulResult : Obligations.CmulResult := by
  refine ⟨fun _ => rfl, fun p => ⟨cmul_comm p, fun a b ha hb => (fmul_inf_zero p ha hb).1, ?_, ?_⟩⟩
  · have hinf : fmul p fOne 0x7FF0000000000000 = 0x7FF0000000000000 := by
      rw [(fmul_inf_nonzero p (by decide) (by decide) (by decide)).2]
      decide
    have hnan : fmul p fZero 0x7FF0000000000000 = nanResult p := (fmul_inf_zero p (by decide) (by decide)).2
    rw [cmul_b64, hinf, hnan, fmul_zero_self p (by decide), (fsub_inf_finite p (by decide) (by decide)).1,
      (arithmetic_nan p (.inr (fIsNaN_nanResult p))).1]
  · simp [cmul_b64, fmul_freal, fadd_freal, fsub_freal_of_lt]

/-- Settles O31: the quotient over +0 by the class of the numerator, and over the reals by its missing quotient. -/
theorem cdivResult : Obligations.CdivResult := by
  refine ⟨fun _ => rfl, fun p x => ⟨fdiv_fZero_nan p, fun hz hnan => ?_⟩, fun p a b => cdiv_zero p, fun a => ?_, fun p => ?_⟩
  · rw [fdiv_fZero_inf p hz hnan]
    exact ⟨fIsInf_signedInf _, fSign_signedInf _⟩
  · simp [cdiv, sdiv, exactScalar]
  · simp [cdiv_b64, fmul_fneg_freal, fmul_freal, fadd_fneg_left, fsub_fneg, fadd_freal, fsub_freal_of_le, fdiv_freal]

/-- Settles O32: EXP(+0) = 1 leaves COS and SIN of +0, and over the reals the function is the complex exponential. -/
theorem cexpResult : Obligations.CexpResult := by
  refine ⟨fun _ => rfl, fun p => ?_, toComplex_cexp⟩
  rw [cexp_finite_angle p (by decide), fcos_zero (by decide), fsin_zero (by decide)]

/-- Settles O33: negation flips the sign bit alone. -/
theorem cconjResult : Obligations.CconjResult :=
  ⟨fun _ => rfl, fun a => ⟨fSign_fneg a, fExp_fneg a, fFrac_fneg a⟩⟩
end

section
/-!
PROOFS. The checks of FFT2 (41_radix2_fft R141): each entry of the check list fails exactly when its condition does not hold, so
the list is the chain of the conditions in order.
-/

namespace Sys2Proof.Machine

section Fft2Checks

variable {s : State} {plan : Plan} {dsp : Space}

theorem fft2WsCheck_iff :
    ((planNeedsData plan && dsp == .ws || planNeedsTable plan s.operands) && !s.wsValid) = true ↔
      ¬ fft2WsOk s plan dsp := by
  simp [fft2WsOk]

theorem fft2SizeCheck_iff :
    (!isPow2 s.operands.size || decide (2 ^ 30 < s.operands.size)) = true ↔ ¬ fft2SizeOk s := by
  rw [← Bool.not_eq_false, not_iff_not, Bool.or_eq_false_iff, Bool.not_eq_false', isPow2_iff, decide_eq_false_iff_not,
    not_lt]
  constructor
  · rintro ⟨⟨b, hb⟩, hle⟩
    exact ⟨b, (Nat.pow_le_pow_iff_right (by decide)).1 (hb ▸ hle), hb⟩
  · rintro ⟨b, hle, hb⟩
    exact ⟨⟨b, hb⟩, hb.le.trans (Nat.pow_le_pow_right (by decide) hle)⟩

theorem fft2StrideCheck_iff :
    (planNeedsData plan && decide (s.operands.stride = 0)) = true ↔ ¬ fft2StrideOk s plan := by
  simp only [fft2StrideOk, Bool.and_eq_true, decide_eq_true_eq, Classical.not_imp, not_not]
  rfl

/-- The two entries of the data operand, one per space, are one condition. -/
theorem fft2DataCheck_iff :
    (planNeedsData plan && dsp == .sig && decide (s.cfg.sigWords < s.operands.sigBase + 2 * s.operands.last + 2)) = true ∨
    (planNeedsData plan && dsp == .ws && decide (s.wsLen ≤ s.operands.last)) = true ↔ ¬ fft2DataOk s plan dsp := by
  simp only [fft2DataOk, Bool.and_eq_true, beq_iff_eq, decide_eq_true_eq, Classical.not_imp, not_and_or, not_le, not_lt,
    and_assoc, ← and_or_left]
  rfl

theorem fft2TableCheck_iff :
    (planNeedsTable plan s.operands && decide (s.wsLen < s.operands.tbase + s.operands.size / 2)) = true ↔
      ¬ fft2TableOk s plan := by
  simp only [fft2TableOk, Bool.and_eq_true, decide_eq_true_eq, Classical.not_imp, not_le]
  rfl

theorem fft2ApartCheck_iff :
    (planNeedsTable plan s.operands && (planNeedsData plan && dsp == .ws) &&
      decide (s.operands.dbase < s.operands.tbase + s.operands.size / 2) &&
      decide (s.operands.tbase ≤ s.operands.last)) = true ↔ ¬ fft2ApartOk s plan dsp := by
  simp only [fft2ApartOk, Bool.and_eq_true, beq_iff_eq, decide_eq_true_eq, Classical.not_imp, not_or, not_le, not_lt,
    and_assoc]
  rfl

open Classical in
/-- 41_radix2_fft R141: the first condition that does not hold gives the error. -/
theorem fft2Check_eq : fft2Check s plan dsp s.operands =
    if ¬ fft2WsOk s plan dsp then some .wsState
    else if ¬ fft2SizeOk s then some (.operandRange 0x20)
    else if ¬ fft2StrideOk s plan then some (.operandRange 0x28)
    else if ¬ fft2DataOk s plan dsp then some (.operandRange 0x30)
    else if ¬ fft2TableOk s plan then some (.operandRange 0x38)
    else if ¬ fft2ApartOk s plan dsp then some (.operandRange 0x38) else none := by
  simp only [fft2Check, firstError_cons, firstError_nil, ← fft2WsCheck_iff, ← fft2SizeCheck_iff, ← fft2StrideCheck_iff,
    ← fft2DataCheck_iff, ← fft2TableCheck_iff, ← fft2ApartCheck_iff, ite_or]

/-- A failed check is the error that FFT2 raises (60_exceptions R262). -/
theorem fft2_raises {e : Err} (dir : Dir) (h : fft2Check s plan dsp s.operands = some e) :
    Raises (.fft2 dir plan dsp) s e.code.code e.info := by
  simp only [Raises, exec, execFft2, h, checked_some, State.raise]

/-- An FFT2 whose checks pass raises no error. -/
theorem fft2_err {dir : Dir} {t : State} (h : Fft2Ready s plan dsp) (ht : exec (.fft2 dir plan dsp) s = .next t) :
    t.err = 0 := by
  rcases memoryCommand_next ht with ⟨e, he, -⟩ | ⟨-, m, -, rfl⟩
  · rw [h.check] at he
    cases he
  · rfl

end Fft2Checks

end Sys2Proof.Machine

open Sys2Proof.Machine

/-- Settles O26: the check list is the chain of the conditions in order (`fft2Check_eq`). -/
theorem fft2Errors : Obligations.Fft2Errors := by
  intro dir plan dsp s
  exact ⟨fun h1 => fft2_raises dir (e := .wsState) (by simp [fft2Check_eq, h1]),
    fun h1 h2 => fft2_raises dir (e := .operandRange 0x20) (by simp [fft2Check_eq, h1, h2]),
    fun h1 h2 h3 => fft2_raises dir (e := .operandRange 0x28) (by simp [fft2Check_eq, h1, h2, h3]),
    fun h1 h2 h3 h4 => fft2_raises dir (e := .operandRange 0x30) (by simp [fft2Check_eq, h1, h2, h3, h4]),
    fun h1 h2 h3 h4 h5 => fft2_raises dir (e := .operandRange 0x38) (by simp [fft2Check_eq, h1, h2, h3, h4, h5]),
    fun h1 h2 h3 h4 h5 h6 => fft2_raises dir (e := .operandRange 0x38) (by simp [fft2Check_eq, h1, h2, h3, h4, h5, h6]),
    fun h _ => fft2_err h⟩
end

section
/-!
PROOFS. What FFT2 does when its checks pass (41_radix2_fft R140 to R148): that it completes with what its body makes of the
memories, what every plan leaves alone, and what the stages make of the data operand and of the table.
-/

namespace Sys2Proof.Machine

section Frame

variable {F : Type} {num : Num F} {dsp : Space} {o : Operands} {dir : Dir} {plan : Plan} {st st' : Store F}

/-- A signal word that is none of the two words of element `e` keeps its value when the element is written. -/
theorem cellGet_sig_dataWrite {e w : Nat} (c : Cx F)
    (h : ¬ (dsp = .sig ∧ (w = o.sigBase + 2 * o.dataIndex e ∨ w = o.sigBase + 2 * o.dataIndex e + 1))) :
    cellGet (dataWrite dsp o st e c).sig w = cellGet st.sig w := by
  cases dsp with
  | ws => rfl
  | sig =>
    obtain ⟨hre, him⟩ := not_or.1 fun hw => h ⟨rfl, hw⟩
    simp [dataWrite, hre, him]

/-- A workspace element that is not element `e` keeps its value when element `e` is written. -/
theorem cellGet_ws_dataWrite {e i : Nat} (c : Cx F) (h : ¬ (dsp = .ws ∧ i = o.dataIndex e)) :
    cellGet (dataWrite dsp o st e c).wsRe i = cellGet st.wsRe i ∧
    cellGet (dataWrite dsp o st e c).wsIm i = cellGet st.wsIm i := by
  cases dsp with
  | sig => exact ⟨rfl, rfl⟩
  | ws =>
    have hi : i ≠ o.dataIndex e := fun hi => h ⟨rfl, hi⟩
    simp [dataWrite, hi]

/-- A workspace element that is not table entry `k` keeps its value when the entry is written. -/
theorem cellGet_ws_twiddleWrite {k i : Nat} (c : Cx F) (h : i ≠ o.twiddleIndex k) :
    cellGet (twiddleWrite o st k c).wsRe i = cellGet st.wsRe i ∧
    cellGet (twiddleWrite o st k c).wsIm i = cellGet st.wsIm i := by
  simp [twiddleWrite, h]

/-- 41_radix2_fft R153: FFT2 leaves every signal word outside its data operand. -/
theorem fft2Body_sigKept (hsize : isPow2 o.size = true) (h : fft2Body num dsp o dir plan st = .ok st') :
    SigKept (fun w => planNeedsData plan = true ∧ dsp = .sig ∧ o.IsDataWord w) st st' := by
  intro w hw
  refine fft2Body_keeps num (P := fun s => cellGet s.sig w = cellGet st.sig w) hsize
    ⟨fun hd s e c he hs => ?_, fun _ _ _ _ _ hs => hs⟩ h rfl
  rw [cellGet_sig_dataWrite c fun ⟨hdsp, hword⟩ => hw ⟨hd, hdsp, e, he, hword⟩, hs]

/-- 41_radix2_fft R153: FFT2 leaves every workspace element outside its data operand and the table that it generates. -/
theorem fft2Body_wsKept (hsize : isPow2 o.size = true) (h : fft2Body num dsp o dir plan st = .ok st') :
    WsKept (fun i => (planNeedsData plan = true ∧ dsp = .ws ∧ o.IsDataElement i) ∨ (plan.tw = true ∧ o.IsTableEntry i))
      st st' := by
  intro i hi
  refine fft2Body_keeps num
    (P := fun s => cellGet s.wsRe i = cellGet st.wsRe i ∧ cellGet s.wsIm i = cellGet st.wsIm i) hsize
    ⟨fun hd s e c he hs => ?_, fun htw s k c hk hs => ?_⟩ h ⟨rfl, rfl⟩
  · obtain ⟨hre, him⟩ := cellGet_ws_dataWrite (st := s) c fun ⟨hdsp, hidx⟩ => hi (.inl ⟨hd, hdsp, e, he, hidx⟩)
    rwa [hre, him]
  · obtain ⟨hre, him⟩ := cellGet_ws_twiddleWrite (st := s) c fun hidx => hi (.inr ⟨htw, k, hk, hidx⟩)
    rwa [hre, him]

/-- A plan that touches no data generates the table or does nothing. -/
theorem fft2Body_of_noData (hd : planNeedsData plan = false) :
    fft2Body num dsp o dir plan st = stage plan.tw (twiddleStage num o dir) st := by
  obtain ⟨br, tw, bf, nm⟩ := plan
  simp only [planNeedsData, Bool.or_eq_false_iff] at hd
  obtain ⟨⟨rfl, rfl⟩, rfl⟩ := hd
  cases tw with
  | false => rfl
  | true =>
    obtain ⟨st', h, -⟩ := twiddleStage_spec num (o := o) (st := st) dir
    simp [fft2Body, h]

end Frame

section Completion

variable {s : State} {dir : Dir} {plan : Plan} {dsp : Space} {m : Store F64}

theorem Fft2Ready.isPow2_size (h : Fft2Ready s plan dsp) : isPow2 s.operands.size = true := by
  obtain ⟨b, -, hb⟩ := h.size
  exact isPow2_iff.2 ⟨b, hb⟩

/-- FFT2 completes with the memories its body answers (60_exceptions R262). -/
theorem fft2_completes (h : Fft2Ready s plan dsp)
    (hm : fft2Body (b64 s.cfg) dsp s.operands dir plan s.mem = .ok m) : Completes (.fft2 dir plan dsp) s m := by
  simp only [Completes, exec, execFft2, h.check, hm, checked_none, commit_ok, State.complete]

/-- The division of both components by real(SIZE) (41_radix2_fft R148). -/
def fft2Quotient (p : Params) (size : Nat) (c : Cx F64) : Cx F64 :=
  ⟨fdiv p c.re (freal size), fdiv p c.im (freal size)⟩

variable {b : Nat} {d w : Nat → Cx F64}

/-- 41_radix2_fft R140: what an FFT2 that touches data answers, over binary64. -/
theorem fft2Body_b64 (dir : Dir) (h : Fft2Ready s plan dsp) (hd : planNeedsData plan = true) (hb : s.operands.size = 2 ^ b)
    (hdata : ∀ e, e < s.operands.size → dataRead dsp s.operands s.mem e = .ok (d e))
    (htable : plan.bf = true → plan.tw = false → ∀ k, k < s.operands.size / 2 →
      twiddleRead s.operands s.mem k = .ok (w k)) :
    ∃ m, fft2Body (b64 s.cfg) dsp s.operands dir plan s.mem = .ok m ∧
      ∀ e, e < s.operands.size → dataRead dsp s.operands m e =
        .ok (fft2Result (b64 s.cfg) s.operands.size b dir plan (fft2Quotient s.cfg s.operands.size) w d e) :=
  fft2Body_spec _ hb (h.one_le_stride hd) (h.operandsApart hd) dir hdata htable fun _ c => cdivr_b64 s.cfg c _

/-- Elements that can all be read are the values of a function. -/
theorem exists_values {n : Nat} {read : Nat → Except ModelFault (Cx F64)} (h : ∀ k, k < n → ∃ c, read k = .ok c) :
    ∃ c : Nat → Cx F64, ∀ k, k < n → read k = .ok (c k) := by
  have : Nonempty (Cx F64) := ⟨⟨0, 0⟩⟩
  choose! c hc using h
  exact ⟨c, hc⟩

theorem WsReady.reads {F : Type} {st : Store F} {lo count k : Nat} (h : WsReady st lo count) (hk : k < count) :
    ∃ c, wsRead st (lo + k) = .ok c := by
  obtain ⟨hre, him⟩ := h k hk
  obtain ⟨re, hre⟩ := Option.isSome_iff_exists.1 hre
  obtain ⟨im, him⟩ := Option.isSome_iff_exists.1 him
  exact ⟨⟨re, im⟩, (wsRead_ok_iff _ _ _).2 ⟨hre, him⟩⟩

/-- 41_radix2_fft R140: FFT2 answers when its checks pass and what it reads holds values; an operand that the plan touches then
holds values again. -/
theorem fft2Body_answers (dir : Dir) (h : Fft2Ready s plan dsp)
    (hdata : planNeedsData plan = true → DataReady dsp s.operands s.mem)
    (htable : plan.bf = true → plan.tw = false → WsReady s.mem s.operands.tbase (s.operands.size / 2)) :
    ∃ m, fft2Body (b64 s.cfg) dsp s.operands dir plan s.mem = .ok m ∧
      (planNeedsData plan = true → DataReady dsp s.operands m) := by
  cases hd : planNeedsData plan with
  | false =>
    rw [fft2Body_of_noData hd]
    cases plan.tw with
    | false => exact ⟨s.mem, rfl, nofun⟩
    | true =>
      obtain ⟨m, hm, -⟩ := twiddleStage_spec (b64 s.cfg) (o := s.operands) (st := s.mem) dir
      exact ⟨m, hm, nofun⟩
  | true =>
    obtain ⟨b, -, hb⟩ := h.size
    obtain ⟨d, hd'⟩ := exists_values (hdata hd)
    obtain ⟨w, hw⟩ : ∃ w : Nat → Cx F64, plan.bf = true → plan.tw = false → ∀ k, k < s.operands.size / 2 →
        twiddleRead s.operands s.mem k = .ok (w k) := by
      by_cases hread : plan.bf = true ∧ plan.tw = false
      · obtain ⟨w, hw⟩ := exists_values fun k hk => (htable hread.1 hread.2).reads hk
        exact ⟨w, fun _ _ => hw⟩
      · exact ⟨d, fun hbf htw => absurd ⟨hbf, htw⟩ hread⟩
    obtain ⟨m, hm, hres⟩ := fft2Body_b64 dir h hd hb hd' hw
    exact ⟨m, hm, fun _ e he => ⟨_, hres e he⟩⟩

end Completion

section BitReversal

/-- 41_radix2_fft R145: BITREV writes only elements that move. -/
theorem bitRevStage_keeps_moved {F : Type} {P : Store F → Prop} {dsp : Space} {o : Operands} {st st' : Store F} {b : Nat}
    (hb : o.size = 2 ^ b) (hd : ∀ st e c, e < o.size → bitRev b e ≠ e → P st → P (dataWrite dsp o st e c))
    (h : bitRevStage dsp o st = .ok st') (h0 : P st) : P st' := by
  have hlog : Nat.log2 o.size = b := by rw [hb, Nat.log2_two_pow]
  refine forRange_keeps (fun _ s => P s) h h0 fun j a c _ hj hP hc => ?_
  have hlt : j < o.size := by omega
  have hr : bitRev b j < o.size := hb ▸ bitRev_lt b j
  have hrr : bitRev b (bitRev b j) = j := bitRev_bitRev (hb ▸ hlt)
  simp only [bitRevSwap, hlog] at hc
  split at hc
  case isTrue hmove =>
    simp only [except_bind_ok, except_pure] at hc
    obtain ⟨x, -, y, -, hc⟩ := hc
    cases hc
    exact hd _ _ _ hr (by omega) (hd _ _ _ hlt (by omega) hP)
  case isFalse =>
    cases hc
    exact hP

variable {dsp : Space} {o : Operands} {m m' : Store F64} {b : Nat}

/-- 41_radix2_fft R145: BITREV leaves every signal word that is not one of an element that moves. -/
theorem bitRevStage_sigKept (hb : o.size = 2 ^ b) (h : bitRevStage dsp o m = .ok m') :
    SigKept (fun w => dsp = .sig ∧ ∃ e, e < o.size ∧ bitRev b e ≠ e ∧
      (w = o.sigBase + 2 * o.dataIndex e ∨ w = o.sigBase + 2 * o.dataIndex e + 1)) m m' := by
  intro w hw
  refine bitRevStage_keeps_moved (P := fun st => cellGet st.sig w = cellGet m.sig w) hb
    (fun st e c he hne hst => ?_) h rfl
  rw [cellGet_sig_dataWrite c fun ⟨hdsp, hword⟩ => hw ⟨hdsp, e, he, hne, hword⟩, hst]

/-- 41_radix2_fft R145: BITREV leaves every workspace element that is not one that moves. -/
theorem bitRevStage_wsKept (hb : o.size = 2 ^ b) (h : bitRevStage dsp o m = .ok m') :
    WsKept (fun i => dsp = .ws ∧ ∃ e, e < o.size ∧ bitRev b e ≠ e ∧ i = o.dataIndex e) m m' := by
  intro i hi
  refine bitRevStage_keeps_moved
    (P := fun st => cellGet st.wsRe i = cellGet m.wsRe i ∧ cellGet st.wsIm i = cellGet m.wsIm i) hb
    (fun st e c he hne hst => ?_) h ⟨rfl, rfl⟩
  obtain ⟨hre, him⟩ := cellGet_ws_dataWrite (st := st) c fun ⟨hdsp, hidx⟩ => hi ⟨hdsp, e, he, hne, hidx⟩
  rwa [hre, him]

/-- Bit k of the reversal is bit b - 1 - k of the index (00_scope R8). -/
theorem testBit_bitRev {b k : Nat} (hk : k < b) (i : Nat) : (bitRev b i).testBit k = i.testBit (b - 1 - k) := by
  induction b generalizing i with
  | zero => omega
  | succ b ih =>
    rw [bitRev, Nat.mul_comm, Nat.testBit_two_pow_mul_add _ (bitRev_lt b _)]
    by_cases hkb : k < b
    · rw [if_pos hkb, ih hkb, ← Nat.testBit_add_one]
      congr 1
      omega
    · obtain rfl : k = b := by omega
      simp [Nat.testBit_zero]

end BitReversal

section Frames

variable {F : Type} {p q : Nat → Prop} {m m' : Store F}

theorem SigKept.mono (h : SigKept p m m') (hpq : ∀ w, p w → q w) : SigKept q m m' := fun w hw => h w (mt (hpq w) hw)

theorem WsKept.mono (h : WsKept p m m') (hpq : ∀ i, p i → q i) : WsKept q m m' := fun i hi => h i (mt (hpq i) hi)

end Frames

section Normalize

/-- A value with an exponent above b is a multiple of the scale on which its quotient by 2^b is rounded. -/
theorem two_pow_mul_roundScale_dvd {a : F64} {b : Nat} (hE : b < fExp a) :
    2 ^ b * 2 ^ roundScale (fMag a) (2 ^ b) ∣ fMag a := by
  have hscale : b + roundScale (fMag a) (2 ^ b) ≤ fExp a - 1 := by
    unfold roundScale
    by_cases h0 : fMag a / 2 ^ b = 0
    · rw [h0, Nat.log2_zero]
      omega
    · have hlt : fMag a / 2 ^ b < 2 ^ (52 + fExp a - b) := by
        rw [Nat.div_lt_iff_lt_mul (Nat.two_pow_pos b), ← pow_add, Nat.sub_add_cancel (by omega)]
        exact fMag_lt_two_pow a
      have hlog := (Nat.log2_lt h0).2 hlt
      omega
  have hmag : fMag a = (2 ^ 52 + fFrac a) * 2 ^ (fExp a - 1) := if_neg (by omega)
  rw [← pow_add]
  exact (Nat.pow_dvd_pow 2 hscale).trans (hmag ▸ Nat.dvd_mul_left _ _)

/-- 41_radix2_fft R148: a division by 2^b is exact while the exponent stays above 0. -/
theorem fUnits_fdiv_two_pow (p : Params) {a : F64} {b : Nat} (hb : b ≤ 30) (ha : fIsFinite a = true) (hE : b < fExp a) :
    fUnits (fdiv p a (freal (2 ^ b))) * 2 ^ b = fUnits a := by
  obtain ⟨t, ht⟩ : ∃ t, t = 2044 := ⟨_, rfl⟩
  have hpos := Nat.two_pow_pos b
  have hn : 2 ^ b ≤ 2 ^ 53 := Nat.pow_le_pow_right (by decide) (by omega)
  have hz : fIsZero (freal (2 ^ b)) = false :=
    fIsZero_of_fMag_pos (by rw [fMag_freal hn]; exact Nat.mul_pos hpos unitScale_pos)
  have hdiv : fdiv p a (freal (2 ^ b)) = roundUnits (fSign a) (fMag a) (2 ^ b) := by
    rw [fdiv_of_finite p ha (fIsFinite_freal hn) hz, fSign_freal, fMag_freal hn, roundUnits_mul_right _ _ _ unitScale_pos,
      Bool.bne_false]
  have hlt : fMag a < (2 ^ 54 - 1) * 2 ^ t * 2 ^ b := (fMag_lt_overflow ht ha).trans_le (Nat.le_mul_of_pos_right _ hpos)
  have hmag := fMag_roundUnits_exact hpos ht (fSign a) (two_pow_mul_roundScale_dvd hE) hlt
  have hsign : fSign (roundUnits (fSign a) (fMag a) (2 ^ b)) = fSign a := by rw [roundUnits_eq, fSign_fPack]
  have hunits : (fMag (fdiv p a (freal (2 ^ b))) : ℤ) * 2 ^ b = fMag a := by
    rw [hdiv]
    exact_mod_cast hmag
  rw [fUnits, fUnits, ← hunits, hdiv, hsign]
  split
  case isTrue => rw [neg_mul]
  case isFalse => rfl

end Normalize

section Roots

/-- 41_radix2_fft R146: the table entries over the reals are the SIZE-th roots of unity. -/
theorem toComplex_exactCis_half (dir : Dir) (b k : Nat) (hk : k < 2 ^ b / 2) :
    toComplex (exactCis dir k (2 ^ b / 2)) = Complex.exp (Dir.sign dir * 2 * Real.pi * Complex.I * k / (2 ^ b : ℕ)) := by
  cases b with
  | zero => omega
  | succ b =>
    rw [toComplex_exactCis, pow_succ, Nat.mul_div_cancel _ (by decide)]
    congr 1
    push_cast
    field_simp

end Roots

end Sys2Proof.Machine

open Sys2Proof Sys2Proof.Machine

/-- Settles O37: the body answers, its frame is that of the writes it makes, and the elements read as `fft2Body_b64` says; the
body answers one memory, whatever functions name the values it reads. -/
theorem fft2Completes : Obligations.Fft2Completes := by
  intro dir plan dsp s o h hdata htable
  obtain ⟨m, hm, hready⟩ := fft2Body_answers dir h hdata htable
  refine ⟨m, fft2_completes h hm, fft2Body_sigKept h.isPow2_size hm, fft2Body_wsKept h.isPow2_size hm, hready,
    fun b d w hb hd hread hw => ?_, fun htw k hk => fft2Body_table _ (h.operandsApart · (.inl htw)) htw hm hk⟩
  obtain ⟨m', hm', hres⟩ := fft2Body_b64 dir h hd hb hread hw
  obtain rfl : m' = m := Except.ok.inj (hm'.symm.trans hm)
  exact hres

/-- Settles O38: BITREV swaps the pairs of a position and its reversal, and writes only elements that move. -/
theorem fft2BitReversal : Obligations.Fft2BitReversal := by
  refine ⟨fun dir dsp s b d h hb hread => ?_,
    fun b i hi => ⟨bitRev_lt b i, bitRev_bitRev hi, fun k hk => testBit_bitRev hk i⟩⟩
  obtain ⟨m, hm, hswap⟩ := bitRevStage_swaps hb (h.one_le_stride rfl) hread
  have hbody : fft2Body (b64 s.cfg) dsp s.operands dir ⟨true, false, false, false⟩ s.mem = .ok m := by simp [fft2Body, hm]
  refine ⟨m, fft2_completes h hbody, fun e he hne => ?_, bitRevStage_sigKept hb hm, bitRevStage_wsKept hb hm⟩
  have hrr : bitRev b (bitRev b e) = e := bitRev_bitRev (he.trans_eq hb)
  have hmoved := (hswap (bitRev b e) ((bitRev_lt b e).trans_eq hb.symm)).1
  rw [hrr] at hmoved
  exact hmoved hne.symm

/-- Settles O39: the plan TW is the stage TWGEN alone; over the reals the generator of half the size is the root of unity. -/
theorem fft2TwiddleTable : Obligations.Fft2TwiddleTable := by
  refine ⟨fun dir dsp s h => ?_, toComplex_exactCis_half⟩
  obtain ⟨m, hm, hsig, -⟩ := twiddleStage_spec (b64 s.cfg) (o := s.operands) (st := s.mem) dir
  have hbody : fft2Body (b64 s.cfg) dsp s.operands dir ⟨false, true, false, false⟩ s.mem = .ok m := by
    rw [fft2Body_of_noData rfl]
    exact hm
  refine ⟨m, fft2_completes h hbody, hsig, fun k hk => fft2Body_table _ (fun hd => by cases hd) rfl hbody hk,
    (fft2Body_wsKept h.isPow2_size hbody).mono ?_⟩
  rintro i (⟨hd, -⟩ | ⟨-, hi⟩)
  · cases hd
  · exact hi

/-- Settles O40: for the plan BF the result of the stages is the network's. -/
theorem fft2Butterfly : Obligations.Fft2Butterfly := by
  intro dir dsp s b d w o h hb hread hw
  obtain ⟨m, hm, hres⟩ := fft2Body_b64 dir h rfl hb hread fun _ _ => hw
  refine ⟨m, fft2_completes h hm, hres, (fft2Body_sigKept h.isPow2_size hm).mono fun _ hi => hi.2,
    (fft2Body_wsKept h.isPow2_size hm).mono ?_⟩
  rintro i (⟨-, hi⟩ | ⟨htw, -⟩)
  · exact hi
  · cases htw

/-- Settles O41: for the plan NM the result of the stages is the quotient; it is exact because the scale on which it is rounded
divides the magnitude. -/
theorem fft2Normalize : Obligations.Fft2Normalize := by
  refine ⟨fun dsp s d h hread => ?_, fun p a b => fUnits_fdiv_two_pow p⟩
  obtain ⟨b, -, hb⟩ := h.size
  obtain ⟨m, hm, hres⟩ := fft2Body_b64 .inverse h rfl hb hread (w := d) nofun
  refine ⟨m, fft2_completes h hm, hres, (fft2Body_sigKept h.isPow2_size hm).mono fun _ hi => hi.2,
    (fft2Body_wsKept h.isPow2_size hm).mono ?_⟩
  rintro i (⟨-, hi⟩ | ⟨htw, -⟩)
  · exact hi
  · cases htw
end

section
/-!
PROOFS. FFT2 over the reals (41_radix2_fft R149): the powers of a root of unity, the split of a DFT into those of its even and
its odd samples, and the layers of the butterfly network as the DFTs of ever longer subsequences.
-/

namespace Sys2Proof.Machine

section Roots

/-- The `k`-th power of the `n`-th root of unity of a direction, `exp(s·2πi·k/n)` (00_scope R14). -/
noncomputable def rootPow (dir : Dir) (n k : Nat) : ℂ := Complex.exp (Dir.sign dir * 2 * Real.pi * Complex.I * k / n)

variable {dir : Dir} {n c : Nat}

theorem rootPow_add (j k : Nat) : rootPow dir n (j + k) = rootPow dir n j * rootPow dir n k := by
  rw [rootPow, rootPow, rootPow, ← Complex.exp_add]
  congr 1
  push_cast
  ring

theorem rootPow_mul_self (hn : n ≠ 0) (k : Nat) : rootPow dir n (n * k) = 1 := by
  have hangle : (Dir.sign dir * 2 * Real.pi * Complex.I * (n * k : ℕ) / n : ℂ) =
      (Dir.sign dir * k : ℤ) * (2 * Real.pi * Complex.I) := by
    push_cast
    field_simp
  rw [rootPow, hangle, Complex.exp_int_mul_two_pi_mul_I]

theorem rootPow_mul_right (hc : c ≠ 0) (k : Nat) : rootPow dir (n * c) (k * c) = rootPow dir n k := by
  have hc' : (c : ℂ) ≠ 0 := Nat.cast_ne_zero.2 hc
  rw [rootPow, rootPow, Nat.cast_mul, Nat.cast_mul, ← mul_assoc, mul_div_mul_right _ _ hc']

/-- Half a turn is -1. -/
theorem rootPow_half (hn : n ≠ 0) : rootPow dir (2 * n) n = -1 := by
  have hangle : (Dir.sign dir * 2 * Real.pi * Complex.I * n / (2 * n : ℕ) : ℂ) = Dir.sign dir * (Real.pi * Complex.I) := by
    push_cast
    field_simp
  rw [rootPow, hangle]
  cases dir <;> simp [Dir.sign, Complex.exp_neg]

/-- The table entry over the reals (41_radix2_fft R146). -/
theorem toComplex_exactCis_rootPow {b k : Nat} (hk : k < 2 ^ b / 2) :
    toComplex (exactCis dir k (2 ^ b / 2)) = rootPow dir (2 ^ b) k := toComplex_exactCis_half dir b k hk

end Roots

section Dft

variable (dir : Dir) {m : Nat} (x : Nat → ℂ) (k : Nat)

theorem dftSum_eq (n : Nat) : dftSum dir n x k = ∑ j ∈ Finset.range n, x j * rootPow dir n (j * k) := by
  refine Finset.sum_congr rfl fun j _ => ?_
  rw [rootPow, Nat.cast_mul, ← mul_assoc]

@[simp] theorem dftSum_one : dftSum dir 1 x 0 = x 0 := by simp [dftSum]

/-- The DFT is periodic in the frequency. -/
theorem dftSum_add_self (hm : m ≠ 0) : dftSum dir m x (k + m) = dftSum dir m x k := by
  simp only [dftSum_eq, Nat.mul_add, rootPow_add, Nat.mul_comm _ m, rootPow_mul_self hm, mul_one]

theorem sum_range_two_mul (f : Nat → ℂ) (m : Nat) :
    ∑ j ∈ Finset.range (2 * m), f j = ∑ j ∈ Finset.range m, f (2 * j) + ∑ j ∈ Finset.range m, f (2 * j + 1) := by
  induction m with
  | zero => simp
  | succ m ih =>
    rw [Nat.mul_succ, Finset.sum_range_succ, Finset.sum_range_succ, ih, Finset.sum_range_succ, Finset.sum_range_succ]
    ring

/-- The DFT of 2m samples, from those of the even and of the odd samples. -/
theorem dftSum_two_mul : dftSum dir (2 * m) x k =
    dftSum dir m (fun j => x (2 * j)) k + rootPow dir (2 * m) k * dftSum dir m (fun j => x (2 * j + 1)) k := by
  have hdouble : ∀ j, rootPow dir (2 * m) (2 * j) = rootPow dir m j := fun j => by
    rw [Nat.mul_comm 2, Nat.mul_comm 2, rootPow_mul_right two_ne_zero]
  simp only [dftSum_eq, sum_range_two_mul, Finset.mul_sum, Nat.add_mul, Nat.one_mul, rootPow_add, Nat.mul_assoc, hdouble]
  congr 1
  exact Finset.sum_congr rfl fun j _ => by ring

/-- Half a period on, the odd samples enter with the other sign. -/
theorem dftSum_two_mul_add (hm : m ≠ 0) : dftSum dir (2 * m) x (k + m) =
    dftSum dir m (fun j => x (2 * j)) k - rootPow dir (2 * m) k * dftSum dir m (fun j => x (2 * j + 1)) k := by
  rw [dftSum_two_mul, dftSum_add_self _ _ _ hm, dftSum_add_self _ _ _ hm, rootPow_add, rootPow_half hm]
  ring

end Dft

section Complex

variable (a b : Cx ℝ)

@[simp] theorem toComplex_cadd : toComplex (cadd exactScalar a b) = toComplex a + toComplex b := rfl

@[simp] theorem toComplex_csub : toComplex (csub exactScalar a b) = toComplex a - toComplex b := by
  apply Complex.ext <;> simp [toComplex, csub, exactScalar]

@[simp] theorem toComplex_cmul : toComplex (cmul exactScalar a b) = toComplex a * toComplex b := by
  apply Complex.ext <;> simp [toComplex, cmul, exactScalar]

/-- A sample over the reals with the value `z`. -/
def ofComplex (z : ℂ) : Cx ℝ := ⟨z.re, z.im⟩

@[simp] theorem toComplex_ofComplex (z : ℂ) : toComplex (ofComplex z) = z := rfl

@[simp] theorem ofComplex_toComplex : ofComplex (toComplex a) = a := rfl

/-- The division of both components by a count (00_scope R11). -/
noncomputable def exactQuotient (n : Nat) (c : Cx ℝ) : Cx ℝ := ⟨c.re / n, c.im / n⟩

theorem cdivr_exact {n : Nat} (hn : n ≠ 0) : cdivr exactScalar a n = .ok (exactQuotient n a) := by
  simp [cdivr, sdiv, exactScalar, exactQuotient, hn]

theorem toComplex_exactQuotient (n : Nat) : toComplex (exactQuotient n a) = 1 / n * toComplex a := by
  rw [one_div_mul_eq_div]
  apply Complex.ext <;> simp [toComplex, exactQuotient]

end Complex

section Network

variable {F : Type} (num : Scalar F) (size : Nat) (w d : Nat → Cx F) {t j : Nat} (q : Nat)

/-- The first output of the butterfly at position `j` of group `q` (41_radix2_fft R147). -/
theorem butterflyLayer_first (hj : j < 2 ^ t) : butterflyLayer num size w t d (q * 2 ^ (t + 1) + j) =
    cadd num (d (2 * q * 2 ^ t + j)) (cmul num (w (j * (size / 2 / 2 ^ t))) (d ((2 * q + 1) * 2 ^ t + j))) := by
  have hsum : q * 2 ^ (t + 1) + j = 2 * q * 2 ^ t + j := by ring
  have hpartner : q * 2 ^ (t + 1) + j + 2 ^ t = (2 * q + 1) * 2 ^ t + j := by ring
  have hmod : (q * 2 ^ (t + 1) + j) % (2 * 2 ^ t) = j := by
    rw [pow_succ', mul_add_mod_of_lt _ (by omega)]
  rw [butterflyLayer, hmod, if_pos hj, hpartner, hsum]

/-- The second output of the butterfly at position `j` of group `q` (41_radix2_fft R147). -/
theorem butterflyLayer_second (hj : j < 2 ^ t) : butterflyLayer num size w t d (q * 2 ^ (t + 1) + (j + 2 ^ t)) =
    csub num (d (2 * q * 2 ^ t + j)) (cmul num (w (j * (size / 2 / 2 ^ t))) (d ((2 * q + 1) * 2 ^ t + j))) := by
  have hsum : q * 2 ^ (t + 1) + (j + 2 ^ t) = (2 * q + 1) * 2 ^ t + j := by ring
  have hpartner : q * 2 ^ (t + 1) + (j + 2 ^ t) - 2 ^ t = 2 * q * 2 ^ t + j := by
    rw [← Nat.add_assoc, Nat.add_sub_cancel]
    ring
  have hmod : (q * 2 ^ (t + 1) + (j + 2 ^ t)) % (2 * 2 ^ t) = j + 2 ^ t := by
    rw [pow_succ', mul_add_mod_of_lt _ (by omega)]
  rw [butterflyLayer, hmod, if_neg (by omega), hpartner, hsum, Nat.add_sub_cancel]

end Network

section Layers

theorem bitRev_two_mul (c q : Nat) : bitRev (c + 1) (2 * q) = bitRev c q := by simp [bitRev]

theorem bitRev_two_mul_add_one (c q : Nat) : bitRev (c + 1) (2 * q + 1) = 2 ^ c + bitRev c q := by
  rw [bitRev, show (2 * q + 1) % 2 = 1 by omega, show (2 * q + 1) / 2 = q by omega, Nat.one_mul]

variable {dir : Dir} {b : Nat} {w d : Nat → Cx ℝ} {x : Nat → ℂ}

/-- The factor of the butterfly at position `j` of half-span 2^t is a power of the 2^(t+1)-th root of unity. -/
theorem toComplex_table (hw : ∀ k, k < 2 ^ b / 2 → w k = exactCis dir k (2 ^ b / 2)) {t c j : Nat} (hb : b = t + 1 + c)
    (hj : j < 2 ^ t) : toComplex (w (j * (2 ^ b / 2 / 2 ^ t))) = rootPow dir (2 ^ (t + 1)) j := by
  have hidx := table_index (b := b) (by omega) hj
  have hstep : 2 ^ b / 2 / 2 ^ t = 2 ^ c := by
    rw [Nat.div_div_eq_div_mul, ← pow_succ', hb, pow_add, Nat.mul_div_cancel_left _ (Nat.two_pow_pos _)]
  rw [hw _ hidx, toComplex_exactCis_rootPow hidx, hstep, hb, pow_add, rootPow_mul_right (Nat.two_pow_pos c).ne']

/-- After `t` layers on bit-reversed samples, group `q` of 2^t elements is the DFT of every 2^c-th sample from the reversal of
`q` on. -/
theorem butterflyLayers_group (hw : ∀ k, k < 2 ^ b / 2 → w k = exactCis dir k (2 ^ b / 2))
    (hd : ∀ e, e < 2 ^ b → toComplex (d e) = x (bitRev b e)) {t c q j : Nat} (hb : b = t + c) (hq : q < 2 ^ c)
    (hj : j < 2 ^ t) : toComplex (butterflyLayers exactScalar (2 ^ b) w t d (q * 2 ^ t + j)) =
      dftSum dir (2 ^ t) (fun n => x (n * 2 ^ c + bitRev c q)) j := by
  induction t generalizing c q j with
  | zero =>
    obtain rfl : j = 0 := by omega
    obtain rfl : b = c := by omega
    simpa [butterflyLayers] using hd q hq
  | succ t ih =>
    have hpow : 2 ^ (c + 1) = 2 * 2 ^ c := pow_succ' 2 c
    have heven : ∀ j, j < 2 ^ t → toComplex (butterflyLayers exactScalar (2 ^ b) w t d (2 * q * 2 ^ t + j)) =
        dftSum dir (2 ^ t) (fun n => x (2 * n * 2 ^ c + bitRev c q)) j := fun j hj => by
      rw [ih (c := c + 1) (by omega) (by omega) hj, bitRev_two_mul, hpow]
      simp only [Nat.mul_left_comm, Nat.mul_assoc]
    have hodd : ∀ j, j < 2 ^ t → toComplex (butterflyLayers exactScalar (2 ^ b) w t d ((2 * q + 1) * 2 ^ t + j)) =
        dftSum dir (2 ^ t) (fun n => x ((2 * n + 1) * 2 ^ c + bitRev c q)) j := fun j hj => by
      rw [ih (c := c + 1) (by omega) (by omega) hj, bitRev_two_mul_add_one, hpow]
      simp only [Nat.mul_left_comm, Nat.mul_assoc, Nat.add_mul, Nat.one_mul, Nat.add_assoc]
    rcases Nat.lt_or_ge j (2 ^ t) with hlt | hge
    · rw [butterflyLayers, butterflyLayer_first _ _ _ _ _ hlt, toComplex_cadd, toComplex_cmul, heven j hlt, hodd j hlt,
        toComplex_table hw hb hlt, pow_succ', dftSum_two_mul]
    · obtain ⟨i, rfl⟩ := Nat.exists_eq_add_of_le' hge
      have hlt : i < 2 ^ t := by omega
      rw [butterflyLayers, butterflyLayer_second _ _ _ _ _ hlt, toComplex_csub, toComplex_cmul, heven i hlt, hodd i hlt,
        toComplex_table hw hb hlt, pow_succ', dftSum_two_mul_add _ _ _ (Nat.two_pow_pos t).ne']

/-- 41_radix2_fft R149: the network makes the DFT of bit-reversed samples. -/
theorem butterflyLayers_dft (hw : ∀ k, k < 2 ^ b / 2 → w k = exactCis dir k (2 ^ b / 2))
    (hd : ∀ e, e < 2 ^ b → toComplex (d e) = x (bitRev b e)) {e : Nat} (he : e < 2 ^ b) :
    toComplex (butterflyLayers exactScalar (2 ^ b) w b d e) = dftSum dir (2 ^ b) x e := by
  simpa [bitRev] using butterflyLayers_group hw hd (Nat.add_zero b).symm (q := 0) Nat.one_pos he

end Layers

section Transform

variable {dsp : Space} {o : Operands} {dir : Dir} {b : Nat} {st : Store ℝ} {x : Nat → ℂ}

/-- The data operand holds samples exactly when its elements read as their components. -/
theorem dataHolds_iff : DataHolds dsp o st x ↔ ∀ e, e < o.size → dataRead dsp o st e = .ok (ofComplex (x e)) := by
  refine forall₂_congr fun e _ => ⟨?_, fun h => ⟨_, h, toComplex_ofComplex _⟩⟩
  rintro ⟨c, hc, hx⟩
  rw [hc, ← hx, ofComplex_toComplex]

/-- 41_radix2_fft R149: over the reals the plans with BR and BF make the DFT, divided by SIZE if NM is selected. -/
theorem fft2Body_exact (dir : Dir) (tw nm : Bool) (hb : o.size = 2 ^ b) (hs : 1 ≤ o.stride) (ha : Apart dsp o)
    (hx : DataHolds dsp o st x)
    (htable : tw = false → ∀ k, k < o.size / 2 → twiddleRead o st k = .ok (exactCis dir k (o.size / 2))) :
    ∃ st', fft2Body exactNum dsp o dir ⟨true, tw, true, nm⟩ st = .ok st' ∧ DataHolds dsp o st' fun k =>
      if nm = true then 1 / o.size * dftSum dir o.size x k else dftSum dir o.size x k := by
  have hsize : o.size ≠ 0 := hb ▸ (Nat.two_pow_pos b).ne'
  obtain ⟨st', h, hres⟩ := fft2Body_spec exactNum (plan := ⟨true, tw, true, nm⟩) hb hs (fun _ => ha) dir
    (dataHolds_iff.1 hx) (w := fun k => exactCis dir k (o.size / 2)) (fun _ => htable) (fun _ c => cdivr_exact c hsize)
  refine ⟨st', h, fun e he => ⟨_, hres e he, ?_⟩⟩
  have hdft : toComplex (butterflyLayers exactScalar o.size (fun k => exactCis dir k (o.size / 2)) b
      (fun e => ofComplex (x (bitRev b e))) e) = dftSum dir o.size x e := by
    rw [hb] at he ⊢
    exact butterflyLayers_dft (fun _ _ => rfl) (fun _ _ => toComplex_ofComplex _) he
  cases nm with
  | false => cases tw <;> exact hdft
  | true =>
    have hquot := toComplex_exactQuotient (butterflyLayers exactScalar o.size (fun k => exactCis dir k (o.size / 2)) b
      (fun e => ofComplex (x (bitRev b e))) e) o.size
    rw [hdft] at hquot
    cases tw <;> exact hquot

end Transform

end Sys2Proof.Machine

open Sys2Proof.Machine

/-- Settles O56: each of the plans is `fft2Body_exact`; its overlap premise keeps data and table apart. -/
theorem exactFft2ComputesDft : Obligations.ExactFft2ComputesDft := by
  intro dir dsp o b st x hb hs hspan hx
  have ha := apart_of_span hspan
  exact ⟨fft2Body_exact dir true false hb hs ha hx nofun, fft2Body_exact .inverse true true hb hs ha hx nofun,
    fun htable => fft2Body_exact dir false false hb hs ha hx fun _ => htable⟩
end

section
/-!
PROOFS. CZT and its step commands when their checks pass or fail (42_bluestein R170 to R177): the check list as the chain of its
conditions in order, the elements that each body leaves alone, and what each command leaves in the memories.
-/

namespace Sys2Proof.Machine

section BluesteinChecks

variable {i : Instr} {s t : State} {touchesSig : Bool}

/-- 42_bluestein R170: the first condition that does not hold gives the error. -/
theorem bluesteinCheck_eq : bluesteinCheck s touchesSig s.operands =
    if s.len.toNat = 0 then some .lengthZero
    else if nMax < s.len.toNat then some .lengthRange
    else if s.wsValid = false ∨ s.wsN ≠ s.len then some .wsState
    else if touchesSig = true ∧ s.cfg.sigWords < s.sigBase.toNat + 2 * s.len.toNat then some (.operandRange 0x40)
    else none := by
  simp only [bluesteinCheck, firstError_cons, firstError_nil, Bool.or_eq_true, Bool.and_eq_true, Bool.not_eq_true',
    decide_eq_true_eq, BitVec.toNat_ne]
  rfl

/-- CZT and the step commands make the checks of 42_bluestein R170 and then work on the memories alone. -/
theorem exec_bluestein (hi : i.bluestein = some touchesSig) : ∃ r, exec i s =
    checked s (bluesteinCheck s touchesSig s.operands) (commit i s r fun m => { s with mem := m }) := by
  cases i with
  | czt _ | chirp _ | chirpmul | kernel | pmul | recover | normn =>
    cases hi
    exact ⟨_, rfl⟩
  | _ => cases hi

/-- A failed check is the error that the command raises (60_exceptions R262). -/
theorem bluestein_raises {e : Err} (hi : i.bluestein = some touchesSig)
    (h : bluesteinCheck s touchesSig s.operands = some e) : Raises i s e.code.code e.info := by
  obtain ⟨r, hexec⟩ := exec_bluestein (s := s) hi
  rw [h] at hexec
  exact hexec

/-- A command whose checks pass raises no error. -/
theorem bluestein_err (hi : i.bluestein = some touchesSig) (h : BluesteinReady s touchesSig) (ht : exec i s = .next t) :
    t.err = 0 := by
  obtain ⟨r, hexec⟩ := exec_bluestein (s := s) hi
  rcases memoryCommand_next (hexec.symm.trans ht) with ⟨e, he, -⟩ | ⟨-, m, -, rfl⟩
  · rw [h.check] at he
    cases he
  · rfl

/-- A command on the memories whose checks pass completes with what its body answers (60_exceptions R262). -/
theorem completes_of_memoryCommand {error : Option Err} {r : Except ModelFault (Store F64)} {m : Store F64}
    (hexec : exec i s = checked s error (commit i s r fun m => { s with mem := m })) (hc : error = none)
    (hr : r = .ok m) : Completes i s m := by
  subst hc hr
  exact hexec

end BluesteinChecks

section WsFrames

variable {F : Type} {p : Nat → Prop} {m m' : Store F}

theorem WsKept.refl : WsKept p m m := fun _ _ => ⟨rfl, rfl⟩

/-- A write inside the frame's exception keeps the frame. -/
theorem WsKept.wsWrite {i : Nat} (h : WsKept p m m') (hi : p i) (c : Cx F) : WsKept p m (wsWrite m' i c) := by
  intro j hj
  have hne : j ≠ i := fun hji => hj (hji ▸ hi)
  simpa [hne] using h j hj

/-- A frame of the workspace says nothing of the signal memory. -/
theorem WsKept.sigCWrite (h : WsKept p m m') (base k : Nat) (c : Cx F) : WsKept p m (sigCWrite m' base k c) := h

theorem SigReady.reads {base n k : Nat} (h : SigReady m base (2 * n)) (hk : k < n) :
    ∃ c, sigCRead m base k = .ok c := by
  obtain ⟨re, hre⟩ := Option.isSome_iff_exists.1 (h (2 * k) (by omega))
  obtain ⟨im, him⟩ := Option.isSome_iff_exists.1 (h (2 * k + 1) (by omega))
  exact ⟨⟨re, im⟩, (sigCRead_ok_iff _ _ _ _).2 ⟨hre, him⟩⟩

end WsFrames

section BodyFrames

variable {F : Type} {num : Num F} {n base : Nat} {dir : Dir} {st st' : Store F}

/-- 42_bluestein R171: CHIRP writes region 1 alone. -/
theorem chirpBody_wsKept (h : chirpBody num n dir st = .ok st') : WsKept (fun i => i < n) st st' := by
  refine forRange_keeps (fun _ => WsKept _ st) h .refl fun k a b _ hk hP hb => ?_
  cases hb
  exact hP.wsWrite (by unfold region1; omega) _

/-- 42_bluestein R172: CHIRPMUL writes region 2 alone. -/
theorem chirpmulBody_wsKept (h : chirpmulBody num n base st = .ok st') :
    WsKept (fun i => n ≤ i ∧ i < n + largerSize n) st st' := by
  have hM := two_mul_le_largerSize n
  simp only [chirpmulBody, except_bind_ok] at h
  obtain ⟨st₁, h₁, h₂⟩ := h
  have hproduct : WsKept (fun i => n ≤ i ∧ i < n + largerSize n) st st₁ := by
    refine forRange_keeps (fun _ => WsKept _ st) h₁ .refl fun k a b _ hk hP hb => ?_
    simp only [except_bind_ok, except_pure] at hb
    obtain ⟨w, -, x, -, hb⟩ := hb
    cases hb
    exact hP.wsWrite (by unfold region2; omega) _
  refine forRange_keeps (fun _ => WsKept _ st) h₂ hproduct fun k a b _ hk hP hb => ?_
  cases hb
  exact hP.wsWrite (by unfold region2; omega) _

/-- 42_bluestein R173: KERNEL writes region 3 alone. -/
theorem kernelBody_wsKept (hn : 1 ≤ n) (h : kernelBody num n st = .ok st') :
    WsKept (fun i => region3 n ≤ i ∧ i < region3 n + largerSize n) st st' := by
  have hM := two_mul_le_largerSize n
  have hpos := two_le_largerSize n
  simp only [kernelBody, except_bind_ok] at h
  obtain ⟨w₀, -, st₁, h₁, h₂⟩ := h
  have hplaced : WsKept (fun i => region3 n ≤ i ∧ i < region3 n + largerSize n) st st₁ := by
    refine forRange_keeps (fun _ => WsKept _ st) h₁ (WsKept.refl.wsWrite (by omega) _) fun k a b hk₁ hk hP hb => ?_
    simp only [except_bind_ok, except_pure] at hb
    obtain ⟨w, -, hb⟩ := hb
    cases hb
    exact (hP.wsWrite (by omega) _).wsWrite (by omega) _
  refine forRange_keeps (fun _ => WsKept _ st) h₂ hplaced fun k a b _ hk hP hb => ?_
  cases hb
  exact hP.wsWrite (by omega) _

/-- 42_bluestein R174: PMUL writes region 2 alone. -/
theorem pmulBody_wsKept (h : pmulBody num n st = .ok st') :
    WsKept (fun i => n ≤ i ∧ i < n + largerSize n) st st' := by
  refine forRange_keeps (fun _ => WsKept _ st) h .refl fun k a b _ hk hP hb => ?_
  simp only [except_bind_ok, except_pure] at hb
  obtain ⟨x, -, y, -, hb⟩ := hb
  cases hb
  exact hP.wsWrite (by unfold region2; omega) _

/-- 42_bluestein R177: CZT writes the workspace for N alone. -/
theorem cztBody_wsKept (h : cztBody num n dir base st = .ok st') : WsKept (fun i => i < wsLength n) st st' :=
  cztBody_keeps num (fun _ _ c hi hP => hP.wsWrite hi c) (fun _ k c _ hP => hP.sigCWrite base k c) h .refl

end BodyFrames

section Buffer

variable {i : Instr} {s : State} {m : Store F64} {lo hi : Nat}

/-- 20_memory R62: a command that completes leaves every signal word outside its buffer. -/
theorem Completes.sigKept (h : Completes i s m) (hb : signalBuffer s.operands i = some (lo, hi)) :
    SigKept (fun w => lo ≤ w ∧ w < hi) s.mem m := by
  refine (exec_sigKept h).mono fun w ⟨b, hbuf, hw⟩ => ?_
  obtain rfl := Option.some.inj (hb.symm.trans hbuf)
  exact hw

end Buffer

end Sys2Proof.Machine

open Sys2Proof Sys2Proof.Machine

/-- Settles O25: the check list is the chain of the conditions in order (`bluesteinCheck_eq`). -/
theorem bluesteinErrors : Obligations.BluesteinErrors := by
  intro i s touchesSig hi n
  refine ⟨fun h0 => bluestein_raises hi (e := .lengthZero) ?_, fun hmax => bluestein_raises hi (e := .lengthRange) ?_,
    fun h1 hmax hws => bluestein_raises hi (e := .wsState) ?_,
    fun h1 hmax hvalid hlen hsig hrange => bluestein_raises hi (e := .operandRange 0x40) ?_, fun h _ => bluestein_err hi h⟩
  · rw [bluesteinCheck_eq, if_pos h0]
  · rw [bluesteinCheck_eq, if_neg (by omega), if_pos hmax]
  · rw [bluesteinCheck_eq, if_neg (by omega), if_neg (by omega), if_pos hws]
  · rw [bluesteinCheck_eq, if_neg (by omega), if_neg (by omega), if_neg (by simp [hvalid, hlen]), if_pos ⟨hsig, hrange⟩]

/-- Settles O42: the loop of CHIRP writes each factor once. -/
theorem chirpResult : Obligations.ChirpResult := by
  intro dir s n h
  obtain ⟨m, hm, hsig, hread⟩ := chirpBody_spec (b64 s.cfg) (n := n) (st := s.mem) dir
  exact ⟨m, completes_of_memoryCommand rfl h.check hm, hsig, fun k hk => (hread k).trans (if_pos hk), chirpBody_wsKept hm⟩

/-- Settles O43: the products come first, the padding follows them up to the end of region 2. -/
theorem chirpmulResult : Obligations.ChirpmulResult := by
  intro s w x n h hw hx
  obtain ⟨m, hm, hsig, hread⟩ := chirpmulBody_spec (b64 s.cfg) hw hx
  refine ⟨m, completes_of_memoryCommand rfl h.check hm, hsig, fun k hk => ?_, fun k hlo hhi => ?_, chirpmulBody_wsKept hm⟩
  · rw [hread, if_neg (by omega), if_pos (by omega), Nat.add_sub_cancel_left]
    rfl
  · rw [hread, if_neg (by omega), if_neg (by omega), if_pos (by omega)]
    rfl

/-- Settles O44: region 3 reads as `kernelAt`, whose cases are the three parts of the kernel; they do not meet as M ≥ 2N. -/
theorem kernelResult : Obligations.KernelResult := by
  intro s w n r3 h hw
  have hpos : 1 ≤ n := h.lenPos
  have hM := two_mul_le_largerSize n
  obtain ⟨m, hm, hsig, hread⟩ := kernelBody_spec (b64 s.cfg) hpos hw
  have hkernel : ∀ k, k < largerSize n → wsRead m (r3 + k) = .ok (kernelAt (b64Scalar s.cfg) n w k) := fun k hk => by
    rw [hread, if_pos ⟨Nat.le_add_right _ _, Nat.add_lt_add_left hk _⟩]
    simp [r3, region3, b64]
  refine ⟨m, completes_of_memoryCommand rfl h.check hm, hsig, hkernel 0 (by omega), fun k hlo hhi => ⟨?_, ?_⟩,
    fun k hlo hhi => ?_, kernelBody_wsKept hpos hm⟩
  · rw [hkernel k (by omega), kernelAt, if_neg (by omega), if_pos hhi]
    rfl
  · rw [Nat.add_sub_assoc (by omega), hkernel _ (by omega), kernelAt, if_neg (by omega), if_neg (by omega),
      if_pos (by omega), Nat.sub_sub_self (by omega)]
    rfl
  · rw [hkernel k (by omega), kernelAt, if_neg (by omega), if_neg (by omega), if_neg (by omega)]
    rfl

/-- Settles O45: each element of region 2 is read before it is written, and region 3 is not written. -/
theorem pmulResult : Obligations.PmulResult := by
  intro s a b n h ha hb
  obtain ⟨m, hm, hsig, hread⟩ := pmulBody_spec (b64 s.cfg) ha hb
  refine ⟨m, completes_of_memoryCommand rfl h.check hm, hsig, fun k hk => ?_, pmulBody_wsKept hm⟩
  rw [hread, if_pos ⟨Nat.le_add_right _ _, Nat.add_lt_add_left hk _⟩, region2, Nat.add_sub_cancel_left]
  rfl

/-- Settles O46: the loop of RECOVER writes each element of the signal buffer once and no element of the workspace. -/
theorem recoverResult : Obligations.RecoverResult := by
  intro s w c n base h hw hc
  obtain ⟨m, hm, hre, him, hread⟩ := recoverBody_spec (b64 s.cfg) (base := base) hw hc
  have hdone : Completes .recover s m := completes_of_memoryCommand rfl h.check hm
  exact ⟨m, hdone, ⟨hre, him⟩, fun k hk => (hread k).trans (if_pos hk), hdone.sigKept rfl⟩

/-- Settles O47: the loop of NORMN divides each element of the signal buffer once. -/
theorem normnResult : Obligations.NormnResult := by
  intro s c n base h hc
  obtain ⟨m, hm, hre, him, hread⟩ := normnBody_spec (b64 s.cfg) hc fun k _ => cdivr_b64 s.cfg (c k) n
  have hdone : Completes .normn s m := completes_of_memoryCommand rfl h.check hm
  exact ⟨m, hdone, ⟨hre, him⟩, fun k hk => (hread k).trans (if_pos hk), hdone.sigKept rfl⟩

/-- Settles O48: the body answers (`cztBody_spec`), and its frame is that of the writes it makes. -/
theorem cztCompletes : Obligations.CztCompletes := by
  intro dir s n base half h hready
  obtain ⟨x, hx⟩ := exists_values fun k hk => hready.reads hk
  obtain ⟨m, hm, hsig, hchirp, hconv, hkernel, htable⟩ := cztBody_spec (b64 s.cfg) h.lenPos dir hx
    (fun c => cdivr_b64 s.cfg c _) fun _ c => cdivr_b64 s.cfg c _
  have hdone : Completes (.czt dir) s m := completes_of_memoryCommand rfl h.check hm
  refine ⟨m, hdone, sigReady_of_reads fun k hk => ⟨_, hsig k hk⟩, hdone.sigKept rfl, cztBody_wsKept hm, hchirp,
    wsReady_of_reads fun k hk => ?_, htable⟩
  rcases Nat.lt_or_ge k (largerSize n) with hlt | hge
  · exact ⟨_, hconv k hlt⟩
  · obtain ⟨j, rfl⟩ := Nat.exists_eq_add_of_le hge
    rw [← Nat.add_assoc]
    exact ⟨_, hkernel j (by rw [Nat.two_mul] at hk; exact Nat.lt_of_add_lt_add_left hk)⟩
end

section
/-!
PROOFS. CZT over the reals (42_bluestein R178): the DFT as Mathlib's transform on `ZMod`, from which its inversion and the
convolution theorem follow; the inner transforms as DFTs; and the chirp identity `k² + j² - (k - j)² = 2jk`, which turns the DFT of
any length into a convolution whose length is a power of two.
-/

namespace Sys2Proof.Machine

section ZModTransform

variable {n : Nat} [NeZero n] {dir : Dir}

theorem rootPow_eq_stdAddChar (k : Nat) : rootPow dir n k = ZMod.stdAddChar ((Dir.sign dir * k : ℤ) : ZMod n) := by
  rw [ZMod.stdAddChar_coe, rootPow]
  congr 1
  push_cast
  ring

theorem sum_zmod_val (f : Nat → ℂ) : ∑ j : ZMod n, f j.val = ∑ j ∈ Finset.range n, f j := by
  obtain ⟨m, rfl⟩ := Nat.exists_eq_succ_of_ne_zero (NeZero.ne n)
  exact Fin.sum_univ_eq_sum_range f (m + 1)

/-- The DFT of either sign is a sum over `ZMod`. -/
theorem dftSum_eq_sum_zmod (x : Nat → ℂ) (k : Nat) : dftSum dir n x k =
    ∑ j : ZMod n, ZMod.stdAddChar ((Dir.sign dir : ZMod n) * (j * (k : ZMod n))) * x j.val := by
  rw [dftSum_eq, ← sum_zmod_val fun j => x j * rootPow dir n (j * k)]
  refine Finset.sum_congr rfl fun j _ => ?_
  rw [rootPow_eq_stdAddChar, mul_comm]
  push_cast
  rw [ZMod.natCast_zmod_val]

theorem dftSum_forward_eq_dft (x : Nat → ℂ) (k : Nat) :
    dftSum .forward n x k = ZMod.dft (fun j : ZMod n => x j.val) k := by
  simp [dftSum_eq_sum_zmod, ZMod.dft_apply, Dir.sign]

theorem dft_inverse_eq_invDFT (x : Nat → ℂ) (k : Nat) :
    dft .inverse n x k = ZMod.dft.symm (fun j : ZMod n => x j.val) k := by
  simp [dft, dftSum_eq_sum_zmod, ZMod.invDFT_apply, Dir.sign]

/-- The convolution theorem on `ZMod`. -/
theorem zmod_dft_convolution (a b : ZMod n → ℂ) :
    ZMod.dft (fun k => ∑ j, a j * b (k - j)) = ZMod.dft a * ZMod.dft b := by
  ext p
  have hshift : ∀ j, ∑ k, ZMod.stdAddChar (-(k * p)) * b (k - j) =
      ZMod.stdAddChar (-(j * p)) * ∑ k, ZMod.stdAddChar (-(k * p)) * b k := fun j => by
    rw [← Equiv.sum_comp (Equiv.addRight j), Finset.mul_sum]
    refine Finset.sum_congr rfl fun k _ => ?_
    rw [Equiv.coe_addRight, add_sub_cancel_right, add_mul, neg_add_rev, AddChar.map_add_eq_mul, mul_assoc]
  simp only [ZMod.dft_apply, Pi.mul_apply, smul_eq_mul]
  calc ∑ k, ZMod.stdAddChar (-(k * p)) * ∑ j, a j * b (k - j)
      = ∑ j, a j * ∑ k, ZMod.stdAddChar (-(k * p)) * b (k - j) := by
        simp only [Finset.mul_sum, mul_left_comm _ (a _)]
        exact Finset.sum_comm
    _ = (∑ j, ZMod.stdAddChar (-(j * p)) * a j) * ∑ k, ZMod.stdAddChar (-(k * p)) * b k := by
        simp only [hshift, Finset.sum_mul, mul_left_comm (a _), mul_assoc]

/-- The inverse DFT of a product of DFTs is the cyclic convolution. -/
theorem dft_inverse_mul (a b : Nat → ℂ) (k : Nat) :
    dft .inverse n (fun p => dftSum .forward n a p * dftSum .forward n b p) k =
      ∑ j ∈ Finset.range n, a j * b ((k : ZMod n) - (j : ZMod n)).val := by
  have hprod : (fun p : ZMod n => dftSum .forward n a p.val * dftSum .forward n b p.val) =
      ZMod.dft fun k => ∑ j : ZMod n, a j.val * b (k - j).val := by
    rw [zmod_dft_convolution (fun j => a j.val) fun j => b j.val]
    ext p
    rw [dftSum_forward_eq_dft, dftSum_forward_eq_dft, ZMod.natCast_zmod_val, Pi.mul_apply]
  rw [dft_inverse_eq_invDFT, hprod, LinearEquiv.symm_apply_apply,
    ← sum_zmod_val fun j => a j * b ((k : ZMod n) - (j : ZMod n)).val]
  simp only [ZMod.natCast_zmod_val]

end ZModTransform

/-- A difference of two indices below `n`, modulo `n`. -/
theorem val_natCast_sub {n j k : Nat} (hj : j < n) (hk : k < n) :
    ((k : ZMod n) - (j : ZMod n)).val = if j ≤ k then k - j else n - (j - k) := by
  split
  case isTrue hle => rw [← Nat.cast_sub hle, ZMod.val_natCast_of_lt (by omega)]
  case isFalse hlt =>
    have hwrap : (k : ZMod n) - (j : ZMod n) = ((n - (j - k) : ℕ) : ZMod n) := by
      rw [Nat.cast_sub (by omega), Nat.cast_sub (by omega), ZMod.natCast_self]
      ring
    rw [hwrap, ZMod.val_natCast_of_lt (by omega)]

section Congruence

variable {dir : Dir} {n : Nat} {x y : Nat → ℂ}

/-- A DFT depends on its samples alone. -/
theorem dftSum_congr (h : ∀ j, j < n → x j = y j) (k : Nat) : dftSum dir n x k = dftSum dir n y k :=
  Finset.sum_congr rfl fun j hj => by rw [h j (Finset.mem_range.1 hj)]

theorem dft_congr (h : ∀ j, j < n → x j = y j) (k : Nat) : dft dir n x k = dft dir n y k := by
  cases dir with
  | forward => exact dftSum_congr h k
  | inverse => exact congrArg (1 / (n : ℂ) * ·) (dftSum_congr h k)

end Congruence

section Inner

variable {dir : Dir} {size b : Nat} {w d : Nat → Cx ℝ} {e : Nat} {quot : Cx ℝ → Cx ℝ}

/-- 41_radix2_fft R149: what BR and BF make of the data is its DFT, if the table read or generated is that of the direction. -/
theorem toComplex_fft2Result (tw : Bool) (hb : size = 2 ^ b)
    (hw : tw = false → ∀ k, k < size / 2 → w k = exactCis dir k (size / 2)) (he : e < size) :
    toComplex (fft2Result exactNum size b dir ⟨true, tw, true, false⟩ quot w d e) =
      dftSum dir size (fun j => toComplex (d j)) e := by
  subst hb
  cases tw with
  | false => exact butterflyLayers_dft (hw rfl) (fun _ _ => rfl) he
  | true => exact butterflyLayers_dft (fun _ _ => rfl) (fun _ _ => rfl) he

/-- 41_radix2_fft R149: with NM added the inverse is the inverse DFT. -/
theorem toComplex_fft2Result_inverse (hb : size = 2 ^ b) (he : e < size) :
    toComplex (fft2Result exactNum size b .inverse planInverse (exactQuotient size) w d e) =
      dft .inverse size (fun j => toComplex (d j)) e :=
  (toComplex_exactQuotient _ size).trans (congrArg _ (toComplex_fft2Result (quot := id) (w := w) true hb nofun he))

end Inner

section Chirp

variable {dir : Dir} {n : Nat}

/-- The chirp `exp(s·πi·d²/n)`; its values at 0, 1, 2, ... are the chirp factors (42_bluestein R171). -/
noncomputable def chirp (dir : Dir) (n : Nat) (d : ℤ) : ℂ := Complex.exp (Dir.sign dir * Complex.I * Real.pi * d ^ 2 / n)

@[simp] theorem chirp_zero : chirp dir n 0 = 1 := by simp [chirp]

theorem chirp_neg (d : ℤ) : chirp dir n (-d) = chirp dir n d := by simp [chirp]

theorem toComplex_exactCis_sq (k : Nat) : toComplex (exactCis dir (k * k) n) = chirp dir n k := by
  rw [toComplex_exactCis, chirp]
  push_cast
  rw [pow_two]

theorem toComplex_cconj (a : Cx ℝ) : toComplex (cconj exactScalar a) = starRingEnd ℂ (toComplex a) := rfl

/-- The chirp factors have absolute value 1: their conjugates are their inverses. -/
theorem conj_chirp (d : ℤ) : starRingEnd ℂ (chirp dir n d) = (chirp dir n d)⁻¹ := by
  rw [chirp, ← Complex.exp_conj, ← Complex.exp_neg]
  congr 1
  simp [neg_div]

/-- The chirp identity: `k² + j² - (k - j)² = 2jk`. -/
theorem chirp_mul_chirp (j k : Nat) :
    chirp dir n k * (chirp dir n j * (chirp dir n (k - j))⁻¹) = rootPow dir n (j * k) := by
  rw [chirp, chirp, chirp, rootPow, ← Complex.exp_neg, ← Complex.exp_add, ← Complex.exp_add]
  congr 1
  push_cast
  ring

/-- The kernel over the reals, as complex numbers (42_bluestein R173). -/
noncomputable def exactKernel (dir : Dir) (n k : Nat) : ℂ :=
  toComplex (kernelAt exactScalar n (fun k => exactCis dir (k * k) n) k)

/-- 42_bluestein R173: the kernel at a difference of two indices below N is the inverse chirp of the difference, also where the
difference wraps around: the placement is symmetric and M is at least 2N. -/
theorem exactKernel_sub {j k : Nat} (hj : j < n) (hk : k < n) :
    exactKernel dir n ((k : ZMod (largerSize n)) - (j : ZMod (largerSize n))).val = (chirp dir n (k - j))⁻¹ := by
  have hM := two_mul_le_largerSize n
  rw [exactKernel, val_natCast_sub (by omega) (by omega)]
  rcases Nat.lt_trichotomy j k with hlt | rfl | hgt
  · rw [if_pos hlt.le, kernelAt, if_neg (by omega), if_pos (by omega), toComplex_cconj, toComplex_exactCis_sq, conj_chirp,
      Nat.cast_sub hlt.le]
  · rw [if_pos le_rfl, Nat.sub_self, kernelAt, if_pos rfl, toComplex_exactCis_sq, sub_self, Nat.cast_zero, chirp_zero,
      inv_one]
  · rw [if_neg (by omega), kernelAt, if_neg (by omega), if_neg (by omega), if_pos (by omega), Nat.sub_sub_self (by omega),
      toComplex_cconj, toComplex_exactCis_sq, conj_chirp, Nat.cast_sub hgt.le, ← neg_sub, chirp_neg]

end Chirp

section Czt

variable {dir : Dir} {n : Nat} {x : Nat → Cx ℝ} {quotM : Cx ℝ → Cx ℝ} {k : Nat}

/-- 42_bluestein R172: the input is the samples times the chirp, and 0 in the padding. -/
theorem toComplex_cztInput (j : Nat) : toComplex (cztInput exactNum n dir x j) =
    if j < n then chirp dir n j * toComplex (x j) else 0 := by
  rw [cztInput]
  split
  case isTrue => exact (toComplex_cmul _ _).trans (congrArg (· * _) (toComplex_exactCis_sq j))
  case isFalse => rfl

theorem toComplex_cztLeft (hk : k < largerSize n) : toComplex (cztLeft exactNum n dir quotM x k) =
    dftSum .forward (largerSize n) (fun j => toComplex (cztInput exactNum n dir x j)) k :=
  toComplex_fft2Result true (largerSize_bits n) nofun hk

theorem toComplex_cztRight (hk : k < largerSize n) : toComplex (cztRight exactNum n dir quotM k) =
    dftSum .forward (largerSize n) (exactKernel dir n) k :=
  toComplex_fft2Result false (largerSize_bits n) (fun _ _ _ => rfl) hk

/-- 42_bluestein R174, R177: the inner transforms make a cyclic convolution of length M. -/
theorem toComplex_cztConvolution_cyclic (hk : k < largerSize n) :
    toComplex (cztConvolution exactNum n dir (exactQuotient (largerSize n)) x k) =
      ∑ j ∈ Finset.range (largerSize n), toComplex (cztInput exactNum n dir x j) *
        exactKernel dir n ((k : ZMod (largerSize n)) - (j : ZMod (largerSize n))).val := by
  have hpos := two_le_largerSize n
  have : NeZero (largerSize n) := ⟨by omega⟩
  rw [cztConvolution, toComplex_fft2Result_inverse (largerSize_bits n) hk, ← dft_inverse_mul]
  refine dft_congr (fun p hp => ?_) k
  rw [← toComplex_cztLeft hp, ← toComplex_cztRight hp]
  exact toComplex_cmul _ _

/-- 42_bluestein R174, R177: below N the convolution is that of the samples times the chirp with the inverse chirp. -/
theorem toComplex_cztConvolution (hk : k < n) : toComplex (cztConvolution exactNum n dir (exactQuotient (largerSize n)) x k) =
    ∑ j ∈ Finset.range n, chirp dir n j * toComplex (x j) * (chirp dir n (k - j))⁻¹ := by
  have hM := two_mul_le_largerSize n
  rw [toComplex_cztConvolution_cyclic (by omega)]
  refine (Finset.sum_subset_zero_on_sdiff (Finset.range_subset_range.2 (by omega)) (fun j hj => ?_) fun j hj => ?_).symm
  · have hpad : ¬ j < n := fun hlt => (Finset.mem_sdiff.1 hj).2 (Finset.mem_range.2 hlt)
    rw [toComplex_cztInput, if_neg hpad, zero_mul]
  · have hlt := Finset.mem_range.1 hj
    rw [toComplex_cztInput, if_pos hlt, exactKernel_sub hlt hk]

/-- 42_bluestein R178: the recovered result is the DFT of the samples. -/
theorem toComplex_cztResult (hk : k < n) :
    toComplex (cztResult exactNum n dir (exactQuotient (largerSize n)) (exactQuotient n) x k) =
      dft dir n (fun j => toComplex (x j)) k := by
  have hsum : toComplex (cmul exactScalar (exactCis dir (k * k) n)
      (cztConvolution exactNum n dir (exactQuotient (largerSize n)) x k)) = dftSum dir n (fun j => toComplex (x j)) k := by
    rw [toComplex_cmul, toComplex_exactCis_sq, toComplex_cztConvolution hk, dftSum_eq, Finset.mul_sum]
    refine Finset.sum_congr rfl fun j _ => ?_
    rw [← chirp_mul_chirp]
    ring
  cases dir with
  | forward => exact hsum
  | inverse => exact (toComplex_exactQuotient _ n).trans (congrArg _ hsum)

end Czt

section Signal

variable {st : Store ℝ} {base n : Nat} {x : Nat → ℂ}

/-- The buffer holds samples exactly when its elements read as their components. -/
theorem holdsComplex_iff : HoldsComplex st base n x ↔ ∀ k, k < n → sigCRead st base k = .ok (ofComplex (x k)) := by
  refine forall₂_congr fun k _ => ⟨?_, fun h => ⟨_, h, toComplex_ofComplex _⟩⟩
  rintro ⟨c, hc, hx⟩
  rw [hc, ← hx, ofComplex_toComplex]

/-- 42_bluestein R178. -/
theorem cztBody_exact (dir : Dir) (hn : 1 ≤ n) (hx : HoldsComplex st base n x) :
    ∃ st', cztBody exactNum n dir base st = .ok st' ∧ HoldsComplex st' base n (dft dir n x) := by
  have hM := two_le_largerSize n
  obtain ⟨st', h, hres, -⟩ := cztBody_spec exactNum hn dir (holdsComplex_iff.1 hx)
    (fun _ => cdivr_exact _ (by omega)) fun _ _ => cdivr_exact _ (by omega)
  exact ⟨st', h, fun k hk => ⟨_, hres k hk, toComplex_cztResult hk⟩⟩

end Signal

end Sys2Proof.Machine

open Sys2Proof.Machine

/-- Settles O57: `cztBody_exact`. -/
theorem exactCztComputesDft : Obligations.ExactCztComputesDft :=
  fun dir _ _ _ _ hn hx => cztBody_exact dir hn hx
end

section
/-!
PROOFS. The workspace manager and the drivers (43_driver_workspace R200 to R210, 44_real_transform R232, R240): each check list
as the chain of its conditions in order, what an allocation and a release leave, and FFT as WSALLOC, CZT and WSFREE in turn.
-/

namespace Sys2Proof.Machine

section DriverChecks

variable {i : Instr} {s : State} {error : Option Err}

/-- The checks that the commands with an allocation make on LEN, on WS_VALID and on the signal buffer, which is too long where
`overflow` holds, in the order of 43_driver_workspace R200, R205 and 44_real_transform R240. -/
def driverChain (s : State) (overflow : Prop) [Decidable overflow] : Option Err :=
  if s.len.toNat = 0 then some .lengthZero
  else if nMax < s.len.toNat then some .lengthRange
  else if s.wsValid = true then some .wsState
  else if overflow then some (.operandRange 0x40) else none

/-- 43_driver_workspace R200: WSALLOC has no signal buffer. -/
theorem wsallocCheck_eq : wsallocCheck s s.operands = driverChain s False := by
  simp only [wsallocCheck, firstError_cons, firstError_nil, decide_eq_true_eq, driverChain, if_false]
  rfl

/-- 43_driver_workspace R205: FFT has a buffer of N complex elements. -/
theorem fftCheck_eq : fftCheck s s.operands = driverChain s (s.cfg.sigWords < s.sigBase.toNat + 2 * s.len.toNat) := by
  simp only [fftCheck, firstError_cons, firstError_nil, decide_eq_true_eq]
  rfl

/-- 44_real_transform R240: RFFT refuses an odd length first, and has a buffer of N reals. -/
theorem rfftCheck_eq : rfftCheck s s.operands =
    if s.len.toNat % 2 = 1 then some (.oddLength s.len)
    else driverChain s (s.cfg.sigWords < s.sigBase.toNat + s.len.toNat) := by
  simp only [rfftCheck, firstError_cons, firstError_nil, decide_eq_true_eq]
  rfl

/-- 44_real_transform R232: the first condition that does not hold gives the error. -/
theorem rmixCheck_eq : rmixCheck s s.operands =
    if s.len.toNat % 2 = 1 then some (.oddLength s.len)
    else if s.len.toNat = 0 then some .lengthZero
    else if nMax < s.len.toNat then some .lengthRange
    else if s.cfg.sigWords < s.sigBase.toNat + s.len.toNat then some (.operandRange 0x40) else none := by
  simp only [rmixCheck, firstError_cons, firstError_nil, decide_eq_true_eq]
  rfl

/-- A failed check is the error that a command raises (60_exceptions R262, R263). -/
theorem raises_of_checked {e : Err} {go : Result} (hexec : exec i s = checked s error go) (hc : error = some e) :
    Raises i s e.code.code e.info := by
  subst hc
  exact hexec

/-- 43_driver_workspace R200, R206, R208: an allocation that fails after the checks leaves everything but STATUS and the model's
count of draws. -/
theorem outOfMemory_of_checked {n : Nat} {go : State → Result}
    (hexec : exec i s = checked s error (withAllocation s n go)) (hc : error = none)
    (ha : s.allocOk (wsLength n) = false) : ∃ d, exec i s = .next { s with
      running := none, done := true, err := 1, errInfo := BitVec.ofNat 32 (wsLength n), draws := d } := by
  refine ⟨s.drawAlloc.draws, ?_⟩
  rw [hexec, hc, checked_none, withAllocation, ha, State.drawAlloc_eq]
  rfl

variable {overflow : Prop} [Decidable overflow]

theorem driverChain_eq_none (hpos : 1 ≤ s.len.toNat) (hmax : s.len.toNat ≤ nMax) (hfree : s.wsValid = false)
    (hfits : ¬ overflow) : driverChain s overflow = none := by
  rw [driverChain, if_neg (by omega), if_neg (by omega), if_neg (by simp [hfree]), if_neg hfits]

/-- 43_driver_workspace R200, R205, R208, 44_real_transform R240: the errors of a command that makes these checks and then
allocates a workspace for N = `n`, in order. -/
theorem driverChain_errors {n : Nat} {go : State → Result}
    (hexec : exec i s = checked s (driverChain s overflow) (withAllocation s n go)) :
    (s.len.toNat = 0 → Raises i s 3 0x18) ∧ (nMax < s.len.toNat → Raises i s 4 0x18) ∧
    (1 ≤ s.len.toNat → s.len.toNat ≤ nMax → s.wsValid = true → Raises i s 6 0x78) ∧
    (1 ≤ s.len.toNat → s.len.toNat ≤ nMax → s.wsValid = false → overflow → Raises i s 7 0x40) ∧
    (1 ≤ s.len.toNat → s.len.toNat ≤ nMax → s.wsValid = false → ¬ overflow → s.allocOk (wsLength n) = false →
      ∃ d, exec i s = .next { s with
        running := none, done := true, err := 1, errInfo := BitVec.ofNat 32 (wsLength n), draws := d }) := by
  refine ⟨fun h0 => raises_of_checked (e := .lengthZero) hexec ?_,
    fun hmax => raises_of_checked (e := .lengthRange) hexec ?_,
    fun hpos hmax hvalid => raises_of_checked (e := .wsState) hexec ?_,
    fun hpos hmax hfree hover => raises_of_checked (e := .operandRange 0x40) hexec ?_,
    fun hpos hmax hfree hfits => outOfMemory_of_checked hexec (driverChain_eq_none hpos hmax hfree hfits)⟩
  · rw [driverChain, if_pos h0]
  · rw [driverChain, if_neg (by omega), if_pos hmax]
  · rw [driverChain, if_neg (by omega), if_neg (by omega), if_pos hvalid]
  · rw [driverChain, if_neg (by omega), if_neg (by omega), if_neg (by simp [hfree]), if_pos hover]

/-- WSALLOC makes its checks and then allocates (43_driver_workspace R200). -/
theorem execWsalloc_eq (s : State) : exec .wsalloc s =
    checked s (driverChain s False) (withAllocation s s.len.toNat fun t => .next t.complete) :=
  wsallocCheck_eq (s := s) ▸ rfl

/-- FFT makes its checks and then allocates (43_driver_workspace R206). -/
theorem execFft_eq (dir : Dir) (s : State) : exec (.fft dir) s =
    checked s (driverChain s (s.cfg.sigWords < s.sigBase.toNat + 2 * s.len.toNat)) (withAllocation s s.len.toNat fun t =>
      commit (.fft dir) t (fftBody (b64 s.cfg) s.len.toNat dir s.sigBase.toNat t.mem) fun m =>
        { t with mem := m }.release) :=
  fftCheck_eq (s := s) ▸ rfl

/-- RFFT of an even length makes its checks and then allocates (44_real_transform R240). -/
theorem execRfft_eq (dir : Dir) (heven : s.len.toNat % 2 = 0) : exec (.rfft dir) s =
    checked s (driverChain s (s.cfg.sigWords < s.sigBase.toNat + s.len.toNat))
      (withAllocation s (s.len.toNat / 2) fun t =>
        commit (.rfft dir) t (rfftBody (b64 s.cfg) s.len.toNat s.sigBase.toNat dir t.mem) fun m =>
          { t with mem := m }.release) := by
  have hcheck := rfftCheck_eq (s := s)
  rw [if_neg (by omega)] at hcheck
  exact hcheck ▸ rfl

end DriverChecks

section Workspace

variable {s : State}

/-- WSALLOC whose checks pass and whose allocation succeeds (43_driver_workspace R200). -/
theorem exec_wsalloc (hpos : 1 ≤ s.len.toNat) (hmax : s.len.toNat ≤ nMax) (hfree : s.wsValid = false)
    (ha : s.allocOk (wsLength s.len.toNat) = true) :
    exec .wsalloc s = .next (s.drawAlloc.allocate s.len.toNat).complete := by
  rw [execWsalloc_eq, driverChain_eq_none hpos hmax hfree not_false, checked_none, withAllocation, if_pos ha]

/-- 43_driver_workspace R200: what WSALLOC leaves, field by field. -/
theorem allocate_complete_eq (s : State) : (s.drawAlloc.allocate s.len.toNat).complete = { s with
    wsValid := true, wsN := s.len, mem := ⟨s.mem.sig, [], []⟩, running := none, done := true, err := 0, errInfo := 0,
    draws := s.drawAlloc.draws } := by
  rw [State.drawAlloc_eq, State.allocate, BitVec.ofNat_toNat, BitVec.setWidth_eq]
  rfl

theorem drawAlloc_draws_of_deterministic (h : s.cfg.allocNondet = false) : s.drawAlloc.draws = s.draws := by
  simp [State.drawAlloc, h]

/-- 10_state R36 to R39: while no workspace is allocated, the geometry registers and WSSTAT read 0. -/
theorem readReg_geometry_of_free (h : s.wsValid = false) :
    ∀ r ∈ [Reg.larger, .wslen, .r1base, .r2base, .r3base, .r4base, .wsstat], s.readReg r = .ok 0 := by
  simp [State.readReg, State.wsLen, State.geometry, wsStat_eq, h]

/-- In the workspace that WSALLOC allocated, the checks of CZT pass for a buffer that fits (42_bluestein R170). -/
theorem bluesteinReady_allocated (hpos : 1 ≤ s.len.toNat) (hmax : s.len.toNat ≤ nMax)
    (hfits : s.sigBase.toNat + 2 * s.len.toNat ≤ s.cfg.sigWords) :
    BluesteinReady (s.drawAlloc.allocate s.len.toNat).complete true := by
  rw [allocate_complete_eq]
  exact ⟨hpos, hmax, rfl, rfl, fun _ => hfits⟩

end Workspace

section FftSteps

@[simp] theorem clearWs_clearWs {F : Type} (st : Store F) : clearWs (clearWs st) = clearWs st := rfl

variable {s : State} {dir : Dir} {m : Store F64}

/-- FFT is CZT between two clearings of the workspace (43_driver_workspace R206). -/
theorem fftBody_of_cztBody {F : Type} {num : Num F} {n base : Nat} {st st' : Store F}
    (h : cztBody num n dir base (clearWs st) = .ok st') : fftBody num n dir base st = .ok (clearWs st') := by
  rw [fftBody, h]
  rfl

/-- A command on the memories that completes leaves what its body answers (60_exceptions R262). -/
theorem Completes.body {i : Instr} {error : Option Err} {r : Except ModelFault (Store F64)} (h : Completes i s m)
    (hexec : exec i s = checked s error (commit i s r fun m => { s with mem := m })) (hc : error = none) : r = .ok m := by
  subst hc
  rcases memoryCommand_next (hexec.symm.trans h) with ⟨e, he, -⟩ | ⟨-, m', hm, ht⟩
  · cases he
  · obtain rfl : m = m' := congrArg State.mem ht
    exact hm

/-- 43_driver_workspace R206: where CZT completes in the workspace that WSALLOC allocated, FFT ends as WSFREE after it does. -/
theorem exec_fft (h : FftReady s) (hczt : Completes (.czt dir) (s.drawAlloc.allocate s.len.toNat).complete m) :
    exec (.fft dir) s =
      .next (({ (s.drawAlloc.allocate s.len.toNat).complete with mem := m } : State).release).complete := by
  have hbody := hczt.body rfl (bluesteinReady_allocated h.lenPos h.lenMax h.fits).check
  have hfft : fftBody (b64 s.cfg) s.len.toNat dir s.sigBase.toNat (s.drawAlloc.allocate s.len.toNat).mem =
      .ok (clearWs m) := by
    refine fftBody_of_cztBody ?_
    simpa [State.operands] using hbody
  rw [execFft_eq, driverChain_eq_none h.lenPos h.lenMax h.free (Nat.not_lt.2 h.fits), checked_none, withAllocation,
    if_pos h.memory, hfft, commit_ok]
  rfl

end FftSteps

end Sys2Proof.Machine

open Sys2Proof Sys2Proof.Machine

/-- Settles O28: WSALLOC, FFT and, for an even length, RFFT make the checks of `driverChain` and then allocate; the check list of
RMIX is the chain of its conditions in order. -/
theorem driverErrors : Obligations.DriverErrors := by
  intro dir s n base outOfMemory
  refine ⟨?wsalloc, ?fft, fun heven => ?rfft, fun heven => ?rmix⟩
  case wsalloc =>
    obtain ⟨h0, hmax, hws, -, hmem⟩ := driverChain_errors (execWsalloc_eq s)
    exact ⟨h0, hmax, hws, fun hpos hle hfree => hmem hpos hle hfree not_false⟩
  case fft =>
    obtain ⟨h0, hmax, hws, hrange, hmem⟩ := driverChain_errors (execFft_eq dir s)
    exact ⟨h0, hmax, hws, hrange, fun hpos hle hfree hfits => hmem hpos hle hfree (Nat.not_lt.2 hfits)⟩
  case rfft =>
    obtain ⟨h0, hmax, hws, hrange, hmem⟩ := driverChain_errors (execRfft_eq dir heven)
    exact ⟨h0, hmax, hws, hrange, fun hpos hle hfree hfits => hmem hpos hle hfree (Nat.not_lt.2 hfits)⟩
  case rmix =>
    refine ⟨fun h0 => raises_of_checked rfl (e := .lengthZero) ?_,
      fun hmax => raises_of_checked rfl (e := .lengthRange) ?_,
      fun hpos hmax hrange => raises_of_checked rfl (e := .operandRange 0x40) ?_⟩
    · rw [rmixCheck_eq, if_neg (by omega), if_pos h0]
    · rw [rmixCheck_eq, if_neg (by omega), if_neg (by omega), if_pos hmax]
    · rw [rmixCheck_eq, if_neg (by omega), if_neg (by omega), if_neg (by omega), if_pos hrange]

/-- Settles O51: WSALLOC ends in the state of `allocate_complete_eq`, whose geometry is that of N = LEN; the capacity bounds every
allocation and, without nondeterminism, decides it. -/
theorem wsallocResult : Obligations.WsallocResult := by
  constructor
  · intro s n hpos hmax hfree ha
    exact ⟨s.drawAlloc.draws, drawAlloc_draws_of_deterministic,
      (exec_wsalloc hpos hmax hfree ha).trans (congrArg _ (allocate_complete_eq s)), rfl, rfl, rfl, rfl, rfl, rfl,
      congrArg Except.ok (wsStat_eq _)⟩
  · intro s len
    refine ⟨fun hcap => Bool.eq_false_iff.2 fun ha => ?_, fun hdet hcap => ?_⟩
    · exact Nat.not_le.2 hcap (allocOk_le ha)
    · rw [allocOk_deterministic hdet, decide_eq_true hcap]

/-- Settles O52: WSFREE makes no check; without a workspace the geometry registers read 0 (`readReg_geometry_of_free`). -/
theorem wsfreeResult : Obligations.WsfreeResult :=
  fun _ => ⟨rfl, rfl, readReg_geometry_of_free rfl⟩

/-- Settles O53: in the workspace that WSALLOC allocated CZT completes (`cztCompletes`), and FFT ends as WSFREE after it does
(`exec_fft`). -/
theorem fftCompletes : Obligations.FftCompletes := by
  intro dir s n base h hready
  obtain ⟨m, hczt, hsig, hkept, -⟩ := cztCompletes dir (s.drawAlloc.allocate n).complete
    (bluesteinReady_allocated h.lenPos h.lenMax h.fits) (by simpa [SigReady] using hready)
  have hfft := exec_fft h hczt
  refine ⟨_, _, _, exec_wsalloc h.lenPos h.lenMax h.free h.memory, hczt, rfl, hfft, ⟨rfl, rfl, rfl, rfl⟩,
    exec_sameOperands hfft, exec_cr hfft rfl, rfl, rfl, fun i => ⟨rfl, rfl⟩, ?_, fun w hw => ?_⟩
  · simpa [SigReady] using hsig
  · simpa using hkept w (by simpa using hw)
end

section
/-!
PROOFS. FFT over the reals (43_driver_workspace R207): the DFT of `cztBody_exact`, which the inverse direction inverts.
-/

namespace Sys2Proof.Machine

section ExactFft

variable {st : Store ℝ} {base n : Nat} {x : Nat → ℂ}

/-- 00_scope R14: the inverse DFT inverts the forward DFT. -/
theorem dft_inverse_dft_forward {k : Nat} (hk : k < n) : dft .inverse n (dft .forward n x) k = x k := by
  have : NeZero n := ⟨by omega⟩
  have hforward : (fun j : ZMod n => dft .forward n x j.val) = ZMod.dft fun j => x j.val := by
    ext j
    rw [dft, dftSum_forward_eq_dft, ZMod.natCast_zmod_val]
  rw [dft_inverse_eq_invDFT, hforward, LinearEquiv.symm_apply_apply, ZMod.val_natCast_of_lt hk]

/-- The workspace is no part of the signal buffer (20_memory R60). -/
theorem holdsComplex_clearWs : HoldsComplex (clearWs st) base n x ↔ HoldsComplex st base n x := .rfl

/-- 43_driver_workspace R207: FFT replaces the buffer by its DFT. -/
theorem fftBody_exact (dir : Dir) (hn : 1 ≤ n) (hx : HoldsComplex st base n x) :
    ∃ st', fftBody exactNum n dir base st = .ok st' ∧ HoldsComplex st' base n (dft dir n x) := by
  obtain ⟨st', h, hdft⟩ := cztBody_exact dir hn (holdsComplex_clearWs.2 hx)
  exact ⟨clearWs st', fftBody_of_cztBody h, holdsComplex_clearWs.2 hdft⟩

end ExactFft

end Sys2Proof.Machine

open Sys2Proof.Machine

/-- Settles O58: FFT computes the DFT in each direction, and the inverse DFT inverts the forward one. -/
theorem exactFftRoundTrip : Obligations.ExactFftRoundTrip := by
  intro n base st x hn hx
  refine ⟨fun dir => fftBody_exact dir hn hx, ?_⟩
  obtain ⟨st₁, h₁, hforward⟩ := fftBody_exact .forward hn hx
  obtain ⟨st₂, h₂, hinverse⟩ := fftBody_exact .inverse hn hforward
  refine ⟨st₁, st₂, h₁, h₂, fun k hk => ?_⟩
  obtain ⟨c, hc, hsample⟩ := hinverse k hk
  exact ⟨c, hc, hsample.trans (dft_inverse_dft_forward hk)⟩
end

section
/-!
PROOFS. The real transform (44_real_transform R232 to R247): the checks of RFFT and RMIX refuse an odd length first, a mixing pass
of either direction leaves the values of `mixedAt`, and RFFT is the sequence of steps that a host may run itself.
-/

namespace Sys2Proof.Machine

section MixedValues

variable {F : Type}

/-- What the mixing pass of a direction leaves at index 0 (44_real_transform R233, R234). -/
def mixedZero (num : Scalar F) (dir : Dir) (c : Cx F) : Cx F :=
  match dir with
  | .forward => ⟨num.add c.re c.im, num.sub c.re c.im⟩
  | .inverse => ⟨num.half (num.add c.re c.im), num.half (num.sub c.re c.im)⟩

/-- What the mixing pass of a direction over `h` elements makes of the pair `(c i, c (h - i))` (44_real_transform R233, R234). -/
def mixedPair (num : Num F) (dir : Dir) (h : Nat) (c : Nat → Cx F) (i : Nat) : Cx F × Cx F :=
  match dir with
  | .forward => mixedForward num.toScalar (num.cis .forward i h) (c i) (c (h - i))
  | .inverse => mixedInverse num.toScalar (num.cis .inverse i h) (c i) (c (h - i))

variable {h i : Nat} {zero : Cx F} {pair : Nat → Cx F × Cx F}

theorem mixedAt_zero : mixedAt h zero pair 0 = zero := if_pos rfl

/-- The first of a pair, the midpoint included (44_real_transform R235). -/
theorem mixedAt_first (hi : 1 ≤ i) (hle : i ≤ h / 2) : mixedAt h zero pair i = (pair i).1 := by
  rw [mixedAt, if_neg (by omega), if_pos (by omega)]

/-- The second of a pair, where it is another element than the first (44_real_transform R233, R234). -/
theorem mixedAt_second (hi : 1 ≤ i) (hlt : i < h - i) : mixedAt h zero pair (h - i) = (pair i).2 := by
  rw [mixedAt, if_neg (by omega), if_neg (by omega), Nat.sub_sub_self (by omega)]

end MixedValues

section MixingPass

variable {F : Type} (num : Num F) {n base : Nat} {dir : Dir} {st : Store F}

/-- 44_real_transform R233 to R236: a mixing pass leaves the values of `mixedAt`, and leaves the workspace. -/
theorem rmixBody_spec {c : Nat → Cx F} (dir : Dir) (hn : 2 ≤ n) (hc : ∀ k, k < n / 2 → sigCRead st base k = .ok (c k)) :
    ∃ st', rmixBody num n base dir st = .ok st' ∧ WsSame st st' ∧ ∀ k, k < n / 2 → sigCRead st' base k =
      .ok (mixedAt (n / 2) (mixedZero num.toScalar dir (c 0)) (mixedPair num dir (n / 2) c) k) := by
  cases dir with
  | forward =>
    obtain ⟨st', hst, hre, him, hread⟩ := mixForward_spec num hn hc
    exact ⟨st', hst, ⟨hre, him⟩, hread⟩
  | inverse =>
    obtain ⟨st', hst, hre, him, hread⟩ := mixInverse_spec num hn hc
    exact ⟨st', hst, ⟨hre, him⟩, hread⟩

/-- A loop whose body commutes with a map of the state commutes with it. -/
theorem forRange_map {ε σ : Type} {body : Nat → σ → Except ε σ} {g : σ → σ}
    (hbody : ∀ k s, body k (g s) = (body k s).map g) (count start : Nat) (s : σ) :
    forRange body count start (g s) = (forRange body count start s).map g := by
  induction count generalizing start s with
  | zero => rfl
  | succ count ih =>
    simp only [forRange, hbody]
    cases body start s with
    | ok s' => exact ih (start + 1) s'
    | error e => rfl

theorem sigCRead_clearWs (base k : Nat) : sigCRead (clearWs st) base k = sigCRead st base k := rfl

theorem sigCWrite_clearWs (base k : Nat) (c : Cx F) : sigCWrite (clearWs st) base k c = clearWs (sigCWrite st base k c) := rfl

theorem mixWrite_clearWs (i j : Nat) (zx t : Cx F) :
    mixWrite num base i j zx t (clearWs st) = clearWs (mixWrite num base i j zx t st) := by
  simp only [mixWrite, sigCWrite_clearWs, apply_ite clearWs]

theorem mixPairForward_clearWs (i : Nat) (st : Store F) :
    mixPairForward num n base i (clearWs st) = (mixPairForward num n base i st).map clearWs := by
  simp only [mixPairForward, sigCRead_clearWs, mixWrite_clearWs]
  cases sigCRead st base i <;> cases sigCRead st base (n / 2 - i) <;> rfl

theorem mixPairInverse_clearWs (i : Nat) (st : Store F) :
    mixPairInverse num n base i (clearWs st) = (mixPairInverse num n base i st).map clearWs := by
  simp only [mixPairInverse, sigCRead_clearWs, mixWrite_clearWs]
  cases sigCRead st base i <;> cases sigCRead st base (n / 2 - i) <;> rfl

/-- 44_real_transform R232: a mixing pass touches no workspace, so that it makes no difference whether the workspace is cleared
before it or after it. -/
theorem rmixBody_clearWs : rmixBody num n base dir (clearWs st) = (rmixBody num n base dir st).map clearWs := by
  cases dir with
  | forward =>
    simp only [rmixBody, mixForward, sigCRead_clearWs, sigCWrite_clearWs,
      forRange_map (mixPairForward_clearWs num (n := n) (base := base))]
    cases sigCRead st base 0 <;> rfl
  | inverse =>
    simp only [rmixBody, mixInverse, sigCRead_clearWs, sigCWrite_clearWs,
      forRange_map (mixPairInverse_clearWs num (n := n) (base := base))]
    cases sigCRead st base 0 <;> rfl

end MixingPass

section Rmix

variable {s : State} {c : Nat → Cx F64}

/-- An even length of at least 1 is at least 2. -/
theorem RmixReady.two_le (h : RmixReady s) : 2 ≤ s.len.toNat := by
  obtain ⟨heven, hpos, -, -⟩ := h
  omega

/-- The reals of an even length are the components of the complex elements (44_real_transform R230). -/
theorem RmixReady.two_mul_half (h : RmixReady s) : 2 * (s.len.toNat / 2) = s.len.toNat :=
  Nat.mul_div_cancel' (Nat.dvd_of_mod_eq_zero h.lenEven)

/-- 44_real_transform R233 to R236, in either direction. -/
theorem rmix_result (dir : Dir) (h : RmixReady s)
    (hc : ∀ k, k < s.len.toNat / 2 → sigCRead s.mem s.sigBase.toNat k = .ok (c k)) :
    ∃ m, Completes (.rmix dir) s m ∧ WsSame s.mem m ∧
      sigCRead m s.sigBase.toNat 0 = .ok (mixedZero (b64Scalar s.cfg) dir (c 0)) ∧
      (∀ i, 1 ≤ i → i ≤ s.len.toNat / 2 / 2 →
        let pair := mixedPair (b64 s.cfg) dir (s.len.toNat / 2) c i
        sigCRead m s.sigBase.toNat i = .ok pair.1 ∧
        (i < s.len.toNat / 2 - i → sigCRead m s.sigBase.toNat (s.len.toNat / 2 - i) = .ok pair.2)) ∧
      SigKept (fun w => s.sigBase.toNat ≤ w ∧ w < s.sigBase.toNat + s.len.toNat) s.mem m := by
  have hn := h.two_le
  obtain ⟨m, hm, hws, hread⟩ := rmixBody_spec (b64 s.cfg) dir hn hc
  have hdone : Completes (.rmix dir) s m := completes_of_memoryCommand rfl h.check hm
  refine ⟨m, hdone, hws, ?_, fun i hi hle => ⟨?_, fun hlt => ?_⟩, hdone.sigKept rfl⟩
  · rw [hread 0 (by omega), mixedAt_zero]
    rfl
  · rw [hread i (by omega), mixedAt_first hi hle]
  · rw [hread (s.len.toNat / 2 - i) (by omega), mixedAt_second hi hlt]

end Rmix

section DriverSteps

variable {s : State} {m : Store F64}

/-- What a driver that completes leaves: the workspace is released, and of the memory `m` the signal words stay
(43_driver_workspace R203, R206); an allocation under ALLOC_NONDET has used up a draw (log entry 8). -/
def State.driverEnd (s : State) (m : Store F64) : State :=
  { s with
    mem := clearWs m, wsValid := false, wsN := 0, running := none, done := true, err := 0, errInfo := 0
    draws := if s.cfg.allocNondet then s.draws + 1 else s.draws }

theorem release_allocate_eq (s : State) (n : Nat) (m : Store F64) :
    ({ s.drawAlloc.allocate n with mem := m } : State).release.complete = s.driverEnd m := by
  unfold State.drawAlloc State.driverEnd
  split <;> rfl

/-- 43_driver_workspace R206: WSALLOC, CZT and WSFREE in turn, where the checks of FFT pass. -/
theorem fft_steps (dir : Dir) (h : FftReady s) (hready : SigReady s.mem s.sigBase.toNat (2 * s.len.toNat)) :
    ∃ a c m, exec .wsalloc s = .next a ∧ exec (.czt dir) a = .next c ∧ exec .wsfree c = .next (s.driverEnd m) ∧
      cztBody (b64 s.cfg) s.len.toNat dir s.sigBase.toNat (clearWs s.mem) = .ok m ∧
      SigReady m s.sigBase.toNat (2 * s.len.toNat) := by
  have hcheck := bluesteinReady_allocated h.lenPos h.lenMax h.fits
  obtain ⟨m, hczt, hsig, -⟩ := cztCompletes dir _ hcheck (by simpa [SigReady] using hready)
  refine ⟨_, _, m, exec_wsalloc h.lenPos h.lenMax h.free h.memory, hczt, ?_, ?_, by simpa using hsig⟩
  · rw [← release_allocate_eq s s.len.toNat]
    rfl
  · simpa [State.operands] using hczt.body rfl hcheck.check

end DriverSteps

section Rfft

variable {s : State} {dir : Dir} {m : Store F64}

/-- Half of LEN is a 32-bit word. -/
theorem toNat_half_len (s : State) : (BitVec.ofNat 32 (s.len.toNat / 2)).toNat = s.len.toNat / 2 :=
  by
  rw [BitVec.toNat_ofNat, Nat.mod_eq_of_lt (by omega)]

/-- Where the checks of RFFT pass and its allocation succeeds, so do those of FFT for half the length (44_real_transform R240). -/
theorem RfftReady.fftReady (h : RfftReady s) : FftReady { s with len := BitVec.ofNat 32 (s.len.toNat / 2) } := by
  have hn := h.toRmixReady.two_le
  obtain ⟨⟨-, -, hmax, hfits⟩, hfree, hmem⟩ := h
  have hhalf := toNat_half_len s
  refine ⟨?_, ?_, hfree, ?_, ?_⟩
  · simp only [hhalf]
    omega
  · simp only [hhalf]
    omega
  · simp only [hhalf]
    omega
  · rw [hhalf]
    exact hmem

/-- A command that completes on the memories leaves what RFFT checks. -/
theorem RfftReady.completed (h : RfftReady s) (m : Store F64) :
    RfftReady { s with mem := m, running := none, done := true, err := 0, errInfo := 0 } :=
  ⟨⟨h.lenEven, h.lenPos, h.lenMax, h.fits⟩, h.free, h.memory⟩

/-- A mixing pass over a buffer that holds values answers, and the buffer holds values again. -/
theorem RmixReady.body_answers (h : RmixReady s) (dir : Dir) (hready : SigReady m s.sigBase.toNat s.len.toNat) :
    ∃ m', rmixBody (b64 s.cfg) s.len.toNat s.sigBase.toNat dir m = .ok m' ∧ SigReady m' s.sigBase.toNat s.len.toNat := by
  rw [← h.two_mul_half] at hready
  obtain ⟨c, hc⟩ := exists_values fun k hk => hready.reads hk
  obtain ⟨m', hm', -, hread⟩ := rmixBody_spec (b64 s.cfg) dir h.two_le hc
  refine ⟨m', hm', ?_⟩
  rw [← h.two_mul_half]
  exact sigReady_of_reads fun k hk => ⟨_, hread k hk⟩

/-- RFFT is its passes between two clearings of the workspace (44_real_transform R240). -/
theorem rfftBody_of_passes {F : Type} {num : Num F} {n base : Nat} {st st' : Store F}
    (h : rfftPasses num n base dir (clearWs st) = .ok st') : rfftBody num n base dir st = .ok (clearWs st') := by
  rw [rfftBody, h]
  rfl

/-- 44_real_transform R240, R246: where its passes answer `m`, RFFT ends as a driver, and changes nothing but its buffer. -/
theorem rfft_result (h : RfftReady s)
    (hpasses : rfftPasses (b64 s.cfg) s.len.toNat s.sigBase.toNat dir (clearWs s.mem) = .ok m)
    (hready : SigReady m s.sigBase.toNat s.len.toNat) :
    exec (.rfft dir) s = .next (s.driverEnd m) ∧ (s.driverEnd m).Completed ∧ SameOperands s (s.driverEnd m) ∧
      (s.driverEnd m).cr = s.cr ∧ (s.driverEnd m).wsValid = false ∧ (s.driverEnd m).wsN = 0 ∧
      SigReady (s.driverEnd m).mem s.sigBase.toNat s.len.toNat ∧
      SigKept (fun w => s.sigBase.toNat ≤ w ∧ w < s.sigBase.toNat + s.len.toNat) s.mem (s.driverEnd m).mem := by
  have hbody : rfftBody (b64 s.cfg) s.len.toNat s.sigBase.toNat dir (s.drawAlloc.allocate (s.len.toNat / 2)).mem =
      .ok (clearWs m) := rfftBody_of_passes (by simpa using hpasses)
  have hexec : exec (.rfft dir) s = .next (s.driverEnd m) := by
    rw [execRfft_eq dir h.lenEven, driverChain_eq_none h.lenPos h.lenMax h.free (Nat.not_lt.2 h.fits), checked_none,
      withAllocation, if_pos h.memory, hbody, commit_ok, release_allocate_eq]
    rfl
  refine ⟨hexec, ⟨rfl, rfl, rfl, rfl⟩, exec_sameOperands hexec, exec_cr hexec rfl, rfl, rfl, hready,
    (exec_sigKept hexec).mono fun w ⟨b, hbuf, hw⟩ => ?_⟩
  cases hbuf
  exact hw

end Rfft

end Sys2Proof.Machine

open Sys2Proof Sys2Proof.Machine

/-- Settles O27: the odd length is the first condition of both check lists. -/
theorem oddLengthFirst : Obligations.OddLengthFirst := by
  intro dir s hodd
  refine ⟨raises_of_checked (e := .oddLength s.len) rfl ?_, raises_of_checked (e := .oddLength s.len) rfl ?_⟩
  · rw [rfftCheck_eq, if_pos hodd]
  · rw [rmixCheck_eq, if_pos hodd]

/-- Settles O54: `rmix_result` in each direction. -/
theorem rmixResult : Obligations.RmixResult :=
  fun _ _ h hc => ⟨rmix_result .forward h hc, rmix_result .inverse h hc⟩

/-- Settles O55: CZT runs in a workspace of its own between WSALLOC and WSFREE (`fft_steps`), and the mixing pass touches none
(`rmixBody_clearWs`), so that its place before or after them makes no difference. -/
theorem rfftCompletes : Obligations.RfftCompletes := by
  intro s n half base h hready
  have hhalf : 2 * half.toNat = n := (congrArg _ (toNat_half_len s)).trans h.toRmixReady.two_mul_half
  refine ⟨?forward, ?inverse⟩
  case forward =>
    obtain ⟨a, c, m, ha, hc, hf, hczt, hsig⟩ := fft_steps .forward h.fftReady (hhalf.symm ▸ hready)
    obtain ⟨m', hmix, hready'⟩ := h.toRmixReady.body_answers .forward (hhalf ▸ hsig)
    have hrmix : Completes (.rmix .forward) { State.driverEnd { s with len := half } m with len := s.len } (clearWs m') :=
      completes_of_memoryCommand rfl (RmixReady.check ⟨h.lenEven, h.lenPos, h.lenMax, h.fits⟩)
        ((rmixBody_clearWs _).trans (congrArg _ hmix))
    refine ⟨a, c, _, s.driverEnd m', ha, hc, hf, hrmix, rfft_result h ?_ hready'⟩
    rw [toNat_half_len] at hczt
    exact except_bind_ok.2 ⟨m, hczt, hmix⟩
  case inverse =>
    obtain ⟨m, hmix, hsig⟩ := h.toRmixReady.body_answers .inverse hready
    have hrmix : Completes (.rmix .inverse) s m := completes_of_memoryCommand rfl h.toRmixReady.check hmix
    obtain ⟨a, c, m', ha, hc, hf, hczt, hsig'⟩ := fft_steps .inverse (h.completed m).fftReady (hhalf.symm ▸ hsig)
    have hready' : SigReady m' base n := hhalf ▸ hsig'
    refine ⟨_, a, c, _, s.driverEnd m', hrmix, ha, hc, hf, rfl, rfft_result h ?_ hready'⟩
    rw [toNat_half_len] at hczt
    exact except_bind_ok.2 ⟨clearWs m, (rmixBody_clearWs _).trans (congrArg _ hmix), hczt⟩
end

section
/-!
PROOFS. The real transform over the reals (44_real_transform R241, R242): the DFT of the even and of the odd reals gives both the DFT
of the packed sequence and the packed spectrum, and a mixing pass turns one into the other; and a packed spectrum stands for a
Hermitian spectrum, whose inverse DFT is real.
-/

namespace Sys2Proof.Machine

open scoped ComplexConjugate

section Symmetry

variable {dir : Dir} {n k : Nat}

/-- Roots of unity have absolute value 1: their conjugates are their inverses. -/
theorem conj_rootPow (k : Nat) : conj (rootPow dir n k) = (rootPow dir n k)⁻¹ := by
  rw [rootPow, ← Complex.exp_conj, ← Complex.exp_neg]
  congr 1
  simp [neg_div, Complex.conj_ofNat]

theorem rootPow_forward_mul_inverse (k : Nat) : rootPow .forward n k * rootPow .inverse n k = 1 := by
  rw [rootPow, rootPow, ← Complex.exp_add, ← Complex.exp_zero]
  congr 1
  simp only [Dir.sign]
  push_cast
  ring

theorem rootPow_mul_sub (hn : n ≠ 0) (hk : k ≤ n) (j : Nat) : rootPow dir n (j * (n - k)) = (rootPow dir n (j * k))⁻¹ := by
  refine eq_inv_of_mul_eq_one_left ?_
  rw [← rootPow_add, ← Nat.mul_add, Nat.sub_add_cancel hk, Nat.mul_comm, rootPow_mul_self hn]

/-- 44_real_transform R245: the DFT of reals is conjugate symmetric. -/
theorem conj_dftSum_real (hn : n ≠ 0) (hk : k ≤ n) (x : Nat → ℝ) :
    conj (dftSum dir n (fun j => (x j : ℂ)) k) = dftSum dir n (fun j => (x j : ℂ)) (n - k) := by
  simp only [dftSum_eq, map_sum, map_mul, Complex.conj_ofReal, conj_rootPow, rootPow_mul_sub hn hk]

theorem dftSum_real_zero (x : Nat → ℝ) : dftSum dir n (fun j => (x j : ℂ)) 0 = (∑ j ∈ Finset.range n, x j : ℝ) := by
  simp [dftSum]

/-- The factor of a mixing pass over the reals (40_complex_alu R128). -/
theorem toComplex_exactCis_two_mul (m k : Nat) : toComplex (exactCis dir k m) = rootPow dir (2 * m) k := by
  rw [toComplex_exactCis, rootPow]
  congr 1
  rcases Nat.eq_zero_or_pos m with rfl | hm
  · simp
  · push_cast
    field_simp

end Symmetry

section Packing

/-- The packed sequence of reals (44_real_transform R230). -/
def packedReals (x : Nat → ℝ) (k : Nat) : ℂ := ⟨x (2 * k), x (2 * k + 1)⟩

/-- The DFT of the reals at even places (44_real_transform R233). -/
noncomputable def evenDft (m : Nat) (x : Nat → ℝ) (k : Nat) : ℂ := dftSum .forward m (fun j => (x (2 * j) : ℂ)) k

/-- The DFT of the reals at odd places (44_real_transform R233). -/
noncomputable def oddDft (m : Nat) (x : Nat → ℝ) (k : Nat) : ℂ := dftSum .forward m (fun j => (x (2 * j + 1) : ℂ)) k

variable {m k : Nat} {x : Nat → ℝ}

theorem conj_evenDft (hm : m ≠ 0) (hk : k ≤ m) : conj (evenDft m x k) = evenDft m x (m - k) :=
  conj_dftSum_real hm hk fun j => x (2 * j)

theorem conj_oddDft (hm : m ≠ 0) (hk : k ≤ m) : conj (oddDft m x k) = oddDft m x (m - k) :=
  conj_dftSum_real hm hk fun j => x (2 * j + 1)

/-- 44_real_transform R233: `C[k] = E[k] + i·O[k]`. -/
theorem dft_packedReals : dft .forward m (packedReals x) k = evenDft m x k + Complex.I * oddDft m x k := by
  simp only [dft, evenDft, oddDft, dftSum_eq, Finset.mul_sum, ← Finset.sum_add_distrib]
  refine Finset.sum_congr rfl fun j _ => ?_
  rw [packedReals, Complex.mk_eq_add_mul_I]
  ring

/-- 44_real_transform R233: `C[j] = conj(E[k] - i·O[k])` for `j = H - k`. -/
theorem dft_packedReals_sub (hm : m ≠ 0) (hk : k ≤ m) :
    dft .forward m (packedReals x) (m - k) = conj (evenDft m x k - Complex.I * oddDft m x k) := by
  rw [dft_packedReals, map_sub, map_mul, Complex.conj_I, conj_evenDft hm hk, conj_oddDft hm hk]
  ring

/-- 44_real_transform R233: `X[k] = E[k] + W[k]·O[k]`. -/
theorem dft_real : dft .forward (2 * m) (fun j => (x j : ℂ)) k =
    evenDft m x k + rootPow .forward (2 * m) k * oddDft m x k :=
  dftSum_two_mul ..

/-- 44_real_transform R233: `X[j] = conj(E[k] - W[k]·O[k])` for `j = H - k`. -/
theorem dft_real_sub (hm : m ≠ 0) (hk : k ≤ m) : dft .forward (2 * m) (fun j => (x j : ℂ)) (m - k) =
    conj (evenDft m x k - rootPow .forward (2 * m) k * oddDft m x k) := by
  have hsub : m - k = 2 * m - (k + m) := by omega
  rw [hsub]
  refine (conj_dftSum_real (by omega) (by omega) x).symm.trans (congrArg _ ?_)
  exact dftSum_two_mul_add _ _ _ hm

theorem packedSpectrum_of_ne_zero (hk : k ≠ 0) : packedSpectrum (2 * m) x k = dft .forward (2 * m) (fun j => (x j : ℂ)) k :=
  if_neg hk

theorem packedSpectrum_zero : packedSpectrum (2 * m) x 0 =
    ⟨(dft .forward (2 * m) (fun j => (x j : ℂ)) 0).re, (dft .forward (2 * m) (fun j => (x j : ℂ)) m).re⟩ := by
  rw [packedSpectrum, if_pos rfl, Nat.mul_div_cancel_left m two_pos]

/-- 44_real_transform R231, R233: index 0 of the DFT of the packed sequence and of the packed spectrum, from the sums of the
reals at even and at odd places. -/
theorem packed_zero (hm : m ≠ 0) (x : Nat → ℝ) : ∃ a b : ℝ,
    dft .forward m (packedReals x) 0 = ⟨a, b⟩ ∧ packedSpectrum (2 * m) x 0 = ⟨a + b, a - b⟩ := by
  obtain ⟨a, ha⟩ : ∃ a : ℝ, evenDft m x 0 = a := ⟨_, dftSum_real_zero fun j => x (2 * j)⟩
  obtain ⟨b, hb⟩ : ∃ b : ℝ, oddDft m x 0 = b := ⟨_, dftSum_real_zero fun j => x (2 * j + 1)⟩
  have hroot : rootPow .forward (2 * m) 0 = 1 := by simp [rootPow]
  have hmid : dft .forward (2 * m) (fun j => (x j : ℂ)) m = a - b := by
    simpa [ha, hb, hroot] using dft_real_sub (x := x) hm (Nat.zero_le m)
  refine ⟨a, b, ?_, ?_⟩
  · rw [dft_packedReals, ha, hb, Complex.mk_eq_add_mul_I, mul_comm]
  · rw [packedSpectrum_zero, hmid, dft_real, ha, hb, hroot]
    simp

end Packing

section Mixing

variable {w ci cj : Cx ℝ} {e o v : ℂ}

theorem toComplex_chalf (a : Cx ℝ) : toComplex (chalf exactScalar a) = toComplex a * (1 / 2) := by
  apply Complex.ext <;> simp [toComplex, chalf, exactScalar]

theorem toComplex_cmuli (a : Cx ℝ) : toComplex (cmuli exactScalar a) = Complex.I * toComplex a := by
  apply Complex.ext <;> simp [toComplex, cmuli, exactScalar]

theorem toComplex_cmulnegi (a : Cx ℝ) : toComplex (cmulnegi exactScalar a) = -Complex.I * toComplex a := by
  apply Complex.ext <;> simp [toComplex, cmulnegi, exactScalar]

/-- 44_real_transform R233: the forward pass recovers `e` and `o` from a pair and turns `o` by its factor instead of by i. -/
theorem mixedForward_exact (hi : toComplex ci = e + Complex.I * o) (hj : toComplex cj = conj (e - Complex.I * o)) :
    toComplex (mixedForward exactScalar w ci cj).1 = e + toComplex w * o ∧
      toComplex (mixedForward exactScalar w ci cj).2 = conj (e - toComplex w * o) := by
  have heven : (e + Complex.I * o + (e - Complex.I * o)) * (1 / 2) = e := by ring
  have hodd : -Complex.I * (e + Complex.I * o - (e - Complex.I * o)) * (1 / 2) = o := by
    linear_combination -o * Complex.I_sq
  simp only [mixedForward, toComplex_cconj, toComplex_cadd, toComplex_csub, toComplex_cmul, toComplex_chalf,
    toComplex_cmulnegi, hi, hj, Complex.conj_conj, heven, hodd, and_self]

/-- 44_real_transform R234: the inverse pass undoes it, if its factor undoes the turn. -/
theorem mixedInverse_exact (hw : v * toComplex w = 1) (hi : toComplex ci = e + v * o) (hj : toComplex cj = conj (e - v * o)) :
    toComplex (mixedInverse exactScalar w ci cj).1 = e + Complex.I * o ∧
      toComplex (mixedInverse exactScalar w ci cj).2 = conj (e - Complex.I * o) := by
  have heven : (e + v * o + (e - v * o)) * (1 / 2) = e := by ring
  have hodd : (e + v * o - (e - v * o)) * (1 / 2) * toComplex w = o := by linear_combination o * hw
  simp only [mixedInverse, toComplex_cconj, toComplex_cadd, toComplex_csub, toComplex_cmul, toComplex_chalf,
    toComplex_cmuli, hi, hj, Complex.conj_conj, heven, hodd, and_self]

variable {m k : Nat} {x : Nat → ℝ} {z : Nat → ℂ}

/-- A mixing pass leaves the samples `z`, if its index 0 and both elements of each pair are those of `z`. -/
theorem toComplex_mixedAt {zero : Cx ℝ} {pair : Nat → Cx ℝ × Cx ℝ} (hzero : toComplex zero = z 0)
    (hpair : ∀ i, 1 ≤ i → i < m → toComplex (pair i).1 = z i ∧ toComplex (pair i).2 = z (m - i)) (hk : k < m) :
    toComplex (mixedAt m zero pair k) = z k := by
  rcases Nat.eq_zero_or_pos k with rfl | hpos
  · rw [mixedAt_zero, hzero]
  rcases Nat.lt_or_ge (m / 2) k with hlt | hle
  · have hsub : m - (m - k) = k := Nat.sub_sub_self hk.le
    have hsecond := mixedAt_second (zero := zero) (pair := pair) (h := m) (i := m - k) (by omega) (by omega)
    rw [hsub] at hsecond
    rw [hsecond, (hpair (m - k) (by omega) (by omega)).2, hsub]
  · rw [mixedAt_first hpos hle, (hpair k hpos hk).1]

/-- What the mixing pass of a direction over the reals makes of the samples `c` (44_real_transform R233 to R236). -/
noncomputable def exactMix (dir : Dir) (m : Nat) (c : Nat → ℂ) (k : Nat) : ℂ :=
  toComplex (mixedAt m (mixedZero exactScalar dir (ofComplex (c 0))) (mixedPair exactNum dir m fun k => ofComplex (c k)) k)

/-- 44_real_transform R233: the forward pass turns the DFT of the packed sequence into the packed spectrum. -/
theorem exactMix_forward (hk : k < m) :
    exactMix .forward m (dft .forward m (packedReals x)) k = packedSpectrum (2 * m) x k := by
  have hm : m ≠ 0 := by omega
  refine toComplex_mixedAt ?_ (fun i hi hlt => ?_) hk
  · obtain ⟨a, b, hsum, hspec⟩ := packed_zero hm x
    rw [hsum, hspec]
    rfl
  · rw [packedSpectrum_of_ne_zero (by omega), packedSpectrum_of_ne_zero (by omega), dft_real, dft_real_sub hm hlt.le,
      ← toComplex_exactCis_two_mul]
    exact mixedForward_exact dft_packedReals (dft_packedReals_sub hm hlt.le)

/-- 44_real_transform R234: the inverse pass turns the packed spectrum into the DFT of the packed sequence. -/
theorem exactMix_inverse (hk : k < m) :
    exactMix .inverse m (packedSpectrum (2 * m) x) k = dft .forward m (packedReals x) k := by
  have hm : m ≠ 0 := by omega
  refine toComplex_mixedAt ?_ (fun i hi hlt => ?_) hk
  · obtain ⟨a, b, hsum, hspec⟩ := packed_zero hm x
    rw [hsum, hspec]
    apply Complex.ext <;> simp [toComplex, mixedZero, ofComplex, exactScalar] <;> ring
  · rw [dft_packedReals, dft_packedReals_sub hm hlt.le]
    refine mixedInverse_exact (v := rootPow .forward (2 * m) i) ?_ ?_ ?_
    · exact (toComplex_exactCis_two_mul (dir := .inverse) m i).symm ▸ rootPow_forward_mul_inverse i
    · rw [toComplex_ofComplex, packedSpectrum_of_ne_zero (by omega), dft_real]
    · rw [toComplex_ofComplex, packedSpectrum_of_ne_zero (by omega), dft_real_sub hm hlt.le]

end Mixing

section Hermitian

variable {dir : Dir} {n m k : Nat} {x : Nat → ℝ} {y Y : Nat → ℂ}

/-- The spectrum of `2m` reals that the packed spectrum `y` stands for (44_real_transform R231). -/
noncomputable def hermitian (m : Nat) (y : Nat → ℂ) (k : Nat) : ℂ :=
  if k = 0 then (y 0).re else if k < m then y k else if k = m then (y 0).im else conj (y (2 * m - k))

theorem hermitian_sub (hk : 1 ≤ k) (hlt : k < 2 * m) : hermitian m y (2 * m - k) = conj (hermitian m y k) := by
  unfold hermitian
  rcases Nat.lt_trichotomy k m with hlow | rfl | hhigh
  · rw [if_neg (by omega), if_neg (by omega), if_neg (by omega), if_neg (by omega), if_pos hlow, Nat.sub_sub_self (by omega)]
  · rw [if_neg (by omega), if_neg (by omega), if_pos (by omega), if_neg (by omega), if_neg (by omega), if_pos rfl,
      Complex.conj_ofReal]
  · rw [if_neg (by omega), if_pos (by omega), if_neg (by omega), if_neg (by omega), if_neg (by omega), Complex.conj_conj]

/-- 44_real_transform R231, R245: the DFT of reals is the spectrum that their packed spectrum stands for. -/
theorem dft_eq_hermitian (hm : m ≠ 0) (h : ∀ k, k < m → packedSpectrum (2 * m) x k = y k) (hk : k < 2 * m) :
    dft .forward (2 * m) (fun j => (x j : ℂ)) k = hermitian m y k := by
  have hconj : ∀ k, k ≤ 2 * m → conj (dft .forward (2 * m) (fun j => (x j : ℂ)) k) =
      dft .forward (2 * m) (fun j => (x j : ℂ)) (2 * m - k) := fun k hk => conj_dftSum_real (by omega) hk x
  have hlow : ∀ k, 1 ≤ k → k < m → dft .forward (2 * m) (fun j => (x j : ℂ)) k = y k := fun k hpos hlt =>
    (packedSpectrum_of_ne_zero (by omega)).symm.trans (h k hlt)
  have hends := h 0 (by omega)
  rw [packedSpectrum_zero] at hends
  obtain ⟨hzero, hmid⟩ := Complex.ext_iff.1 hends
  rcases Nat.eq_zero_or_pos k with rfl | hpos
  · rw [hermitian, if_pos rfl, ← hzero, dft, dftSum_real_zero, Complex.ofReal_re]
  rw [hermitian, if_neg (by omega)]
  rcases Nat.lt_trichotomy k m with hlt | rfl | hgt
  · rw [if_pos hlt, hlow k hpos hlt]
  · rw [if_neg (by omega), if_pos rfl, ← hmid]
    refine (Complex.conj_eq_iff_re.1 ((hconj k (by omega)).trans ?_)).symm
    rw [Nat.two_mul, Nat.add_sub_cancel]
  · rw [if_neg (by omega), if_neg (by omega), ← hlow _ (by omega) (by omega), hconj _ (by omega), Nat.sub_sub_self (by omega)]

/-- 44_real_transform R231: reals whose DFT is the spectrum that `y` stands for have the packed spectrum `y`. -/
theorem packedSpectrum_of_dft (h : ∀ k, k < 2 * m → dft .forward (2 * m) (fun j => (x j : ℂ)) k = hermitian m y k)
    (hk : k < m) : packedSpectrum (2 * m) x k = y k := by
  rcases Nat.eq_zero_or_pos k with rfl | hpos
  · rw [packedSpectrum_zero, h 0 (by omega), h m (by omega), hermitian, if_pos rfl, hermitian, if_neg (by omega),
      if_neg (by omega), if_pos rfl]
    rfl
  · rw [packedSpectrum_of_ne_zero (by omega), h k (by omega), hermitian, if_neg (by omega), if_pos hk]

/-- 44_real_transform R242: the DFT of a Hermitian spectrum is real. -/
theorem conj_dftSum_hermitian [NeZero n] (hzero : conj (Y 0) = Y 0)
    (hsub : ∀ k, 1 ≤ k → k < n → Y (n - k) = conj (Y k)) (j : Nat) : conj (dftSum dir n Y j) = dftSum dir n Y j := by
  have hneg : ∀ k : ZMod n, conj (Y k.val) = Y (-k).val := fun k => by
    rw [ZMod.neg_val]
    split
    case isTrue h => rw [h, ZMod.val_zero, hzero]
    case isFalse h => exact (hsub _ (Nat.pos_of_ne_zero (mt (ZMod.val_eq_zero k).1 h)) (ZMod.val_lt k)).symm
  rw [dftSum_eq_sum_zmod, map_sum, ← Equiv.sum_comp (Equiv.neg (ZMod n))]
  refine Finset.sum_congr rfl fun k _ => ?_
  rw [map_mul, ← AddChar.map_neg_eq_conj, hneg, Equiv.neg_apply, neg_neg, neg_mul, mul_neg, neg_neg]

/-- 00_scope R14: the forward DFT inverts the inverse DFT. -/
theorem dft_forward_dft_inverse (hk : k < n) : dft .forward n (dft .inverse n Y) k = Y k := by
  have : NeZero n := ⟨by omega⟩
  have hinverse : (fun j : ZMod n => dft .inverse n Y j.val) = ZMod.dft.symm fun j => Y j.val := by
    ext j
    rw [dft_inverse_eq_invDFT, ZMod.natCast_zmod_val]
  rw [dft, dftSum_forward_eq_dft, hinverse, LinearEquiv.apply_symm_apply, ZMod.val_natCast_of_lt hk]

/-- The reals whose packed spectrum is `y` (44_real_transform R242). -/
noncomputable def unpackedReals (m : Nat) (y : Nat → ℂ) (j : Nat) : ℝ := (dft .inverse (2 * m) (hermitian m y) j).re

theorem ofReal_unpackedReals (hm : m ≠ 0) (y : Nat → ℂ) :
    (fun j => (unpackedReals m y j : ℂ)) = dft .inverse (2 * m) (hermitian m y) := by
  have : NeZero (2 * m) := ⟨by omega⟩
  funext j
  refine Complex.conj_eq_iff_re.1 ?_
  rw [dft, map_mul, conj_dftSum_hermitian (by simp [hermitian]) fun k => hermitian_sub]
  simp [Complex.conj_ofNat]

/-- 44_real_transform R242: every buffer is a packed spectrum. -/
theorem packedSpectrum_unpackedReals (hm : m ≠ 0) (hk : k < m) : packedSpectrum (2 * m) (unpackedReals m y) k = y k := by
  refine packedSpectrum_of_dft (fun k hk => ?_) hk
  rw [ofReal_unpackedReals hm, dft_forward_dft_inverse hk]

/-- 44_real_transform R242: no other reals have the packed spectrum `y`. -/
theorem eq_unpackedReals (hm : m ≠ 0) (h : ∀ k, k < m → packedSpectrum (2 * m) x k = y k) {j : Nat} (hj : j < 2 * m) :
    x j = unpackedReals m y j := by
  rw [unpackedReals, ← dft_congr fun k => dft_eq_hermitian hm h, dft_inverse_dft_forward hj, Complex.ofReal_re]

end Hermitian

section Buffers

variable {st : Store ℝ} {base m : Nat} {x : Nat → ℝ} {c y : Nat → ℂ}

theorem HoldsComplex.congr (h : HoldsComplex st base m c) (hcy : ∀ k, k < m → c k = y k) : HoldsComplex st base m y :=
  fun k hk => hcy k hk ▸ h k hk

/-- 44_real_transform R230: packing is the complex view of the same words. -/
theorem holdsReal_iff : HoldsReal st base (2 * m) x ↔ HoldsComplex st base m (packedReals x) := by
  simp only [holdsComplex_iff, sigCRead_ok_iff, ofComplex, packedReals]
  constructor
  · intro h k hk
    exact ⟨h (2 * k) (by omega), h (2 * k + 1) (by omega)⟩
  · intro h j hj
    obtain ⟨hre, him⟩ := h (j / 2) (by omega)
    rcases Nat.mod_two_eq_zero_or_one j with heven | hodd
    · rwa [show 2 * (j / 2) = j by omega] at hre
    · rwa [Nat.add_assoc, show 2 * (j / 2) + 1 = j by omega] at him

/-- 44_real_transform R233 to R236. -/
theorem rmixBody_exact (dir : Dir) (hm : 1 ≤ m) (hc : HoldsComplex st base m c) :
    ∃ st', rmixBody exactNum (2 * m) base dir st = .ok st' ∧ HoldsComplex st' base m (exactMix dir m c) := by
  have hhalf : 2 * m / 2 = m := Nat.mul_div_cancel_left m two_pos
  obtain ⟨st', h, -, hread⟩ := rmixBody_spec exactNum (n := 2 * m) dir (by omega) (hhalf.symm ▸ holdsComplex_iff.1 hc)
  rw [hhalf] at hread
  exact ⟨st', h, fun k hk => ⟨_, hread k hk, rfl⟩⟩

/-- 44_real_transform R241. -/
theorem rfftBody_forward_exact (hm : 1 ≤ m) (hx : HoldsReal st base (2 * m) x) :
    ∃ st', rfftBody exactNum (2 * m) base .forward st = .ok st' ∧ HoldsComplex st' base m (packedSpectrum (2 * m) x) := by
  obtain ⟨st₁, hczt, hdft⟩ := cztBody_exact .forward hm (holdsComplex_clearWs.2 (holdsReal_iff.1 hx))
  obtain ⟨st₂, hmix, hspectrum⟩ := rmixBody_exact .forward hm hdft
  refine ⟨clearWs st₂, rfftBody_of_passes (except_bind_ok.2 ⟨st₁, ?_, hmix⟩), ?_⟩
  · rwa [Nat.mul_div_cancel_left m two_pos]
  · exact holdsComplex_clearWs.2 (hspectrum.congr fun k hk => exactMix_forward hk)

/-- 44_real_transform R242. -/
theorem rfftBody_inverse_exact (hm : 1 ≤ m) (hy : HoldsComplex st base m (packedSpectrum (2 * m) x)) :
    ∃ st', rfftBody exactNum (2 * m) base .inverse st = .ok st' ∧ HoldsReal st' base (2 * m) x := by
  obtain ⟨st₁, hmix, hpacked⟩ := rmixBody_exact .inverse hm (holdsComplex_clearWs.2 hy)
  obtain ⟨st₂, hczt, hdft⟩ := cztBody_exact .inverse hm (hpacked.congr fun k hk => exactMix_inverse hk)
  refine ⟨clearWs st₂, rfftBody_of_passes (except_bind_ok.2 ⟨st₁, hmix, ?_⟩), ?_⟩
  · rwa [Nat.mul_div_cancel_left m two_pos]
  · exact holdsReal_iff.2 (holdsComplex_clearWs.2 (hdft.congr fun k hk => dft_inverse_dft_forward hk))

end Buffers

end Sys2Proof.Machine

open Sys2Proof.Machine

/-- Settles O59: CZT computes the DFT of the packed sequence, which the forward pass turns into the packed spectrum. -/
theorem exactRfftForward : Obligations.ExactRfftForward := by
  intro n base st x heven hn hx
  obtain ⟨m, rfl⟩ := Nat.dvd_of_mod_eq_zero heven
  rw [Nat.mul_div_cancel_left m two_pos]
  exact rfftBody_forward_exact (by omega) hx

/-- Settles O60: the inverse pass gives the DFT of the packed sequence, which CZT inverts; and the reals of a packed spectrum are
the inverse DFT of the Hermitian spectrum that it stands for. -/
theorem exactRfftInverse : Obligations.ExactRfftInverse := by
  intro n heven hn
  obtain ⟨m, rfl⟩ := Nat.dvd_of_mod_eq_zero heven
  have hm : 1 ≤ m := by omega
  simp only [Nat.mul_div_cancel_left m two_pos]
  refine ⟨fun base st x => rfftBody_inverse_exact hm, fun y => ⟨unpackedReals m y, ?_, ?_⟩, fun base st x hx => ?_⟩
  · exact fun k hk => packedSpectrum_unpackedReals (by omega) hk
  · exact fun x' h j hj => eq_unpackedReals (by omega) h hj
  · obtain ⟨st₁, hforward, hspectrum⟩ := rfftBody_forward_exact hm hx
    obtain ⟨st₂, hinverse, hreals⟩ := rfftBody_inverse_exact hm hspectrum
    exact ⟨st₁, st₂, hforward, hinverse, hreals⟩
end

section
/-!
PROOFS. How a command ends (60_exceptions R262, R263): with success, or with an error that leaves everything but STATUS and, for a
failed allocation, the model's count of draws.
-/

namespace Sys2Proof.Machine

variable {i : Instr} {s t : State}

/-- A failed allocation differs from any other error only in the model's count of draws. -/
theorem raise_drawAlloc (s : State) (e : Err) : s.drawAlloc.raise e = { s.raise e with draws := s.drawAlloc.draws } :=
  congrArg (State.raise · e) s.drawAlloc_eq

/-- 60_exceptions R262, R263: a command completes with ERR = NONE and ERR_INFO 0, or raises an error. -/
theorem exec_succeeds_or_raises (h : exec i s = .next t) :
    (t.err = 0 ∧ t.errInfo = 0) ∨ ∃ e d, t = { s.raise e with draws := d } := by
  cases exec_next h with
  | error e => exact .inr ⟨e, s.draws, rfl⟩
  | outOfMemory len => exact .inr ⟨_, _, raise_drawAlloc s _⟩
  | alu | memory | free | allocated | driver => exact .inl ⟨rfl, rfl⟩

/-- 10_state R29: a command that ends with ERR = NONE leaves ERR_INFO 0. -/
theorem exec_errInfo (h : exec i s = .next t) (hnone : t.err = 0) : t.errInfo = 0 := by
  rcases exec_succeeds_or_raises h with ⟨-, hinfo⟩ | ⟨e, d, rfl⟩
  · exact hinfo
  · exact absurd hnone e.code.code_ne_zero

/-- 60_exceptions R263: a command that ends with an error leaves everything but STATUS and the model's count of draws. -/
theorem exec_error_frame (h : exec i s = .next t) (herr : t.err ≠ 0) :
    t = { s with running := none, done := true, err := t.err, errInfo := t.errInfo, draws := t.draws } := by
  rcases exec_succeeds_or_raises h with ⟨hnone, -⟩ | ⟨e, d, rfl⟩
  · exact absurd hnone herr
  · rfl

/-- A command draws only for an allocation whose outcome is free (43_driver_workspace R201). -/
theorem exec_draws (h : exec i s = .next t) (hdet : s.cfg.allocNondet = false) : t.draws = s.draws := by
  have halloc := drawAlloc_draws_of_deterministic hdet
  cases exec_next h with
  | error | alu | memory | free => rfl
  | outOfMemory | allocated | driver => exact halloc

end Sys2Proof.Machine

open Sys2Proof.Machine

/-- Settles O22: a command completes or raises (`exec_succeeds_or_raises`), and draws only for an allocation. -/
theorem errorsChangeOnlyStatus : Obligations.ErrorsChangeOnlyStatus := by
  intro i s t h
  obtain ⟨hrunning, hdone, hoverrun⟩ := exec_ends h
  exact ⟨hrunning, hdone, hoverrun, exec_errInfo h, exec_error_frame h, exec_draws h⟩
end

section
/-!
PROOFS. The reset (70_reset R290, R291): it keeps the parameters and every signal word outside the buffer of a running command,
and its definition gives every register the value of `State.reset`.
-/

namespace Sys2Proof.Machine

variable {s : State} {w : Nat}

/-- 70_reset R291: the reset fills only words of the running command's buffer (`lostWords_buffer`). -/
theorem cellGet_sig_applyReset (h : ¬ s.IsRunningWord w) : cellGet s.applyReset.mem.sig w = cellGet s.mem.sig w :=
  cellGet_freeFill fun hlost => h (lostWords_buffer hlost)

/-- Without a running command no signal word is in a running command's buffer. -/
theorem not_isRunningWord_of_idle (hidle : s.running = none) : ¬ s.IsRunningWord w := by
  simp [State.IsRunningWord, State.runningBuffer, hidle]

/-- The buffer of the running command is the one its command word names. -/
theorem isRunningWord_iff_of_running {v : Word32} (hrunning : s.running = some v) :
    s.IsRunningWord w ↔ ∃ b, s.bufferOf v = some b ∧ b.1 ≤ w ∧ w < b.2 := by
  simp [State.IsRunningWord, State.runningBuffer, hrunning]

end Sys2Proof.Machine

open Sys2Proof.Machine

/-- Settles O17: the registers are those of `State.reset`, and of SIG the reset fills only words of the command's buffer
(`cellGet_sig_applyReset`). -/
theorem resetDuringCommand : Obligations.ResetDuringCommand := by
  intro s v rest hrunning hin
  let u : State := { s with inputs := rest }
  have hsig : ∀ w, (∀ b, s.bufferOf v = some b → ¬ (b.1 ≤ w ∧ w < b.2)) →
      cellGet u.applyReset.mem.sig w = cellGet s.mem.sig w :=
    fun w hout => cellGet_sig_applyReset (s := u) fun hw => by
      obtain ⟨b, hb, hmem⟩ := (isRunningWord_iff_of_running (s := u) hrunning).1 hw
      exact hout b hb hmem
  exact ⟨u.applyReset, step_reset hin, rfl, applyReset_statusWord u, rfl, rfl, rfl, rfl, rfl, rfl, rfl, rfl, rfl, rfl, rfl, rfl,
    rfl, rfl, rfl, rfl, hsig⟩

/-- Settles O16: the registers are those of `State.reset`, without a workspace the geometry reads 0
(`readReg_geometry_of_free`), and no word of SIG is in the buffer of a running command
(`not_isRunningWord_of_idle`), so all are kept. -/
theorem resetValues : Obligations.ResetValues := by
  refine ⟨fun s rest hidle hin => ?_, by decide, rfl, rfl, fun _ => rfl⟩
  let u : State := { s with inputs := rest }
  have hstatus : u.applyReset.readReg .status = .ok 0 := congrArg Except.ok (applyReset_statusWord u)
  have hsig : ∀ w, cellGet u.applyReset.mem.sig w = cellGet s.mem.sig w :=
    fun _ => cellGet_sig_applyReset (not_isRunningWord_of_idle (s := u) hidle)
  exact ⟨u.applyReset, step_reset hin, rfl, hstatus, rfl, rfl, rfl, rfl, rfl, rfl, rfl, rfl, rfl, rfl, rfl, rfl,
    readReg_geometry_of_free rfl, rfl, rfl, fun _ => ⟨rfl, rfl⟩, rfl, hsig, rfl⟩
end
